-- ==== Sys2Proof/Word.lean ====
section
/-! DEFINITION. The word types of the KZ5410 (03 R33, R34; 06 R117). -/

namespace Sys2Proof

/-- One byte. -/
abbrev Byte := BitVec 8
/-- One 32-bit register word. -/
abbrev Word := BitVec 32
/-- A 64-bit value: a register pair, a program counter or an address. -/
abbrev Addr := BitVec 64
/-- One 96-bit instruction word (R33). -/
abbrev Code := BitVec 96

end Sys2Proof
end

