-- ==== Sys2Proof/Machine/Bits.lean ====
section
/-! DEFINITION. Bit fields, byte order and small list helpers used by the decoder and the machine (03 R33, 06 R117). -/

namespace Sys2Proof

/-- Bits `lo + len - 1 : lo` of a value, as a number. -/
def fieldN (x lo len : Nat) : Nat := (x >>> lo) % 2 ^ len

/-- One bit of a value. -/
def bitN (x i : Nat) : Bool := (x >>> i) % 2 == 1

/-- A truth value as 0 or 1. -/
def b01 (b : Bool) : Nat := if b then 1 else 0

/-- Bits `lo + len - 1 : lo` of a bit vector, as a bit vector. -/
def fieldB {n : Nat} (x : BitVec n) (lo len : Nat) : BitVec len := x.extractLsb' lo len

/-- The two's complement reading of the low `w` bits of `x`. -/
def signedN (w x : Nat) : Int :=
  let y := x % 2 ^ w
  if w = 0 then 0 else if y < 2 ^ (w - 1) then (y : Int) else (y : Int) - ((2 ^ w : Nat) : Int)

/-- The `w`-bit pattern congruent to `z` (R124, `wrap`). -/
def wrapN (w : Nat) (z : Int) : Nat := (z % ((2 ^ w : Nat) : Int)).toNat

/-- The low `n` bytes of a number, least significant first (R117). -/
def leBytes (n x : Nat) : List Byte := (List.range n).map fun i => BitVec.ofNat 8 (x >>> (8 * i))

/-- The number whose bytes, least significant first, are given (R117). -/
def ofLeBytes : List Byte → Nat
  | [] => 0
  | b :: bs => b.toNat + 256 * ofLeBytes bs

/-- The bits set in a number below `n`, in ascending order. -/
def setBits (n x : Nat) : List Nat := (List.range n).filter fun i => bitN x i

/-- The number whose bits below `n` are those for which `f` holds. -/
def maskOf (n : Nat) (f : Nat → Bool) : Nat :=
  ((List.range n).map fun i => if f i then 2 ^ i else 0).sum

/-- Round a size up to a multiple of `m`. -/
def alignUp (m x : Nat) : Nat := (x + m - 1) / m * m

/-- Ceiling division. -/
def ceilDiv (x m : Nat) : Nat := (x + m - 1) / m

/-- The first index below `n` at which `f` holds. -/
def firstIdx (n : Nat) (f : Nat → Bool) : Option Nat := (List.range n).find? f

/-- The byte-reversed companion of `BitVec`: the `w` low bits of `x` in reverse order (R172). -/
def revN (w x : Nat) : Nat := maskOf w fun i => bitN x (w - 1 - i)

/-- Insert an element before the first one its key does not exceed. -/
def insertBy {α : Type} (key : α → Nat) (x : α) : List α → List α
  | [] => [x]
  | y :: ys => if key x ≤ key y then x :: y :: ys else y :: insertBy key x ys

/-- Sort by a key, ascending; equal keys keep their order. -/
def sortBy {α : Type} (key : α → Nat) (xs : List α) : List α := xs.foldr (insertBy key) []

/-- Integer square root by bits: the largest `r < 2 ^ k` with `r * r ≤ n`. -/
def isqrtGo (n : Nat) : Nat → Nat → Nat
  | 0, r => r
  | k + 1, r => let r' := r + 2 ^ k; isqrtGo n k (if r' * r' ≤ n then r' else r)

/-- Integer square root (floor). -/
def isqrt (n : Nat) : Nat := isqrtGo n (n.log2 / 2 + 1) 0

end Sys2Proof
end

