-- ==== Sys2Proof/Syntax.lean ====
section
/-! DEFINITION. The syntax of the machine: operands, the fields of an instruction word, the MODW modifier, and one constructor for each row of spec/opcode_table.json (03 R34..R50). -/

namespace Sys2Proof

/-- The special registers of class 3 (R36). -/
inductive SpecReg where
  | lane | row | strand | nstrand | item | nitem | pitem | tlev | core
  | cluster | die | dev | ctx | clock | nstime | rstat | pforced | faultm
  deriving DecidableEq, Repr

/-- The five class-4 immediates (R35): IMM zero-extended, sign-extended, as FP32, as FP16, and the 64-bit value MODW.IMM : IMM. -/
inductive ImmIdx where
  | zext | sext | fp32 | fp16 | wide
  deriving DecidableEq, Repr

/-- An operand field (R35). The constructor is the class, the argument the index. -/
inductive Operand where
  | v (i : BitVec 8)
  | s (i : BitVec 9)
  | p (i : BitVec 3)
  | sr (r : SpecReg)
  | imm (k : ImmIdx)
  | a (i : BitVec 3)
  | c (i : BitVec 4)
  | tk (i : BitVec 3)
  | x (i : BitVec 9)
  deriving DecidableEq, Repr

/-- The guard of a word (R20): predicate `p`, negated when `neg`. -/
structure Guard where
  neg : Bool
  p : BitVec 3
  deriving DecidableEq, Repr

/-- The fields of a MODW word that carry meaning (R42). -/
structure Modw where
  k : BitVec 6
  rnd : BitVec 4
  sat : BitVec 4
  negc : Bool
  absc : Bool
  negb : Bool
  absb : Bool
  nega : Bool
  absa : Bool
  imm : BitVec 32
  deriving DecidableEq, Repr

/-- The fields of an instruction word (R34), with the MODW in front of it when the word is a unit (R43). -/
structure Ins where
  guard : Guard := ⟨false, 7⟩
  d : Operand := .v 0
  a : Operand := .v 0
  b : Operand := .v 0
  fn : BitVec 4 := 0
  ty : BitVec 4 := 0
  wait : BitVec 8 := 0
  la : Bool := false
  lb : Bool := false
  fe : Bool := false
  imm : BitVec 32 := 0
  modw : Option Modw := none
  deriving DecidableEq, Repr

/-- What a pre-emption request names (R330): one item, by its unique number, or every item of a context. -/
inductive PreemptTarget where
  | item (uid : Nat)
  | ctx (c : Nat)
  deriving DecidableEq, Repr

/-- Where a memory error is detected (R341). -/
inductive ErrorSite where
  | vreg (sid reg : Nat)
  | sreg (uid reg : Nat)
  | slot (uid prank slot word : Nat)
  | sidecar (uid prank slot word : Nat)
  | acc (uid prank acc elem : Nat)
  | mem (pa : Nat)
  /-- the tile-table entry of a slot, a word of a line in a core's L1 -/
  | tileTable (uid prank slot : Nat)
  | l1 (core loc line word : Nat)
  /-- the completion of a pending access to peer or host memory arrives poisoned -/
  | foreign (id : Nat)
  deriving DecidableEq, Repr

/-- Whose page fault firmware declines to resolve (R255, R277, R284, R325): that of a strand waiting at its word, of an operand-log entry, of a tile-view operation, or of a copy. -/
inductive DeclineTarget where
  | word (sid : Nat)
  | entry (sid id : Nat)
  | tile (id : Nat)
  | copy (id : Nat)
  deriving DecidableEq, Repr

/-- The rows of spec/opcode_table.json. The rows that a word encodes carry the word's fields; the rows of events carry what the event names: `sid` a strand, `id` a pending access, operation or command, `uid` an item, `call` a remote call, `q` a queue. -/
inductive Instr where
  /-- BRA (R88). -/
  | bra (w : Ins)
  /-- BRX (R88). -/
  | brx (w : Ins)
  /-- CALL (R88). -/
  | call (w : Ins)
  /-- CALLX (R88). -/
  | callx (w : Ins)
  /-- RET (R89). -/
  | ret (w : Ins)
  /-- EXIT (R91). -/
  | exit (w : Ins)
  /-- NOP (R92). -/
  | nop (w : Ins)
  /-- YIELD (R93). -/
  | yield (w : Ins)
  /-- SLEEP (R94). -/
  | sleep (w : Ins)
  /-- DBNZ (R90). -/
  | dbnz (w : Ins)
  /-- JOIN (R95). -/
  | join (w : Ins)
  /-- LEAVE (R95). -/
  | leave (w : Ins)
  /-- CNEW (R96). -/
  | cnew (w : Ins)
  /-- CFREE (R97). -/
  | cfree (w : Ins)
  /-- SIGN (R98). -/
  | sign (w : Ins)
  /-- SIGN_W (R98). -/
  | signW (w : Ins)
  /-- CWAIT (R99). -/
  | cwait (w : Ins)
  /-- SHFL (R101). -/
  | shfl (w : Ins)
  /-- CRED (R102). -/
  | cred (w : Ins)
  /-- VOTE_ALL (R103). -/
  | voteAll (w : Ins)
  /-- VOTE_ANY (R103). -/
  | voteAny (w : Ins)
  /-- VOTE_COUNT (R103). -/
  | voteCount (w : Ins)
  /-- VOTE_ROWMASK (R103). -/
  | voteRowmask (w : Ins)
  /-- FREEZE (R104). -/
  | freeze (w : Ins)
  /-- FREEZE_COMPLETE (R69). -/
  | freezeComplete (uid : Nat)
  /-- LAUNCH (R106). -/
  | launch (w : Ins)
  /-- EVSIG (R107). -/
  | evsig (w : Ins)
  /-- EVWAIT (R108). -/
  | evwait (w : Ins)
  /-- EVWAIT_WAKE (R108). -/
  | evwaitWake (sid : Nat)
  /-- RCALL (R109). -/
  | rcall (w : Ins)
  /-- RRET (R111). -/
  | rret (w : Ins)
  /-- RJOIN (R112). -/
  | rjoin (w : Ins)
  /-- REMOTE_FRAME_START (R365). -/
  | remoteFrameStart (call : Nat)
  /-- FINISHING_STRAND_START (R367). -/
  | finishingStrandStart (call : Nat)
  /-- RCALL_REPLY (R110). -/
  | rcallReply (call : Nat)
  /-- RCALL_TIMEOUT (R83). -/
  | rcallTimeout (call : Nat)
  /-- IADD (R170). -/
  | iadd (w : Ins)
  /-- ISUB (R170). -/
  | isub (w : Ins)
  /-- IMUL (R170). -/
  | imul (w : Ins)
  /-- IMULH (R170). -/
  | imulh (w : Ins)
  /-- IMAD (R170). -/
  | imad (w : Ins)
  /-- IDIV (R129). -/
  | idiv (w : Ins)
  /-- IREM (R129). -/
  | irem (w : Ins)
  /-- IMIN (R170). -/
  | imin (w : Ins)
  /-- IMAX (R170). -/
  | imax (w : Ins)
  /-- AND (R170). -/
  | and (w : Ins)
  /-- OR (R170). -/
  | or (w : Ins)
  /-- XOR (R170). -/
  | xor (w : Ins)
  /-- ANDN (R170). -/
  | andn (w : Ins)
  /-- SHL (R171). -/
  | shl (w : Ins)
  /-- SHR (R171). -/
  | shr (w : Ins)
  /-- SAR (R171). -/
  | sar (w : Ins)
  /-- POPC (R172). -/
  | popc (w : Ins)
  /-- CLZ (R172). -/
  | clz (w : Ins)
  /-- BREV (R172). -/
  | brev (w : Ins)
  /-- BFX (R173). -/
  | bfx (w : Ins)
  /-- BFI (R173). -/
  | bfi (w : Ins)
  /-- ISET (R174). -/
  | iset (w : Ins)
  /-- SEL (R175). -/
  | sel (w : Ins)
  /-- LEA (R176). -/
  | lea (w : Ins)
  /-- MOV (R175). -/
  | mov (w : Ins)
  /-- PACK (R177). -/
  | pack (w : Ins)
  /-- UNPK (R177). -/
  | unpk (w : Ins)
  /-- CRC32C (R178). -/
  | crc32c (w : Ins)
  /-- FADD (R180). -/
  | fadd (w : Ins)
  /-- FSUB (R180). -/
  | fsub (w : Ins)
  /-- FMUL (R180). -/
  | fmul (w : Ins)
  /-- FFMA (R180). -/
  | ffma (w : Ins)
  /-- FMIN (R182). -/
  | fmin (w : Ins)
  /-- FMAX (R182). -/
  | fmax (w : Ins)
  /-- FSET (R183). -/
  | fset (w : Ins)
  /-- FDIV (R132). -/
  | fdiv (w : Ins)
  /-- FSQRT (R132). -/
  | fsqrt (w : Ins)
  /-- FRCP (R131). -/
  | frcp (w : Ins)
  /-- FRSQ (R131). -/
  | frsq (w : Ins)
  /-- FEXP2 (R131). -/
  | fexp2 (w : Ins)
  /-- FLOG2 (R131). -/
  | flog2 (w : Ins)
  /-- FTANH (R131). -/
  | ftanh (w : Ins)
  /-- FRND (R184). -/
  | frnd (w : Ins)
  /-- FCLS (R185). -/
  | fcls (w : Ins)
  /-- FCLS_TEST (R185). -/
  | fclsTest (w : Ins)
  /-- HADD2 (R186). -/
  | hadd2 (w : Ins)
  /-- HMUL2 (R186). -/
  | hmul2 (w : Ins)
  /-- HFMA2 (R186). -/
  | hfma2 (w : Ins)
  /-- FCVT (R187). -/
  | fcvt (w : Ins)
  /-- FDOT (R188). -/
  | fdot (w : Ins)
  /-- FLDX (R189). -/
  | fldx (w : Ins)
  /-- SRD (R191). -/
  | srd (w : Ins)
  /-- PLOG (R192). -/
  | plog (w : Ins)
  /-- PMOV_NZ (R193). -/
  | pmovNz (w : Ins)
  /-- PMOV_VAL (R193). -/
  | pmovVal (w : Ins)
  /-- PMOV_SAVE (R193). -/
  | pmovSave (w : Ins)
  /-- PMOV_LOAD (R193). -/
  | pmovLoad (w : Ins)
  /-- SHAPE (R194). -/
  | shape (w : Ins)
  /-- GEN (R195). -/
  | gen (w : Ins)
  /-- FEMK_TEST (R196). -/
  | femkTest (w : Ins)
  /-- FEMK_MASK (R196). -/
  | femkMask (w : Ins)
  /-- LONG_LATENCY_COMPLETE (R165). -/
  | longLatencyComplete (id : Nat)
  /-- STORAGE_RETRY (R67). -/
  | storageRetry (sid : Nat)
  /-- STORAGE_EVICT (R68). -/
  | storageEvict (core : Nat)
  /-- MMA (R203). -/
  | mma (w : Ins)
  /-- MMAS (R203). -/
  | mmas (w : Ins)
  /-- MMAG (R204). -/
  | mmag (w : Ins)
  /-- MATRIX_OP_FINISH (R198). -/
  | matrixOpFinish (uid prank : Nat)
  /-- ACLR (R206). -/
  | aclr (w : Ins)
  /-- ACLR_ALL (R206). -/
  | aclrAll (w : Ins)
  /-- AST (R207). -/
  | ast (w : Ins)
  /-- ALD (R207). -/
  | ald (w : Ins)
  /-- AGET (R208). -/
  | aget (w : Ins)
  /-- MWAIT (R209). -/
  | mwait (w : Ins)
  /-- QNT (R210). -/
  | qnt (w : Ins)
  /-- QNT_COL (R210). -/
  | qntCol (w : Ins)
  /-- BPK (R211). -/
  | bpk (w : Ins)
  /-- BUNP (R211). -/
  | bunp (w : Ins)
  /-- SCW (R212). -/
  | scw (w : Ins)
  /-- SCR (R212). -/
  | scr (w : Ins)
  /-- MSTAT (R213). -/
  | mstat (w : Ins)
  /-- MSTAT_CLR (R213). -/
  | mstatClr (w : Ins)
  /-- TSCL (R215). -/
  | tscl (w : Ins)
  /-- TOFS (R215). -/
  | tofs (w : Ins)
  /-- TCLP (R215). -/
  | tclp (w : Ins)
  /-- TCLP_IMM (R215). -/
  | tclpImm (w : Ins)
  /-- TFIL (R215). -/
  | tfil (w : Ins)
  /-- TMAP (R215). -/
  | tmap (w : Ins)
  /-- TORD (R217). -/
  | tord (w : Ins)
  /-- TMAT (R218). -/
  | tmat (w : Ins)
  /-- TMAT_ALL (R218). -/
  | tmatAll (w : Ins)
  /-- THDR (R219). -/
  | thdr (w : Ins)
  /-- TLDE (R220). -/
  | tlde (w : Ins)
  /-- TSTE (R221). -/
  | tste (w : Ins)
  /-- TILE_VIEW_OP (R159). -/
  | tileViewOp (id : Nat)
  /-- LD (R258). -/
  | ld (w : Ins)
  /-- ST (R258). -/
  | st (w : Ins)
  /-- LDS (R260). -/
  | lds (w : Ins)
  /-- STS (R260). -/
  | sts (w : Ins)
  /-- LDLK (R261). -/
  | ldlk (w : Ins)
  /-- STUL (R261). -/
  | stul (w : Ins)
  /-- UNLK (R261). -/
  | unlk (w : Ins)
  /-- AADD (R263). -/
  | aadd (w : Ins)
  /-- AMIN (R263). -/
  | amin (w : Ins)
  /-- AMAX (R263). -/
  | amax (w : Ins)
  /-- AAND (R263). -/
  | aand (w : Ins)
  /-- AOR (R263). -/
  | aor (w : Ins)
  /-- AXOR (R263). -/
  | axor (w : Ins)
  /-- AXCH (R263). -/
  | axch (w : Ins)
  /-- ACAS (R263). -/
  | acas (w : Ins)
  /-- AFADD (R263). -/
  | afadd (w : Ins)
  /-- ATOMIC_EXECUTE (R240). -/
  | atomicExecute (id : Nat) (merge : Option Nat)
  /-- LOAD_COMPLETE (R259). -/
  | loadComplete (id : Nat)
  /-- STORE_PERFORM (R369). -/
  | storePerform (id : Nat)
  /-- FENCE_ACQ (R265). -/
  | fenceAcq (w : Ins)
  /-- FENCE_REL (R265). -/
  | fenceRel (w : Ins)
  /-- FENCE_AR (R265). -/
  | fenceAr (w : Ins)
  /-- WAITA (R266). -/
  | waita (w : Ins)
  /-- WATCH_WAKE (R266). -/
  | watchWake (sid : Nat)
  /-- WAITA_TIMEOUT (R266). -/
  | waitaTimeout (sid : Nat)
  /-- WAITA_SPURIOUS (R266). -/
  | waitaSpurious (sid : Nat)
  /-- WAKE (R267). -/
  | wake (w : Ins)
  /-- TAGLD (R268). -/
  | tagld (w : Ins)
  /-- TAGST (R268). -/
  | tagst (w : Ins)
  /-- CPY (R271). -/
  | cpy (w : Ins)
  /-- COPY_CHUNK_WRITE (R284). -/
  | copyChunkWrite (id : Nat)
  /-- COPY_FAULT_RESUME (R284). -/
  | copyFaultResume (id : Nat)
  /-- MCAST (R272). -/
  | mcast (w : Ins)
  /-- MCAST_SAME (R272). -/
  | mcastSame (w : Ins)
  /-- MCAST_DELIVERY (R272). -/
  | mcastDelivery (id rank : Nat)
  /-- TKTST (R269). -/
  | tktst (w : Ins)
  /-- XARM (R273). -/
  | xarm (w : Ins)
  /-- XSTAT_TOKEN (R274). -/
  | xstatToken (w : Ins)
  /-- XSTAT_SLOT (R275). -/
  | xstatSlot (w : Ins)
  /-- XFREE (R276). -/
  | xfree (w : Ins)
  /-- REDC (R277). -/
  | redc (w : Ins)
  /-- GRINDER_BLOCK_START (R287). -/
  | grinderBlockStart (stack : Nat)
  /-- COMPUTE_SLICE_END (R289). -/
  | computeSliceEnd (stack upto : Nat)
  /-- ACTIVATION_ALERT (R290). -/
  | activationAlert (channel : Nat)
  /-- GRINDER_BLOCK_DONE (R252). -/
  | grinderBlockDone (stack : Nat)
  /-- NVSQ (R278). -/
  | nvsq (w : Ins)
  /-- NVME_COMPLETION (R278). -/
  | nvmeCompletion (q cid : Nat) (status : BitVec 15) (data : List (BitVec 8))
  /-- TRAP (R328). -/
  | trap (w : Ins)
  /-- BPT (R328). -/
  | bpt (w : Ins)
  /-- BPT_RESOLVE (R328). -/
  | bptResolve (sid : Nat) (resume : Bool)
  /-- SYSR (R317). -/
  | sysr (w : Ins)
  /-- SYSW (R317). -/
  | sysw (w : Ins)
  /-- CSAVE (R331). -/
  | csave (w : Ins)
  /-- CREST (R339). -/
  | crest (w : Ins)
  /-- PDONE (R331). -/
  | pdone (w : Ins)
  /-- ERET (R326). -/
  | eret (w : Ins)
  /-- ERET_SKIP (R326). -/
  | eretSkip (w : Ins)
  /-- REPLAY (R327). -/
  | replay (w : Ins)
  /-- REPLAY_DROP (R327). -/
  | replayDrop (w : Ins)
  /-- DEFERRED_TRAP_DELIVER (R325). -/
  | deferredTrapDeliver (sid : Nat)
  /-- LOG_ENTRY_REEXECUTE (R324). -/
  | logEntryReexecute (sid entry : Nat)
  /-- PAGE_DECLINE (R325). -/
  | pageDecline (what : DeclineTarget)
  /-- PREEMPT_REQUEST (R330). -/
  | preemptRequest (what : PreemptTarget)
  /-- PREEMPT_DEADLINE (R332). -/
  | preemptDeadline (uid : Nat)
  /-- CONTEXT_KILL (R344). -/
  | contextKill (ctx : Nat)
  /-- CLUSTER_RESET (R345). -/
  | clusterReset (cluster : Nat)
  /-- CLUSTER_RETURN (R345). -/
  | clusterReturn (cluster : Nat)
  /-- PEER_DOWN (R346). -/
  | peerDown (peer : Nat)
  /-- LINK_UP (R354). -/
  | linkUp (port peer : Nat)
  /-- RTIMEOUT (R347). -/
  | rtimeout (id : Nat)
  /-- TLB_INVALIDATE (R311). -/
  | tlbInvalidate (ctx : Nat) (range : Option (Nat × Nat))
  /-- MEMORY_ERROR (R341). -/
  | memoryError (site : ErrorSite) (corrected : Bool)
  /-- LAUNCH_PORT_WRITE (R55). -/
  | launchPortWrite (q off : Nat) (bytes : List (BitVec 8))
  /-- QUEUE_STATUS_WRITE (R56). -/
  | queueStatusWrite (q : Nat) (w : BitVec 32)
  /-- QUEUE_HEAD_CHECK (R54). -/
  | queueHeadCheck (q : Nat)
  /-- WAIT_SATISFIED (R58). -/
  | waitSatisfied (q : Nat)
  /-- PRIORITY_AGE (R73). -/
  | priorityAge (q : Nat)
  /-- LAUNCH_SELECT (R73). -/
  | launchSelect
  /-- ADMISSION_SWEEP (R74). -/
  | admissionSweep
  /-- REGROUP (R75). -/
  | regroup (core : Nat)
  /-- SLEEP_WAKE (R94). -/
  | sleepWake (sid : Nat)
  /-- HOST_BAR_WRITE (R247). -/
  | hostBarWrite (off : Nat) (bytes : List (BitVec 8))
  /-- HOST_BAR_READ (R350). -/
  | hostBarRead (off len : Nat)
  /-- DOORBELL_WRITE (R351). -/
  | doorbellWrite (n : Nat) (bytes : List (BitVec 8))
  /-- DOORBELL_READ (R351). -/
  | doorbellRead (n len : Nat)
  /-- REGISTER_WRITE (R350). -/
  | registerWrite (off : Nat) (bytes : List (BitVec 8))
  /-- PCIE_LINK_RESET (R352). -/
  | pcieLinkReset (port : Nat)
  /-- PALERT_ASSERT (R357). -/
  | palertAssert
  /-- NARROW_EXIT (R357). -/
  | narrowExit
  /-- THERMAL_LEVEL_CHANGE (R358). -/
  | thermalLevelChange (die : Nat) (celsius : Nat)
  /-- BOOT_ROM_START (R318). -/
  | bootRomStart
  /-- BOOT_FETCH_RETRY (R318). -/
  | bootFetchRetry
  /-- CLUSTER_RELEASE (R356). -/
  | clusterRelease
  /-- GET_VERSION (R320). -/
  | getVersion
  /-- GET_CAPABILITIES (R320). -/
  | getCapabilities
  /-- NEGOTIATE_ALGORITHMS (R320). -/
  | negotiateAlgorithms
  /-- GET_DIGESTS (R320). -/
  | getDigests
  /-- GET_CERTIFICATE (R320). -/
  | getCertificate
  /-- CHALLENGE (R320). -/
  | challenge (nonce : List (BitVec 8))
  /-- GET_MEASUREMENTS (R320). -/
  | getMeasurements
  /-- PAGE_SERVICE_COMPLETE (R305). -/
  | pageServiceComplete (pa : Nat) (entry : BitVec 64)
  /-- REFRESH_DUE (R289). -/
  | refreshDue (channel : Nat)
  /-- DEVICE_RESET (R343). -/
  | deviceReset (die : Option Nat)
  /-- POWER_LOSS (R253). -/
  | powerLoss
  /-- TWIGAN_LINK_DOWN (R354). -/
  | twiganLinkDown (port : Nat)
  /-- PCIE_LINK_STATE_CHANGE (R308). -/
  | pcieLinkStateChange (port : Nat) (up : Bool)
  /-- FIRMWARE_NARROW_HOLD (R357). -/
  | firmwareNarrowHold (hold : Bool)
  /-- NVME_QUEUE_ABORT (R274). -/
  | nvmeQueueAbort (q : Nat)
  deriving DecidableEq, Repr

end Sys2Proof
end

