-- ==== Sys2Proof/Machine/Encoding.lean ====
section
/-! DEFINITION. The fields of a raw word (03 R34), the encoding tables (05 R86, 08 R169, R179, R190, 09 R200, R214, 11 R256, R257, 13 R316, 14 R329) as data, the MODW sets of R50, and every cause a word fails with (03 R51). -/

namespace Sys2Proof

/-- The raw fields of a 96-bit word (R34). -/
structure Raw where
  op : BitVec 8
  guard : BitVec 4
  d : BitVec 11
  a : BitVec 11
  b : BitVec 11
  fn : BitVec 4
  ty : BitVec 4
  wait : BitVec 8
  la : BitVec 1
  lb : BitVec 1
  fe : BitVec 1
  imm : BitVec 32
  deriving DecidableEq, Repr

/-- The fields of a word, at the bit positions of R34. -/
def Raw.ofCode (w : Code) : Raw where
  op := w.extractLsb' 88 8
  guard := w.extractLsb' 84 4
  d := w.extractLsb' 73 11
  a := w.extractLsb' 62 11
  b := w.extractLsb' 51 11
  fn := w.extractLsb' 47 4
  ty := w.extractLsb' 43 4
  wait := w.extractLsb' 35 8
  la := w.extractLsb' 34 1
  lb := w.extractLsb' 33 1
  fe := w.extractLsb' 32 1
  imm := w.extractLsb' 0 32

/-- The word whose fields these are (R34). -/
def Raw.toCode (r : Raw) : Code :=
  r.op ++ r.guard ++ r.d ++ r.a ++ r.b ++ r.fn ++ r.ty ++ r.wait ++ r.la ++ r.lb ++ r.fe ++ r.imm

/-- What the class part of an operand field names, split as the encoding tables need it. -/
inductive Cls where
  | v | s | p | sr
  /-- class 4, index 0 or 1 -/
  | immI
  /-- class 4, index 2 or 3 -/
  | immF
  /-- class 4, index 4 -/
  | immW
  | a | c | tk | x
  deriving DecidableEq, Repr

/-- The class of an operand field, none when its index is reserved (R35). -/
def clsOf (f : Nat) : Option Cls :=
  let i := f % 256
  match f / 256 with
  | 0 => some .v
  | 1 | 2 => some .s
  | 3 => if i < 8 then some .p else if i < 26 then some .sr else none
  | 4 => if i < 2 then some .immI else if i < 4 then some .immF else if i = 4 then some .immW else none
  | 5 => if i < 8 then some .a else if i < 16 then none else if i < 32 then some .c else if i < 40 then some .tk else none
  | _ => some .x

/-- How many consecutive registers an operand names. -/
inductive Width where
  /-- always one -/
  | one
  /-- an even/odd pair (R38) -/
  | pair
  /-- a pair with TY I64 or N64, else one (R163) -/
  | byTy
  /-- a quad with FN 1 (.q), a pair with TY I64 or N64, else one (R257) -/
  | mem
  /-- a pair with TY FP16 or BF16, else one (R188) -/
  | dot
  /-- a pair when FN names I64 or N64 (R179, FCVT source) -/
  | byFn
  /-- a pair for CLOCK and NSTIME, named by A (R36, R190) -/
  | special
  /-- a pair for the 64-bit system registers, named by IMM (R315) -/
  | sysreg
  deriving DecidableEq, Repr

/-- What one operand position accepts. `unused` positions must hold 0x000; `opt` positions may hold 0x000 for 'none'. -/
structure Pos where
  cls : List Cls := []
  width : Width := .one
  unused : Bool := false
  opt : Bool := false
  deriving DecidableEq, Repr

/-- The uses of IMM. -/
inductive ImmUse where
  /-- must be zero -/
  | zero
  /-- the immediate when an operand is class 4, else zero -/
  | cls4
  /-- the immediate when an operand is class 4, else a signed byte offset (R254) -/
  | offImm
  /-- an offset, always (R45, R254) -/
  | taken
  /-- the third source in bits 10:0 (R39) -/
  | third
  /-- instruction-specific fields: bits outside the mask must be zero -/
  | fields (mask : Nat)
  deriving DecidableEq, Repr

/-- The MODW sets of R50. -/
inductive MSet where
  | none | w | s | sw | f | q | m | d
  deriving DecidableEq, Repr

/-- One row of the encoding tables, for one OP and, where forms differ, one FN. -/
structure Form where
  d : Pos := { unused := true }
  a : Pos := { unused := true }
  b : Pos := { unused := true }
  c : Pos := { unused := true }
  fns : List Nat := [0]
  tys : List Nat := [0]
  imm : ImmUse := .zero
  mset : MSet := .none
  deriving DecidableEq, Repr

/-- The kernel's limits the check depends on (R38): registers, slots, accumulators. -/
structure Limits where
  regs : Nat
  scratch : Nat
  accum : Nat
  deriving DecidableEq, Repr

/-- The widest limits a kernel header can give (R60). -/
def Limits.max : Limits := ⟨256, 512, 8⟩

/-- Positions by the abbreviations of R86, R163, R214 and R257. -/
def posR : Pos := { cls := [.v, .s] }
def posRT : Pos := { cls := [.v, .s], width := .byTy }
def posRI : Pos := { cls := [.v, .s, .immI, .immW], width := .byTy }
def posRI32 : Pos := { cls := [.v, .s, .immI] }
def posRIF : Pos := { cls := [.v, .s, .immI, .immF] }
def posV : Pos := { cls := [.v] }
def posPair : Pos := { cls := [.v, .s], width := .pair }
def posPT : Pos := { cls := [.p, .v, .s], width := .byTy }
def posP : Pos := { cls := [.p] }
def posA : Pos := { cls := [.a] }
def posX : Pos := { cls := [.x] }
def posC : Pos := { cls := [.c] }
def posTk : Pos := { cls := [.tk] }
def posNone : Pos := { unused := true }
/-- `ri; pair` of the memory group: a register, a pair for 64-bit types, or an immediate of index 0 or 1. -/
def posMI : Pos := { cls := [.v, .s, .immI], width := .byTy }

def intTys : List Nat := [0, 1, 2, 3, 4, 5, 6, 7]
def wideTys : List Nat := [0, 1, 2, 3]
def fpTys : List Nat := [8, 9, 10]

/-- The encoding tables: the row of a major opcode, and of its FN where the forms differ; none for a reserved opcode (R48). -/
def formOf (op fn ty : Nat) : Option Form :=
  match op with
  | 0x01 => some { imm := .taken }
  | 0x02 => some { a := posPair }
  | 0x03 => some { imm := .taken }
  | 0x04 => some { a := posPair }
  | 0x05 | 0x06 | 0x07 | 0x08 => some {}
  | 0x09 => some { a := posRI32, imm := .cls4 }
  | 0x0A => some { d := posR, imm := .taken }
  | 0x10 => some { a := posRI32, imm := .cls4 }
  | 0x11 => some {}
  | 0x12 => some { d := posR }
  | 0x13 => some { a := posRI32, imm := .cls4 }
  | 0x14 => some { a := posC, fns := [0, 1] }
  | 0x15 => some { a := posC }
  | 0x16 => some { d := posV, a := posV, b := posRI32, fns := [0, 1, 2, 3], imm := .cls4 }
  | 0x17 => some { d := posR, a := posV, fns := if ty = 8 then [0, 1, 2] else [0, 1, 2, 3, 4, 5], tys := [0, 1, 8] }
  | 0x18 => some { d := if fn < 2 then posP else posR, a := posP, fns := [0, 1, 2, 3] }
  | 0x19 => some { d := posV, a := { cls := [.s, .immI] }, b := posC, imm := .cls4 }
  | 0x1A => some { a := posPair, b := posRI32, imm := .cls4 }
  | 0x1B => some { a := posPair, b := posRI32, fns := [0, 1], imm := .cls4 }
  | 0x1C => some { a := posPair, b := { cls := [.v, .s, .immI], width := .pair }, imm := .cls4 }
  | 0x1D => some { d := posV, a := posPair, b := posV, imm := .fields 0xFFF }
  | 0x1E => some { a := posV }
  | 0x1F => some { a := posC }
  | 0x20 | 0x21 | 0x22 => some { d := posRT, a := posRI, b := posRI, tys := intTys, imm := .cls4, mset := .sw }
  | 0x23 => some { d := posRT, a := posRI, b := posRI, tys := wideTys, imm := .cls4, mset := .w }
  | 0x24 => some { d := posRT, a := posRT, b := posRT, c := posRT, tys := intTys, imm := .third, mset := .s }
  | 0x25 | 0x26 => some { d := { cls := [.v], width := .byTy }, a := posRI, b := posRI, tys := intTys, imm := .cls4, mset := .w }
  | 0x27 | 0x28 | 0x29 | 0x2A | 0x2B | 0x2C | 0x2D | 0x2E | 0x2F =>
    some { d := posRT, a := posRI, b := posRI, tys := intTys, imm := .cls4, mset := .w }
  | 0x30 | 0x31 => some { d := posR, a := { posRI with cls := [.v, .s, .immI] }, tys := intTys, imm := .cls4 }
  | 0x32 => some { d := posRT, a := { posRI with cls := [.v, .s, .immI] }, tys := intTys, imm := .cls4 }
  | 0x33 | 0x34 => some { d := posRT, a := { posRI with cls := [.v, .s, .immI] }, b := posRI32, tys := wideTys, imm := .cls4 }
  | 0x35 => some { d := posPT, a := posRI, b := posRI, fns := [0, 1, 2, 3, 4, 5], tys := intTys, imm := .cls4, mset := .w }
  | 0x36 => some { d := posRT, a := if ty = 8 then { posRI with cls := [.v, .s, .immI, .immF, .immW] } else posRI,
                   b := if ty = 8 then { posRI with cls := [.v, .s, .immI, .immF, .immW] } else posRI,
                   fns := [0, 1, 2, 3, 4, 5, 6, 7, 8, 9, 10, 11, 12, 13, 14], tys := [0, 1, 2, 3, 8], imm := .cls4, mset := .w }
  | 0x37 => some { d := posPair, a := posPair, b := posR, tys := [0, 1], imm := .fields 0x3F }
  | 0x38 => some { d := posRT, a := if ty = 8 then { posRI with cls := [.v, .s, .immI, .immF, .immW] } else posRI,
                   tys := [0, 1, 2, 3, 8], imm := .cls4, mset := .w }
  | 0x39 => some { d := posR, a := posRI32, b := posRI32, tys := [4, 5, 6, 7], imm := .cls4, mset := .s }
  | 0x3A => some { d := posR, a := posRI32, fns := [0, 1], tys := [4, 5, 6, 7], imm := .cls4 }
  | 0x3B => some { d := posR, a := posRI32, b := posRI32, tys := [1, 5, 7], imm := .cls4 }
  | 0x40 | 0x41 | 0x42 => some { d := posR, a := posRIF, b := posRIF, tys := fpTys, imm := .cls4, mset := .f }
  | 0x43 => some { d := posR, a := posR, b := posR, c := posR, tys := fpTys, imm := .third, mset := .f }
  | 0x44 | 0x45 => some { d := posR, a := posRIF, b := posRIF, tys := fpTys, imm := .cls4, mset := .m }
  | 0x46 => some { d := { cls := [.p, .v, .s] }, a := posRIF, b := posRIF, fns := [0, 1, 2, 3, 4, 5, 6, 7], tys := fpTys, imm := .cls4, mset := .m }
  | 0x47 => some { d := posV, a := posRIF, b := posRIF, tys := fpTys, imm := .cls4, mset := .f }
  | 0x48 => some { d := posV, a := posRIF, tys := fpTys, imm := .cls4, mset := .f }
  | 0x49 | 0x4A | 0x4B | 0x4C | 0x4D => some { d := posV, a := posRIF, tys := fpTys, imm := .cls4, mset := .q }
  | 0x4E => some { d := posR, a := posRIF, tys := fpTys, imm := .cls4, mset := .d }
  | 0x4F => if fn = 1 then some { d := posP, a := posR, fns := [0, 1], tys := [8, 9, 10, 11, 12], imm := .fields 0x1FF, mset := .m }
            else some { d := posR, a := posRIF, fns := [0, 1], tys := [8, 9, 10, 11, 12], imm := .cls4, mset := .m }
  | 0x50 | 0x51 => some { d := posR, a := posRIF, b := posRIF, tys := [9, 10], imm := .cls4, mset := .f }
  | 0x52 => some { d := posR, a := posR, b := posR, c := posR, tys := [9, 10], imm := .third, mset := .f }
  | 0x53 => some { d := posRT, a := { cls := if fn < 8 then [.v, .s, .immI] else [.v, .s, .immI, .immF], width := .byFn },
                   fns := if ty < 8 then [8, 9, 10, 11, 12] else if ty = 13 then [8, 9, 10, 11, 12, 13] else [0, 1, 2, 3, 4, 5, 6, 7, 8, 9, 10, 11, 12, 13],
                   tys := [0, 1, 2, 3, 4, 5, 6, 7, 8, 9, 10, 11, 12, 13], imm := .cls4, mset := .f }
  | 0x54 => some { d := posR,
                   a := if ty = 9 ∨ ty = 10 then { cls := [.v, .s], width := .dot } else posRIF,
                   b := if ty = 9 ∨ ty = 10 then { cls := [.v, .s], width := .dot } else posRIF,
                   fns := if ty = 11 ∨ ty = 12 then [0, 1] else [0], tys := [9, 10, 11, 12], imm := .cls4, mset := .q }
  | 0x55 => some { d := posR, a := posRIF, b := posRI32, tys := fpTys, imm := .cls4, mset := .f }
  | 0x60 => some { d := { cls := [.v, .s], width := .special }, a := { cls := [.sr] } }
  | 0x61 => some { d := posP, a := posP, b := posP, fns := [0, 1, 2, 3, 4, 5, 6, 7, 8, 9, 10, 11, 12, 13, 14, 15] }
  | 0x62 => match fn with
            | 1 => some { d := posR, a := posP, fns := [0, 1, 2, 3] }
            | 2 => some { d := posR, fns := [0, 1, 2, 3] }
            | 3 => some { a := posR, fns := [0, 1, 2, 3] }
            | _ => some { d := posP, a := posRI32, fns := [0, 1, 2, 3], imm := .cls4 }
  | 0x63 => some { d := posR, a := posV, fns := [0, 1, 2, 3] }
  | 0x64 => some { d := posV }
  | 0x65 => if fn = 1 then some { d := posR, a := posV, fns := [0, 1] } else some { d := posP, a := posR, fns := [0, 1] }
  | 0x70 | 0x71 => some { d := posA, a := posX, b := posX, fns := [0, 1, 2, 3], tys := [0, 1, 2, 3, 4, 5, 6, 7, 8, 9], imm := .fields 0x3FFFFF }
  | 0x72 => some { d := posA, a := posX, b := posX, fns := [0, 1, 2, 3], tys := [0, 1, 2, 3, 4, 5, 6, 7, 8, 9], imm := .fields 0xFFBFFFFF }
  | 0x73 => some { d := posA, fns := [0, 1], tys := [0, 8] }
  | 0x74 => some { d := posA, a := posPair, imm := .taken }
  | 0x75 => some { d := posA, a := posPair, tys := [0, 8], imm := .taken }
  | 0x76 => some { d := posV, a := posA, b := posRI32, imm := .cls4 }
  | 0x77 => some { a := posA }
  | 0x78 => some { d := posX, a := posA, fns := [0, 1], tys := [11, 12], imm := .fields 0x3C0 }
  | 0x79 => some { d := posX, a := posX, tys := [14], imm := .fields 0x3C0 }
  | 0x7A => some { d := posX, a := posX, tys := [6], imm := .fields 0x1FC0 }
  | 0x7B => some { d := posR, a := posX, b := posRI32, imm := .cls4 }
  | 0x7C => some { d := posR, a := posX, b := posRI32, imm := .cls4 }
  | 0x7D => some { d := posR, fns := [0, 1] }
  | 0x80 | 0x81 | 0x83 => some { a := posPair, b := { cls := [.v, .s, .immF] }, tys := [8], imm := .cls4 }
  | 0x82 => if fn = 1 then some { a := posPair, b := { cls := [.immF] }, fns := [0, 1], tys := [8], imm := .cls4 }
            else some { a := posPair, b := posR, c := posR, fns := [0, 1], tys := [8], imm := .third }
  | 0x84 => some { a := posPair, b := posR, tys := [8] }
  | 0x85 => some { a := posPair, b := posRI32, imm := .cls4 }
  | 0x86 => if fn = 1 then some { a := posPair, fns := [0, 1] } else some { a := posPair, b := posPair, fns := [0, 1] }
  | 0x87 => some { d := posV, a := posPair, b := posPair, fns := [0, 1, 2, 3, 4] }
  | 0x88 => some { d := posV, a := posPair, b := posPair, fns := [0, 1, 2], tys := [0, 1, 4, 5, 6, 7, 8, 9, 10, 11, 12], mset := .s }
  | 0x89 => some { d := posR, a := posPair, b := posR, c := posR, fns := [0, 1, 2], tys := [0, 1, 4, 5, 6, 7, 8, 9, 10, 11, 12], imm := .third }
  | 0x90 => some { d := { cls := [.v], width := .mem }, a := posPair, b := { cls := [.v], opt := true }, fns := [0, 1, 4, 5, 6, 7],
                   tys := if fn = 1 then [3] else [0, 1, 2, 3, 4, 5, 6, 7, 8, 9, 10, 11, 12, 13], imm := .taken }
  | 0x91 => some { d := { cls := [.v, .s, .immI], width := .mem }, a := posPair, b := { cls := [.v], opt := true }, fns := [0, 1, 8, 9, 10, 11],
                   tys := if fn = 1 then [3] else [0, 1, 2, 3, 4, 5, 6, 7, 8, 9, 10, 11, 12, 13], imm := .offImm }
  | 0x92 => some { d := { cls := [.v], width := .byTy }, a := posR, fns := [0, 4, 5], tys := [0, 1, 2, 3, 4, 5, 6, 7, 8, 9, 10, 11, 12, 13], imm := .taken }
  | 0x93 => some { d := posMI, a := posR, fns := [0, 8, 9], tys := [0, 1, 2, 3, 4, 5, 6, 7, 8, 9, 10, 11, 12, 13], imm := .offImm }
  | 0x94 => some { d := { cls := [.v], width := .byTy }, a := posR, tys := intTys, imm := .taken }
  | 0x95 => some { d := posMI, a := posR, tys := intTys, imm := .offImm }
  | 0x96 => some { a := posR, imm := .taken }
  | 0x97 | 0x98 | 0x99 | 0x9A | 0x9B | 0x9C =>
    some { d := { cls := [.v], width := .byTy, opt := true }, a := posPair, b := posMI, fns := [0, 4, 5, 6, 7, 8, 9, 10, 11, 12, 13, 14, 15], tys := wideTys, imm := .offImm }
  | 0x9D => some { d := { cls := [.v], width := .byTy, opt := true }, a := posPair, b := posMI, fns := [0, 4, 5, 6, 7, 8, 9, 10, 11, 12, 13, 14, 15], tys := [0, 1, 2, 3, 8], imm := .offImm }
  | 0x9E => some { d := { cls := [.v], width := .byTy }, a := posPair, b := posRT, c := posRT, fns := [0, 4, 5, 6, 7, 8, 9, 10, 11, 12, 13, 14, 15], tys := wideTys, imm := .third }
  | 0x9F => some { d := { cls := [.v], opt := true }, a := posPair, b := posRI32, fns := [0, 4, 5, 6, 7, 8, 9, 10, 11, 12, 13, 14, 15], tys := [8], imm := .offImm }
  | 0xA0 => some { fns := [4, 5, 6, 7, 8, 9, 10, 11, 12, 13, 14, 15] }
  | 0xA1 => some { d := posRI32, a := posPair, b := posMI, tys := intTys, imm := .offImm }
  | 0xA2 => some { a := posPair, imm := .taken }
  | 0xA3 => some { d := posV, a := posPair, imm := .taken }
  | 0xA4 => some { d := posRI32, a := posPair, imm := .offImm }
  | 0xB0 => some { d := posTk, a := posR, imm := .taken }
  | 0xB1 => some { d := posTk, a := posX, b := if fn = 1 then posNone else posX, fns := [0, 1], imm := .fields 0xFFFF }
  | 0xB2 => some { d := posP, a := posTk }
  | 0xB3 => some { a := posX, b := posRI32, imm := .cls4 }
  | 0xB4 => some { d := posR, a := { cls := [.tk, .x] } }
  | 0xB5 => some { a := posX }
  | 0xB6 => some { a := posPair, imm := .taken }
  | 0xB7 => some { d := posTk, a := posPair, b := posRI32, imm := .offImm }
  | 0xC0 | 0xC1 => some { imm := .fields 0xFF }
  | 0xC2 => some { d := { cls := [.v, .s], width := .sysreg }, imm := .fields 0xFF }
  | 0xC3 => some { a := { cls := [.v, .s], width := .sysreg }, imm := .fields 0xFF }
  | 0xC4 | 0xC5 => some { a := posV, imm := .fields 0xFFFFFFFF }
  | 0xC6 => some {}
  | 0xC7 => some { fns := [0, 1] }
  | 0xC8 => some { d := posR, fns := [0, 1] }
  | _ => none

/-- The register number and count of an operand field of class v or s. -/
def regNum (f : Nat) : Nat := if f / 256 = 0 then f % 256 else f % 256 + 256 * (f / 256 - 1)

/-- The slot number of an operand field of class x. -/
def slotNum (f : Nat) : Nat := f % 256 + 256 * (f / 256 - 6)

/-- How many registers an operand of this width rule names in this word. -/
def widthOf (r : Raw) : Width → Nat
  | .one => 1
  | .pair => 2
  | .byTy => if r.ty.toNat = 2 ∨ r.ty.toNat = 3 then 2 else 1
  | .mem => if r.fn.toNat = 1 then 4 else if r.ty.toNat = 2 ∨ r.ty.toNat = 3 then 2 else 1
  | .dot => if r.ty.toNat = 9 ∨ r.ty.toNat = 10 then 2 else 1
  | .byFn => if r.fn.toNat = 2 ∨ r.fn.toNat = 3 then 2 else 1
  | .special => if r.a.toNat % 256 = 0x15 ∨ r.a.toNat % 256 = 0x16 then 2 else 1
  | .sysreg => if r.imm.toNat % 256 = 2 ∨ r.imm.toNat % 256 = 4 ∨ r.imm.toNat % 256 = 6 then 2 else 1

/-- Whether a class is an immediate. -/
def Cls.isImm : Cls → Bool
  | .immI | .immF | .immW => true
  | _ => false

/-- The operand position within the word. -/
inductive Field where
  | d | a | b | c
  deriving DecidableEq, Repr

/-- Whether IMM holds something other than an immediate operand (R37). -/
def ImmUse.isTaken : ImmUse → Bool
  | .taken | .third | .fields _ => true
  | _ => false

/-- Whether an operand before a position, in the order D, A, B, is of class 4, which makes one at that position a second immediate (R37, R51). -/
def Raw.immBefore (r : Raw) (at_ : Field) : Bool :=
  match at_ with
  | .d => false
  | .a => r.d.toNat / 256 == 4
  | _ => r.d.toNat / 256 == 4 || r.a.toNat / 256 == 4

/-- A register, slot or accumulator past the kernel's limit (R38, R51). -/
def pastLimit (lim : Limits) (k : Cls) (x wide : Nat) : List Nat :=
  if k = .v ∧ regNum x + wide > lim.regs ∨ k = .x ∧ slotNum x ≥ lim.scratch ∨ k = .a ∧ x % 256 ≥ lim.accum then [11] else []

/-- The causes found at one operand position (R35..R38, R51 with the note below its table). Of a class-4 operand in B of LD or ST R254 names cause 7 and the note cause 8: the model records 7 (log 18). -/
def posCauses (lim : Limits) (r : Raw) (modw : Bool) (f : Form) (at_ : Field) (pos : Pos) (x : Nat) : List Nat :=
  let wide := widthOf r pos.width
  match clsOf x with
  | none => [6]
  | some k =>
    let predDest := k = .p ∧ at_ = .d
    if at_ = .c ∧ (k.isImm ∨ k = .sr) then [9]
    else if k = .sr ∧ ¬(r.op.toNat = 0x60 ∧ at_ = .a) then [6]
    else if k.isImm ∧ ¬ pos.cls.contains k then
      -- R51's note: exactly one of causes 7 and 8
      let named7 := (r.op.toNat = 0x90 ∨ r.op.toNat = 0x91) ∧ at_ = .b ∨ r.op.toNat = 0xC3 ∧ at_ = .a
      if named7 then [7]
      else if at_ = .d ∧ ¬ pos.cls.contains .immI ∨ wide > 1 ∧ ¬ pos.cls.contains .immI ∨ f.imm.isTaken ∨ f.imm = .offImm ∧ ¬ pos.cls.contains .immI
          ∨ r.immBefore at_
          ∨ k = .immW ∧ pos.cls.contains .immI ∨ x % 256 = 3 ∧ r.imm.toNat / 65536 ≠ 0 then [8]
      else [7]
    else if pos.unused then
      if x = 0 then []
      else (if k = .c ∧ x % 256 = 31 ∧ r.op.toNat ≠ 0x19 then [7] else []) ++ pastLimit lim k x wide ++ [13]
    else if ¬ pos.cls.contains k then [7]
    else if pos.opt ∧ x = 0 then []
    else
      (if predDest ∧ x % 256 = 7 then [7] else [])
      ++ (if k = .c ∧ x % 256 = 31 ∧ r.op.toNat ≠ 0x19 then [7] else [])
      ++ (if (k = .v ∨ k = .s) ∧ regNum x % wide ≠ 0 then [10] else [])
      ++ pastLimit lim k x wide
      ++ (if k = .immW ∧ (¬ modw ∨ ¬(r.ty.toNat = 2 ∨ r.ty.toNat = 3) ∨ ¬(f.mset = .w ∨ f.mset = .sw)) then [8] else [])
      ++ (if k = .immF ∧ x % 256 = 3 ∧ r.imm.toNat / 65536 ≠ 0 ∧ ¬(r.op.toNat = 0x82 ∧ r.fn.toNat = 1) then [8] else [])

/-- The class-4 operands of a word. -/
def immCount (r : Raw) (f : Form) : Nat :=
  ([(f.d, r.d.toNat), (f.a, r.a.toNat), (f.b, r.b.toNat)].filter fun (_, x) =>
    match clsOf x with
    | some k => k.isImm
    | none => false).length

/-- The causes of the immediate rules (R37) and of IMM bits that must be zero (R38, R39). -/
def immCauses (r : Raw) (f : Form) : List Nat :=
  let n := immCount r f
  let imm := r.imm.toNat
  (if n > 1 then [8] else [])
  ++ (match f.imm with
      | .zero => if n = 0 ∧ imm ≠ 0 then [13] else []
      | .cls4 => if n = 0 ∧ imm ≠ 0 then [13] else []
      | .offImm => []
      | .taken => []
      | .third => if imm / 2048 ≠ 0 then [9] else []
      | .fields m => if imm &&& (0xFFFFFFFF ^^^ m) ≠ 0 then [13] else [])

/-- The slots one tile position of an MMA operand occupies (R202). -/
def mmaSlotsPer (ty : Nat) : Nat := if ty = 4 ∨ ty = 5 then 2 else 1

/-- The further rules that single instructions state. -/
def extraCauses (lim : Limits) (r : Raw) : List Nat :=
  let imm := r.imm.toNat
  let ty := r.ty.toNat
  let op := r.op.toNat
  match op with
  | 0x19 => if clsOf r.b.toNat = some .c ∧ r.b.toNat ≠ 0x51F then [7] else []
  | 0x1D => if fieldN imm 8 4 = 15 then [7] else []
  | 0x36 => []
  | 0x70 | 0x71 | 0x72 =>
    let n := imm % 64 + 1
    let s := mmaSlotsPer ty
    (if fieldN imm 6 4 = 15 then [7] else [])
    ++ (if ¬(ty = 6 ∨ ty = 7) ∧ fieldN imm 10 3 ≠ 0 then [13] else [])
    ++ (if ¬(ty = 7 ∨ ty = 9) ∧ fieldN imm 13 9 ≠ 0 then [13] else [])
    ++ (if bitN imm 21 = false ∧ fieldN imm 13 8 ≠ 0 then [13] else [])
    ++ (if op ≠ 0x72 ∧ r.a.toNat / 256 ≥ 6 ∧ slotNum r.a.toNat + s * n > lim.scratch then [11] else [])
    ++ (if r.b.toNat / 256 ≥ 6 ∧ slotNum r.b.toNat + s * n > lim.scratch then [11] else [])
    ++ (if op = 0x72 ∧ fieldN imm 23 9 ≥ lim.scratch then [11] else [])
  | 0x78 | 0x79 | 0x7A => if fieldN imm 6 4 = 15 then [7] else []
  | 0x82 => if r.fn.toNat = 1 ∧ r.b.toNat = 0x402 ∧ ¬ r.immBefore .b then [7] else []
  | 0x84 =>
    if r.b.toNat / 256 = 0 then (if regNum r.b.toNat + 4 > lim.regs then [11] else [])
    else if r.b.toNat / 256 ≤ 2 ∧ regNum r.b.toNat + 4 > 512 then [11] else []
  | 0x90 | 0x91 => if r.b.toNat ≠ 0 ∧ r.b.toNat / 256 = 0 ∧ r.a.toNat / 256 = 0 then [7] else []
  | 0xC2 | 0xC3 => if imm % 256 > 8 then [13] else []
  | 0xC4 | 0xC5 =>
    let g := r.a.toNat
    (if g % 32 ≠ 0 then [13] else [])
    ++ (if g < 256 ∧ g ≥ lim.regs then [11] else [])
    ++ (if (setBits 32 imm).any fun i => g - g % 32 + i ≥ lim.regs then [13] else [])
  | _ => []

/-- Whether an FP16 pattern is a NaN (R114). -/
def half16Nan (x : Nat) : Bool := fieldN x 10 5 == 31 && fieldN x 0 10 != 0

/-- An order-preserving key of a non-NaN FP16 pattern, with -0 equal to +0. -/
def half16Key (x : Nat) : Int := if bitN x 15 then -((x % 32768 : Nat) : Int) else ((x % 32768 : Nat) : Int)

/-- Which sources of a word are floating-point operands: A, B, C (R43). -/
def fpSources (r : Raw) : Bool × Bool × Bool :=
  match r.op.toNat with
  | 0x40 | 0x41 | 0x42 | 0x44 | 0x45 | 0x46 | 0x47 | 0x50 | 0x51 => (true, true, false)
  | 0x43 | 0x52 | 0x54 => (true, true, true)
  | 0x48 | 0x49 | 0x4A | 0x4B | 0x4C | 0x4D | 0x4E | 0x4F | 0x55 => (true, false, false)
  | 0x53 => (decide (8 ≤ r.fn.toNat ∧ r.fn.toNat ≤ 12), false, false)
  | _ => (false, false, false)

/-- Whether a MODW unit breaks R43, for a modified word whose opcode is assigned. `m` is the MODW word. -/
def modwBad (m : Code) (r : Raw) (f : Form) : Bool :=
  let x := m.toNat
  let imm := fieldN x 0 32
  let rnd := fieldN x 47 4
  let sat := fieldN x 43 4
  let k := fieldN x 73 6
  let src := fieldN x 37 6
  let idx4 := r.d.toNat == 0x404 || r.a.toNat == 0x404 || r.b.toNat == 0x404 || f.imm = .third && r.imm.toNat % 2048 == 0x404
  let lo := imm % 65536
  let hi := imm / 65536
  let (fa, fb, fc) := fpSources r
  let allowRnd := f.mset = .f ∨ f.mset = .d
  let allowSat1 := f.mset = .s ∨ f.mset = .sw ∨ f.mset = .f ∨ f.mset = .q
  let allowSat := f.mset = .f ∨ f.mset = .q
  let allowK := f.mset = .f
  let allowSrc := f.mset = .f ∨ f.mset = .q ∨ f.mset = .m ∨ f.mset = .d
  f.mset = .none
  ∨ fieldN x 84 4 ≠ 7 ∨ fieldN x 79 5 ≠ 0 ∨ fieldN x 62 11 ≠ 0 ∨ fieldN x 51 11 ≠ 0 ∨ fieldN x 32 5 ≠ 0
  ∨ rnd > 5 ∨ sat > 3
  ∨ rnd ≠ 0 ∧ ¬ allowRnd ∨ k ≠ 0 ∧ ¬ allowK ∨ src ≠ 0 ∧ ¬ allowSrc
  ∨ sat = 1 ∧ ¬ allowSat1 ∨ sat > 1 ∧ ¬ allowSat
  ∨ imm ≠ 0 ∧ sat ≠ 3 ∧ (¬ idx4 ∨ ¬ (f.mset = .w ∨ f.mset = .sw))
  ∨ sat = 3 ∧ (idx4 ∨ half16Nan lo ∨ half16Nan hi ∨ half16Key lo > half16Key hi)
  ∨ fieldN src 0 2 ≠ 0 ∧ ¬ fa ∨ fieldN src 2 2 ≠ 0 ∧ ¬ fb ∨ fieldN src 4 2 ≠ 0 ∧ ¬ fc

/-- Every cause a word or unit fails with (R46, R51). `modw` is the MODW word in front of it, if any. -/
def causes (lim : Limits) (modw : Option Code) (r : Raw) : List Nat :=
  (if modw.any fun m => fieldN m.toNat 84 4 == 15 then [2] else []) ++
  if r.op.toNat = 0xFE then (if r.guard.toNat = 15 then [2] else []) ++ [3]
  else match formOf r.op.toNat r.fn.toNat r.ty.toNat with
  | none => if modw.isSome then [3, 1] else [1]
  | some f =>
    (if r.guard.toNat = 15 then [2] else [])
    ++ (match modw with
        | some m => if modwBad m r f then [3] else []
        | none => [])
    ++ (if f.tys.contains r.ty.toNat then [] else [4])
    ++ (if f.fns.contains r.fn.toNat then [] else [5])
    ++ posCauses lim r modw.isSome f .d f.d r.d.toNat
    ++ posCauses lim r modw.isSome f .a f.a r.a.toNat
    ++ posCauses lim r modw.isSome f .b f.b r.b.toNat
    ++ (if f.imm = .third then posCauses lim r modw.isSome f .c f.c (r.imm.toNat % 2048) else [])
    ++ immCauses r f
    ++ (if r.la = 1 ∧ r.a.toNat ≥ 256 ∨ r.lb = 1 ∧ r.b.toNat ≥ 256 then [12] else [])
    ++ extraCauses lim r

/-- The least of a list of causes. -/
def least : List Nat → Option Nat
  | [] => none
  | n :: ns => match least ns with
    | none => some n
    | some m => some (min n m)

end Sys2Proof
end

