-- ==== Sys2Proof/WellFormed.lean ====
section
/-! DEFINITION. The encoding check of R46 and R51: which words and units are well-formed, and the cause an ill-formed one is recorded with. -/

namespace Sys2Proof

/-- The ILLEGAL cause recorded for a word or unit, none when it is an instruction (R46: the lowest cause). -/
def illegalCause (lim : Limits) (modw : Option Code) (r : Raw) : Option Nat := least (causes lim modw r)

end Sys2Proof
end

