-- ==== Sys2Proof/Decode.lean ====
section
/-! DEFINITION. The decoder, total on any bytes (03 R33..R51), and after it the encoder written from the same tables. -/

namespace Sys2Proof

/-- The index of a special register (R36). -/
def SpecReg.code : SpecReg → BitVec 8
  | .lane => 0x08
  | .row => 0x09
  | .strand => 0x0A
  | .nstrand => 0x0B
  | .item => 0x0C
  | .nitem => 0x0D
  | .pitem => 0x0E
  | .tlev => 0x0F
  | .core => 0x10
  | .cluster => 0x11
  | .die => 0x12
  | .dev => 0x13
  | .ctx => 0x14
  | .clock => 0x15
  | .nstime => 0x16
  | .rstat => 0x17
  | .pforced => 0x18
  | .faultm => 0x19

/-- The special register of an index (R36). -/
def SpecReg.ofCode (i : Nat) : Option SpecReg :=
  match i with
  | 0x08 => some .lane
  | 0x09 => some .row
  | 0x0A => some .strand
  | 0x0B => some .nstrand
  | 0x0C => some .item
  | 0x0D => some .nitem
  | 0x0E => some .pitem
  | 0x0F => some .tlev
  | 0x10 => some .core
  | 0x11 => some .cluster
  | 0x12 => some .die
  | 0x13 => some .dev
  | 0x14 => some .ctx
  | 0x15 => some .clock
  | 0x16 => some .nstime
  | 0x17 => some .rstat
  | 0x18 => some .pforced
  | 0x19 => some .faultm
  | _ => none

/-- The index of a class-4 immediate (R35). -/
def ImmIdx.code : ImmIdx → BitVec 8
  | .zext => 0
  | .sext => 1
  | .fp32 => 2
  | .fp16 => 3
  | .wide => 4

/-- The immediate of a class-4 index (R35). -/
def ImmIdx.ofCode (i : Nat) : Option ImmIdx :=
  match i with
  | 0 => some .zext
  | 1 => some .sext
  | 2 => some .fp32
  | 3 => some .fp16
  | 4 => some .wide
  | _ => none

/-- The 11-bit field of an operand: CLASS in bits 10:8, INDEX in bits 7:0 (R35). -/
def Operand.toBits : Operand → BitVec 11
  | .v i => (0 : BitVec 3) ++ i
  | .s i => if i.toNat < 256 then (1 : BitVec 3) ++ i.setWidth 8 else (2 : BitVec 3) ++ i.setWidth 8
  | .p i => (3 : BitVec 3) ++ i.setWidth 8
  | .sr r => (3 : BitVec 3) ++ r.code
  | .imm k => (4 : BitVec 3) ++ k.code
  | .a i => (5 : BitVec 3) ++ i.setWidth 8
  | .c i => (5 : BitVec 3) ++ (0x10 + i.setWidth 8)
  | .tk i => (5 : BitVec 3) ++ (0x20 + i.setWidth 8)
  | .x i => if i.toNat < 256 then (6 : BitVec 3) ++ i.setWidth 8 else (7 : BitVec 3) ++ i.setWidth 8

/-- The operand of an 11-bit field, none where the index is reserved (R35). -/
def Operand.ofBits (f : BitVec 11) : Option Operand :=
  let i := f.toNat % 256
  match f.toNat / 256 with
  | 0 => some (.v (BitVec.ofNat 8 i))
  | 1 => some (.s (BitVec.ofNat 9 i))
  | 2 => some (.s (BitVec.ofNat 9 (i + 256)))
  | 3 => if i < 8 then some (.p (BitVec.ofNat 3 i)) else (SpecReg.ofCode i).map .sr
  | 4 => (ImmIdx.ofCode i).map .imm
  | 5 => if i < 8 then some (.a (BitVec.ofNat 3 i))
         else if i < 16 then none
         else if i < 32 then some (.c (BitVec.ofNat 4 (i - 16)))
         else if i < 40 then some (.tk (BitVec.ofNat 3 (i - 32)))
         else none
  | 6 => some (.x (BitVec.ofNat 9 i))
  | _ => some (.x (BitVec.ofNat 9 (i + 256)))

/-- Whether an operand names a token. -/
def Operand.isToken : Operand → Bool
  | .tk _ => true
  | _ => false

/-- One bit of a truth value. -/
def bit (b : Bool) : BitVec 1 := if b then 1 else 0

/-- The MODW word of a modifier (R42). -/
def Modw.toCode (m : Modw) : Code :=
  (0xFE : BitVec 8) ++ (7 : BitVec 4) ++ (0 : BitVec 5) ++ m.k ++ (0 : BitVec 11) ++ (0 : BitVec 11) ++ m.rnd ++ m.sat
    ++ bit m.negc ++ bit m.absc ++ bit m.negb ++ bit m.absb ++ bit m.nega ++ bit m.absa ++ (0 : BitVec 5) ++ m.imm

/-- The modifier of a MODW word, whose fixed bits R43 checks. -/
def Modw.ofCode (w : Code) : Modw where
  k := w.extractLsb' 73 6
  rnd := w.extractLsb' 47 4
  sat := w.extractLsb' 43 4
  negc := w.extractLsb' 42 1 == 1
  absc := w.extractLsb' 41 1 == 1
  negb := w.extractLsb' 40 1 == 1
  absb := w.extractLsb' 39 1 == 1
  nega := w.extractLsb' 38 1 == 1
  absa := w.extractLsb' 37 1 == 1
  imm := w.extractLsb' 0 32

/-- The raw word of an instruction's fields (R34). -/
def Ins.toRaw (op : BitVec 8) (w : Ins) : Raw where
  op := op
  guard := bit w.guard.neg ++ w.guard.p
  d := w.d.toBits
  a := w.a.toBits
  b := w.b.toBits
  fn := w.fn
  ty := w.ty
  wait := w.wait
  la := bit w.la
  lb := bit w.lb
  fe := bit w.fe
  imm := w.imm

/-- The fields of a raw word whose operands are not reserved. -/
def Ins.ofRaw (m : Option Modw) (r : Raw) : Option Ins :=
  match Operand.ofBits r.d, Operand.ofBits r.a, Operand.ofBits r.b with
  | some d, some a, some b =>
    some { guard := ⟨r.guard.extractLsb' 3 1 == 1, r.guard.extractLsb' 0 3⟩, d := d, a := a, b := b, fn := r.fn, ty := r.ty,
           wait := r.wait, la := r.la == 1, lb := r.lb == 1, fe := r.fe == 1, imm := r.imm, modw := m }
  | _, _, _ => none

/-- The instruction of a major opcode and its fields (R48): the FN or the class of A says which of an opcode's mnemonics it is (R98, R103, R185, R193, R196, R206, R210, R213, R215, R218, R265, R272, R274, R326, R327). -/
def Instr.ofOp (op : Nat) (w : Ins) : Option Instr :=
  match op with
  | 0x01 => some (.bra w)
  | 0x02 => some (.brx w)
  | 0x03 => some (.call w)
  | 0x04 => some (.callx w)
  | 0x05 => some (.ret w)
  | 0x06 => some (.exit w)
  | 0x07 => some (.nop w)
  | 0x08 => some (.yield w)
  | 0x09 => some (.sleep w)
  | 0x0A => some (.dbnz w)
  | 0x10 => some (.join w)
  | 0x11 => some (.leave w)
  | 0x12 => some (.cnew w)
  | 0x13 => some (.cfree w)
  | 0x14 => if w.fn = 1 then some (.signW w) else some (.sign w)
  | 0x15 => some (.cwait w)
  | 0x16 => some (.shfl w)
  | 0x17 => some (.cred w)
  | 0x18 => if w.fn = 1 then some (.voteAny w) else if w.fn = 2 then some (.voteCount w) else if w.fn = 3 then some (.voteRowmask w) else some (.voteAll w)
  | 0x19 => some (.freeze w)
  | 0x1A => some (.launch w)
  | 0x1B => some (.evsig w)
  | 0x1C => some (.evwait w)
  | 0x1D => some (.rcall w)
  | 0x1E => some (.rret w)
  | 0x1F => some (.rjoin w)
  | 0x20 => some (.iadd w)
  | 0x21 => some (.isub w)
  | 0x22 => some (.imul w)
  | 0x23 => some (.imulh w)
  | 0x24 => some (.imad w)
  | 0x25 => some (.idiv w)
  | 0x26 => some (.irem w)
  | 0x27 => some (.imin w)
  | 0x28 => some (.imax w)
  | 0x29 => some (.and w)
  | 0x2A => some (.or w)
  | 0x2B => some (.xor w)
  | 0x2C => some (.andn w)
  | 0x2D => some (.shl w)
  | 0x2E => some (.shr w)
  | 0x2F => some (.sar w)
  | 0x30 => some (.popc w)
  | 0x31 => some (.clz w)
  | 0x32 => some (.brev w)
  | 0x33 => some (.bfx w)
  | 0x34 => some (.bfi w)
  | 0x35 => some (.iset w)
  | 0x36 => some (.sel w)
  | 0x37 => some (.lea w)
  | 0x38 => some (.mov w)
  | 0x39 => some (.pack w)
  | 0x3A => some (.unpk w)
  | 0x3B => some (.crc32c w)
  | 0x40 => some (.fadd w)
  | 0x41 => some (.fsub w)
  | 0x42 => some (.fmul w)
  | 0x43 => some (.ffma w)
  | 0x44 => some (.fmin w)
  | 0x45 => some (.fmax w)
  | 0x46 => some (.fset w)
  | 0x47 => some (.fdiv w)
  | 0x48 => some (.fsqrt w)
  | 0x49 => some (.frcp w)
  | 0x4A => some (.frsq w)
  | 0x4B => some (.fexp2 w)
  | 0x4C => some (.flog2 w)
  | 0x4D => some (.ftanh w)
  | 0x4E => some (.frnd w)
  | 0x4F => if w.fn = 1 then some (.fclsTest w) else some (.fcls w)
  | 0x50 => some (.hadd2 w)
  | 0x51 => some (.hmul2 w)
  | 0x52 => some (.hfma2 w)
  | 0x53 => some (.fcvt w)
  | 0x54 => some (.fdot w)
  | 0x55 => some (.fldx w)
  | 0x60 => some (.srd w)
  | 0x61 => some (.plog w)
  | 0x62 => if w.fn = 1 then some (.pmovVal w) else if w.fn = 2 then some (.pmovSave w) else if w.fn = 3 then some (.pmovLoad w) else some (.pmovNz w)
  | 0x63 => some (.shape w)
  | 0x64 => some (.gen w)
  | 0x65 => if w.fn = 1 then some (.femkMask w) else some (.femkTest w)
  | 0x70 => some (.mma w)
  | 0x71 => some (.mmas w)
  | 0x72 => some (.mmag w)
  | 0x73 => if w.fn = 1 then some (.aclrAll w) else some (.aclr w)
  | 0x74 => some (.ast w)
  | 0x75 => some (.ald w)
  | 0x76 => some (.aget w)
  | 0x77 => some (.mwait w)
  | 0x78 => if w.fn = 1 then some (.qntCol w) else some (.qnt w)
  | 0x79 => some (.bpk w)
  | 0x7A => some (.bunp w)
  | 0x7B => some (.scw w)
  | 0x7C => some (.scr w)
  | 0x7D => if w.fn = 1 then some (.mstatClr w) else some (.mstat w)
  | 0x80 => some (.tscl w)
  | 0x81 => some (.tofs w)
  | 0x82 => if w.fn = 1 then some (.tclpImm w) else some (.tclp w)
  | 0x83 => some (.tfil w)
  | 0x84 => some (.tmap w)
  | 0x85 => some (.tord w)
  | 0x86 => if w.fn = 1 then some (.tmatAll w) else some (.tmat w)
  | 0x87 => some (.thdr w)
  | 0x88 => some (.tlde w)
  | 0x89 => some (.tste w)
  | 0x90 => some (.ld w)
  | 0x91 => some (.st w)
  | 0x92 => some (.lds w)
  | 0x93 => some (.sts w)
  | 0x94 => some (.ldlk w)
  | 0x95 => some (.stul w)
  | 0x96 => some (.unlk w)
  | 0x97 => some (.aadd w)
  | 0x98 => some (.amin w)
  | 0x99 => some (.amax w)
  | 0x9A => some (.aand w)
  | 0x9B => some (.aor w)
  | 0x9C => some (.axor w)
  | 0x9D => some (.axch w)
  | 0x9E => some (.acas w)
  | 0x9F => some (.afadd w)
  | 0xA1 => some (.waita w)
  | 0xA2 => some (.wake w)
  | 0xA3 => some (.tagld w)
  | 0xA4 => some (.tagst w)
  | 0xB0 => some (.cpy w)
  | 0xB1 => if w.fn = 1 then some (.mcastSame w) else some (.mcast w)
  | 0xB2 => some (.tktst w)
  | 0xB3 => some (.xarm w)
  | 0xB5 => some (.xfree w)
  | 0xB6 => some (.redc w)
  | 0xB7 => some (.nvsq w)
  | 0xC0 => some (.trap w)
  | 0xC1 => some (.bpt w)
  | 0xC2 => some (.sysr w)
  | 0xC3 => some (.sysw w)
  | 0xC4 => some (.csave w)
  | 0xC5 => some (.crest w)
  | 0xC6 => some (.pdone w)
  | 0xC7 => if w.fn = 1 then some (.eretSkip w) else some (.eret w)
  | 0xC8 => if w.fn = 1 then some (.replayDrop w) else some (.replay w)
  | 0xA0 => if w.fn.toNat < 8 then some (.fenceAcq w) else if w.fn.toNat < 12 then some (.fenceRel w) else some (.fenceAr w)
  | 0xB4 => if w.a.isToken then some (.xstatToken w) else some (.xstatSlot w)
  | _ => none

/-- The major opcode and the fields of an instruction that a word encodes; none for an event. -/
def Instr.word? : Instr → Option (BitVec 8 × Ins)
  | .bra w => some (0x01, w)
  | .brx w => some (0x02, w)
  | .call w => some (0x03, w)
  | .callx w => some (0x04, w)
  | .ret w => some (0x05, w)
  | .exit w => some (0x06, w)
  | .nop w => some (0x07, w)
  | .yield w => some (0x08, w)
  | .sleep w => some (0x09, w)
  | .dbnz w => some (0x0A, w)
  | .join w => some (0x10, w)
  | .leave w => some (0x11, w)
  | .cnew w => some (0x12, w)
  | .cfree w => some (0x13, w)
  | .sign w => some (0x14, w)
  | .signW w => some (0x14, w)
  | .cwait w => some (0x15, w)
  | .shfl w => some (0x16, w)
  | .cred w => some (0x17, w)
  | .voteAll w => some (0x18, w)
  | .voteAny w => some (0x18, w)
  | .voteCount w => some (0x18, w)
  | .voteRowmask w => some (0x18, w)
  | .freeze w => some (0x19, w)
  | .launch w => some (0x1A, w)
  | .evsig w => some (0x1B, w)
  | .evwait w => some (0x1C, w)
  | .rcall w => some (0x1D, w)
  | .rret w => some (0x1E, w)
  | .rjoin w => some (0x1F, w)
  | .iadd w => some (0x20, w)
  | .isub w => some (0x21, w)
  | .imul w => some (0x22, w)
  | .imulh w => some (0x23, w)
  | .imad w => some (0x24, w)
  | .idiv w => some (0x25, w)
  | .irem w => some (0x26, w)
  | .imin w => some (0x27, w)
  | .imax w => some (0x28, w)
  | .and w => some (0x29, w)
  | .or w => some (0x2A, w)
  | .xor w => some (0x2B, w)
  | .andn w => some (0x2C, w)
  | .shl w => some (0x2D, w)
  | .shr w => some (0x2E, w)
  | .sar w => some (0x2F, w)
  | .popc w => some (0x30, w)
  | .clz w => some (0x31, w)
  | .brev w => some (0x32, w)
  | .bfx w => some (0x33, w)
  | .bfi w => some (0x34, w)
  | .iset w => some (0x35, w)
  | .sel w => some (0x36, w)
  | .lea w => some (0x37, w)
  | .mov w => some (0x38, w)
  | .pack w => some (0x39, w)
  | .unpk w => some (0x3A, w)
  | .crc32c w => some (0x3B, w)
  | .fadd w => some (0x40, w)
  | .fsub w => some (0x41, w)
  | .fmul w => some (0x42, w)
  | .ffma w => some (0x43, w)
  | .fmin w => some (0x44, w)
  | .fmax w => some (0x45, w)
  | .fset w => some (0x46, w)
  | .fdiv w => some (0x47, w)
  | .fsqrt w => some (0x48, w)
  | .frcp w => some (0x49, w)
  | .frsq w => some (0x4A, w)
  | .fexp2 w => some (0x4B, w)
  | .flog2 w => some (0x4C, w)
  | .ftanh w => some (0x4D, w)
  | .frnd w => some (0x4E, w)
  | .fcls w => some (0x4F, w)
  | .fclsTest w => some (0x4F, w)
  | .hadd2 w => some (0x50, w)
  | .hmul2 w => some (0x51, w)
  | .hfma2 w => some (0x52, w)
  | .fcvt w => some (0x53, w)
  | .fdot w => some (0x54, w)
  | .fldx w => some (0x55, w)
  | .srd w => some (0x60, w)
  | .plog w => some (0x61, w)
  | .pmovNz w => some (0x62, w)
  | .pmovVal w => some (0x62, w)
  | .pmovSave w => some (0x62, w)
  | .pmovLoad w => some (0x62, w)
  | .shape w => some (0x63, w)
  | .gen w => some (0x64, w)
  | .femkTest w => some (0x65, w)
  | .femkMask w => some (0x65, w)
  | .mma w => some (0x70, w)
  | .mmas w => some (0x71, w)
  | .mmag w => some (0x72, w)
  | .aclr w => some (0x73, w)
  | .aclrAll w => some (0x73, w)
  | .ast w => some (0x74, w)
  | .ald w => some (0x75, w)
  | .aget w => some (0x76, w)
  | .mwait w => some (0x77, w)
  | .qnt w => some (0x78, w)
  | .qntCol w => some (0x78, w)
  | .bpk w => some (0x79, w)
  | .bunp w => some (0x7A, w)
  | .scw w => some (0x7B, w)
  | .scr w => some (0x7C, w)
  | .mstat w => some (0x7D, w)
  | .mstatClr w => some (0x7D, w)
  | .tscl w => some (0x80, w)
  | .tofs w => some (0x81, w)
  | .tclp w => some (0x82, w)
  | .tclpImm w => some (0x82, w)
  | .tfil w => some (0x83, w)
  | .tmap w => some (0x84, w)
  | .tord w => some (0x85, w)
  | .tmat w => some (0x86, w)
  | .tmatAll w => some (0x86, w)
  | .thdr w => some (0x87, w)
  | .tlde w => some (0x88, w)
  | .tste w => some (0x89, w)
  | .ld w => some (0x90, w)
  | .st w => some (0x91, w)
  | .lds w => some (0x92, w)
  | .sts w => some (0x93, w)
  | .ldlk w => some (0x94, w)
  | .stul w => some (0x95, w)
  | .unlk w => some (0x96, w)
  | .aadd w => some (0x97, w)
  | .amin w => some (0x98, w)
  | .amax w => some (0x99, w)
  | .aand w => some (0x9A, w)
  | .aor w => some (0x9B, w)
  | .axor w => some (0x9C, w)
  | .axch w => some (0x9D, w)
  | .acas w => some (0x9E, w)
  | .afadd w => some (0x9F, w)
  | .waita w => some (0xA1, w)
  | .wake w => some (0xA2, w)
  | .tagld w => some (0xA3, w)
  | .tagst w => some (0xA4, w)
  | .cpy w => some (0xB0, w)
  | .mcast w => some (0xB1, w)
  | .mcastSame w => some (0xB1, w)
  | .tktst w => some (0xB2, w)
  | .xarm w => some (0xB3, w)
  | .xfree w => some (0xB5, w)
  | .redc w => some (0xB6, w)
  | .nvsq w => some (0xB7, w)
  | .trap w => some (0xC0, w)
  | .bpt w => some (0xC1, w)
  | .sysr w => some (0xC2, w)
  | .sysw w => some (0xC3, w)
  | .csave w => some (0xC4, w)
  | .crest w => some (0xC5, w)
  | .pdone w => some (0xC6, w)
  | .eret w => some (0xC7, w)
  | .eretSkip w => some (0xC7, w)
  | .replay w => some (0xC8, w)
  | .replayDrop w => some (0xC8, w)
  | .fenceAcq w => some (0xA0, w)
  | .fenceRel w => some (0xA0, w)
  | .fenceAr w => some (0xA0, w)
  | .xstatToken w => some (0xB4, w)
  | .xstatSlot w => some (0xB4, w)
  | .freezeComplete _ => none
  | .evwaitWake _ => none
  | .remoteFrameStart _ => none
  | .finishingStrandStart _ => none
  | .rcallReply _ => none
  | .rcallTimeout _ => none
  | .longLatencyComplete _ => none
  | .storageRetry _ => none
  | .storageEvict _ => none
  | .matrixOpFinish _ _ => none
  | .tileViewOp _ => none
  | .atomicExecute _ _ => none
  | .loadComplete _ => none
  | .storePerform _ => none
  | .watchWake _ => none
  | .waitaTimeout _ => none
  | .waitaSpurious _ => none
  | .copyChunkWrite _ => none
  | .copyFaultResume _ => none
  | .mcastDelivery _ _ => none
  | .grinderBlockStart _ => none
  | .computeSliceEnd _ _ => none
  | .activationAlert _ => none
  | .grinderBlockDone _ => none
  | .nvmeCompletion _ _ _ _ => none
  | .bptResolve _ _ => none
  | .deferredTrapDeliver _ => none
  | .logEntryReexecute _ _ => none
  | .pageDecline _ => none
  | .preemptRequest _ => none
  | .preemptDeadline _ => none
  | .contextKill _ => none
  | .clusterReset _ => none
  | .clusterReturn _ => none
  | .peerDown _ => none
  | .linkUp _ _ => none
  | .rtimeout _ => none
  | .tlbInvalidate _ _ => none
  | .memoryError _ _ => none
  | .launchPortWrite _ _ _ => none
  | .queueStatusWrite _ _ => none
  | .queueHeadCheck _ => none
  | .waitSatisfied _ => none
  | .priorityAge _ => none
  | .launchSelect => none
  | .admissionSweep => none
  | .regroup _ => none
  | .sleepWake _ => none
  | .hostBarWrite _ _ => none
  | .hostBarRead _ _ => none
  | .doorbellWrite _ _ => none
  | .doorbellRead _ _ => none
  | .registerWrite _ _ => none
  | .pcieLinkReset _ => none
  | .palertAssert => none
  | .narrowExit => none
  | .thermalLevelChange _ _ => none
  | .bootRomStart => none
  | .bootFetchRetry => none
  | .clusterRelease => none
  | .getVersion => none
  | .getCapabilities => none
  | .negotiateAlgorithms => none
  | .getDigests => none
  | .getCertificate => none
  | .challenge _ => none
  | .getMeasurements => none
  | .pageServiceComplete _ _ => none
  | .refreshDue _ => none
  | .deviceReset _ => none
  | .powerLoss => none
  | .twiganLinkDown _ => none
  | .pcieLinkStateChange _ _ => none
  | .firmwareNarrowHold _ => none
  | .nvmeQueueAbort _ => none

/-- The instruction of a raw word and the MODW word in front of it, none where the encoding check fails (R46). -/
def decodeRaw (lim : Limits) (m : Option Code) (r : Raw) : Option Instr :=
  match illegalCause lim m r with
  | some _ => none
  | none => (Ins.ofRaw (m.map Modw.ofCode) r).bind (Instr.ofOp r.op.toNat)

/-- The word at the head of a list of bytes (R33). -/
def codeOf (bs : List Byte) : Code := BitVec.ofNat 96 (ofLeBytes (bs.take 12))

/-- Whether a word is a MODW. -/
def isModw (c : Code) : Bool := c.extractLsb' 88 8 == 0xFE

/-- The decoder under a kernel's limits: the unit at the head of the bytes (R33, R43) and the bytes after it. -/
def decodeWith (lim : Limits) (bs : List Byte) : Option (Instr × List Byte) :=
  if bs.length < 12 then none
  else
    let c := codeOf bs
    if isModw c then
      if bs.length < 24 then none
      else (decodeRaw lim (some c) (Raw.ofCode (codeOf (bs.drop 12)))).map fun i => (i, bs.drop 24)
    else (decodeRaw lim none (Raw.ofCode c)).map fun i => (i, bs.drop 12)

/-- The decoder under the widest limits a kernel header can give. -/
def decode (bs : List Byte) : Option (Instr × List Byte) := decodeWith Limits.max bs

/-- The ILLEGAL cause of the unit at the head of the bytes, none when it decodes. -/
def illegalOf (lim : Limits) (bs : List Byte) : Option Nat :=
  let c := codeOf bs
  if isModw c then illegalCause lim (some c) (Raw.ofCode (codeOf (bs.drop 12)))
  else illegalCause lim none (Raw.ofCode c)

/-- The bytes of a word, least significant first (R33). -/
def codeBytes (c : Code) : List Byte := leBytes 12 c.toNat

/-- The bytes of a unit or word. -/
def Ins.encode (op : BitVec 8) (w : Ins) : List Byte :=
  (match w.modw with
   | some m => codeBytes m.toCode
   | none => []) ++ codeBytes (w.toRaw op).toCode

/-- The encoder: the bytes of an instruction; an event has none. -/
def encode (i : Instr) : List Byte :=
  match i.word? with
  | some (op, w) => w.encode op
  | none => []

/-- Well-formed under a kernel's limits: the word passes the encoding check (R46) and its FN and classes are those of the mnemonic. An event is well-formed as it stands. -/
def Instr.wfWith (lim : Limits) (i : Instr) : Bool :=
  match i.word? with
  | some (op, w) => illegalCause lim (w.modw.map Modw.toCode) (w.toRaw op) == none && Instr.ofOp op.toNat w == some i
  | none => true

/-- Well-formed under the widest limits. -/
def Instr.wf (i : Instr) : Bool := i.wfWith Limits.max

/-- The bytes of a table word: bit 0 is the least significant bit of the first 96-bit word, the bits of a second word count on from it, the bits above nbits are 0. -/
def tableBytes (nbits w : Nat) : List Byte := leBytes 24 (w % 2 ^ nbits)

/-- The instruction the decoder reads from a table word. -/
def decodeTableWord (nbits w : Nat) : Option Instr := (decode (tableBytes nbits w)).map (·.1)

end Sys2Proof
end

