-- ==== Sys2Proof/Config.lean ====
section
/-! DEFINITION. Constants of the part (01 R6..R12) and the free values: constants without a body, of which nothing can be proved, that stand for what the manual leaves open. The argument is a number the state supplies (its `tick`), so that each use is a fresh value. -/

namespace Sys2Proof.Config

/-- Cores of the device (R6). -/
def cores : Nat := 1000
/-- Clusters of the device (R6). -/
def clusters : Nat := 50
/-- Rows of a core (R63). -/
def rows : Nat := 192
/-- Register words of a core (R63). -/
def regWords : Nat := 262144
/-- Shape-store entries of a core (R63). -/
def shapeEntries : Nat := 8192
/-- Scalar words of a core (R63). -/
def scalarWords : Nat := 16384
/-- Scratchpad slots of a core (R63). -/
def slots : Nat := 512
/-- Accumulators of a core (R63). -/
def accs : Nat := 32
/-- First physical address past device memory: 500 GiB (R224). -/
def memTop : Nat := 536870912000
/-- Where reset leaves the table of context descriptors, until firmware places it (R299): the model's choice (log 90). -/
def ctxTableHome : Nat := 536870895616
/-- Entries of a cluster's watch table (R266). -/
def watchEntries : Nat := 8192
/-- Lines of a core's L1: 256 KiB of 128 bytes (R12). -/
def l1Lines : Nat := 2048
/-- Frames an NMU holds (R365). -/
def nmuFrames : Nat := 64
/-- Blocks a Grinder holds (R277). -/
def grinderBlocks : Nat := 16
/-- Units of `now` in one nanosecond; ten of them are one cycle of 1.7 GHz (R14). -/
def perNs : Nat := 17
/-- Units of `now` in one arithmetic-clock cycle (R14). -/
def perCycle : Nat := 10

/-- Free: a byte whose value the manual leaves undefined (R199, R270, R276, R283, R284). Log 6. -/
opaque freeByte : Nat → Nat → BitVec 8
/-- Free: a word whose value the manual does not state. Log 6. -/
opaque freeWord : Nat → BitVec 32
/-- Free: the elapsed time of a step, in units of `now` (R370). Log 3. -/
opaque elapsed : Nat → Nat
/-- Free: whether a load that could return a stale L1 copy does so (R238). Log 7. -/
opaque takesL1 : Nat → Bool
/-- Free: which line of a full L1 gives way to a new one (R12). Log 7. -/
opaque l1Victim : Nat → Nat
/-- Free: whether an access uses the entry that its core's TLB (0) or its cluster's (1) holds, which may have been evicted (R310, R311). Log 8. -/
opaque takesTlb : Nat → Nat → Bool
/-- Free: which old value of an overwritten code element, if any, a fetch returns (R47). Log 9. -/
opaque takesOldCode : Nat → Nat → Option Nat
/-- Free: whether a badly formed CONTIG group translates by its first entry (R306). Log 8. -/
opaque takesGroupFirst : Nat → Bool
/-- Free: data returned by a read of I/O space or of a unit outside the device (R249). Log 10. -/
opaque foreignData : Nat → BitVec 64
/-- Free: whether a PCIe completer or a peer's windows accept an access (R264, R308). Log 10. -/
opaque accepts : Nat → Bool
/-- Free: what the boot server returns: nothing, or an image's digest and whether its Ed448 signature verifies (R318). Log 11. -/
opaque fetchImage : Nat → Option (BitVec 512 × Bool)
/-- Free: bytes of SPDM answers the manual does not give, each field for itself: capabilities, signatures, opaque data (R320). Log 11. -/
opaque spdmBytes : Nat → Nat → List (BitVec 8)
/-- Free: the certificate chain of the identity key (R320). Log 11. -/
opaque certChain : List (BitVec 8)

end Sys2Proof.Config
end

