-- ==== Sys2Proof/Machine/State.lean ====
section
/-! DEFINITION. The state of the KZ5410 as plain data, its faults and refusals, and the state after reset. Every field cites the rule that names it; fields marked "model" are the model's own bookkeeping (log 2). -/

namespace Sys2Proof.Machine

/-- A sparse byte store: addresses strictly rising, no entry equal to what an unlisted address reads as (log 5). -/
abbrev Memory := List Host.Cell

/-- Bytes of a slot, sidecar or accumulator: unlisted bytes read 0, or are free values when `free` numbers an undefined content (R199, R270; log 6). -/
structure Block where
  cells : Memory := []
  free : Option Nat := none
  deriving DecidableEq, Repr

/-- The shape of a v register of a row (R163..R167). -/
inductive Shape where
  | uniform (v : Word)
  | affine (base lane item : Word)
  | general (ws : List Word)
  deriving DecidableEq, Repr

/-- A v register of a row: shape, template reference (R71), empty bit per lane (R165), poison bit per lane (R341). -/
structure VReg where
  shape : Shape := .uniform 0
  tref : Bool := false
  empty : BitVec 32 := 0
  poison : BitVec 32 := 0
  /-- in a saved item: the record holds the register in raw form (R85, R337) -/
  raw : Bool := false
  deriving DecidableEq, Repr

/-- A row of registers (R12, R63): its number on the core, whether it was drawn for finishing strands (R367), its registers. -/
structure Row where
  phys : Nat := 0
  fin : Bool := false
  regs : List VReg := []
  deriving DecidableEq, Repr

/-- A scalar register (R21): value, private to the item (R71), poisoned. -/
structure SReg where
  val : Word := 0
  own : Bool := true
  poison : Bool := false
  deriving DecidableEq, Repr

/-- A token (R269, R274); `sys` says that waiting on it acquires at system scope (R250). -/
structure Token where
  busy : Bool := false
  err : Bool := false
  origin : BitVec 2 := 0
  cstat : BitVec 8 := 0
  nvst : BitVec 15 := 0
  sys : Bool := false
  deriving DecidableEq, Repr

/-- The trap registers of a strand (R315). -/
structure TrapRegs where
  tcode : Word := 0
  tinfo : Word := 0
  trpc : Addr := 0
  tret : Word := 0
  faultva : Addr := 0
  faultrs : Word := 0
  deriving DecidableEq, Repr

/-- A trap before delivery: class, code, fault address, fault reason (R321, R322). -/
structure Trap where
  cls : Nat
  code : Nat := 0
  fva : Addr := 0
  frs : Word := 0
  deriving DecidableEq, Repr

/-- What executes a strand (R80, R81). -/
inductive Kind where
  | member
  | frame (call : Nat)
  | finishing (call : Nat)
  deriving DecidableEq, Repr

/-- Which pre-emption handler a strand is in (R330, R339). -/
inductive Phase where
  | run
  | preempt
  | resume
  deriving DecidableEq, Repr

/-- What a parked strand waits for (R52). -/
inductive Park where
  | none
  /-- SIGN.w, on a convergence register (R98) -/
  | signW (c : Nat)
  /-- a collective round (R100) -/
  | collective
  /-- a FREEZE round or its completion (R104) -/
  | freeze
  /-- SLEEP until a time in ns (R94) -/
  | sleep (wakeAt : Nat)
  /-- EVWAIT, with the counter's address, the value it waits for and the counter's place; `hit` once an add has made the condition true (R108) -/
  | evwait (va bound : Addr) (loc pa : Nat) (hit : Bool)
  /-- WAITA on a line, with the time in ns of its timeout; `hit` once the line has been written or woken, `entry` when it is a re-executed log entry (R266) -/
  | waita (line : Nat) (timeout : Option Nat) (hit entry : Bool)
  /-- storage of the core (R67) -/
  | storage
  /-- a page fault that firmware services while the strand waits at the word (R54, R215, R277) -/
  | page (va : Addr) (write fetch : Bool)
  /-- the same, on the header of the tile that a TLDE or TSTE names (R215, R220, R221) -/
  | tile (va : Addr) (write : Bool)
  /-- PDONE (R331) -/
  | pdone
  /-- BPT, with its code, while firmware decides (R328) -/
  | bpt (n : Nat)
  deriving DecidableEq, Repr

/-- What a memory access does to its element (R258, R262, R266, R268). -/
inductive AccKind where
  | load
  | store
  | atomic
  | tagLoad
  | tagStore
  | waita
  | wake
  /-- an element of ALD: accumulator, element, and the tag the accumulator takes (R207) -/
  | accLoad (acc elem : Nat) (int : Bool)
  deriving DecidableEq, Repr

/-- An access that has issued: what to do, where, and how it is ordered (R228..R241). -/
structure Acc where
  id : Nat := 0
  sid : Nat := 0
  uid : Nat := 0
  core : Nat := 0
  ctx : Nat := 0
  /-- issue count and pc of the instruction (R324) -/
  seq : Nat := 0
  pc : Addr := 0
  kind : AccKind := .load
  /-- major opcode and type, for atomics and extension -/
  op : Nat := 0
  ty : Nat := 0
  va : Addr := 0
  width : Nat := 4
  /-- 0 device, 1 peer, 2 host, 3 I/O (R308); 4 the scratchpad of the item, at peer rank * 2^19 + offset (R260) -/
  loc : Nat := 0
  pa : Nat := 0
  pol : Nat := 0
  tg : Bool := false
  /-- the address has been translated: `loc` and `pa` hold (R232), and the level of the leaf (R314) -/
  known : Bool := false
  level : Nat := 0
  /-- first destination register; none for an access without one -/
  dest : Option Nat := none
  data : Nat := 0
  data2 : Nat := 0
  /-- scope of an acquire and of a release: 0 core, 1 device, 2 system, 3 core with promotion (R227) -/
  acq : Option Nat := none
  rel : Option Nat := none
  /-- the old value of an atomic that has executed (R262) -/
  old : Nat := 0
  /-- 0 issued, 1 performed at core scope, 2 an atomic that has executed and whose old value is on its way; a store that performs at home leaves the list (R228) -/
  stage : Nat := 0
  /-- model: the step in which a store reached its core (R228, R229) -/
  at1 : Nat := 0
  /-- the load returns one value for all lanes of the row (R259): the strands it serves, and the strands of the issuing bundle, whose earlier stores it follows -/
  group : List Nat := []
  bundle : List Nat := []
  /-- registers of the group's row that stay general whatever the result (R71) -/
  gens : List Nat := []
  /-- reduction packets a router merged into this one (R241) -/
  merged : List Nat := []
  detred : Bool := false
  /-- WAITA's timeout in ns -/
  timeout : Nat := 0
  /-- the access performed but its response cannot arrive in time is judged from here (R347): time of issue -/
  issued : Nat := 0
  /-- a log entry posted again by REPLAY or firmware keeps the TRET it had when a handler was entered, and counts as exempt if it fails again (R324, R327) -/
  again : Option Nat := none
  /-- model: of a release, since when its strand had acquired at device scope; the strands that have read a store from its core before it was at its home (R229, R230) -/
  relAcq : Nat := 0
  seen : List Nat := []
  /-- one half of a 16-byte access (R226): 1 the lower, 2 the upper; `data2` of a store then holds the other half's data (R336) -/
  half : Nat := 0
  deriving DecidableEq, Repr

/-- An operand-log entry (R324, R336): the access, its fault, whether firmware still services it, whether it is exempt from the run-ahead limits. -/
structure LogEntry where
  acc : Acc := {}
  trap : Trap := ⟨4, 0, 0, 0⟩
  exempt : Bool := false
  /-- TRET as it stood when a handler was entered (R325) -/
  tret : Option Nat := none
  /-- the access has performed although its response never came: it is not performed again (R327, R347) -/
  did : Bool := false
  /-- of a 16-byte access, the one half that has still to perform; none when both have -/
  part : Option Nat := none
  /-- model: a fault that found the log full: it enters it when an entry has been removed, and holds the strand until then (R324; log 108) -/
  late : Bool := false
  deriving DecidableEq, Repr

/-- A fault of an unsettled instruction that is not in the log (R325). -/
structure Pending where
  seq : Nat
  pc : Addr
  trap : Trap
  exempt : Bool := false
  tret : Option Nat := none
  deriving DecidableEq, Repr

/-- Bytes that a strand or an engine has read before it uses them, with their poison (R231, R250): in which step, and what a reader of them then acquired at core scope, the cores whose releases at core scope it observed (R239), and the stores, by strand and number, that have performed over them since (R259). -/
structure Early where
  loc : Nat
  pa : Nat
  bytes : List (Byte × Bool)
  stamp : Nat := 0
  acq : Nat := 0
  rels : List Nat := []
  passed : List (Nat × Nat) := []
  deriving DecidableEq, Repr

/-- A release that has performed at its home (R229, R234, R239): its core, its bytes, since when its strand had acquired at device scope, which it passes on to a strand of its core that reads it, and its scope. -/
structure RelMark where
  core : Nat
  loc : Nat
  uid : Nat
  pa : Nat
  width : Nat
  acq : Nat
  scope : Nat
  deriving DecidableEq, Repr

/-- The lock a strand holds (R261). -/
structure Lock where
  rank : Nat
  bank : Nat
  index : Nat
  deriving DecidableEq, Repr

/-- A result that waits for storage (R67): of a collective, of a parent that resumes, or one that comes to a strand in its resume handler. A scalar or a v destination, the words, whether they are uniform or poisoned, and the number that the strands of one result share. -/
structure Owed where
  id : Nat
  scalar : Bool := false
  dest : Nat
  vals : List Word
  uni : Bool := false
  bad : Bool := false
  /-- the strand's record takes it too: it is due to what the strand did before its resume handler (R326) -/
  record : Bool := false
  deriving DecidableEq, Repr

/-- A REPLAY under way (R327): its issue count, the entry that is performing and the number of its elements, the entries still to run, and the trap of the first that has faulted again. -/
structure Replay where
  seq : Nat
  cur : Option (Nat × Nat) := none
  todo : List Nat := []
  first : Option Trap := none
  deriving DecidableEq, Repr

/-- A strand (R12, R52, R335). -/
structure Strand where
  sid : Nat := 0
  kind : Kind := .member
  uid : Nat := 0
  /-- strand rank (R11), and the peer rank, row and lane that hold it -/
  rank : Nat := 0
  prank : Nat := 0
  row : Nat := 0
  lane : Nat := 0
  pc : Addr := 0
  preds : BitVec 7 := 0
  rstk : List Addr := []
  toks : List Token := List.replicate 8 {}
  crew : Nat := 0
  exited : Bool := false
  /-- it issues nothing any more: a scratchpad access lay outside the allocation (R260), or its core was reset (R345) -/
  disabled : Bool := false
  park : Park := .none
  traph : Bool := false
  phase : Phase := .run
  tr : TrapRegs := {}
  savedTr : TrapRegs := {}
  savedTraph : Bool := false
  savedPark : Park := .none
  log : List LogEntry := []
  faults : List Pending := []
  /-- model: accesses that the log held back when the strand entered a handler, by number, with their TRET (R232, R325; log 105) -/
  behind : List (Nat × Nat) := []
  seq : Nat := 0
  nseq : BitVec 16 := 0
  rstat : Word := 0
  lock : Option Lock := none
  nextRel : Option Nat := none
  /-- model: the MWAIT under way, by its issue count, and the number below which operations are those it waits for (R209) -/
  mwait : Option (Nat × Nat) := none
  /-- model: the TLDE or TSTE whose header page firmware has declined, by its issue count, and the trap that ends it (R215) -/
  refused : Option (Nat × Trap) := none
  /-- model: the block that a REDC held at its word has read, by its issue count (R277) -/
  redc : Option (Nat × List Byte) := none
  /-- model: results that still have to be written; the strand waits for storage until they are (R67) -/
  owed : List Owed := []
  /-- model: the EVWAIT that an add has woken, by its issue count, and the scope at which it acquires (R108) -/
  woken : Option (Nat × Nat) := none
  /-- model: the RJOIN under way: its issue count, its register, and whether the count has read 0 (R112) -/
  rjoin : Option (Nat × Nat × Bool) := none
  /-- model: the step that the strand's reads are no older than, by acquires at device scope and what they pass on, and that of its last acquire at any scope; the last read in program order that has returned, when, from which line of which location, what it acquires at core scope, the cores whose releases at core scope it observed, and whether it was of I/O space (R228, R229, R238, R239, R249) -/
  acqAt : Nat := 0
  syncAt : Nat := 0
  lastId : Nat := 0
  lastRead : Nat := 0
  lastLine : Option (Nat × Nat) := none
  lastAcq : Nat := 0
  lastRels : List Nat := []
  lastIo : Bool := false
  /-- reads that have performed early (R231) -/
  early : List Early := []
  age : Nat := 0
  satAt : Option Nat := none
  yieldFor : Nat := 0
  /-- registers CSAVE copied, with their values, empty and poison bits (R331, R341) -/
  csaved : List (Nat × Word × Bool × Bool) := []
  /-- the saved PC, while a trap that ERET delivered again from the resume handler holds TRPC (R326) -/
  heldPc : Option Addr := none
  /-- model: the REPLAY under way (R327) -/
  replay : Option Replay := none
  /-- a pre-emption came while the strand was in its resume handler and storage was short: it waits for that storage, leaves the handler and takes PREEMPT (R67, R330) -/
  due : Bool := false
  /-- registers the strand's resume handler wrote or CREST restored (R326) -/
  handlerWrote : List Nat := []
  /-- delivery of a fault has begun: the strand issues nothing more (R325) -/
  dooming : Bool := false
  /-- resumed without a resume handler: it first goes on as that handler's ERET would (R326, R339) -/
  eretw : Bool := false
  /-- the register row of a remote frame (R80) -/
  frame : Row := {}
  deriving DecidableEq, Repr

/-- A signature or a contribution in a round (R77, R100): the strand, its issue count and pc, its guard, its value, and for SHFL the source lane. -/
structure Signer where
  sid : Nat
  seq : Nat := 0
  pc : Addr := 0
  guard : Bool := true
  val : Word := 0
  aux : Nat := 0
  /-- model: since when the strand had acquired at device scope (R229) -/
  acq : Nat := 0
  deriving DecidableEq, Repr

/-- A round (R77, R100): its first word, the members still pending, those who signed; and, of the last round that was discarded, the members that have not signed since and the pc of the word that differed (R78). -/
structure Round where
  first : Option Code := none
  pending : List Nat := []
  signers : List Signer := []
  broken : List Nat := []
  brokenPc : Addr := 0
  deriving DecidableEq, Repr

/-- A crew (R76, R338): its convergence registers, its collective sequence and its RCALL counts. -/
structure Crew where
  id : Nat
  rounds : List Round := List.replicate 16 {}
  coll : Round := {}
  counts : List Nat := List.replicate 16 0
  /-- model: the widest scope of the calls that completed on each register, which RJOIN acquires at (R112): 0 none -/
  acqs : List Nat := List.replicate 16 0
  deriving DecidableEq, Repr

/-- The state of a slot (R270). -/
inductive SlotState where
  | empty
  | filling
  | ready
  | draining
  deriving DecidableEq, Repr

/-- A scratchpad slot with its sidecar and tile-table entry (R12, R285), and what of it is poisoned (R341). -/
structure Slot where
  pay : Block := {}
  side : Block := {}
  bitmap : BitVec 16 := 0
  expect : BitVec 16 := 0
  owner : BitVec 13 := 0x1FFF
  cerr : Bool := false
  err : Bool := false
  tref : Bool := false
  fmt : BitVec 4 := 15
  planes : BitVec 4 := 0
  state : SlotState := .ready
  poison : List Nat := []
  deriving DecidableEq, Repr

/-- The number, past the 1,024 bytes of the payload and the 32 of the sidecar, that stands for the tile-table entry in a slot's `poison`. -/
def entryPoison : Nat := 1056

/-- An accumulator: 1,024 elements of 4 bytes and the tag, I32 or FP32 (R206), and its poisoned elements. -/
structure Accum where
  data : Block := {}
  int : Bool := false
  poison : List Nat := []
  deriving DecidableEq, Repr

/-- A signing operation in flight on a rank (R198, R199): the number that its parts on the ranks share, and all signers of its round. -/
structure MatOp where
  id : Nat := 0
  gid : Nat := 0
  word : Code
  signers : List Signer := []
  /-- the row indices MMAG read from its index slot (R204) -/
  gather : List Nat := []
  /-- its MMAG pool checks have passed, or it needs none (R204) -/
  checked : Bool := true
  /-- an access of R199 spoilt its result -/
  spoilt : Bool := false
  /-- when its engine began it, and at the last change of mode the half cycles of work done and the cycles they took (R205) -/
  since : Option Nat := none
  work : Nat := 0
  took : Nat := 0
  deriving DecidableEq, Repr

/-- A peer rank of an item (R65): the core, rows, slots, accumulators, matrix status (R213) and engine queue. -/
structure Rank where
  core : Nat := 0
  rows : List Row := []
  slots : List Slot := []
  accs : List Accum := []
  underscale : Bool := false
  sati : Bool := false
  lastcyc : BitVec 16 := 0
  ops : List MatOp := []
  /-- model: what the operations that have finished pass on to who waits for them (R209, R229) -/
  finAcq : Nat := 0
  deriving DecidableEq, Repr

/-- An entry of the remote function table (R61). -/
structure RemoteFn where
  ofs : Nat
  fregs : Nat
  args : Nat
  rets : Nat
  deriving DecidableEq, Repr

/-- A kernel header (R60) and its function table. -/
structure Kernel where
  addr : Addr := 0
  code : Addr := 0
  codelen : Nat := 0
  entry : Nat := 0
  trapofs : Nat := 0
  resumeofs : Nat := 0
  preemptofs : Nat := 0
  strandsmax : Nat := 0
  privmin : Nat := 0
  tslots : Nat := 0
  scratch : Nat := 0
  accum : Nat := 0
  proreq : Bool := false
  calldepth : Nat := 1
  regs : Nat := 1
  rfs : List RemoteFn := []
  deriving DecidableEq, Repr

/-- Where an item stands (R69, R72, R330..R339). -/
inductive Status where
  | resident
  /-- pre-empting since a time, with the deadline in ns; `evict` for an eviction -/
  | preempting (deadline : Nat) (forced : Bool)
  /-- saved, waiting for re-admission -/
  | saved
  /-- a fault stopped it; it waits for its engines before it ends -/
  | ending (frank : Word)
  /-- a cluster reset has taken one of its ranks: what runs on other clusters goes on until firmware ends it (R345) -/
  | broken
  deriving DecidableEq, Repr

/-- What the save keeps of a register of a row (R337). -/
abbrev SavedRows := List (List Row)

/-- An item (R5, R12, R69). -/
structure Item where
  uid : Nat := 0
  launch : Nat := 0
  ctx : Nat := 1
  kernel : Kernel := {}
  number : Word := 0
  nitem : Word := 0
  pitem : Word := 0xFFFFFFFF
  tlev : Nat := 0
  prologue : Bool := false
  strandsN : Nat := 1
  sregs : List SReg := List.replicate 512 {}
  crews : List Crew := [{ id := 0 }]
  ranks : List Rank := []
  /-- the template it was stamped from, the parent item, the template of its own FREEZE -/
  template : Option Nat := none
  parent : Option Nat := none
  child : Option Nat := none
  /-- the destination of that FREEZE (R72) -/
  childDest : Nat := 0
  /-- a resident item's sub-items are all gone, it may resume (R72) -/
  childDone : Bool := false
  /-- order of admission on its cores (R68) -/
  order : Nat := 0
  faultLow : BitVec 16 := 0xFFFF
  faultN : BitVec 16 := 0
  pforced : Nat := 0
  status : Status := .resident
  /-- record number in the save area (R333) -/
  record : Nat := 0
  savebase : Addr := 0
  /-- the register rows of a saved item, as its record holds them (R332, R337) -/
  saved : SavedRows := []
  /-- model: what the last release of a lock passes on to who takes it next (R236, R261) -/
  lockAcqs : List (Lock × Nat) := []
  /-- model: of an item that a fault ends, its report has been written (R323) -/
  reported : Bool := false
  deriving DecidableEq, Repr

/-- The state of a strand in a template (R69). -/
structure TStrand where
  pc : Addr
  preds : BitVec 7
  rstk : List Addr
  exited : Bool
  deriving DecidableEq, Repr

/-- A template (R69, R70): what FREEZE captured, and how far it has been stamped. -/
structure Template where
  tid : Nat
  launch : Nat
  parent : Option Nat := none
  parentNumber : Word := 0xFFFFFFFF
  level : Nat := 0
  n : Nat := 0
  next : Nat := 0
  ended : Nat := 0
  strands : List TStrand := []
  rows : List (List VReg) := []
  sregs : List Word := []
  slots : List (List Slot) := []
  /-- the word of FREEZE's destination register -/
  dest : Nat := 0
  deriving DecidableEq, Repr

/-- A packet in a launch queue (R54): its 128 bytes, and the issuer's context when LAUNCH brought it. -/
structure Packet where
  bytes : List Byte
  issuer : Option Nat := none
  deriving DecidableEq, Repr

/-- How far the head of a queue has come (R54). -/
inductive HeadState where
  | unchecked
  | checked
  /-- eligible since a time (R73) -/
  | eligible (since : Nat)
  /-- selected as a launch, whose items are being admitted -/
  | selected (lid : Nat)
  deriving DecidableEq, Repr

/-- A launch queue (R54, R56), with the ageing the head has gained (R73). -/
structure Queue where
  packets : List Packet := []
  head : HeadState := .unchecked
  aged : Nat := 0
  reject : BitVec 8 := 0
  rejected : Bool := false
  overrun : Bool := false
  malformed : Bool := false
  deriving DecidableEq, Repr

/-- A launch that the loader accepted (R57, R59, R62). -/
structure Launch where
  lid : Nat := 0
  queue : Nat := 0
  ctx : Nat := 1
  prio : Nat := 0
  prologue : Bool := false
  detred : Bool := false
  strands : Nat := 1
  items : Nat := 1
  args : List Word := []
  doneaddr : Addr := 0
  doneinc : BitVec 64 := 0
  savebase : Addr := 0
  clmask : BitVec 50 := 0
  kernel : Kernel := {}
  /-- peer ranks (R65) and the rows of each -/
  rowsOf : List Nat := [1]
  /-- fresh items admitted, items ended -/
  next : Nat := 0
  ended : Nat := 0
  selected : Nat := 0
  /-- save area (R333), computed at the first admission -/
  recsz : Nat := 0
  nrec : Nat := 0
  prepared : Bool := false
  deriving DecidableEq, Repr

/-- Where a remote call stands (R79..R85, R365). -/
inductive CallPhase where
  | transit
  | waiting
  | running (sid : Nat)
  /-- shipped by a return trap: the frame as it stood -/
  | shipped (f : Strand)
  | finishing (sid : Nat)
  /-- the reply is on its way: words and status (R110) -/
  | replying (vals : List Word) (status : Nat)
  deriving DecidableEq, Repr

/-- An outstanding remote call (R109, R110). -/
structure Call where
  id : Nat := 0
  sid : Nat := 0
  uid : Nat := 0
  /-- the crew named at issue, none once CFREE has dissolved it (R97, R110) -/
  crew : Option Nat := none
  creg : Nat := 0
  fn : RemoteFn := ⟨0, 1, 0, 0⟩
  /-- the function's address, and the caller's context and CALLDEPTH, which the frame keeps -/
  fpc : Addr := 0
  ctx : Nat := 1
  depth : Nat := 1
  /-- DETRED of the caller's launch, which the frame's packets carry (R298) -/
  detred : Bool := false
  target : Addr := 0
  loc : Nat := 0
  peer : Nat := 0
  nmu : Nat := 0
  args : List Word := []
  dest : Nat := 0
  seq : BitVec 16 := 0
  deadline : Nat := 0
  phase : CallPhase := .transit
  /-- the call has completed for the caller: a later reply is discarded (R83) -/
  dead : Bool := false
  deriving DecidableEq, Repr

/-- A tile-view instruction under way (R159..R162, R215). -/
structure TileOp where
  id : Nat
  sid : Nat
  uid : Nat
  ctx : Nat
  core : Nat
  seq : Nat
  pc : Addr
  op : Nat
  fn : Nat := 0
  ty : Nat := 0
  sat : Bool := false
  desc : Addr := 0
  descPa : Nat := 0
  /-- the descriptor as read (R142): FMT, SATMAT, ORD, ROWS, COLS, GRIDCOLS, PAYBASE, HDRBASE -/
  fmt : Nat := 0
  satmat : Bool := false
  ord : Nat := 0
  rows : Nat := 0
  cols : Nat := 0
  grid : Nat := 0
  paybase : Addr := 0
  hdrbase : Addr := 0
  /-- the map N of R151 -/
  mapA : Word := 0
  mapB : Word := 0
  mapLo : Word := 0
  mapHi : Word := 0
  /-- the coordinates, destination, data -/
  row : Nat := 0
  col : Nat := 0
  dest : Nat := 0
  data : Word := 0
  acq : Option Nat := none
  rel : Option Nat := none
  /-- tiles performed, and how far the materialisation of the next one has come: 1 BUSY is set, 2 its payload is rewritten (R160) -/
  doneTiles : Nat := 0
  busy : Nat := 0
  /-- where the header and payload of its tile lie, once translated (for TORD the location of the descriptor), and the header it works on: of a TLDE or TSTE the last valid one since issue (R159, R220, R221) -/
  hdrLoc : Nat := 0
  hdrPa : Nat := 0
  payLoc : Nat := 0
  payPa : Nat := 0
  hold : List Byte := []
  /-- the levels of the leaves that translated them (R314) -/
  hdrLevel : Nat := 0
  payLevel : Nat := 0
  /-- the page it waits for, and the trap that a TLDE or TSTE met at issue and takes when it performs (R215) -/
  want : Option (Addr × Bool) := none
  fail : Option Trap := none
  deriving DecidableEq, Repr

/-- A copy-engine command (R280..R284). -/
structure Copy where
  id : Nat
  sid : Nat
  uid : Nat
  ctx : Nat
  prank : Nat
  tok : Nat
  recordAt : Nat
  words : List Word
  /-- chunks written, whether a fault is being serviced (STATUS 2), whether the command only ends with STATUS 3 (R281), whether an address is host or peer -/
  chunk : Nat := 0
  faulted : Bool := false
  bad : Bool := false
  sys : Bool := false
  /-- the descriptor's 64 bytes (KIND 3, 4), the tiles read and the region elements taken from them: index, pattern, poison (R159, R283) -/
  desc : List Byte := []
  fetched : Nat := 0
  buf : List (Nat × Nat × Bool) := []
  /-- a partial KIND 4 write: how far the materialisation of its tile has come, as in `TileOp`, where header and payload lie, the header it works on; `buf` then holds the elements to write (R160, R283) -/
  busy : Nat := 0
  hdrLoc : Nat := 0
  hdrPa : Nat := 0
  payLoc : Nat := 0
  payPa : Nat := 0
  hold : List Byte := []
  /-- running CRC32C of the bytes written -/
  crc : Word := 0xFFFFFFFF
  early : List Early := []
  /-- model: since when its strand had acquired at device scope as it issued (R229) -/
  acq : Nat := 0
  deriving DecidableEq, Repr

/-- A multicast under way (R272): the ranks still to be delivered, and those whose EMPTY slot its delivery has turned FILLING (R270). -/
structure Mcast where
  id : Nat
  sid : Nat
  uid : Nat
  prank : Nat
  tok : Nat
  src : Nat
  dst : Nat
  todo : List Nat
  arrived : List Nat := []
  dropped : Bool := false
  /-- the strand slot of the command (R285) -/
  owner : BitVec 13 := 0x1FFF
  /-- model: since when its strand had acquired at device scope as it issued (R229) -/
  acq : Nat := 0
  deriving DecidableEq, Repr

/-- A Grinder block as queued (R277, R286): operation, count, translated addresses, flag, the block's own address. -/
structure GBlock where
  op : Nat
  n : Nat
  count : Nat
  srcs : List (List Nat)
  dst : List Nat
  dstOfs : Nat := 0
  srcOfs : List Nat := []
  flag : Nat
  flagval : Word
  block : Nat
  ctx : Nat
  early : List Early := []
  deriving DecidableEq, Repr

/-- A Grinder (R287): the queue, and the block under way with the elements written and whether a source was poisoned. -/
structure Grinder where
  queue : List GBlock := []
  running : Option (GBlock × Nat × Bool) := none
  deriving DecidableEq, Repr

/-- What a channel's controller and the stack's sequencer hand each other of a bank (R288): the next refresh row, and the activation counter. -/
structure Bank where
  nextRow : Nat := 0
  acts : Nat := 0
  deriving DecidableEq, Repr

/-- A DRAM channel (R8, R288..R290): whether it is in compute mode, so that its sequencer holds the refresh state and not its controller, its 32 banks, refreshes postponed, alert counter. -/
structure Channel where
  c : Nat
  compute : Bool := false
  banks : List Bank := List.replicate 32 {}
  postponed : Nat := 0
  alerts : Nat := 0
  deriving DecidableEq, Repr

/-- A command at a drive (R278): its tag, the token it completes, the entry, the pieces of memory it names, the bytes it sent. -/
structure NvCmd where
  cid : Nat
  sid : Nat
  uid : Nat
  tok : Nat
  entry : List Byte
  segs : List (Nat × Nat) := []
  sent : List Byte := []
  early : List Early := []
  deriving DecidableEq, Repr

/-- A storage queue (R291): its descriptor, tail and head, commands in flight. -/
structure NvQueue where
  q : Nat
  live : Bool := false
  port : Nat := 0
  drive : Nat := 0
  nsid : Nat := 0
  lbash : Nat := 9
  depthm1 : Nat := 1
  ctx : Nat := 0
  sqbase : Nat := 0
  cqbase : Nat := 0
  sqdb : Nat := 0
  cqdb : Nat := 0
  crcbase : Nat := 0
  tail : Nat := 0
  head : Nat := 0
  cmds : List NvCmd := []
  deriving DecidableEq, Repr

/-- A long-latency result on its way to its register (R165), or an AGET's (R208). -/
structure Lat where
  id : Nat
  sid : Nat
  dest : Nat
  vals : List Word
  /-- the strands of one issue that cover the row with one value: the result is uniform -/
  group : List Nat := []
  poisoned : Bool := false
  deriving DecidableEq, Repr

/-- A context descriptor as its 64 bytes give it (R299), and firmware's breakpoint policy (R328). -/
structure Ctx where
  root : Nat := 0
  part : BitVec 50 := 0
  pdead : Word := 100
  rcto : Word := 1000
  syswen : BitVec 16 := 0
  live : Bool := false
  debugger : Bool := false
  deriving DecidableEq, Repr

/-- A TLB entry (R310, R311): cluster, the core whose own TLB holds it or none for the cluster's, context, the number of its page and the log of the page's size, and the leaf with its level and address as walked, and the model's number of the step that walked it. -/
structure TlbEntry where
  cluster : Nat
  core : Option Nat := none
  ctx : Nat
  vpn : Nat
  bits : Nat
  walkedAt : Nat
  level : Nat
  at_ : Nat
  pte : BitVec 64
  deriving DecidableEq, Repr

/-- A line in a core's L1 (R223, R238): its 128 bytes, the model's stamp of when it was read, the poisoned bytes (R341), whether a streaming page allocated it, so that it is among the first to be replaced (R309), and the releases whose values it holds (R229). -/
structure L1Line where
  core : Nat
  loc : Nat
  line : Nat
  bytes : List Byte
  stamp : Nat
  poison : List Nat := []
  stream : Bool := false
  marks : List RelMark := []
  deriving DecidableEq, Repr

/-- A cluster (R345, R356): when it was released, whether it is down. -/
structure Cluster where
  released : Option Nat := none
  down : Bool := false
  deriving DecidableEq, Repr

/-- A PCIe port (R349..R352): its role and whether firmware has set it, link, MSI-X enables, vectors sent, thermal cause flag (R358). -/
structure Port where
  root : Bool := false
  set : Bool := false
  up : Bool := false
  msix : BitVec 64 := 0
  sent : List Nat := []
  thermalCause : Bool := false
  deriving DecidableEq, Repr

/-- How far the boot has come (R318): not begun, to fetch again on a port from a time on, image started. -/
inductive Boot where
  | off
  | retry (port due : Nat)
  | started
  deriving DecidableEq, Repr

/-- An access to I/O space as the unit sees it (R249): port, bus address, the value written or none for a read. -/
structure IoAccess where
  port : Nat
  addr : Nat
  width : Nat
  data : Option Nat
  deriving DecidableEq, Repr

/-- An act of a Barista core on device memory (R244): loads, LR and SC, AMOs at the cluster atomic engine (with the opcode and type of the atomic that acts as it does), and FENCE. Its stores are `Env.store`. -/
inductive Barista where
  | load (pa n : Nat)
  | lr (core pa n : Nat)
  | sc (core pa n v : Nat)
  | amo (op ty pa v : Nat)
  | fence
  deriving DecidableEq, Repr

/-- What an SPDM request arrives on (R320): TCP on a management Ethernet port, or the DOE mailbox of a PCIe port. -/
inductive Transport where
  | tcp (port : Nat)
  | doe (port : Nat)
  deriving DecidableEq, Repr

/-- A command whose engine may read a source early (R250): a copy, a block of a Grinder (the running one, then the queue in order), a command at a drive. -/
inductive EngineJob where
  | copy (id : Nat)
  | block (stack k : Nat)
  | nvme (q cid : Nat)
  deriving DecidableEq, Repr

/-- What firmware, the host or a peer does outside the instruction table (13, 14, 15), and what a unit may do early of itself. -/
inductive Env where
  /-- firmware, host or peer stores bytes to device memory at its home (R244, R246, R247) -/
  | store (pa : Nat) (bytes : List Byte)
  /-- the host stores to its own memory, a peer to its own (R245, R246) -/
  | hostStore (pa : Nat) (bytes : List Byte)
  | peerStore (key : Nat) (bytes : List Byte)
  /-- firmware places the context table, writes a context's descriptor, sets its breakpoint policy (R299, R328) -/
  | ctxTable (pa : Nat)
  | context (c : Nat) (d : Ctx)
  | debugger (c : Nat) (on : Bool)
  /-- a Barista core acts on device memory (R244) -/
  | barista (b : Barista)
  /-- a read of a core performs early: its L1 takes the line, of a streaming page or another (R231, R309) -/
  | earlyRead (core loc line : Nat) (stream : Bool)
  /-- a read of a strand performs early, or one read of several: an aligned element of 1, 2, 4 or 8 bytes (R231) -/
  | strandRead (sids : List Nat) (loc pa n : Nat)
  /-- an engine reads an aligned element of 1, 2, 4 or 8 bytes before it uses it (R250, R251, R253) -/
  | engineRead (job : EngineJob) (loc pa n : Nat)
  /-- firmware writes a queue descriptor (R291) -/
  | nvQueue (d : NvQueue)
  /-- firmware names a doorbell's counter (R351) -/
  | doorbell (n : Nat) (pa : Option Nat)
  /-- a host reads BAR0 through an endpoint port (R350) -/
  | barRead (off len : Nat)
  /-- the requester of SPDM messages speaks over another transport (R320) -/
  | spdmVia (t : Transport)
  /-- firmware has rebuilt the translations of a peer whose link is up again (R354) -/
  | peerRestored (peer : Nat)
  /-- firmware ends an item of which a cluster reset took a rank (R345) -/
  | itemReset (uid : Nat)
  /-- firmware declines the trap it sees first in a strand: of a page it does not resolve (R323) -/
  | declineTrap (sid : Nat)
  /-- the image publishes the base of the launch-port page for the Barista cores (R350) -/
  | portPage (base : Option Nat)
  /-- firmware sets a port's role and MSI-X enables (R349, R352), and the device id (R353) -/
  | portRole (port : Nat) (root : Bool)
  | msix (port : Nat) (enable : BitVec 64)
  | deviceId (id : BitVec 12)
  /-- the power alarm is deasserted (R357) -/
  | palertRelease
  /-- firmware extends the attestation log with a component (R319) -/
  | measure (m : BitVec 512)
  deriving DecidableEq, Repr

/-- One act of the machine: a bundle issues its next word, an event of the table happens, or firmware or the host acts. -/
inductive Action where
  | issue (sids : List Nat)
  | event (i : Instr)
  | env (e : Env)
  deriving DecidableEq, Repr, Inhabited

/-- Why the machine stops. -/
inductive Fault where
  /-- Raised by `step` when an issue names no strand that can issue: no act of the machine, so nothing is claimed of it. Safe. -/
  | noSuchStrand
  deriving DecidableEq, Repr

/-- Why the model gives no meaning. -/
inductive Refusal where
  /-- Raised by an arm of `exec` whose instruction is not modelled yet. Safe. -/
  | notModelled (mnemonic : String)
  deriving DecidableEq, Repr

/-- The machine state. -/
structure State where
  /-- model: numbers the steps, the fresh names, the acts to come (log 1, 2) -/
  tick : Nat := 0
  nextId : Nat := 1
  agenda : List Action := []
  bundle : List Nat := []
  /-- device time in 1/17 ns (R14, R191) -/
  now : Nat := 0
  strands : List Strand := []
  items : List Item := []
  templates : List Template := []
  launches : List Launch := []
  queues : List Queue := List.replicate 64 {}
  /-- round-robin pointer of selection (R73), last admitted cluster (R74), time of the last sweep -/
  lastQueue : Nat := 63
  lastCluster : Nat := 49
  lastSweep : Option Nat := none
  calls : List Call := []
  /-- items that have ended, as reported to firmware: launch, ITEM and FAULTM (R91, R323) -/
  exits : List (Nat × Word × Word) := []
  /-- device memory (R224), tags per 32-byte granule (R268), poisoned 64-byte codewords, by number, those of peer and host memory too (R284, R313) -/
  mem : Memory := []
  tags : Memory := []
  poison : List Nat := []
  /-- host memory behind LOC 2 and peer memory behind LOC 1, keyed peer * 2^48 + PA (R308) -/
  host : Memory := []
  peer : Memory := []
  pend : List Acc := []
  l1 : List L1Line := []
  /-- per location and line, the cores whose releases to it at core scope a read of it observes (R239) -/
  lastRel : List (Nat × Nat × Nat) := []
  /-- model: the releases whose values, or release sequences, stand at home (R229, R234, R239) -/
  relMarks : List RelMark := []
  /-- code elements overwritten while a kernel's items are resident: address and old values (R47) -/
  oldCode : List (Nat × List Word) := []
  tileOps : List TileOp := []
  tlb : List TlbEntry := []
  /-- where firmware has put the table of context descriptors (R299; log 90), and the contexts with a debugger attached (R328) -/
  ctxTable : Nat := Config.ctxTableHome
  debuggers : List Nat := []
  /-- reservations of Barista cores: core, address, bytes; and what their last read returned (R244) -/
  reserved : List (Nat × Nat × Nat) := []
  baristaRead : Nat := 0
  copies : List Copy := []
  mcasts : List Mcast := []
  grinders : List Grinder := List.replicate 25 {}
  channels : List Channel := []
  nvqs : List NvQueue := []
  lats : List Lat := []
  clusters : List Cluster := List.replicate 50 {}
  /-- corrected errors counted per core (R341) -/
  corrected : List (Nat × Nat) := []
  /-- the power alarm, from its assertion until the engines leave the mode it brings: since when it has been deasserted, none while it is asserted; firmware's hold (R357); thermal level per die, dies 5 and 6 the I/O dies (R358) -/
  palert : Option (Option Nat) := none
  hold : Bool := false
  thermal : List Nat := List.replicate 7 0
  /-- Twigan links: up and the peer behind it (R354); peers that are down (R346) -/
  links : List (Option Nat) := List.replicate 64 none
  peersDown : List Nat := []
  /-- device id in the fabric (R353) -/
  devId : BitVec 12 := 0
  ports : List Port := List.replicate 2 {}
  /-- where the Barista cores reach the launch-port page (R350) -/
  portPage : Option Nat := none
  /-- doorbell counters (R351) -/
  doorbells : List (Nat × Nat) := []
  boot : Boot := .off
  /-- attestation log and the measurements that extended it (R319) -/
  attest : BitVec 512 := 0
  measures : List (BitVec 512) := []
  /-- what SPDM requests arrive on, answers sent and where, bytes a host read returned, I/O accesses made (R320, R350, R249) -/
  spdmVia : Transport := .tcp 0
  spdm : List (Transport × List Byte) := []
  hostRead : List Byte := []
  ioLog : List IoAccess := []
  deriving DecidableEq, Repr

/-- The machine right after device reset: no item, no launch, nothing in memory, every unit idle. Log 4 names the values the manual does not give. -/
def State.reset : State := {}

end Sys2Proof.Machine

namespace Sys2Proof.Config

/-- Free: which act comes next when the agenda is empty. Log 1. -/
opaque nextAction : Nat → Sys2Proof.Machine.Action

end Sys2Proof.Config
end

