-- ==== Sys2Proof/Machine/Memory.lean ====
section
/-! DEFINITION. Byte stores in canonical form (10 R224, R226; 06 R117), blocks with undefined contents, and element accesses to the spaces of R223. -/

namespace Sys2Proof.Machine

/-- The byte at an address; an unlisted byte reads 0 (log 5). -/
def Memory.get : Memory → Nat → Byte
  | [], _ => 0
  | (x, b) :: m, a => if x = a then b else Memory.get m a

/-- Store one byte, keeping the canonical form: storing 0 removes the entry. -/
def Memory.set : Memory → Nat → Byte → Memory
  | [], a, b => if b = 0 then [] else [(a, b)]
  | (x, y) :: m, a, b =>
    if a < x then (if b = 0 then (x, y) :: m else (a, b) :: (x, y) :: m)
    else if a = x then (if b = 0 then m else (a, b) :: m)
    else (x, y) :: Memory.set m a b

/-- The canonical form: addresses strictly rising, no entry that reads as an unlisted byte. -/
def Memory.wf : Memory → Bool
  | [] => true
  | [(_, b)] => b != 0
  | (a, b) :: (x, y) :: m => b != 0 && decide (a < x) && Memory.wf ((x, y) :: m)

/-- The bytes from an address on. -/
def Memory.bytes (m : Memory) (a n : Nat) : List Byte := (List.range n).map fun i => m.get (a + i)

/-- The little-endian number in the bytes from an address on (R117). -/
def Memory.num (m : Memory) (a n : Nat) : Nat := ofLeBytes (m.bytes a n)

/-- Store bytes from an address on. -/
def Memory.store : Memory → Nat → List Byte → Memory
  | m, _, [] => m
  | m, a, b :: bs => Memory.store (m.set a b) (a + 1) bs

/-- Store the low n bytes of a number, little-endian. -/
def Memory.put (m : Memory) (a n x : Nat) : Memory := m.store a (leBytes n x)

/-- A byte of a block: an unlisted byte reads 0, or a free value when the contents are undefined. -/
def Block.get (b : Block) (i : Nat) : Byte :=
  match b.free with
  | none => Memory.get b.cells i
  | some n => match b.cells.find? fun c => c.1 == i with
    | some c => c.2
    | none => Config.freeByte n i

/-- Store a byte in a block. -/
def Block.set (b : Block) (i : Nat) (x : Byte) : Block :=
  match b.free with
  | none => { b with cells := Memory.set b.cells i x }
  | some _ => { b with cells := (i, x) :: b.cells.filter fun c => c.1 != i }

def Block.num (b : Block) (i n : Nat) : Nat := ofLeBytes ((List.range n).map fun k => b.get (i + k))

def Block.store : Block → Nat → List Byte → Block
  | b, _, [] => b
  | b, i, x :: xs => Block.store (b.set i x) (i + 1) xs

def Block.put (b : Block) (i n x : Nat) : Block := b.store i (leBytes n x)

/-- A block of undefined contents, numbered by the step that made it so. -/
def Block.undef (n : Nat) : Block := { free := some n }

/-- The key of a byte in peer memory: the peer's device id above its physical address. -/
def peerKey (peer pa : Nat) : Nat := peer * 2 ^ 48 + pa

/-- The bytes at the home of a location: device, peer (pa is a peerKey) or host memory (R223, R308). -/
def State.homeBytes (s : State) (loc pa n : Nat) : List Byte :=
  match loc with
  | 0 => s.mem.bytes pa n
  | 1 => s.peer.bytes pa n
  | _ => s.host.bytes pa n

/-- The number at the home of a location. -/
def State.homeNum (s : State) (loc pa n : Nat) : Nat := ofLeBytes (s.homeBytes loc pa n)

/-- Store bytes at the home of a location. -/
def State.homeStore (s : State) (loc pa : Nat) (bs : List Byte) : State :=
  match loc with
  | 0 => { s with mem := s.mem.store pa bs }
  | 1 => { s with peer := s.peer.store pa bs }
  | _ => { s with host := s.host.store pa bs }

/-- An element that has been read early, as one read (R231, R250): its bytes, from the newest such read. -/
def earlyBytes (es : List Early) (loc pa n : Nat) : Option (List (Byte × Bool)) :=
  (es.find? fun e => e.loc == loc && decide (e.pa ≤ pa) && decide (pa + n ≤ e.pa + e.bytes.length)).map fun e => (e.bytes.drop (pa - e.pa)).take n

/-- Early reads without those of some bytes. -/
def earlyWithout (es : List Early) (loc pa n : Nat) : List Early :=
  es.filter fun e => !(e.loc == loc && decide (e.pa < pa + n) && decide (pa < e.pa + e.bytes.length))

/-- The tag of the granule of a device address (R268, R313). -/
def State.tagAt (s : State) (pa : Nat) : Nat := (s.tags.get (pa / 32)).toNat % 16

/-- The number of the 64-byte codeword of an address (R313): those of peer and host memory, which poison that an engine brings there can reach (R284, R341), follow those of device memory. -/
def codeword (loc pa : Nat) : Nat := loc * 2 ^ 64 + pa / 64

/-- Whether bytes of a location meet a poisoned codeword (R313, R341). -/
def State.poisonedIn (s : State) (loc pa n : Nat) : Bool := s.poison.any fun c => decide (codeword loc pa ≤ c ∧ c ≤ codeword loc (pa + n - 1))

/-- The same of device memory. -/
def State.poisonedAt (s : State) (pa n : Nat) : Bool := s.poisonedIn 0 pa n

/-- POISON of data in memory (R341): code 5 of device memory, 6 of peer or host memory. -/
def memPoison (loc : Nat) : Trap := ⟨0x0C, if loc = 0 then 5 else 6, 0, 0⟩

end Sys2Proof.Machine
end

