-- ==== Sys2Proof/Machine/Access.lean ====
section
/-! DEFINITION. Accessors of the state: strands, items, ranks, rows, registers, slots, accumulators (01 R12; 08 R163..R167), the numbering of R11, and the pools of R63..R67. -/

namespace Sys2Proof.Machine

/-- Replace the entry at an index, extending the list with a default when it is shorter. -/
def setAt {α : Type} (l : List α) (i : Nat) (v d : α) : List α :=
  if i < l.length then l.set i v else l ++ List.replicate (i - l.length) d ++ [v]

/-- The strand of a number. -/
def State.strand? (s : State) (sid : Nat) : Option Strand := s.strands.find? fun x => x.sid == sid

def State.st (s : State) (sid : Nat) : Strand := (s.strand? sid).getD {}

def State.setSt (s : State) (sid : Nat) (f : Strand → Strand) : State :=
  { s with strands := s.strands.map fun x => if x.sid = sid then f x else x }

def State.item? (s : State) (uid : Nat) : Option Item := s.items.find? fun x => x.uid == uid

def State.it (s : State) (uid : Nat) : Item := (s.item? uid).getD {}

def State.setIt (s : State) (uid : Nat) (f : Item → Item) : State :=
  { s with items := s.items.map fun x => if x.uid = uid then f x else x }

def State.launch? (s : State) (lid : Nat) : Option Launch := s.launches.find? fun x => x.lid == lid

def State.la (s : State) (lid : Nat) : Launch := (s.launch? lid).getD {}

def State.setLa (s : State) (lid : Nat) (f : Launch → Launch) : State :=
  { s with launches := s.launches.map fun x => if x.lid = lid then f x else x }

def State.call? (s : State) (id : Nat) : Option Call := s.calls.find? fun x => x.id == id

def State.setCall (s : State) (id : Nat) (f : Call → Call) : State :=
  { s with calls := s.calls.map fun x => if x.id = id then f x else x }

def State.template? (s : State) (tid : Nat) : Option Template := s.templates.find? fun x => x.tid == tid

def State.setTemplate (s : State) (tid : Nat) (f : Template → Template) : State :=
  { s with templates := s.templates.map fun x => if x.tid = tid then f x else x }

/-- A number in the 64-byte descriptor of a context (R299). -/
def State.ctxNum (s : State) (c o n : Nat) : Nat := s.mem.num (s.ctxTable + 64 * c + o) n

/-- A context, as its entry of the table in device memory stands (R299); context 0 is never live. -/
def State.ctx (s : State) (c : Nat) : Ctx where
  root := s.ctxNum c 24 8
  part := BitVec.ofNat 50 (s.ctxNum c 16 8)
  pdead := BitVec.ofNat 32 (s.ctxNum c 12 4)
  rcto := BitVec.ofNat 32 (s.ctxNum c 8 4)
  syswen := BitVec.ofNat 16 (s.ctxNum c 4 2)
  live := bitN (s.ctxNum c 0 4) 0 && c != 0
  debugger := s.debuggers.contains c

/-- The bytes of a descriptor (R299). -/
def Ctx.bytes (d : Ctx) : List Byte :=
  leBytes 4 (b01 d.live) ++ leBytes 4 d.syswen.toNat ++ leBytes 4 d.rcto.toNat ++ leBytes 4 d.pdead.toNat ++ leBytes 8 d.part.toNat ++ leBytes 8 d.root
    ++ List.replicate 32 0

/-- Write fields of a context's descriptor: the device's own writes to the table. -/
def State.setCtx (s : State) (c : Nat) (f : Ctx → Ctx) : State := { s with mem := s.mem.store (s.ctxTable + 64 * c) (f (s.ctx c)).bytes }

def State.rank (s : State) (uid p : Nat) : Rank := (s.it uid).ranks.getD p {}

def State.setRank (s : State) (uid p : Nat) (f : Rank → Rank) : State :=
  s.setIt uid fun it => { it with ranks := it.ranks.modify p f }

def State.slot (s : State) (uid p x : Nat) : Slot := (s.rank uid p).slots.getD x {}

def State.setSlot (s : State) (uid p x : Nat) (f : Slot → Slot) : State :=
  s.setRank uid p fun r => { r with slots := r.slots.modify x f }

def State.accum (s : State) (uid p a : Nat) : Accum := (s.rank uid p).accs.getD a {}

def State.setAccum (s : State) (uid p a : Nat) (f : Accum → Accum) : State :=
  s.setRank uid p fun r => { r with accs := r.accs.modify a f }

/-- NSTIME (R191). -/
def State.nstime (s : State) : Nat := s.now / Config.perNs

/-- A fresh number. -/
def State.fresh (s : State) : Nat × State := (s.nextId, { s with nextId := s.nextId + 1 })

/-- A word of any value (R199, R370): the k-th of the step. -/
def State.anyWord (s : State) (k : Nat) : Word := Config.freeWord (s.tick * 65536 + k)

/-- Whether the strand runs at an NMU (R80). -/
def Strand.isFrame (st : Strand) : Bool :=
  match st.kind with
  | .frame _ => true
  | _ => false

def Strand.isFinishing (st : Strand) : Bool :=
  match st.kind with
  | .finishing _ => true
  | _ => false

def Strand.call (st : Strand) : Option Nat :=
  match st.kind with
  | .member => none
  | .frame c => some c
  | .finishing c => some c

-- R11
def clusterOf (core : Nat) : Nat := core / 20
def dieOf (core : Nat) : Nat := core / 200
def channelOf (pa : Nat) : Nat := pa / 4096 % 1000
def stackOf (pa : Nat) : Nat := channelOf pa / 40
def nmuOf (pa : Nat) : Nat := channelOf pa / 4

/-- The core of a strand. A frame's accesses go to their homes (R248): its NMU is numbered above the cores. -/
def State.coreOf (s : State) (st : Strand) : Nat :=
  match st.kind with
  | .frame c => Config.cores + ((s.call? c).map (·.nmu)).getD 0
  | _ => (s.rank st.uid st.prank).core

/-- The cluster whose walker, TLB and watch table serve a strand; for a frame, the cluster its NMU's channels belong to. -/
def State.clusterFor (s : State) (st : Strand) : Nat :=
  match st.kind with
  | .frame c => match s.call? c with
    | some c => clusterOf (4 * c.nmu)
    | none => 0
  | _ => clusterOf (s.coreOf st)

/-- The context of a strand; a frame keeps its caller's (R80). -/
def State.ctxOf (s : State) (st : Strand) : Nat :=
  match st.kind with
  | .frame c => ((s.call? c).map (·.ctx)).getD 1
  | _ => (s.it st.uid).ctx

/-- CALLDEPTH of a strand (R88). -/
def State.depthOf (s : State) (st : Strand) : Nat :=
  match st.kind with
  | .frame c => ((s.call? c).map (·.depth)).getD 1
  | _ => (s.it st.uid).kernel.calldepth

/-- The row of registers a strand uses. -/
def State.rowOf (s : State) (st : Strand) : Row :=
  if st.isFrame then st.frame else (s.rank st.uid st.prank).rows.getD st.row {}

def State.setRow (s : State) (st : Strand) (f : Row → Row) : State :=
  if st.isFrame then s.setSt st.sid fun x => { x with frame := f x.frame }
  else s.setRank st.uid st.prank fun r => { r with rows := r.rows.modify st.row f }

/-- Whether two strands share a row. -/
def sameRow (a b : Strand) : Bool :=
  if a.isFrame || b.isFrame then a.sid == b.sid
  else a.uid == b.uid && a.prank == b.prank && a.row == b.row

def Row.reg (r : Row) (i : Nat) : VReg := r.regs.getD i {}

def Row.setReg (r : Row) (i : Nat) (v : VReg) : Row := { r with regs := setAt r.regs i v {} }

/-- The value a shape gives a lane, with the reading item's ITEM (R70, R163..R167). -/
def Shape.at (sh : Shape) (item : Word) (lane : Nat) : Word :=
  match sh with
  | .uniform v => v
  | .affine b l i => b + BitVec.ofNat 32 lane * l + item * i
  | .general ws => ws.getD lane 0

def Shape.isUniform : Shape → Bool
  | .uniform _ => true
  | _ => false

/-- The value of a v register in a strand's lane. -/
def State.vreg (s : State) (st : Strand) (i : Nat) : Word :=
  ((s.rowOf st).reg i).shape.at (s.it st.uid).number st.lane

/-- The value of a scalar register (R164). -/
def State.sreg (s : State) (st : Strand) (i : Nat) : Word := ((s.it st.uid).sregs.getD i {}).val

/-- A predicate; p7 reads true (R35). -/
def Strand.pred (st : Strand) (i : Nat) : Bool := if i ≥ 7 then true else st.preds.getLsbD i

def Strand.setPred (st : Strand) (i : Nat) (b : Bool) : Strand :=
  { st with preds := BitVec.ofNat 7 (maskOf 7 fun k => if k = i then b else st.preds.getLsbD k) }

/-- Whether the guard of a word reads true in a strand (R20). -/
def Strand.guard (st : Strand) (g : Guard) : Bool := st.pred g.p.toNat != g.neg

/-- The register limits the encoding check uses for a strand (R38): the kernel's, or the remote function's registers. -/
def State.limitsOf (s : State) (st : Strand) : Limits :=
  let k := (s.it st.uid).kernel
  let regs := match st.call with
    | some c => match s.call? c with
      | some c => c.fn.fregs
      | none => k.regs
    | none => k.regs
  ⟨regs, k.scratch, k.accum⟩

-- R63..R67: the pools

/-- Register words and shape-store entries a private register takes (R63). -/
def VReg.words (v : VReg) : Nat := if v.tref then 0 else
  match v.shape with
  | .general _ => 32
  | _ => 0

def VReg.entries (v : VReg) : Nat := if v.tref then 0 else
  match v.shape with
  | .uniform x => if x = 0 then 0 else 1
  | .affine _ _ _ => 1
  | .general _ => 0

/-- What a core's pools give out: register words, shape entries, scalar words, slots, accumulators, rows. -/
structure Use where
  words : Nat := 0
  entries : Nat := 0
  scalars : Nat := 0
  slots : Nat := 0
  accs : Nat := 0
  rows : Nat := 0
  deriving DecidableEq, Repr

def Use.add (a b : Use) : Use :=
  ⟨a.words + b.words, a.entries + b.entries, a.scalars + b.scalars, a.slots + b.slots, a.accs + b.accs, a.rows + b.rows⟩

/-- The sum of a measure over the registers of rows. -/
def sumRegs (f : VReg → Nat) (rows : List (List VReg)) : Nat := ((rows.map fun r => (r.map f).sum)).sum

/-- What one peer rank of an item takes on its core (R64, R67): register words come first from the PRIVMIN reservation. -/
def Item.useOf (it : Item) (r : Rank) : Use where
  words := max it.kernel.privmin (sumRegs VReg.words (r.rows.map (·.regs)))
  entries := sumRegs VReg.entries (r.rows.map (·.regs))
  scalars := if it.template.isSome then (it.sregs.filter (·.own)).length else 512
  slots := (r.slots.filter fun x => !x.tref).length
  accs := r.accs.length
  rows := (r.rows.filter fun w => !(w.fin && w.regs.isEmpty)).length

/-- Whether an item still references its template's scalar registers (R70, R71). -/
def Item.refsScalars (it : Item) : Bool := it.template.isSome && it.sregs.any fun x => !x.own

/-- Whether an item still references its template's v registers or slots of a rank (R70, R71). -/
def Item.refsShare (it : Item) (r : Rank) : Bool := it.template.isSome && (r.slots.any (·.tref) || r.rows.any fun w => w.regs.any (·.tref))

/-- Whether a rank still references its template's storage (R70). -/
def Item.refsTemplate (it : Item) (r : Rank) : Bool := it.refsScalars || it.refsShare r

/-- What a template's copy of the registers and slots of one peer rank takes (R64, R70). -/
def Template.useOf (t : Template) (p : Nat) (rowsOf : List Nat) : Use :=
  let from_ := ((rowsOf.take p)).sum
  let rows := (t.rows.drop from_).take (rowsOf.getD p 0)
  { words := sumRegs VReg.words rows, entries := sumRegs VReg.entries rows, slots := (t.slots.getD p []).length }

/-- The ranks of resident items on a core, with their item and rank number. -/
def State.ranksOn (s : State) (core : Nat) : List (Item × Nat × Rank) :=
  (s.items.filter fun it => it.status != .saved).flatMap fun it => (it.ranks.zipIdx.filter fun x => x.1.core == core).map fun x => (it, x.2, x.1)

/-- What a core gives out: its items' ranks, and of each template they reference one copy of its scalars and of the registers and slots of their peer ranks (R64, R70). A copy stands whole while two items reference it; of one that a single item still references, what it references (R68). -/
def State.useOn (s : State) (core : Nat) : Use :=
  let rs := s.ranksOn core
  let own := rs.foldl (fun (u : Use) x => u.add (x.1.useOf x.2.2)) {}
  let users := rs.filter fun x => x.1.refsTemplate x.2.2
  let shared := fun (it : Item) => users.any fun x => x.1.template == it.template && x.1.uid != it.uid
  let shares := (users.filterMap fun x => if shared x.1 || x.1.refsShare x.2.2 then x.1.template.map fun t => (t, x.2.1, x.1.launch) else none).eraseDups
  let scalars := (users.filterMap fun x => if shared x.1 || x.1.refsScalars then x.1.template else none).eraseDups
  let u : Use := shares.foldl (fun (u : Use) t => match s.template? t.1 with
    | some tm => u.add (tm.useOf t.2.1 (s.la t.2.2).rowsOf)
    | none => u) own
  { u with scalars := u.scalars + 512 * scalars.length }

def Use.within (u : Use) : Bool :=
  u.words ≤ Config.regWords && u.entries ≤ Config.shapeEntries && u.scalars ≤ Config.scalarWords && u.slots ≤ Config.slots
    && u.accs ≤ Config.accs && u.rows ≤ Config.rows

/-- Each pool stays within its size, or gives out no more than before. -/
def Use.okAfter (before after : Use) : Bool :=
  (after.words ≤ Config.regWords || after.words ≤ before.words) && (after.entries ≤ Config.shapeEntries || after.entries ≤ before.entries)
    && (after.scalars ≤ Config.scalarWords || after.scalars ≤ before.scalars) && (after.slots ≤ Config.slots || after.slots ≤ before.slots)
    && (after.rows ≤ Config.rows || after.rows ≤ before.rows)

/-- A rank whose template registers and slots become its own. -/
def Rank.owned (r : Rank) : Rank :=
  { r with
    slots := r.slots.map fun x => { x with tref := false }
    rows := r.rows.map fun w => { w with regs := w.regs.map fun v => { v with tref := false } } }

/-- An item that takes template storage over: the registers and slots of a rank, and its scalars. -/
def Item.taking (it : Item) (scalars : Bool) (p : Nat) : Item :=
  { it with
    sregs := if scalars then it.sregs.map fun x => { x with own := true } else it.sregs
    ranks := it.ranks.modify p Rank.owned }

/-- The last reference to a core's copy of a template takes it over in place (R68, R70): the rank's registers and slots where no other item on the core references the copy, the item's scalars where that holds on each of its cores: DEDUCED (log 119). -/
def State.takeover (s : State) (uid p : Nat) : State :=
  let it := s.it uid
  let alone := fun (core : Nat) => (s.ranksOn core).all fun x => x.1.uid == uid || x.1.template != it.template || !x.1.refsTemplate x.2.2
  if it.template.isNone || !alone (s.rank uid p).core then s
  else s.setIt uid fun x => x.taking (it.ranks.all fun r => alone r.core) p

/-- An item that has come to be the only one to reference a template's storage on a core takes it over (R68, R70). -/
def State.handover (s : State) (core : Nat) (template : Option Nat) : State :=
  if template.isNone then s
  else ((s.ranksOn core).filter fun x => x.1.template == template && x.1.refsTemplate x.2.2).foldl (fun s x => s.takeover x.1.uid x.2.1) s

/-- After a change by which a rank may have written its last template register: the storage goes to the one that still references it (R68). -/
def State.handedOver (before after : State) (uid p : Nat) : State :=
  if (before.it uid).refsTemplate (before.rank uid p) && !(after.it uid).refsTemplate (after.rank uid p) then after.handover (before.rank uid p).core (before.it uid).template else after

/-- A change that may draw storage (R67): done when the core's pools allow it, if need be after the last reference takes its template over; none when storage is short. -/
def State.grow (s : State) (uid p : Nat) (f : State → State) : Option State :=
  let core := (s.rank uid p).core
  let before := s.useOn core
  let s1 := f s
  if before.okAfter (s1.useOn core) then some (State.handedOver s s1 uid p)
  else
    let s2 := f (s.takeover uid p)
    if before.okAfter (s2.useOn core) then some s2 else none

-- register writes

/-- Whether a register still stands in a general register of the template (R71): its private copy is general whatever the write. -/
def VReg.generalTref (v : VReg) : Bool :=
  match v.shape with
  | .general _ => v.tref
  | _ => false

/-- A v register after some lanes are written (R71, R167): a covering write takes the given shape, but for the first write over a general template register; any other makes it general, the other lanes keeping their values. -/
def VReg.write (v : VReg) (item : Word) (cov : Bool) (hint : Option Shape) (lanes : List (Nat × Word)) : VReg :=
  let clear := BitVec.ofNat 32 (maskOf 32 fun L => !(lanes.any fun x => x.1 == L))
  match (if cov && !v.generalTref then hint else none) with
  | some sh => { shape := sh, empty := v.empty &&& clear }
  | none =>
    { shape := .general ((List.range 32).map fun L => match lanes.find? fun x => x.1 == L with
        | some x => x.2
        | none => v.shape.at item L)
      empty := v.empty &&& clear
      poison := v.poison &&& clear }

/-- Whether lanes cover a row (R167): every lane is among them or holds no live strand. -/
def State.covers (s : State) (st : Strand) (lanes : List Nat) : Bool :=
  st.isFrame || s.strands.all fun x => !(sameRow x st) || x.exited || lanes.contains x.lane

/-- In a frame a shape is uniform or general (R80). -/
def Shape.forFrame (fr : Bool) (sh : Shape) (item : Word) : Shape :=
  match fr, sh with
  | true, .affine b l i => .general ((List.range 32).map fun L => (Shape.affine b l i).at item L)
  | _, sh => sh

/-- Copies that CSAVE made of empty registers, once the results have arrived (R85, R331). -/
def fillCopies (copies : List (Nat × Word × Bool × Bool)) (d n : Nat) (vals : List Word) : List (Nat × Word × Bool × Bool) :=
  copies.map fun c => if c.2.2.1 ∧ d ≤ c.1 ∧ c.1 < d + n then (c.1, vals.getD (c.1 - d) 0, false, false) else c

/-- Write words to consecutive v registers of one row, for some of its strands; `hint` is the shape of a covering write. A strand in its resume handler has written them (R326); in a pre-empt handler a result fills what CSAVE copied as empty. -/
def State.writeV (s : State) (st : Strand) (d : Nat) (writers : List (Strand × List Word)) (hint : Nat → Option Shape) (n : Nat) : State :=
  let item := (s.it st.uid).number
  let cov := s.covers st (writers.map fun x => x.1.lane)
  let s := s.setRow st fun row => (List.range n).foldl (fun row j =>
    row.setReg (d + j) ((row.reg (d + j)).write item cov ((hint j).map fun sh => sh.forFrame st.isFrame item)
      (writers.map fun x => (x.1.lane, x.2.getD j 0)))) row
  writers.foldl (fun s x => match x.1.phase with
    | .resume => s.setSt x.1.sid fun y => { y with handlerWrote := (List.range n).map (d + ·) ++ y.handlerWrote }
    | .preempt => s.setSt x.1.sid fun y => { y with csaved := fillCopies y.csaved d n x.2 }
    | .run => s) s

/-- Write words into registers of a row in one lane. -/
def Row.putLane (row : Row) (item : Word) (lane d : Nat) (vals : List Word) : Row :=
  vals.zipIdx.foldl (fun row x => row.setReg (d + x.2) ((row.reg (d + x.2)).write item false none [(lane, x.1)])) row

/-- A row of a record once words are written into the raw forms of registers, in one lane (R85, R337). A register that no handler saved takes its raw form then: the model's choice (log 87). -/
def Row.putRaw (row : Row) (item : Word) (lane d : Nat) (vals : List Word) : Row :=
  (List.range vals.length).foldl (fun row j => row.setReg (d + j) { row.reg (d + j) with raw := true }) (row.putLane item lane d vals)

/-- Write words into the saved registers of a strand, in its lane, full (R85). -/
def State.fillSaved (s : State) (st : Strand) (d : Nat) (vals : List Word) : State :=
  s.setIt st.uid fun it =>
    { it with saved := it.saved.modify st.prank fun rows => rows.modify st.row fun row => row.putRaw it.number st.lane d vals }

/-- Write one scalar register (R164): a template's register is copied first (R71). -/
def State.writeS (s : State) (uid d : Nat) (x : Word) : State :=
  s.setIt uid fun it => { it with sregs := setAt it.sregs d { val := x } {} }

/-- Mark registers empty in a strand's lane (R165). -/
def State.markEmpty (s : State) (st : Strand) (regs : List Nat) : State :=
  s.setRow st fun row => regs.foldl (fun row d => row.setReg d { (row.reg d) with empty := (row.reg d).empty ||| BitVec.ofNat 32 (2 ^ st.lane) }) row

/-- Mark registers full in a strand's lane. -/
def State.markFull (s : State) (st : Strand) (regs : List Nat) : State :=
  s.setRow st fun row => regs.foldl (fun row d =>
    row.setReg d { (row.reg d) with empty := (row.reg d).empty &&& ~~~ BitVec.ofNat 32 (2 ^ st.lane) }) row

/-- Mark a register poisoned in a strand's lane (R341). -/
def State.markPoison (s : State) (st : Strand) (i : Nat) : State :=
  s.setRow st fun row => row.setReg i { (row.reg i) with poison := (row.reg i).poison ||| BitVec.ofNat 32 (2 ^ st.lane) }

/-- Whether a register is empty in a strand's lane. -/
def State.isEmpty (s : State) (st : Strand) (i : Nat) : Bool := ((s.rowOf st).reg i).empty.getLsbD st.lane

/-- Whether a register is poisoned for a strand (R341, R342). -/
def State.isPoisoned (s : State) (st : Strand) (i : Nat) : Bool := ((s.rowOf st).reg i).poison.getLsbD st.lane

end Sys2Proof.Machine
end

