-- ==== Sys2Proof/Machine/Num.lean ====
section
/-! DEFINITION. Exact values and the helper functions of 06 R114..R139: formats, widening, the one rounding, integer conversion, the exact operations, the order of sums, the approximate functions, quantisation. -/

namespace Sys2Proof.Machine

/-- An exact value (R124): NaN, infinity, or sign, magnitude and binary exponent. An irrational value stands as a dyadic that lies strictly between the same two dyadics with two fewer bits, so every rounding of it is that of the value itself (log 12). -/
inductive Val where
  | nan
  | inf (neg : Bool)
  | fin (neg : Bool) (m : Nat) (e : Int)
  deriving DecidableEq, Repr

/-- A floating-point format (R114): exponent bits, fraction bits, bias, the magnitude pattern of the largest finite value, whether it has infinities, its canonical NaN. -/
structure Fmt where
  eb : Nat
  mb : Nat
  bias : Nat
  maxf : Nat
  hasInf : Bool
  canon : Nat
  deriving DecidableEq, Repr

def fp32 : Fmt := ⟨8, 23, 127, 0x7F7FFFFF, true, 0x7FC00000⟩
def fp16 : Fmt := ⟨5, 10, 15, 0x7BFF, true, 0x7E00⟩
def bf16 : Fmt := ⟨8, 7, 127, 0x7F7F, true, 0x7FC0⟩
def e4m3 : Fmt := ⟨4, 3, 7, 0x7E, false, 0x7F⟩
def e5m2 : Fmt := ⟨5, 2, 15, 0x7B, true, 0x7F⟩

/-- The format of a TY code 8..12; other codes are no floating-point format of R114 and read as FP32. -/
def fmtOf (ty : Nat) : Fmt :=
  match ty with
  | 9 => fp16
  | 10 => bf16
  | 11 => e4m3
  | 12 => e5m2
  | _ => fp32

/-- Whether a TY code is one of the five formats of R114. -/
def isFp (ty : Nat) : Bool := 8 ≤ ty && ty ≤ 12

/-- The width of a format in bits. -/
def Fmt.width (f : Fmt) : Nat := 1 + f.eb + f.mb

/-- The sign bit's weight. -/
def Fmt.signBit (f : Fmt) : Nat := 2 ^ (f.eb + f.mb)

/-- The magnitude pattern of infinity, in a format that has one. -/
def Fmt.infMag (f : Fmt) : Nat := (2 ^ f.eb - 1) * 2 ^ f.mb

/-- The canonical NaN (R114). -/
def Fmt.nan (f : Fmt) : Nat := f.canon

/-- The exponent of the smallest normal value. -/
def Fmt.emin (f : Fmt) : Int := 1 - (f.bias : Int)

/-- widen(x): the exact value of an encoding (R115). Bits above the format's width are ignored. -/
def widenF (f : Fmt) (x : Nat) : Val :=
  let neg := bitN x (f.eb + f.mb)
  let mag := x % f.signBit
  if mag > f.maxf then (if f.hasInf ∧ mag = f.infMag then .inf neg else .nan)
  else
    let e := mag / 2 ^ f.mb
    let fr := mag % 2 ^ f.mb
    if e = 0 then .fin neg fr (f.emin - (f.mb : Int))
    else .fin neg (2 ^ f.mb + fr) ((e : Int) - (f.bias : Int) - (f.mb : Int))

/-- widen of an E8M0 scale (R116). -/
def widenE8 (x : Nat) : Val :=
  if x % 256 = 255 then .nan else .fin false 1 ((x % 256 : Nat) - 127 : Int)

/-- widen of an integer (R117). -/
def ofInt (z : Int) : Val := .fin (z < 0) z.natAbs 0

/-- The rounding modes (R120). -/
inductive Mode where
  | rne | rtz | rup | rdn | rna
  deriving DecidableEq, Repr

/-- The mode a MODW RND field names, with the instruction's default (R44). -/
def Mode.ofRnd (r : Nat) (dflt : Mode := .rne) : Mode :=
  match r with
  | 1 => .rne
  | 2 => .rtz
  | 3 => .rup
  | 4 => .rdn
  | 5 => .rna
  | _ => dflt

/-- The magnitude m * 2^e rounded to an integer under a mode, for a value of the given sign (R120). -/
def roundMag (mode : Mode) (neg : Bool) (m : Nat) (e : Int) : Nat :=
  if 0 ≤ e then m * 2 ^ e.toNat
  else
    let k := (-e).toNat
    let n := m / 2 ^ k
    let rem := m % 2 ^ k
    let half := 2 ^ (k - 1)
    let up := match mode with
      | .rne => rem > half || (rem == half && n % 2 == 1)
      | .rtz => false
      | .rup => !neg && rem != 0
      | .rdn => neg && rem != 0
      | .rna => rem ≥ half
    if up then n + 1 else n

/-- A rounded result in a format: the magnitude pattern with its sign, an infinity, or NaN. -/
inductive Rd where
  | nan
  | inf (neg : Bool)
  | fin (neg : Bool) (mag : Nat)
  deriving DecidableEq, Repr

/-- round_prec (R125), with the overflow table of R121. -/
def roundPrec (f : Fmt) (y : Val) (p : Nat) (mode : Mode) : Rd :=
  match y with
  | .nan => .nan
  | .inf n => .inf n
  | .fin n m e =>
    if m = 0 then .fin n 0
    else
      let ex := max ((m.log2 : Int) + e) f.emin
      let q := ex - (p : Int)
      let k := roundMag mode n m (e - q)
      let mag := (ex - f.emin).toNat * 2 ^ f.mb + k * 2 ^ (f.mb - p)
      if mag > f.maxf then
        match mode with
        | .rne | .rna => .inf n
        | .rtz => .fin n f.maxf
        | .rup => if n then .fin n f.maxf else .inf n
        | .rdn => if n then .inf n else .fin n f.maxf
      else .fin n mag

/-- round_to (R125). -/
def roundTo (f : Fmt) (y : Val) (mode : Mode) : Rd := roundPrec f y f.mb mode

/-- The encoding of a rounded result; an infinity in E4M3 is its NaN (R121). -/
def Rd.enc (f : Fmt) : Rd → Nat
  | .nan => f.nan
  | .inf n => if f.hasInf then (if n then f.signBit else 0) + f.infMag else f.nan
  | .fin n mag => (if n then f.signBit else 0) + mag

/-- round_to and encode. -/
def rnd (f : Fmt) (y : Val) (mode : Mode := .rne) : Nat := (roundTo f y mode).enc f

/-- ±inf turned into ±largest finite (R44 SAT = 1, R148). -/
def Rd.sat (f : Fmt) : Rd → Rd
  | .inf n => .fin n f.maxf
  | r => r

/-- An order key of a rounded result: numeric order, with -0 equal to +0; none for NaN. -/
def Rd.key (f : Fmt) : Rd → Option Int
  | .nan => none
  | .inf n => some (if n then -((f.signBit : Nat) : Int) else ((f.signBit : Nat) : Int))
  | .fin n mag => some (if n then -(mag : Int) else (mag : Int))

/-- An integer type's width and signedness (R117): TY 0..7. -/
def intWidth (ty : Nat) : Nat :=
  match ty with
  | 0 | 1 => 32
  | 2 | 3 => 64
  | 4 | 5 => 16
  | _ => 8

def intSigned (ty : Nat) : Bool := ty % 2 == 0

/-- The least and greatest value of an integer type. -/
def intMin (ty : Nat) : Int := if intSigned ty then -((2 ^ (intWidth ty - 1) : Nat) : Int) else 0
def intMax (ty : Nat) : Int := if intSigned ty then ((2 ^ (intWidth ty - 1) : Nat) : Int) - 1 else ((2 ^ intWidth ty : Nat) : Int) - 1

/-- sat_int (R124). -/
def satInt (ty : Nat) (n : Int) : Int := if n < intMin ty then intMin ty else if n > intMax ty then intMax ty else n

/-- The integer a bit pattern stands for in an integer type. -/
def readInt (ty x : Nat) : Int := if intSigned ty then signedN (intWidth ty) x else ((x % 2 ^ intWidth ty : Nat) : Int)

/-- wrap (R124). -/
def wrapInt (ty : Nat) (n : Int) : Int := readInt ty (wrapN (intWidth ty) n)

/-- to_int (R126). -/
def toInt (ty : Nat) (y : Val) (mode : Mode) (sat : Bool) : Int :=
  match y with
  | .nan => 0
  | .inf n => if sat then (if n then intMin ty else intMax ty) else 0
  | .fin n m e =>
    let k : Int := (roundMag mode n m e : Nat)
    let z := if n then -k else k
    if sat then satInt ty z else wrapInt ty z

def Val.neg : Val → Val
  | .nan => .nan
  | .inf n => .inf !n
  | .fin n m e => .fin (!n) m e

def Val.abs : Val → Val
  | .nan => .nan
  | .inf _ => .inf false
  | .fin _ m e => .fin false m e

/-- Multiply a finite non-zero value by 2^k (R44). -/
def Val.scale (y : Val) (k : Int) : Val :=
  match y with
  | .fin n m e => if m = 0 then y else .fin n m (e + k)
  | v => v

/-- Whether a value is ±0. -/
def Val.isZero : Val → Bool
  | .fin _ m _ => m == 0
  | _ => false

def Val.isNan : Val → Bool
  | .nan => true
  | _ => false

def Val.isFin : Val → Bool
  | .fin _ _ _ => true
  | _ => false

/-- The signed integer of a finite value in units of 2^u, where u is at most its exponent. -/
def Val.units (u : Int) : Val → Int
  | .fin n m e => let k : Int := (m * 2 ^ (e - u).toNat : Nat); if n then -k else k
  | _ => 0

/-- The exact sum, with the IEEE sign of an exact zero for the mode in force (R44, R180). -/
def Val.add (mode : Mode) (a b : Val) : Val :=
  match a, b with
  | .nan, _ => .nan
  | _, .nan => .nan
  | .inf x, .inf y => if x = y then .inf x else .nan
  | .inf x, _ => .inf x
  | _, .inf y => .inf y
  | .fin x m e, .fin y m' e' =>
    if m = 0 ∧ m' = 0 then .fin (if x = y then x else mode == .rdn) 0 0
    else
      let u := min e e'
      let z := Val.units u (.fin x m e) + Val.units u (.fin y m' e')
      if z = 0 then .fin (mode == .rdn) 0 0 else .fin (z < 0) z.natAbs u

/-- The exact product (R134 without its zero rule). -/
def Val.mul (a b : Val) : Val :=
  match a, b with
  | .nan, _ => .nan
  | _, .nan => .nan
  | .inf x, .inf y => .inf (x != y)
  | .inf x, .fin y m _ => if m = 0 then .nan else .inf (x != y)
  | .fin x m _, .inf y => if m = 0 then .nan else .inf (x != y)
  | .fin x m e, .fin y m' e' => .fin (x != y) (m * m') (e + e')

/-- A value between two neighbours: the floor q at 2^e, marked inexact when `r` holds. -/
def sticky (neg : Bool) (q : Nat) (e : Int) (r : Bool) : Val := .fin neg (4 * q + b01 r) (e - 2)

/-- The quotient (R132), exact to every rounding. -/
def Val.div (a b : Val) : Val :=
  match a, b with
  | .nan, _ => .nan
  | _, .nan => .nan
  | .inf _, .inf _ => .nan
  | .inf x, .fin y _ _ => .inf (x != y)
  | .fin x _ _, .inf y => .fin (x != y) 0 0
  | .fin x m e, .fin y m' e' =>
    if m' = 0 then (if m = 0 then .nan else .inf (x != y))
    else if m = 0 then .fin (x != y) 0 0
    else
      let k := 64 + m'.log2
      let n := m * 2 ^ k
      sticky (x != y) (n / m') (e - e' - (k : Int)) (n % m' != 0)

/-- The square root (R132), exact to every rounding. -/
def Val.sqrt (a : Val) : Val :=
  match a with
  | .nan => .nan
  | .inf x => if x then .nan else .inf false
  | .fin x m e =>
    if m = 0 then .fin x 0 0
    else if x then .nan
    else
      let odd : Bool := e % 2 != 0
      let n := m * 2 ^ (128 + b01 odd)
      let e' := (e - (b01 odd : Nat)) / 2
      let r := isqrt n
      sticky false r (e' - 64) (r * r != n)

/-- Numeric comparison of two values that are not NaN: -1, 0 or 1. -/
def Val.cmp (a b : Val) : Int :=
  match a, b with
  | .inf x, .inf y => if x = y then 0 else if x then -1 else 1
  | .inf x, _ => if x then -1 else 1
  | _, .inf y => if y then 1 else -1
  | .fin x m e, .fin y m' e' =>
    let u := min e e'
    let p := Val.units u (.fin x m e)
    let q := Val.units u (.fin y m' e')
    if p < q then -1 else if p = q then 0 else 1
  | _, _ => 0

/-- fma (R124) on FP32 patterns. -/
def fma32 (a b c : Nat) : Nat := rnd fp32 (((widenF fp32 a).mul (widenF fp32 b)).add .rne (widenF fp32 c))

/-- The FP32 sum of two patterns, rounded RNE. -/
def add32 (a b : Nat) : Nat := rnd fp32 ((widenF fp32 a).add .rne (widenF fp32 b))

/-- FMIN and FMAX on patterns of a format (R182): a NaN gives the canonical NaN, -0 is below +0. -/
def fminmax (f : Fmt) (isMax : Bool) (a b : Nat) : Nat :=
  let x := a % 2 ^ f.width
  let y := b % 2 ^ f.width
  let va := widenF f x
  let vb := widenF f y
  if va.isNan || vb.isNan then f.nan
  else
    let c := va.cmp vb
    let aLess := c = -1 ∨ (c = 0 ∧ bitN x (f.eb + f.mb) = true)
    if aLess then (if isMax then y else x) else (if isMax then x else y)

-- R131: the approximate functions

/-- Bits of the fixed-point arithmetic below. -/
def fxBits : Nat := 256

/-- ln 2 in units of 2^-256. -/
def ln2Fx : Nat := 0xb17217f7d1cf79abc9e3b39803f2f6af40f343267298b62d8a0d175b8baafa2b

/-- exp(t) in units of 2^-256, for t in [0, 1) in the same units: the sum of the first 64 terms of its series. -/
def expFx (t : Nat) : Nat := go 64 1 (2 ^ fxBits) (2 ^ fxBits)
where
  go : Nat → Nat → Nat → Nat → Nat
    | 0, _, _, acc => acc
    | k + 1, n, term, acc =>
      let term' := term * t / 2 ^ fxBits / n
      go k (n + 1) term' (acc + term')

/-- The fraction bits of log2 y for y in [1, 2) in units of 2^-256: `k` bits, by repeated squaring. -/
def log2Fx : Nat → Nat → Nat → Nat
  | 0, _, acc => acc
  | k + 1, y, acc =>
    let y2 := y * y / 2 ^ fxBits
    if y2 ≥ 2 ^ (fxBits + 1) then log2Fx k (y2 / 2) (2 * acc + 1) else log2Fx k y2 (2 * acc)

/-- The exact value of an approximate function, before its rounding: FRCP, FRSQ, FEXP2, FLOG2, FTANH by opcode 0x49..0x4D (R131). -/
def approxVal (op : Nat) (x : Val) : Val :=
  match op, x with
  | _, .nan => .nan
  | 0x49, v => (Val.fin false 1 0).div v
  | 0x4A, .inf n => if n then .nan else .fin false 0 0
  | 0x4A, .fin n m e =>
    if m = 0 then .inf n
    else if n then .nan
    else
      let odd : Bool := e % 2 != 0
      let m' := m * 2 ^ b01 odd
      let e' := (e - (b01 odd : Nat)) / 2
      let k := 96 + m'.log2
      let q := 2 ^ (2 * k) / m'
      let r := isqrt q
      sticky false r (-(k : Int) - e') (r * r * m' != 2 ^ (2 * k))
  | 0x4B, .inf n => if n then .fin false 0 0 else .inf false
  | 0x4B, .fin n m e =>
    if m = 0 then .fin false 1 0
    else if (m.log2 : Int) + e ≥ 10 then .fin false 1 (if n then -5000 else 5000)
    else
      let fx := if 0 ≤ e + 192 then m * 2 ^ (e + 192).toNat else 1
      let z : Int := if n then -(fx : Int) else (fx : Int)
      let i := z / ((2 ^ 192 : Nat) : Int)
      let f := (z % ((2 ^ 192 : Nat) : Int)).toNat
      if f = 0 then .fin false 1 i
      else sticky false (expFx (f * 2 ^ 64 * ln2Fx / 2 ^ fxBits)) (i - 256) true
  | 0x4C, .inf n => if n then .nan else .inf false
  | 0x4C, .fin n m e =>
    if m = 0 then .inf true
    else if n then .nan
    else
      let i : Int := (m.log2 : Int) + e
      let y := m * 2 ^ (fxBits - m.log2)
      if y = 2 ^ fxBits then ofInt i
      else
        let fr : Int := ((log2Fx 112 y 0 : Nat) : Int)
        let z := i * ((2 ^ 112 : Nat) : Int) + fr
        if 0 ≤ z then sticky false z.toNat (-112) true else sticky true ((-z).toNat - 1) (-112) true
  | _, .inf n => .fin n 1 0
  | _, .fin n m e =>
    if m = 0 then .fin n 0 0
    else if (m.log2 : Int) + e ≥ 5 then .fin n (2 ^ 64 - 1) (-64)
    else if (m.log2 : Int) + e < -31 then .fin n (m * 2 ^ 64 - 1) (e - 64)
    else
      let t := m * 2 ^ (e + 257).toNat
      let k := t / ln2Fx
      let ex := expFx (t - k * ln2Fx) * 2 ^ k
      let one := 2 ^ fxBits
      sticky n ((ex - one) * 2 ^ 224 / (ex + one)) (-224) true

/-- An approximate function's rounded result (R131). -/
def approxRd (op : Nat) (f : Fmt) (x : Val) : Rd := roundPrec f (approxVal op x) (min 11 f.mb) .rne

-- R133..R139: sums and quantisation

/-- Pair up a list with an operation, keeping the order. -/
def pairUp {α : Type} (f : α → α → α) : List α → List α
  | a :: b :: xs => f a b :: pairUp f xs
  | xs => xs

/-- One level of the tree per unit of the first argument. -/
def treeLevels {α : Type} (f : α → α → α) : Nat → List α → List α
  | 0, xs => xs
  | k + 1, xs => treeLevels f k (pairUp f xs)

/-- A product on the floating-point path: +0 when the A element is ±0 (R134). -/
def prodA (a b : Val) : Val := if a.isZero then .fin false 0 0 else a.mul b

/-- dot_block on the floating-point path: FP32 nodes in RNE (R135). The leaves are exact products. -/
def dotBlockF (ps : List Val) : Val :=
  ((treeLevels (fun x y => widenF fp32 (rnd fp32 (x.add .rne y))) 5 ps).head?).getD (.fin false 0 0)

/-- dot_block on the integer path (R135). -/
def dotBlockI (ps : List Int) : Int := ps.foldl (· + ·) 0

/-- dot4 (R138): the value before MODW saturation. -/
def dot4 (a b : List Val) (c : Val) : Val :=
  let p := List.zipWith Val.mul a b
  let t := treeLevels (fun x y => widenF fp32 (rnd fp32 (x.add .rne y))) 2 p
  (t.headD (.fin false 0 0)).add .rne c

/-- The left-balanced tree of R102 and R287 over a list, `fuel` at least its length. -/
def treeSum {α : Type} (f : α → α → α) (z : α) : Nat → List α → α
  | 0, _ => z
  | _, [] => z
  | _, [x] => x
  | k + 1, xs =>
    let h := (xs.length + 1) / 2
    f (treeSum f z k (xs.take h)) (treeSum f z k (xs.drop h))

/-- An FP32 pattern, a NaN as the canonical one (R102, R122). -/
def canonNan32 (x : Nat) : Nat := if (widenF fp32 x).isNan then fp32.canon else x

/-- bni_read (R119). -/
def bniRead (v : Int) (k : Nat) : Int :=
  if k ≥ 8 then v else ((2 ^ (8 - k) : Nat) : Int) * (v / ((2 ^ (8 - k) : Nat) : Int)) + ((2 ^ (7 - k) : Nat) : Int)

/-- qnt_block (R139): the scale byte, the elements, and whether UNDERSCALE is set. -/
def qntBlock (f : Fmt) (xs : List Nat) : Nat × List Nat × Bool :=
  let vs := xs.map (widenF fp32)
  let emax : Int := if f.hasInf then 15 else 8
  if vs.any fun v => !v.isFin then (255, xs.map fun _ => f.nan, false)
  else
    let big := vs.foldl (fun m v => if (v.abs.cmp m) = 1 then v.abs else m) (.fin false 0 0)
    match big with
    | .fin _ m e =>
      if m = 0 then (0, vs.map fun v => rnd f v, false)
      else
        let x0 : Int := (m.log2 : Int) + e - emax
        let under : Bool := x0 + 127 < 0
        let x := if under then -127 else x0
        ((x + 127).toNat, vs.map fun v => ((roundTo f (v.scale (-x)) .rne).sat f).enc f, under)
    | _ => (0, [], false)

/-- clamp_map (R127): the FP32 pattern. `x` is the widened payload element. -/
def clampMap (a b lo hi : Nat) (x : Val) : Nat :=
  let y := if (widenF fp32 a).isZero then b else rnd fp32 (((widenF fp32 a).mul x).add .rne (widenF fp32 b))
  let v := widenF fp32 y
  if v.isNan then fp32.nan
  else if v.cmp (widenF fp32 lo) = -1 then lo
  else if v.cmp (widenF fp32 hi) = 1 then hi
  else y

end Sys2Proof.Machine
end

