-- ==== Sys2Proof/Machine/Operands.lean ====
section
/-! DEFINITION. Every operand form: immediates (03 R37), integer, 64-bit, floating-point and packed-half sources, predicates (R163), which registers a word reads and writes (R165, R257), and the shapes of results (R166). -/

namespace Sys2Proof

open Machine

/-- The value of a class-4 operand as 64 bits (R35, R37): index 0 zero-extended, 1 sign-extended, 2 and 3 their bits, 4 MODW.IMM : IMM. -/
def Ins.immVal (w : Ins) (k : ImmIdx) : Addr :=
  match k with
  | .zext => w.imm.setWidth 64
  | .sext => w.imm.signExtend 64
  | .fp32 => w.imm.setWidth 64
  | .fp16 => (w.imm.setWidth 16).setWidth 64
  | .wide => ((w.modw.map (·.imm)).getD 0) ++ w.imm

/-- A 32-bit source. -/
def Machine.State.src (s : State) (st : Strand) (w : Ins) (o : Operand) : Word :=
  match o with
  | .v i => s.vreg st i.toNat
  | .s i => s.sreg st i.toNat
  | .p i => if st.pred i.toNat then 1 else 0
  | .imm k => (Ins.immVal w k).setWidth 32
  | _ => 0

/-- A 64-bit source: a pair, the even register low (R117), or an immediate of 64 bits. -/
def Machine.State.src64 (s : State) (st : Strand) (w : Ins) (o : Operand) : Addr :=
  match o with
  | .v i => s.vreg st (i.toNat + 1) ++ s.vreg st i.toNat
  | .s i => s.sreg st (i.toNat + 1) ++ s.sreg st i.toNat
  | .imm k => Ins.immVal w k
  | _ => 0

/-- Whether a TY code names a 64-bit type. -/
def wideTy (ty : Nat) : Bool := ty == 2 || ty == 3

/-- The bit pattern of a source of an integer type, before narrowing (R163). -/
def Machine.State.srcTy (s : State) (st : Strand) (w : Ins) (ty : Nat) (o : Operand) : Nat :=
  if wideTy ty then (s.src64 st w o).toNat else (s.src st w o).toNat

/-- An integer source widened under R163. -/
def Machine.State.srcInt (s : State) (st : Strand) (w : Ins) (ty : Nat) (o : Operand) : Int := readInt ty (s.srcTy st w ty o)

/-- The register words of an integer result of a type: one word extended to 32 bits, or a pair (R163). -/
def intWords (ty : Nat) (z : Int) : List Word :=
  if wideTy ty then [BitVec.ofInt 32 z, (BitVec.ofInt 64 z).extractLsb' 32 32] else [BitVec.ofInt 32 z]

/-- A floating-point source as a pattern of its format (R37, R163). -/
def Machine.State.srcFp (s : State) (st : Strand) (w : Ins) (ty : Nat) (o : Operand) : Nat :=
  let f := fmtOf ty
  match o with
  | .imm .fp32 => if ty = 8 then w.imm.toNat else rnd f (widenF fp32 w.imm.toNat)
  | .imm .fp16 => if ty = 9 then w.imm.toNat % 65536 else rnd f (widenF fp16 w.imm.toNat)
  | o => (s.src st w o).toNat % 2 ^ f.width

/-- The two halves of a packed-half source, low first (R186). -/
def Machine.State.srcHalf (s : State) (st : Strand) (w : Ins) (ty : Nat) (o : Operand) : Nat × Nat :=
  match o with
  | .imm .fp32 | .imm .fp16 => let x := s.srcFp st w ty o; (x, x)
  | o => let x := (s.src st w o).toNat; (x % 65536, x / 65536)

/-- The third source in IMM bits 10:0 (R39). -/
def Ins.third (w : Ins) : Operand := (Operand.ofBits (w.imm.setWidth 11)).getD (.v 0)

/-- The raw fields of a word, for the encoding tables. -/
def Ins.raw (op : Nat) (w : Ins) : Raw := Ins.toRaw (BitVec.ofNat 8 op) w

/-- The row of the encoding tables for a word. -/
def Ins.form (op : Nat) (w : Ins) : Form := (formOf op w.fn.toNat w.ty.toNat).getD {}

/-- The v registers an operand names. -/
def Operand.vregs (o : Operand) (n : Nat) : List Nat :=
  match o with
  | .v i => (List.range n).map (i.toNat + ·)
  | _ => []

/-- The s registers an operand names. -/
def Operand.sregs (o : Operand) (n : Nat) : List Nat :=
  match o with
  | .s i => (List.range n).map (i.toNat + ·)
  | _ => []

/-- Opcodes whose D field is read (BFI, FDOT, DBNZ, stores, WAITA, TAGST, TSTE, SCW). -/
def readsD (op : Nat) : Bool :=
  [0x34, 0x54, 0x0A, 0x91, 0x93, 0x95, 0xA1, 0xA4, 0x89, 0x7B].contains op

/-- Opcodes whose D field is written. FREEZE writes its D only at stamping; an absent D writes nothing. -/
def writesD (op : Nat) : Bool :=
  !([0x91, 0x93, 0x95, 0xA1, 0xA4, 0x89, 0x7B, 0x19].contains op)

/-- Opcodes that look at a register's state without reading it: SHAPE and FEMK name A so, CSAVE and CREST a group (R194, R196, R331). -/
def skipsA (op : Nat) : Bool := op == 0x63 || op == 0x65 || op == 0xC4 || op == 0xC5

/-- The remote function an RCALL names (R109). -/
def Machine.State.rfOf (s : State) (st : Strand) (w : Ins) : RemoteFn :=
  (s.it st.uid).kernel.rfs.getD (w.imm.toNat % 256) ⟨0, 1, 0, 0⟩

/-- The v and s registers a word reads. -/
def Machine.State.reads (s : State) (st : Strand) (op : Nat) (w : Ins) : List Nat × List Nat :=
  let f := Ins.form op w
  let r := Ins.raw op w
  let wd := fun (p : Pos) => widthOf r p.width
  let pick := fun (p : Pos) (o : Operand) => if p.unused || (p.opt && o = .v 0) then ([], []) else (o.vregs (wd p), o.sregs (wd p))
  let join := fun (x y : List Nat × List Nat) => (x.1 ++ y.1, x.2 ++ y.2)
  let d := if readsD op then pick f.d w.d else ([], [])
  let a := if skipsA op then ([], []) else
    if op = 0x1E then (w.a.vregs ((st.call.bind s.call?).map (·.fn.rets) |>.getD 0), []) else pick f.a w.a
  let b := match op with
    | 0x84 => (w.b.vregs 4, w.b.sregs 4)
    | 0x1D => (w.b.vregs (s.rfOf st w).args, [])
    | _ => pick f.b w.b
  let c := if f.imm = .third then pick f.c w.third else ([], [])
  join (join d a) (join b c)

/-- The v registers a word writes. -/
def Machine.State.writes (s : State) (st : Strand) (op : Nat) (w : Ins) : List Nat :=
  let f := Ins.form op w
  if f.d.unused || !writesD op || (f.d.opt && w.d = .v 0) then []
  else if op = 0x1D then w.d.vregs (s.rfOf st w).rets
  else w.d.vregs (widthOf (Ins.raw op w) f.d.width)

-- R166: the shape of a result

/-- The source operands of a word with the registers each names, for the shape table: a D that is read, A, B unless it is absent, C. -/
def Ins.srcOps (op : Nat) (w : Ins) : List (Operand × Nat) :=
  let f := Ins.form op w
  let n := fun (p : Pos) => widthOf (Ins.raw op w) p.width
  (if readsD op && !f.d.unused then [(w.d, n f.d)] else []) ++ (if f.a.unused then [] else [(w.a, n f.a)])
    ++ (if f.b.unused || f.b.opt && w.b == .v 0 then [] else [(w.b, n f.b)]) ++ (if f.imm = .third then [(w.third, n f.c)] else [])

/-- The shapes of the registers of a source as one: uniform when every register of it is. Scalars and immediates are uniform. -/
def Machine.State.srcUniform (s : State) (st : Strand) (o : Operand) (n : Nat := 1) : Bool :=
  match o with
  | .v i => (List.range n).all fun k => ((s.rowOf st).reg (i.toNat + k)).shape.isUniform
  | _ => true

/-- The affine coefficients of a v register source, if it is affine. -/
def Machine.State.srcAffine (s : State) (st : Strand) (o : Operand) : Option (Word × Word × Word) :=
  match o with
  | .v i => match ((s.rowOf st).reg i.toNat).shape with
    | .affine b l t => some (b, l, t)
    | _ => none
  | _ => none

/-- The shape of a covering result by the table of R166: none for general. `vals` are the words of one writer, which hold for every lane where the result is uniform. -/
def Machine.State.ruleShape (s : State) (st : Strand) (op : Nat) (w : Ins) (vals : List Word) (j : Nat) : Option Shape :=
  let srcs := Ins.srcOps op w
  let uni := srcs.all fun x => s.srcUniform st x.1 x.2
  let u := some (Shape.uniform (vals.getD j 0))
  let sat := match w.modw with
    | some m => m.sat != 0
    | none => false
  let a := s.srcAffine st w.a
  let b := s.srcAffine st w.b
  let av := s.src st w w.a
  let bv := s.src st w w.b
  if sat && !uni then none
  else if wideTy w.ty.toNat || (0x40 ≤ op && op ≤ 0x55) then (if uni && (op ≠ 0x36 || w.a = w.b) then u else none)
  else if uni && op ≠ 0x36 && op ≠ 0x62 then u
  else
    match op with
    | 0x0A => (s.srcAffine st w.d).map fun x => .affine (x.1 - 1) x.2.1 x.2.2
    | 0x38 => a.map fun x => .affine x.1 x.2.1 x.2.2
    | 0x20 => if w.ty.toNat > 1 then none else
      match a, b with
      | some x, none => if s.srcUniform st w.b then some (.affine (x.1 + bv) x.2.1 x.2.2) else none
      | none, some y => if s.srcUniform st w.a then some (.affine (y.1 + av) y.2.1 y.2.2) else none
      | _, _ => none
    | 0x21 => if w.ty.toNat > 1 then none else
      match a, b with
      | some x, none => if s.srcUniform st w.b then some (.affine (x.1 - bv) x.2.1 x.2.2) else none
      | none, some y => if s.srcUniform st w.a then some (.affine (av - y.1) (-y.2.1) (-y.2.2)) else none
      | _, _ => none
    | 0x22 => if w.ty.toNat > 1 then none else
      match a, b with
      | some x, none => if s.srcUniform st w.b then some (.affine (x.1 * bv) (x.2.1 * bv) (x.2.2 * bv)) else none
      | none, some y => if s.srcUniform st w.a then some (.affine (y.1 * av) (y.2.1 * av) (y.2.2 * av)) else none
      | _, _ => none
    | 0x36 =>
      if w.a = w.b then
        if s.srcUniform st w.a then u else a.map fun x => .affine x.1 x.2.1 x.2.2
      else none
    | _ => none

end Sys2Proof
end

