-- ==== Sys2Proof/Machine/Flags.lean ====
section
/-! DEFINITION. The computations around an operation: source modifiers, the rounding and saturation sequence of 03 R44, comparisons (08 R174, R183), predicates (R192), and the token and slot words (11 R274, R275). -/

namespace Sys2Proof

open Machine

def Ins.sat (w : Ins) : Nat := (w.modw.map (·.sat.toNat)).getD 0
def Ins.mode (w : Ins) (dflt : Mode := .rne) : Mode := Mode.ofRnd ((w.modw.map (·.rnd.toNat)).getD 0) dflt
def Ins.kexp (w : Ins) : Int := (w.modw.map (·.k.toInt)).getD 0

/-- The source modifiers of A, B or C: ABS then NEG (R44). -/
def modVal (neg abs : Bool) (v : Val) : Val :=
  let v := if abs then v.abs else v
  if neg then v.neg else v

def Ins.modA (w : Ins) (v : Val) : Val := match w.modw with
  | some m => modVal m.nega m.absa v
  | none => v
def Ins.modB (w : Ins) (v : Val) : Val := match w.modw with
  | some m => modVal m.negb m.absb v
  | none => v
def Ins.modC (w : Ins) (v : Val) : Val := match w.modw with
  | some m => modVal m.negc m.absc v
  | none => v

/-- The saturation steps of R44 on a rounded floating-point result. -/
def Ins.satFp (w : Ins) (f : Fmt) (d : Rd) : Rd :=
  match w.sat with
  | 1 => d.sat f
  | 2 => match d.key f with
    | none => .fin false 0
    | some k =>
      let one := f.bias * 2 ^ f.mb
      if k ≤ 0 then .fin false 0 else if k > (one : Int) then .fin false one else d
  | 3 =>
    let im := (w.modw.map (·.imm.toNat)).getD 0
    let lo := roundTo f (widenF fp16 im) .rne
    let hi := roundTo f (widenF fp16 (im / 65536)) .rne
    match d.key f, lo.key f, hi.key f with
    | some k, some l, some h => if k < l then lo else if k > h then hi else d
    | _, _, _ => d
  | _ => d

/-- The sequence of R44 after the exact result y: scale, the one rounding, saturation, encoding. -/
def Ins.finish (w : Ins) (f : Fmt) (y : Val) (dflt : Mode := .rne) : Nat :=
  (w.satFp f (roundTo f (y.scale w.kexp) (w.mode dflt))).enc f

/-- Saturation alone, for the functions whose rounding is fixed (set Q). -/
def Ins.finishQ (w : Ins) (f : Fmt) (d : Rd) : Nat := (w.satFp f d).enc f

/-- An integer result: wrapped, or saturated under SAT = 1 (R128). -/
def Ins.finishInt (w : Ins) (ty : Nat) (t : Int) : List Word :=
  intWords ty (if w.sat = 1 then satInt ty t else wrapInt ty t)

/-- The conditions of ISET: .eq .ne .lt .le .gt .ge (R174). -/
def cmpInt (fn : Nat) (a b : Int) : Bool :=
  match fn with
  | 0 => a == b
  | 1 => a != b
  | 2 => decide (a < b)
  | 3 => decide (a ≤ b)
  | 4 => decide (a > b)
  | _ => decide (a ≥ b)

/-- The conditions of FSET: those of ISET, .num and .nan (R183). -/
def cmpFp (fn : Nat) (a b : Val) : Bool :=
  if a.isNan || b.isNan then fn == 1 || fn == 7
  else
    let c := a.cmp b
    match fn with
    | 6 => true
    | 7 => false
    | fn => cmpInt fn c 0

/-- The class mask of a value in a format (R185). -/
def classMask (f : Fmt) (neg : Bool) (v : Val) : Nat :=
  match v with
  | .nan => 256
  | .inf n => if n then 1 else 128
  | .fin _ m e =>
    if m = 0 then (if neg then 8 else 16)
    else if (m.log2 : Int) + e < f.emin then (if neg then 4 else 32)
    else (if neg then 2 else 64)

/-- The truth table of PLOG (R192). -/
def plogVal (fn : Nat) (a b : Bool) : Bool := bitN fn (2 * b01 a + b01 b)

/-- The token word (R274). -/
def Machine.Token.word (t : Token) : Word :=
  bit t.busy ++ bit t.err ++ t.origin ++ (0 : BitVec 4) ++ t.cstat ++ (0 : BitVec 1) ++ t.nvst

def Machine.SlotState.code : SlotState → BitVec 2
  | .empty => 0
  | .filling => 1
  | .ready => 2
  | .draining => 3

/-- The slot word (R275). -/
def Machine.Slot.word (x : Slot) : Word :=
  x.state.code ++ bit x.err ++ bit x.tref ++ x.fmt ++ x.planes ++ (0 : BitVec 4) ++ x.expect

/-- The matrix status word (R213). -/
def Machine.Rank.mstat (r : Rank) (narrow : Bool) : Word :=
  bit narrow ++ bit r.underscale ++ bit r.sati ++ (0 : BitVec 13) ++ r.lastcyc

/-- RSTAT after a call completes (R84): the sequence number, ANYABN kept or set, the status. -/
def rstatOf (old : Word) (seq : BitVec 16) (status : Nat) : Word :=
  let abn := old.getLsbD 4 || status ≥ 3
  seq ++ (0 : BitVec 11) ++ bit abn ++ BitVec.ofNat 4 status

/-- FAULTM (R191). -/
def Machine.Item.faultm (it : Item) : Word := it.faultLow ++ it.faultN

/-- The trap-info and reason word of a fault (R314). -/
def reasonWord (mtag ptag : Nat) (wr fetch : Bool) (level reason : Nat) : Word :=
  BitVec.ofNat 4 mtag ++ BitVec.ofNat 4 ptag ++ (0 : BitVec 8) ++ bit wr ++ bit fetch ++ BitVec.ofNat 6 level ++ BitVec.ofNat 8 reason

end Sys2Proof
end

