-- ==== Sys2Proof/Machine/Home.lean ====
section
/-! DEFINITION. Writes at their homes (10 R223, R237; 09 R199; 11 R266) and what an acquire does (10 R228, R229, R238). -/

namespace Sys2Proof.Machine

/-- Items whose strands may fetch: a store may be seen by their fetches as the old or the new element (R47). -/
def State.noteCode (s : State) (pa n : Nat) : State :=
  if s.items.isEmpty then s
  else
    let elems := (List.range ((pa + n - 1) / 4 - pa / 4 + 1)).map fun i => (pa / 4 + i) * 4
    { s with oldCode := elems.foldl (fun oc a =>
        let v := BitVec.ofNat 32 (s.mem.num a 4)
        match oc.find? fun x => x.1 == a with
        | some x => (a, v :: x.2) :: oc.filter fun y => y.1 != a
        | none => (a, [v]) :: oc) s.oldCode }

/-- The pool slots row i of an MMAG selects at its n positions (R204). -/
def mmagSlots (c : Code) (g : Nat) : List Nat :=
  let r := Raw.ofCode c
  let ty := r.ty.toNat
  let n := r.imm.toNat % 64 + 1
  let per := if ty = 4 ∨ ty = 5 then 2 else 1
  (List.range n).flatMap fun q => (List.range per).map fun h => slotNum r.a.toNat + per * (g / 32 * n + q) + h

/-- A write to a slot that an operation in flight reads spoils it (R199). -/
def MatOp.readsSlot (o : MatOp) (x : Nat) : Bool :=
  let r := Raw.ofCode o.word
  let imm := r.imm.toNat
  let ty := r.ty.toNat
  let n := imm % 64 + 1
  let per := if ty = 4 ∨ ty = 5 then 2 else 1
  let a := slotNum r.a.toNat
  let b := slotNum r.b.toNat
  match r.op.toNat with
  | 0x70 | 0x71 => (a ≤ x && x < a + per * n) || (b ≤ x && x < b + per * n)
  | 0x72 => o.gather.any (fun g => (mmagSlots o.word g).contains x) || (b ≤ x && x < b + per * n)
  | 0x79 | 0x7A => a == x
  | _ => false

/-- A delivery or a copy fills a slot that an operation in flight reads (R199); one that an MMAG still waits for before it issues spoils nothing (R204). -/
def Rank.spoilFilled (r : Rank) (x : Nat) : Rank :=
  { r with ops := r.ops.map fun o => if o.checked && o.readsSlot x then { o with spoilt := true } else o }

def Rank.spoil (r : Rank) (x : Nat) : Rank :=
  { r with ops := r.ops.map fun o => if o.readsSlot x then { o with spoilt := true } else o }

/-- Store a byte of the scratchpad of an item: key is peer rank * 2^19 + offset. -/
def State.storeScratchByte (s : State) (uid key : Nat) (b : Byte) : State :=
  let p := key / 2 ^ 19
  let o := key % 2 ^ 19
  let x := o / 1024
  s.setRank uid p fun r =>
    { (r.spoil x) with slots := r.slots.modify x fun sl => { sl with pay := sl.pay.set (o % 1024) b, poison := sl.poison.filter fun i => i != o % 1024, tref := false } }

def State.scratchByte (s : State) (uid key : Nat) : Byte :=
  (s.slot uid (key / 2 ^ 19) (key % 2 ^ 19 / 1024)).pay.get (key % 1024)

def State.storeScratch (s : State) (uid : Nat) : Nat → List Byte → State
  | _, [] => s
  | key, b :: bs => State.storeScratch (s.storeScratchByte uid key b) uid (key + 1) bs

/-- Whether the mark of a release lies in some bytes of a location; of the scratchpad and its sidecars, of an item. -/
def RelMark.lies (m : RelMark) (uid loc pa n : Nat) : Bool := m.loc == loc && (decide (loc < 4) || m.uid == uid) && decide (m.pa < pa + n) && decide (pa < m.pa + m.width)

/-- An add has made true what an EVWAIT waits for (R108): the strand wakes, whatever the counter reads later. -/
def State.rouse (s : State) (loc pa n : Nat) : State :=
  { s with strands := s.strands.map fun st => match st.park with
    | .evwait va bound l p _ =>
      if l = loc ∧ pa < p + 8 ∧ p < pa + n ∧ bound.toNat ≤ s.homeNum l p 8 then { st with park := .evwait va bound l p true } else st
    | _ => st }

/-- A write performs at its home: the bytes, the watchers of the line (R266), the codewords it replaces whole, the reservations it breaks (R244). Who reads it reads no release made there before (R229). -/
def State.writeHome (s : State) (uid loc pa : Nat) (bs : List Byte) : State :=
  let s : State := { s with relMarks := s.relMarks.filter fun m => !(m.lies uid loc pa bs.length) }
  match loc with
  | 4 => s.storeScratch uid pa bs
  | 0 =>
    let s := s.noteCode pa bs.length
    let s := s.homeStore 0 pa bs
    { s with
      reserved := s.reserved.filter fun r => !(decide (pa < r.2.1 + r.2.2) && decide (r.2.1 < pa + bs.length))
      poison := s.poison.filter fun c => !(decide (pa ≤ 64 * c) && decide (64 * c + 64 ≤ pa + bs.length))
      strands := s.strands.map fun st => match st.park with
        | .waita line t _ e => if pa / 128 ≤ line ∧ line ≤ (pa + bs.length - 1) / 128 then { st with park := .waita line t true e } else st
        | _ => st : State }.rouse 0 pa bs.length
  | l =>
    let s := (s.homeStore l pa bs).rouse l pa bs.length
    { s with poison := s.poison.filter fun c => !(decide (codeword l (pa + 63) ≤ c) && decide (c < codeword l (pa + bs.length))) }

/-- The write of a read-modify-write at its home: it continues the release sequences there (R229). -/
def State.rmwHome (s : State) (uid loc pa : Nat) (bs : List Byte) : State :=
  { s.writeHome uid loc pa bs with relMarks := s.relMarks }

-- acquires (R228, R229, R238)

/-- A strand acquires as at a step: what its core had performed then comes before what it does from here on; at device scope or wider its later reads are no older than that step, at core scope than what it is passed on; at system scope the core's copies of peer and host lines go (R245). -/
def State.acquireAt (s : State) (sid scope at_ acq : Nat) : State :=
  let st := s.st sid
  let core := s.coreOf st
  let s := s.setSt sid fun x => { x with
    syncAt := max x.syncAt at_
    acqAt := max x.acqAt (if scope = 0 ∧ !st.isFrame then acq else at_)
    early := x.early.filter fun e => decide (e.stamp > at_) }
  if scope = 2 then { s with l1 := s.l1.filter fun l => !(l.core == core && (l.loc == 1 || l.loc == 2) && decide (l.stamp ≤ at_)) } else s

/-- A strand acquires now, at device scope or wider; at core scope it is passed nothing on. -/
def State.acquire (s : State) (sid scope : Nat) : State := s.acquireAt sid scope s.tick 0

/-- A strand acquires at core scope what others of its core pass on (R229, R234). -/
def State.acquireCore (s : State) (sid acq : Nat) : State := s.acquireAt sid 0 s.tick acq

/-- A slot turns READY (R30, R199, R236, R250): an acquire at core scope for the item's strands on its rank. -/
def State.readyAcquire (s : State) (uid p acq : Nat) : State :=
  (s.strands.filter fun st => st.uid == uid && !st.isFrame && st.prank == p).foldl (fun s st => s.acquireCore st.sid acq) s

/-- Early reads of a strand's own bytes go once it has read or written them otherwise (R230, R231). -/
def State.dropEarly (s : State) (sids : List Nat) (loc pa n : Nat) : State :=
  sids.foldl (fun s sid => s.setSt sid fun x => { x with early := earlyWithout x.early loc pa n }) s

end Sys2Proof.Machine
end

