-- ==== Sys2Proof/Machine/Translate.lean ====
section
/-! DEFINITION. Translation, rights, locations and tags (13 R302..R314; 14 R346). -/

namespace Sys2Proof.Machine

/-- What an access needs (R307). -/
structure Need where
  rd : Bool := false
  wr : Bool := false
  fetch : Bool := false
  rcx : Bool := false
  /-- the locations the instruction accepts -/
  locs : List Nat := [0, 1, 2, 3]
  deriving DecidableEq, Repr

/-- A translated address: location, physical address (a peerKey for a peer), policy, tag checking, the level of its leaf, and whether it took a walk, or an entry that was walked in the same step. -/
structure Xlat where
  loc : Nat := 0
  pa : Nat := 0
  pol : Nat := 0
  tg : Bool := false
  level : Nat := 0
  walked : Bool := false
  deriving DecidableEq, Repr

/-- The outcome of a translation. -/
inductive XRes where
  | ok (x : Xlat)
  | bad (t : Trap)
  deriving DecidableEq, Repr

/-- What a walk found: a leaf with its level and address, or a missing or malformed entry at a level. -/
inductive Walk where
  | leaf (level ptePa pte : Nat)
  | missing (level : Nat)
  | malformed (level : Nat)
  deriving DecidableEq, Repr

/-- The index of a virtual address at a level (R303). -/
def vaIndex (level va : Nat) : Nat := fieldN va (12 + 11 * level) 11

/-- Whether an entry is malformed at a level (R303, R305). -/
def pteMalformed (level pte : Nat) : Bool :=
  bitN pte 15
    || (if bitN pte 1 then
          level == 3 || (level == 2 && fieldN pte 16 22 != 0) || (level == 1 && fieldN pte 16 11 != 0)
            || (bitN pte 7 && level != 0) || fieldN pte 12 2 == 3 || (fieldN pte 52 12 != 0 && fieldN pte 8 2 != 1)
        else level == 0 || fieldN pte 2 13 != 0 || fieldN pte 52 12 != 0 || fieldN pte 16 2 != 0)

/-- The walk from a table at a level (R303, R305). -/
def walkFrom (m : Memory) (va : Nat) : Nat → Nat → Walk
  | level, table =>
    let pa := table + 8 * vaIndex level va
    let pte := m.num pa 8
    if !bitN pte 0 then .missing level
    else if pteMalformed level pte then .malformed level
    else if bitN pte 1 then .leaf level pa pte
    else match level with
      | 0 => .malformed 0
      | l + 1 => walkFrom m va l (fieldN pte 16 36 * 4096)

/-- The address of the level-0 entry that a walk reaches (R303). -/
def slot0 (m : Memory) (va : Nat) : Nat → Nat → Option Nat
  | 0, table => some (table + 8 * vaIndex 0 va)
  | l + 1, table =>
    let pte := m.num (table + 8 * vaIndex (l + 1) va) 8
    if bitN pte 0 && !pteMalformed (l + 1) pte && !bitN pte 1 then slot0 m va l (fieldN pte 16 36 * 4096) else none

/-- Whether a 64 KiB group is well formed (R306). -/
def groupOk (m : Memory) (pa : Nat) : Bool :=
  let base := pa / 128 * 128
  let e0 := m.num base 8
  fieldN e0 16 4 == 0 && (List.range 16).all fun i =>
    let e := m.num (base + 8 * i) 8
    bitN e 0 && bitN e 1 && bitN e 7 && fieldN e 2 5 == fieldN e0 2 5 && fieldN e 8 2 == fieldN e0 8 2
      && fieldN e 12 3 == fieldN e0 12 3 && fieldN e 16 36 == fieldN e0 16 36 + i

/-- What the first entry of a level-0 entry's group gives, where the group is meant as a 64 KiB page and is badly formed (R306). -/
def groupFirst (m : Memory) (pa : Nat) : Option Walk :=
  let base := pa / 128 * 128
  let e0 := m.num base 8
  let meant := (List.range 16).any fun i => let e := m.num (base + 8 * i) 8; bitN e 0 && bitN e 1 && bitN e 7
  if !meant || groupOk m pa then none
  else some (if !bitN e0 0 then .missing 0 else if pteMalformed 0 e0 then .malformed 0 else .leaf 0 base e0)

/-- The log of the size of a page whose leaf stands at an address (R303, R306): a well-formed group of level-0 entries is one page of 64 KiB. -/
def pageBits (m : Memory) (level at_ pte : Nat) : Nat :=
  if level = 0 then (if bitN pte 7 && groupOk m at_ then 16 else 12) else 12 + 11 * level

/-- The physical address that a leaf gives in a page of a size (R303, R306, R308): any entry of a well-formed group gives the frame of the group's page. -/
def leafPa (pte va bits : Nat) : Nat := (if bits = 16 then fieldN pte 16 36 / 16 * 16 else fieldN pte 16 36) * 4096 + va % 2 ^ bits

/-- Whether a peer is unreachable (R346, R354). -/
def State.peerDown (s : State) (peer : Nat) : Bool := s.peersDown.contains peer || !(s.links.contains (some peer))

/-- The checks after translation, in the order of R307, then those of R308 and R346: the trap, if any. -/
def State.leafCheck (s : State) (need : Need) (va level pte pa : Nat) : Option Trap :=
  let loc := fieldN pte 8 2
  let prot := fun (reason : Nat) =>
    some (⟨5, 0, BitVec.ofNat 64 va, reasonWord 0 (fieldN va 56 4) need.wr need.fetch level reason⟩ : Trap)
  if bitN pte 5 then prot 7
  else if need.rd && !bitN pte 2 then prot 4
  else if need.wr && !bitN pte 3 then prot 5
  else if need.fetch && (!bitN pte 4 || loc != 0) then prot 6
  else if need.rcx && !bitN pte 14 then prot 8
  else if !need.locs.contains loc then prot 9
  else if loc = 0 ∧ fieldN pte 16 36 * 4096 ≥ Config.memTop then prot 10
  else if loc = 0 ∧ pa ≥ Config.memTop then prot 10
  else if loc = 1 ∧ s.peerDown (fieldN pte 52 12) then
    some ⟨0x0B, 1, BitVec.ofNat 64 va, reasonWord 0 (fieldN va 56 4) need.wr need.fetch level 11⟩
  else if loc = 1 ∧ !Config.accepts s.tick then prot 11
  else if loc = 2 ∧ (s.ports.getD (pa / 2 ^ 47) {}).root then prot 11
  else if loc = 3 ∧ !(s.ports.getD (pa / 2 ^ 47) {}).up then prot 11
  else none

/-- A and D as an access sets them (R305). -/
def accessBits (wr : Bool) : Nat := 2 ^ 10 ||| (if wr then 2 ^ 11 else 0)

/-- The walker sets A, and D for a write, in the entry in memory, and in the TLB entry that the access used (R305). -/
def State.markEntry (s : State) (at_ pte : Nat) (wr : Bool) (used : Option TlbEntry) : State :=
  let upd := pte ||| accessBits wr
  if upd = pte then s
  else
    let s := s.rmwHome 0 0 at_ (leBytes 8 (s.mem.num at_ 8 ||| accessBits wr))
    { s with tlb := s.tlb.map fun e => if used = some e then { e with pte := BitVec.ofNat 64 upd } else e }

/-- Where the launch unit translates from: no core or NMU, with a TLB of its own. -/
def launchUnit : Nat := 2000

/-- The cluster whose TLB and walker serve a core, or an NMU, which is numbered above the cores and belongs to its channels' cluster (R305, R310); the launch unit's stands past them. -/
def tlbCluster (core : Nat) : Nat :=
  if core < Config.cores then clusterOf core else if core < launchUnit then clusterOf (4 * (core - Config.cores)) else Config.clusters

/-- Whether a TLB entry says of an address what a walk has found: the same leaf, or another of the same group that gives the same rights and address. -/
def TlbEntry.says (e : TlbEntry) (a : Nat) (walk : Walk) : Bool :=
  walk == Walk.leaf e.level e.at_ e.pte.toNat || match walk with
    | .leaf 0 at_ pte => e.bits == 16 && e.level == 0 && e.at_ / 128 == at_ / 128 && fieldN e.pte.toNat 0 16 == fieldN pte 0 16
        && fieldN e.pte.toNat 52 12 == fieldN pte 52 12 && leafPa e.pte.toNat a 16 == leafPa pte a 12
    | _ => false

/-- The TLB entry that an access uses, if any (R310, R311): its core's, or its cluster's, for the page that the address lies in. An entry that is there may have been evicted, so that either is used or not; one that says what a walk would find is used (log 8). -/
def State.tlbFind (s : State) (core ctx a : Nat) (walk : Walk) : Option TlbEntry :=
  let mine := s.tlb.filter fun e => e.ctx == ctx && e.vpn == a / 2 ^ e.bits
  let uses := fun (k : Nat) (e : TlbEntry) => e.says a walk || Config.takesTlb s.tick k
  match (mine.find? fun e => e.core == some core).filter (uses 0) with
  | some e => some e
  | none => (mine.find? fun e => e.core.isNone && e.cluster == tlbCluster core).filter (uses 1)

/-- The TLBs once an access has its translation (R310): its core's holds it; after a walk its cluster's too. Older entries of theirs for the page are replaced. -/
def State.tlbFill (s : State) (core : Nat) (e : TlbEntry) (walked : Bool) : State :=
  let own : TlbEntry := { e with core := if core < Config.cores then some core else none }
  let fill := if walked && own.core.isSome then [own, { e with core := none }] else [own]
  { s with tlb := fill ++ s.tlb.filter fun x => fill.all fun y => !(x.core == y.core && x.cluster == y.cluster && x.ctx == y.ctx && x.vpn == y.vpn && x.bits == y.bits) }

/-- Translate an address in a context for an access from a core (R302..R311): by an entry that a TLB holds, by the walk, or by the first entry of a badly formed group. The walker sets A, and D for a write, in an entry that lets the access proceed (log 13). -/
def State.translate (s : State) (core ctx : Nat) (va : Addr) (need : Need) : State × XRes :=
  let v := va.toNat
  if fieldN v 60 4 ≠ 0 then
    (s, .bad ⟨5, 0, va, reasonWord 0 (fieldN v 56 4) need.wr need.fetch 0 1⟩)
  else
    let a := v % 2 ^ 56
    let root := (s.ctx ctx).root
    let w := walkFrom s.mem a 3 root
    let cached := s.tlbFind core ctx a w
    let first := ((slot0 s.mem a 3 root).bind (groupFirst s.mem)).filter fun _ => Config.takesGroupFirst s.tick
    let found := match cached with
      | some e => Walk.leaf e.level e.at_ e.pte.toNat
      | none => first.getD w
    match found with
    | .missing level => (s, .bad ⟨4, 0, va, reasonWord 0 (fieldN v 56 4) need.wr need.fetch level 2⟩)
    | .malformed level => (s, .bad ⟨5, 0, va, reasonWord 0 (fieldN v 56 4) need.wr need.fetch level 3⟩)
    | .leaf level at_ pte =>
      let group := cached.isNone && first == some found
      let bits := match cached with
        | some e => e.bits
        | none => pageBits s.mem level at_ pte
      let pa := if group then fieldN pte 16 36 * 4096 + a % 2 ^ 16 else leafPa pte a bits
      let at1 := match cached with
        | some e => e.walkedAt
        | none => s.tick
      match s.leafCheck need v level pte pa with
      | some t => (s, .bad t)
      | none =>
        let loc := fieldN pte 8 2
        let s := s.markEntry at_ pte need.wr cached
        let ent : TlbEntry := { cluster := tlbCluster core, ctx := ctx, vpn := a / 2 ^ bits, bits := bits, walkedAt := at1, level := level, at_ := at_, pte := BitVec.ofNat 64 (pte ||| accessBits need.wr) }
        let s := if group then s else s.tlbFill core ent cached.isNone
        (s, .ok ⟨loc, if loc = 1 then peerKey (fieldN pte 52 12) pa else pa, fieldN pte 12 2, bitN pte 6 && loc == 0, level, decide (at1 = s.tick)⟩)

/-- The walk that a strand's access took acquires at device scope (R305): what follows is no older than it. It acquires for every lane of the bundle that uses its page (R310). -/
def State.walkAcquire (s : State) (sid : Nat) (x : Xlat) : State := if x.walked then s.acquire sid 1 else s

/-- The tag of a granule as a strand sees it: of its own newest TAGST that has not performed, else the tag at home (R231, R268). -/
def State.tagFor (s : State) (sid pa : Nat) : Nat :=
  match (s.pend.filter fun b => b.sid == sid && b.kind == .tagStore && b.pa / 32 == pa / 32).getLast? with
  | some b => b.data % 16
  | none => s.tagAt pa

/-- The tag check of R312 on an element of a strand: none when it passes. -/
def State.tagCheck (s : State) (sid : Nat) (x : Xlat) (va : Addr) (wr : Bool) : Option Trap :=
  let ptag := fieldN va.toNat 56 4
  let own := s.pend.any fun b => b.sid == sid && b.kind == .tagStore && b.pa / 32 == x.pa / 32
  if !x.tg then none
  else if !own && s.poisonedAt x.pa 1 then some ⟨0x0C, 5, 0, 0⟩
  else if s.tagFor sid x.pa = ptag then none
  else some ⟨6, 0, va, reasonWord (s.tagFor sid x.pa) ptag wr false 0 0⟩

/-- The tag checks of a range of 32-byte granules (R312). -/
def State.tagRange (s : State) (sid : Nat) (x : Xlat) (va : Addr) (wr : Bool) (len : Nat) : Option Trap :=
  (List.range (ceilDiv len 32)).findSome? fun k => s.tagCheck sid { x with pa := x.pa + 32 * k } (va + BitVec.ofNat 64 (32 * k)) wr

/-- Translate and tag-check a strand's element (steps 5, 7 and 8 of R255). -/
def State.access (s : State) (sid core ctx : Nat) (va : Addr) (need : Need) (len : Nat := 1) : State × XRes :=
  match s.translate core ctx va need with
  | (s, .ok x) => let s := s.walkAcquire sid x; match s.tagRange sid x va need.wr len with
    | some t => (s, .bad t)
    | none => (s, .ok x)
  | r => r

/-- The physical address of a virtual address, without rights: what the launch unit and firmware use. -/
def State.vaToPa (s : State) (ctx : Nat) (va : Nat) : Option (Nat × Nat) :=
  match walkFrom s.mem (va % 2 ^ 56) 3 (s.ctx ctx).root with
  | .leaf level _ pte =>
    let pa := leafPa pte (va % 2 ^ 56) (12 + 11 * level)
    some (fieldN pte 8 2, if fieldN pte 8 2 = 1 then peerKey (fieldN pte 52 12) pa else pa)
  | _ => none

/-- Translate consecutive pages of a range for a strand: the addresses of its pages in order, or the first trap. -/
def State.translateRange (s : State) (sid core ctx : Nat) (va : Addr) (need : Need) : Nat → State × Except Trap (List Xlat)
  | 0 => (s, .ok [])
  | n + 1 =>
    match s.translate core ctx va need with
    | (s, .bad t) => (s, .error t)
    | (s, .ok x) =>
      match State.translateRange (s.walkAcquire sid x) sid core ctx (va + 4096 - BitVec.ofNat 64 (va.toNat % 4096)) need n with
      | (s, .ok xs) => (s, .ok (x :: xs))
      | (s, .error t) => (s, .error t)

end Sys2Proof.Machine
end

