-- ==== Sys2Proof/Machine/Perform.lean ====
section
/-! DEFINITION. How accesses perform (10 R226..R249; 11 R258..R264): writes reaching their home, reads fixing their value, the order conditions of each, and the atomic operations. -/

namespace Sys2Proof.Machine

/-- An access to a tag (R268). -/
def Acc.isTag (a : Acc) : Bool := a.kind == .tagLoad || a.kind == .tagStore

/-- The strands an access belongs to: one, or all those that one read serves (R259). -/
def Acc.owners (a : Acc) : List Nat := if a.group.isEmpty then [a.sid] else a.group

def Acc.owns (a : Acc) (sid : Nat) : Bool := a.owners.contains sid

/-- Whether two accesses touch a common byte, or a common tag (R226, R268). -/
def Acc.overlaps (a b : Acc) : Bool :=
  a.isTag == b.isTag && a.loc == b.loc && (a.loc != 4 || a.uid == b.uid)
    && (if a.isTag then a.pa / 32 == b.pa / 32 else decide (a.pa < b.pa + b.width) && decide (b.pa < a.pa + a.width))

/-- Whether the virtual bytes, or granules, of two accesses meet. -/
def Acc.meetsVa (a e : Acc) : Bool :=
  let x := a.va.toNat % 2 ^ 56
  let y := e.va.toNat % 2 ^ 56
  a.loc != 4 && e.loc != 4 && a.isTag == e.isTag && a.ctx == e.ctx
    && (if a.isTag then x / 32 == y / 32 else decide (x < y + e.width) && decide (y < x + a.width))

/-- Whether an access meets a logged one (R232): their virtual bytes, or granules, meet; or their physical ones, when the logged address had been translated. -/
def Acc.meets (a e : Acc) : Bool := (e.known && a.overlaps e) || a.meetsVa e

/-- Whether an access comes before an element of an ALD as one of an earlier ALD of the same strand to the same accumulator (R206). -/
def Acc.sameAld (b a : Acc) : Bool :=
  match b.kind, a.kind with
  | .accLoad x _ _, .accLoad y _ _ => x == y && b.seq != a.seq
  | _, _ => false

/-- Whether two ranges of bytes have a line in common. -/
def linesMeet (a n b m : Nat) : Bool := decide (a / 128 ≤ (b + m - 1) / 128) && decide (b / 128 ≤ (a + n - 1) / 128)

def Acc.sameLine (a b : Acc) : Bool := a.loc == b.loc && (a.loc != 4 || a.uid == b.uid) && linesMeet a.pa a.width b.pa b.width

/-- Whether an access goes to a line of one that may not have been translated (R231, R232). -/
def Acc.nearLine (a e : Acc) : Bool :=
  (e.known || e.loc == 4) && a.sameLine e || a.loc != 4 && a.ctx == e.ctx && linesMeet (a.va.toNat % 2 ^ 56) a.width (e.va.toNat % 2 ^ 56) e.width

/-- Atomics that host memory takes (R264). -/
def hostAtomic (op ty : Nat) : Bool := (op == 0x97 || op == 0x9D || op == 0x9E) && ty ≤ 3

/-- What an access needs of its page (R264, R266..R268, R307). -/
def Acc.need (a : Acc) : Need :=
  match a.kind with
  | .load => { rd := true, locs := if a.width > 8 then [0, 1, 2] else [0, 1, 2, 3] }
  | .store => { wr := true, locs := if a.width > 8 ∧ a.op = 0x91 then [0, 1, 2] else [0, 1, 2, 3] }
  | .atomic => { rd := true, wr := true, locs := if hostAtomic a.op a.ty then [0, 1, 2] else [0, 1] }
  | .tagLoad => { rd := true, locs := [0] }
  | .tagStore => { wr := true, locs := [0] }
  | .waita | .wake => { rd := true }
  | .accLoad _ _ _ => { rd := true }

/-- Whether an access writes, and whether it reads. -/
def Acc.writes (a : Acc) : Bool :=
  match a.kind with
  | .store | .atomic | .tagStore => true
  | _ => false

def Acc.reads (a : Acc) : Bool :=
  match a.kind with
  | .store | .tagStore => false
  | _ => true

/-- A read whose value is fixed or a write that has performed, at a scope (R228). -/
def Acc.performedAt (a : Acc) (scope : Nat) : Bool :=
  match a.kind with
  | .store | .tagStore => (scope == 0 || scope == 3) && a.stage ≥ 1
  | .atomic => a.stage ≥ 2
  | _ => false

/-- The earlier accesses of the same strands: issued before, still pending or in the operand log. -/
def State.earlier (s : State) (a : Acc) : List Acc := s.pend.filter fun b => decide (b.id < a.id) && a.owners.any b.owns

def State.earlierLog (s : State) (a : Acc) : List LogEntry :=
  a.owners.flatMap fun sid => (s.st sid).log.filter fun e => decide (e.acc.id < a.id)

/-- Whether an acquire at a scope holds an access back, of which exactly one is to I/O space when `io` says so: only system scope orders those with memory (R249). -/
def acqHolds (scope : Option Nat) (io : Bool) : Bool :=
  match scope with
  | none => false
  | some sc => !io || sc == 2

/-- No earlier acquire of the strand is still to perform (R228, R232, R249). -/
def State.noAcqBefore (s : State) (a : Acc) : Bool :=
  (s.earlier a).all (fun b => b.stage ≥ 2 || !(acqHolds b.acq (a.loc == 3 || b.loc == 3))) && (s.earlierLog a).all (fun e => e.acc.acq.isNone)
    && s.tileOps.all fun o => !(a.owns o.sid) || decide (a.id ≤ o.id) || !(acqHolds o.acq (a.loc == 3))

-- a core's stores on their way home (R228, R234)

/-- A store that has performed at core scope and is not yet at its home. -/
def Acc.atCore (b : Acc) (core : Nat) : Bool := b.kind == .store && b.stage == 1 && b.core == core

/-- Whether a store waits at a strand's core that happens before what the strand does now: it had reached the core when the strand last acquired (R229). -/
def State.hbStore (s : State) (sid : Nat) (b : Acc) : Bool := b.atCore (s.coreOf (s.st sid)) && decide (b.at1 ≤ (s.st sid).syncAt)

/-- No store of the access's core that meets it is still on its way home: what works at the home comes after what the core has performed (R228, R234, R240). -/
def State.coreClear (s : State) (a : Acc) : Bool := s.pend.all fun b => b.id == a.id || !(b.atCore a.core && b.overlaps a)

-- tile-view operations and raw accesses (R161, R233)

/-- Bytes of a tile's payload (R140). -/
def tileBytesOf (fmt : Nat) : Nat := if fmt = 8 then 4096 else if fmt = 9 ∨ fmt = 10 then 2048 else 1024

/-- Whether an operation names every tile of its tensor: the edits and TMAT.all (R215, R218). -/
def TileOp.whole (o : TileOp) : Bool := (0x80 ≤ o.op && o.op ≤ 0x84) || (o.op == 0x86 && o.fn == 1)

/-- Whether an operation writes: all but THDR and TLDE (R215). -/
def TileOp.writes (o : TileOp) : Bool := o.op != 0x87 && o.op != 0x88

def TileOp.tiles (o : TileOp) : Nat := if o.whole then ceilDiv o.rows 32 * ceilDiv o.cols 32 else 1

/-- The index i * GRIDCOLS + j of the n-th tile of an operation (R141, R215); `row` and `col` are stored coordinates. -/
def TileOp.tileIdx (o : TileOp) (n : Nat) : Nat :=
  if o.whole then
    let tc := ceilDiv o.cols 32
    n / tc * o.grid + n % tc
  else o.row / 32 * o.grid + o.col / 32

def TileOp.hdrVa (o : TileOp) (n : Nat) : Addr := o.hdrbase + BitVec.ofNat 64 (o.tileIdx n * 32)
def TileOp.payVa (o : TileOp) (n : Nat) : Addr := o.paybase + BitVec.ofNat 64 (o.tileIdx n * tileBytesOf o.fmt)

/-- Whether bytes meet. -/
def bytesMeet (a n b m : Nat) : Bool := decide (a < b + m) && decide (b < a + n)

/-- Whether the n-th tile of an operation, or the descriptor word of a TORD, has bytes in common with an access. -/
def State.tileTouches (s : State) (o : TileOp) (loc pa len n : Nat) : Bool :=
  let meets := fun (va : Addr) (w : Nat) => match s.vaToPa o.ctx va.toNat with
    | some x => x.1 == loc && bytesMeet x.2 w pa len
    | none => false
  if o.op = 0x85 then loc == o.hdrLoc && bytesMeet o.descPa 4 pa len
  else meets (o.hdrVa n) 32 || meets (o.payVa n) (tileBytesOf o.fmt)

/-- Whether an operation still has a tile to do that has bytes in common with an access. -/
def State.opTouches (s : State) (o : TileOp) (loc pa len : Nat) : Bool :=
  (List.range (o.tiles - o.doneTiles)).any fun k => s.tileTouches o loc pa len (o.doneTiles + k)

/-- No earlier tile-view operation of the strand still has to reach the bytes of an access (R161). -/
def State.tileClear (s : State) (a : Acc) : Bool :=
  a.loc == 4 || s.tileOps.all fun o => !(a.owns o.sid) || decide (a.id ≤ o.id) || !(s.opTouches o a.loc a.pa a.width)

/-- No earlier tile-view operation of the strand still has to read or write any element of the lines of a write (R161, R231). -/
def State.tileLineClear (s : State) (a : Acc) : Bool :=
  a.loc == 4 || s.tileOps.all fun o =>
    !(a.owns o.sid) || decide (a.id ≤ o.id) || !(s.opTouches o a.loc (a.pa / 128 * 128) ((a.pa + a.width - 1) / 128 * 128 + 128 - a.pa / 128 * 128))

/-- Every earlier read of the strand of any element of the lines of a write has returned (R231). -/
def State.linesRead (s : State) (a : Acc) : Bool := s.tileLineClear a && (s.earlier a).all fun b => !(b.reads && b.sameLine a && b.stage < 2)

/-- No faulted access of the strand waits in its log for a write: none to its bytes, and no read of its line (R231, R232). -/
def State.logClear (s : State) (a : Acc) : Bool := (s.earlierLog a).all fun e => !(a.meets e.acc) && !(e.acc.reads && a.nearLine e.acc)

/-- Whether an access comes after another, of the same strand and older, that still waits (R206, R228, R230..R232). -/
def Acc.waitsFor (a b : Acc) : Bool :=
  decide (b.id < a.id) && (a.meets b || a.overlaps b || b.acq.isSome || a.rel.isSome || b.sameAld a || (a.writes && b.reads && a.nearLine b))

/-- Where an access lies, as far as it can be told. -/
def State.accPlace (s : State) (e : Acc) : Option (Nat × Nat) := if e.known || e.loc == 4 then some (e.loc, e.pa) else s.vaToPa e.ctx e.va.toNat

/-- Whether an access goes to I/O space, or may turn out to (R249). -/
def State.mayBeIo (s : State) (e : Acc) : Bool :=
  match s.accPlace e with
  | some x => x.1 == 3
  | none => e.need.locs.contains 3

/-- Whether an access waits for another of its strand: also one of I/O space for an older one there (R249). -/
def State.accWaits (s : State) (a b : Acc) : Bool := a.waitsFor b || (a.loc == 3 && decide (b.id < a.id) && s.mayBeIo b)

/-- Whether the accesses of I/O space that a strand made before one have performed (R249). -/
def State.ioClear (s : State) (a : Acc) : Bool :=
  a.loc != 3 || (s.earlier a).all (fun b => b.loc != 3) && (s.earlierLog a).all fun e => !(s.mayBeIo e.acc)

/-- Pending accesses of a strand that its log holds back, at once or through each other (R232, R249). -/
def State.stuck (s : State) (sid : Nat) : List Acc :=
  (s.pend.filter fun a => a.owns sid && (a.stage == 0 || a.stage == 1 && a.kind == .store && a.rel.isSome)).foldl (fun l a =>
    if ((s.st sid).log.map (·.acc) ++ l).any (s.accWaits a) then l ++ [a] else l) []

/-- Whether a tile-view operation that comes after an access waits for it (R161, R232): for an acquire, as a release, where they have bytes in common. -/
def State.tileAfter (s : State) (o : TileOp) (e : Acc) : Bool :=
  e.acq.isSome || o.rel.isSome || match s.accPlace e with
    | some x => s.opTouches o x.1 x.2 e.width
    | none => (List.range (o.tiles - o.doneTiles)).any fun k =>
        let meets := fun (va : Addr) (n : Nat) => o.ctx == e.ctx && bytesMeet (va.toNat % 2 ^ 56) n (e.va.toNat % 2 ^ 56) e.width
        if o.op = 0x85 then meets o.desc 4 else meets (o.hdrVa (o.doneTiles + k)) 32 || meets (o.payVa (o.doneTiles + k)) (tileBytesOf o.fmt)

/-- A read of some bytes stands for one of their lines, as a write waits for it (R231). -/
def Acc.lines (a : Acc) : Acc :=
  let wide := fun (x : Nat) => (x + a.width - 1) / 128 * 128 + 128 - x / 128 * 128
  { a with va := a.va - BitVec.ofNat 64 (a.va.toNat % 128), pa := a.pa / 128 * 128, width := max (wide a.pa) (wide (a.va.toNat % 2 ^ 56)) }

/-- Whether its strand's log holds a tile-view operation back, at once or through an access (R231, R232). -/
def State.tileStuck (s : State) (o : TileOp) : Bool :=
  ((s.st o.sid).log.map (·.acc) ++ s.stuck o.sid).any fun e => decide (e.id < o.id) && (s.tileAfter o e || (o.writes && e.reads && s.tileAfter o e.lines))

/-- Every earlier access of the strand, and every posted tile operation, has performed at a scope (R228, R161), and at a scope beyond the core what happens before it from other strands of the core (R229). I/O space is ordered with memory at system scope only (R249). -/
def State.allBefore (s : State) (a : Acc) (scope : Nat) : Bool :=
  (s.earlier a).all (fun b => b.performedAt scope || scope != 2 && (a.loc == 3) != (b.loc == 3)) && (s.earlierLog a).isEmpty
    && (s.tileOps.all fun o => !(a.owns o.sid) || decide (a.id ≤ o.id) || scope != 2 && a.loc == 3)
    && (scope == 0 || scope == 3 || s.pend.all fun b => b.id == a.id || !(a.owners.any fun sid => s.hbStore sid b) || a.stage == 1 && decide (a.at1 ≤ b.at1))

/-- Everything the strand has issued has performed at a scope: what a release by an instruction waits for (R82, R98, R106, R229, R249, R250). -/
def State.released (s : State) (sid scope : Nat) : Bool :=
  s.pend.all (fun b => !(b.owns sid) || b.performedAt scope || scope != 2 && b.loc == 3) && (s.st sid).log.isEmpty && (s.tileOps.all fun o => o.sid != sid)
    && (scope == 0 || scope == 3 || s.pend.all fun b => !(s.hbStore sid b))

/-- Whether an access may work at its home now (R228, R232, R233): the strand's acquires have performed, its own earlier accesses and tile-view operations and its core's stores have reached the bytes. -/
def State.homeClear (s : State) (a : Acc) : Bool :=
  s.noAcqBefore a && (s.earlier a).all (fun b => !(b.overlaps a)) && (s.earlierLog a).all (fun e => !(a.meets e.acc)) && s.tileClear a && s.coreClear a

/-- Whether a strand may read or write some bytes at their home now. -/
def State.ownClear (s : State) (st : Strand) (va : Addr) (loc pa len : Nat) : Bool :=
  s.homeClear { id := s.nextId, sid := st.sid, uid := st.uid, core := s.coreOf st, ctx := s.ctxOf st, va := va, width := len, loc := loc, pa := pa }

/-- Whether a write may perform at core scope now (R228, R230..R232, R236). -/
def State.mayReachCore (s : State) (a : Acc) : Bool :=
  s.noAcqBefore a && s.linesRead a
    && (s.earlier a).all (fun b => !(b.overlaps a) || (b.writes && b.stage ≥ 1))
    && s.logClear a
    && (match a.rel with
        | some _ => s.allBefore a 0
        | none => true)

/-- Whether a write may perform at its home now: core stores in the order they reached the core, a release after everything before it at its scope (R228, R237, R245, R249). -/
def State.mayReachHome (s : State) (a : Acc) : Bool :=
  (a.stage ≥ 1 || s.mayReachCore a)
    && (if a.stage = 1 then ((s.pend.takeWhile fun b => b.id != a.id).all fun b => !(b.atCore a.core && b.overlaps a))
        else s.coreClear a && (s.earlier a).all fun b => !(b.overlaps a))
    && s.ioClear a
    && (match a.rel with
        | some sc => sc = 0 ∨ sc = 3 ∨ s.allBefore a sc
        | none => true)

/-- Whether an atomic may execute now (R228, R240). -/
def State.mayExecute (s : State) (a : Acc) : Bool :=
  a.kind == .atomic && a.stage == 0 && s.noAcqBefore a && s.linesRead a
    && s.coreClear a && (s.earlier a).all (fun b => b.stage == 2 || !(b.overlaps a))
    && s.logClear a
    && (match a.rel with
        | some sc => s.allBefore a sc
        | none => true)

/-- Whether an access reads or writes only at its home: a tag's (R268), I/O space and the scratchpad (R223), an uncached page's (R238, R309), a remote frame's (R248). -/
def Acc.homeOnly (a : Acc) : Bool := a.isTag || a.loc == 3 || a.loc == 4 || a.pol == 2 || decide (a.core ≥ Config.cores)

/-- Whether a load may fix its value now (R228, R231, R232, R238, R259). -/
def State.mayLoad (s : State) (a : Acc) : Bool :=
  s.noAcqBefore a && s.tileClear a
    && (s.earlier a).all (fun b => !(b.reads && b.overlaps a && b.stage < 2))
    && (s.earlierLog a).all (fun e => !(a.meets e.acc))
    && s.ioClear a
    && (!(a.isTag || a.pol == 2) || s.coreClear a && (s.earlier a).all fun b => !(b.overlaps a))
    && (a.bundle.all fun sid => (s.pend.all fun b => !(b.owns sid) || !(b.writes && b.overlaps a && decide (b.id < a.id)) || b.stage ≥ 1)
      && (s.st sid).log.all fun e => !(e.acc.writes && decide (e.acc.id < a.id) && a.meets e.acc))

/-- The early read that a load takes its value from (R231): of all the strands it serves, none of which has a store of its own still to come before it or has acquired since (R235, R238), and over which no earlier store of the issuing bundle has performed (R259). A poisoned one is made again. -/
def State.earlyFor (s : State) (a : Acc) : Option Early :=
  if a.loc = 3 ∨ a.isTag ∨ a.kind = .waita then none
  else ((s.st a.sid).early.find? fun e => e.loc == a.loc && decide (e.pa ≤ a.pa) && decide (a.pa + a.width ≤ e.pa + e.bytes.length)).filter fun e =>
    (e.bytes.all fun b => !b.2) && (s.earlier a).all (fun b => !(b.writes && b.overlaps a))
      && (e.passed.all fun p => !(a.bundle.contains p.1 && decide (p.2 < a.id)))
      && a.owners.all fun sid => decide (e.stamp ≥ (s.st sid).acqAt) && (s.st sid).early.any fun x => x.stamp == e.stamp && x.loc == e.loc && x.pa == e.pa

/-- The byte a load reads: the strand's own newest earlier store, the core's newest store that has not gone home, a copy in the core's L1, the home (R231, R234, R238). `stale` says whether an L1 copy is used. -/
def State.loadByte (s : State) (a : Acc) (stale : Bool) (i : Nat) : Byte :=
  let pa := a.pa + i
  let hits := fun (b : Acc) => b.kind == .store && b.loc == a.loc && (b.loc != 4 || b.uid == a.uid) && decide (b.pa ≤ pa) && decide (pa < b.pa + b.width)
  let own := ((s.pend.filter fun b => b.sid == a.sid && decide (b.id < a.id) && b.stage == 0 && hits b).getLast?)
  let core := ((s.pend.filter fun b => b.atCore a.core && hits b).getLast?)
  match own, core with
  | some b, _ => BitVec.ofNat 8 (b.data >>> (8 * (pa - b.pa)))
  | none, some b => BitVec.ofNat 8 (b.data >>> (8 * (pa - b.pa)))
  | none, none =>
    if a.loc = 4 then s.scratchByte a.uid pa
    else
      let copy := s.l1.find? fun l => l.core == a.core && l.loc == a.loc && l.line == pa / 128
      match copy with
      | some l => if stale then l.bytes.getD (pa % 128) 0 else ((s.homeBytes a.loc pa 1).headD 0)
      | none => (s.homeBytes a.loc pa 1).headD 0

/-- A byte as a core's copy engine reads it (R227): the core's newest store to it that has not gone home, else the home; with its poison. -/
def State.coreByte (s : State) (core loc pa : Nat) : Byte × Bool :=
  match (s.pend.filter fun b => b.atCore core && b.loc == loc && decide (b.pa ≤ pa) && decide (pa < b.pa + b.width)).getLast? with
  | some b => (BitVec.ofNat 8 (b.data >>> (8 * (pa - b.pa))), false)
  | none => ((s.homeBytes loc pa 1).headD 0, s.poisonedIn loc pa 1)

def State.coreBytes (s : State) (core loc pa n : Nat) : List (Byte × Bool) := (List.range n).map fun i => s.coreByte core loc (pa + i)

/-- Whether a load may use the core's L1 copy: the line was read after the strand's last acquire at device scope, and the page is not uncached (R238, R309). -/
def State.staleOk (s : State) (a : Acc) : Bool :=
  a.pol != 2 && s.l1.any fun l => l.core == a.core && l.loc == a.loc && l.line == a.pa / 128 && decide (l.stamp ≥ (s.st a.sid).acqAt)

/-- Whether a load takes what it reads from the core's L1 copy. -/
def State.takesCopy (s : State) (a : Acc) : Bool := s.staleOk a && Config.takesL1 s.tick

/-- The value a load returns: what an early read found, or what is there now. -/
def State.loadNum (s : State) (a : Acc) : Nat :=
  match s.earlyFor a with
  | some e => ofLeBytes (((e.bytes.drop (a.pa - e.pa)).take a.width).map (·.1))
  | none => ofLeBytes ((List.range a.width).map (s.loadByte a (s.takesCopy a)))

/-- The newest store of a core to some bytes that is not at its home. -/
def State.coreStore (s : State) (core loc pa n : Nat) : Option Acc :=
  (s.pend.filter fun b => b.atCore core && b.loc == loc && bytesMeet b.pa b.width pa n).getLast?

/-- The releases that a read of some bytes observes at their home, or in a core's L1 copy of them (R229). -/
def State.marksOf (s : State) (core uid loc pa n : Nat) (copy : Bool) : List RelMark :=
  (match (if copy then s.l1.find? fun (l : L1Line) => l.core == core && l.loc == loc && l.line == pa / 128 else none) with
    | some l => l.marks
    | none => s.relMarks).filter fun m => m.lies uid loc pa n

/-- What a read of some bytes acquires at core scope (R229, R234): what the release whose value it reads passes on, of the newest store of its core that is not at its home, or of those whose values stand where it reads. -/
def State.passedOn (s : State) (core uid loc pa n : Nat) (copy : Bool := false) : Nat :=
  match s.coreStore core loc pa n with
  | some b => if b.rel.isSome then b.relAcq else 0
  | none => (((s.marksOf core uid loc pa n copy).filter fun m => m.core == core).map (·.acq)).foldl max 0

/-- Whether a scope is the core's (R227). -/
def coreScope (sc : Nat) : Bool := sc == 0 || sc == 3

/-- The cores whose releases at core scope a read of some bytes observes (R239). -/
def State.relsOf (s : State) (core uid loc pa n : Nat) (copy : Bool := false) : List Nat :=
  match s.coreStore core loc pa n with
  | some b => if b.rel.any coreScope then [core] else []
  | none => ((s.marksOf core uid loc pa n copy).filter fun m => coreScope m.scope).map (·.core)

/-- A release that has performed at its home is marked there, and in its core's copy of the line (R229). -/
def State.markRel (s : State) (a : Acc) : State :=
  match (if a.core ≥ Config.cores then none else a.rel) with
  | none => s
  | some sc =>
    let m : RelMark := ⟨a.core, a.loc, if a.loc ≥ 4 then a.uid else 0, a.pa, a.width, a.relAcq, sc⟩
    { s with
      relMarks := m :: s.relMarks
      l1 := s.l1.map fun l => if l.core = a.core ∧ l.loc = a.loc ∧ l.line = a.pa / 128 then { l with marks := m :: l.marks } else l }

/-- Strands have read stores of others that are not at their homes yet: those go with them when they move (R230, R235). -/
def State.markSeen (s : State) (a : Acc) (at_ : Nat) : State :=
  { s with pend := s.pend.map fun b => if b.atCore a.core && b.overlaps a && decide (b.at1 ≤ at_) then { b with seen := a.owners ++ b.seen } else b }

/-- A core's L1 takes a copy of a line from its home; a full L1 gives up one of its 2,048 lines for it (R12), one of a streaming page if it has any (R309). -/
def State.l1Take (s : State) (core loc line : Nat) (stream : Bool) : State :=
  let others := s.l1.filter fun l => !(l.core == core && l.loc == loc && l.line == line)
  let mine := others.filter fun l => l.core == core
  let first := mine.filter (·.stream)
  let from_ := if first.isEmpty then mine else first
  let kept := if mine.length < Config.l1Lines then others
    else match from_[Config.l1Victim s.tick % from_.length]? with
      | some v => others.filter fun l => !(l.core == v.core && l.loc == v.loc && l.line == v.line)
      | none => others
  { s with l1 := ⟨core, loc, line, s.homeBytes loc (line * 128) 128, s.tick, (List.range 128).filter fun i => s.poisonedIn loc (line * 128 + i) 1, stream, s.relMarks.filter fun m => m.lies 0 loc (line * 128) 128⟩ :: kept }

/-- The L1 takes a copy of a line that a load read from its home (R223, R309). -/
def State.l1Fill (s : State) (a : Acc) : State :=
  if a.loc ≥ 3 ∨ a.homeOnly ∨ s.takesCopy a then s else s.l1Take a.core a.loc (a.pa / 128) (a.pol == 1)

/-- The core's own copy of a line takes the bytes of a store that reaches the core (R309). -/
def State.l1Update (s : State) (a : Acc) : State :=
  { s with l1 := s.l1.map fun l =>
      if l.core = a.core ∧ l.loc = a.loc ∧ l.line = a.pa / 128 then
        let stored := fun (i : Nat) => decide (a.pa ≤ l.line * 128 + i ∧ l.line * 128 + i < a.pa + a.width)
        { l with
          bytes := (List.range 128).map fun i => if stored i then BitVec.ofNat 8 (a.data >>> (8 * (l.line * 128 + i - a.pa))) else l.bytes.getD i 0
          poison := l.poison.filter fun i => !stored i
          marks := l.marks.filter fun m => !(m.lies 0 a.loc a.pa a.width) }
      else l }

/-- Drop a core's copy of a line (R240, R266). -/
def State.l1Drop (s : State) (core loc line : Nat) : State :=
  { s with l1 := s.l1.filter fun l => !(l.core == core && l.loc == loc && l.line == line) }

/-- A core keeps no copy of a line older than what one of its strands has read of it early (R230, R238). -/
def State.dropOlder (s : State) (core loc line at_ : Nat) : State :=
  { s with l1 := s.l1.filter fun l => !(l.core == core && l.loc == loc && l.line == line && decide (l.stamp < at_)) }

/-- A write that performs is noted with the early reads of its bytes (R259). -/
def State.passEarly (s : State) (a : Acc) : State :=
  { s with strands := s.strands.map fun st => { st with early := st.early.map fun e =>
      if e.loc = a.loc ∧ (a.loc ≠ 4 ∨ st.uid = a.uid) ∧ bytesMeet e.pa e.bytes.length a.pa a.width then { e with passed := (a.sid, a.id) :: e.passed } else e } }

/-- A write that a word has made at once to the scratchpad or a sidecar: what its strand and others have read of it early, and its release (R228, R229, R231, R259). -/
def State.wroteAtOnce (s : State) (a : Acc) : State := ((s.dropEarly [a.sid] a.loc a.pa a.width).passEarly a).markRel a

def State.dropAcc (s : State) (id : Nat) : State := { s with pend := s.pend.filter fun b => b.id != id }

/-- A store performs at core scope (R228). -/
def State.toCore (s : State) (a : Acc) : State :=
  let s := ((s.l1Update a).dropEarly a.owners a.loc a.pa a.width).passEarly a
  { (s.dropAcc a.id) with pend := (s.dropAcc a.id).pend ++ [{ a with stage := 1, at1 := s.tick }] }

/-- A release at core scope is recorded with the line (R239): a store's in place of those before it, which a read of it no longer observes; a read-modify-write's beside them. -/
def State.noteRel (s : State) (a : Acc) : State :=
  match a.rel with
  | some sc =>
    if (sc = 0 ∨ sc = 3) ∧ a.loc < 3 then
      { s with lastRel := (a.loc, a.pa / 128, a.core) :: s.lastRel.filter fun x => !(x.1 == a.loc && x.2.1 == a.pa / 128 && (a.kind != .atomic || x.2.2 == a.core)) }
    else s
  | none => s

/-- A store performs at its home (R237, R245, R246, R249, R268). -/
def State.toHome (s : State) (a : Acc) : State :=
  let s := if a.isTag then s else (s.l1Update a).dropEarly a.owners a.loc a.pa a.width
  let s := if a.isTag || a.stage ≥ 1 then s else s.passEarly a
  let s := s.dropAcc a.id
  match a.kind with
  | .tagStore => { s with tags := s.tags.set (a.pa / 32) (BitVec.ofNat 8 (a.data % 16)) }
  | _ =>
    if a.loc = 3 then { s with ioLog := s.ioLog ++ [⟨a.pa / 2 ^ 47, a.pa % 2 ^ 47, a.width, some a.data⟩] }
    else ((s.writeHome a.uid a.loc a.pa (leBytes a.width a.data)).noteRel a).markRel a

/-- The new value of an atomic (R263), on patterns of its width. -/
def atomicNew (op ty old b c : Nat) : Nat :=
  let w := if wideTy ty then 64 else 32
  let m := 2 ^ w
  let o := old % m
  let x := b % m
  match op with
  | 0x97 | 0x1B => (o + x) % m
  | 0x98 => if readInt ty o ≤ readInt ty x then o else x
  | 0x99 => if readInt ty o ≥ readInt ty x then o else x
  | 0x9A => o &&& x
  | 0x9B => o ||| x
  | 0x9C => o ^^^ x
  | 0x9D => x
  | 0x9E => if o = x then c % m else o
  | _ => add32 o x

/-- Releases of a strand that come after an acquire of it pass on what it acquired (R229). -/
def State.passLater (s : State) (sid id : Nat) : State :=
  { s with pend := s.pend.map fun b => if b.sid = sid ∧ b.id > id ∧ b.rel.isSome then { b with relAcq := max b.relAcq (s.st sid).acqAt } else b }

/-- The writes to perform when a condition selects some, youngest first: with each go the older stores of its core to the same bytes (R230). -/
def flushPlan (p : Acc → Bool) (pend : List Acc) : List Acc :=
  let cored := fun (a : Acc) => a.kind == .store && a.stage == 1
  (pend.filter (fun a => cored a) ++ pend.filter fun a => !cored a).reverse.foldl
    (fun plan b => if (p b && b.writes) || (cored b && plan.any fun a => a.core == b.core && a.overlaps b) then b :: plan else plan) []

/-- Before an acquire at .rp completes, the cores whose releases at core scope it observes, and those recorded with the line, perform what they have (R239); one whose cluster is down does not. -/
def State.promote (s : State) (loc line : Nat) (rels : List Nat) : State :=
  let noted := (s.lastRel.filter fun x => x.1 == loc && x.2.1 == line).map (·.2.2)
  let cores := (rels ++ noted).filter fun c => !(s.clusters.getD (clusterOf c) {}).down
  if cores.isEmpty then s else (flushPlan (fun a => cores.contains a.core && a.kind == .store && a.stage == 1 && !(a.loc == 1 && s.peerDown (a.pa / 2 ^ 48))) s.pend).foldl State.toHome s

/-- An access of a strand acquires (R228, R229), as at the step in which it read and with what it was passed on at core scope. -/
def State.acquireFor (s : State) (sid : Nat) (a : Acc) (at_ acq : Nat) : State :=
  match a.acq with
  | some sc => if a.loc = 3 ∧ sc ≠ 2 then s else (s.acquireAt sid (if sc = 3 then 1 else sc) at_ acq).passLater sid a.id
  | none => s

/-- What an access acquires takes effect for its strands (R228, R239): .rp first makes the cores whose releases it observes perform what they have; the reads that follow are no older than the acquiring read. -/
def State.acquireBy (s : State) (a : Acc) (at_ acq : Nat) (rels : List Nat) : State :=
  let s := if a.acq = some 3 then s.promote a.loc (a.pa / 128) rels else s
  a.owners.foldl (fun (s : State) sid => s.acquireFor sid a at_ acq) s

/-- The last read of a strand in program order that has returned (R228, R249): when it read, and what it acquires. -/
def State.noteRead (s : State) (a : Acc) (at_ acq : Nat) (rels : List Nat) : State :=
  a.owners.foldl (fun s sid => s.setSt sid fun st =>
    if a.id < st.lastId then st
    else { st with lastId := a.id, lastRead := at_, lastAcq := acq, lastRels := rels, lastLine := some (a.loc, a.pa / 128), lastIo := a.loc == 3 }) s

/-- An atomic executes (R240): its write is at the home at once, and its read has returned; an old value that a register awaits goes on its way. -/
def State.execAtomic (s : State) (a : Acc) (b : Nat) : State :=
  let old := s.homeNum a.loc a.pa a.width
  let acq := s.passedOn a.core a.uid a.loc a.pa a.width
  let rels := s.relsOf a.core a.uid a.loc a.pa a.width
  let s := ((s.rmwHome a.uid a.loc a.pa (leBytes a.width (atomicNew a.op a.ty old b a.data2))).noteRel a).markRel a
  let s := ((s.l1Drop a.core a.loc (a.pa / 128)).dropEarly [a.sid] a.loc a.pa a.width).passEarly a
  let s := (s.acquireBy a s.tick acq rels).noteRead a s.tick acq rels
  let s := s.dropAcc a.id
  if a.dest.isSome then { s with pend := s.pend ++ [{ a with stage := 2, old := old }] } else s

/-- A packet merged into one that executes has performed with it (R241): its release, its acquire, its read (R239, R265). -/
def State.mergedDone (s : State) (b : Acc) : State :=
  let acq := s.passedOn b.core b.uid b.loc b.pa b.width
  let rels := s.relsOf b.core b.uid b.loc b.pa b.width
  let s := ((((s.noteRel b).markRel b).dropEarly [b.sid] b.loc b.pa b.width).passEarly b).acquireBy b s.tick acq rels
  s.noteRead b s.tick acq rels

/-- Packets merged into one that executes have performed with it (R241). -/
def State.dropMerged (s : State) (a : Acc) : State :=
  let mine := s.pend.filter fun b => a.merged.contains b.id
  let s := mine.foldl State.mergedDone s
  { s with pend := s.pend.filter fun b => !(a.merged.contains b.id) }

/-- Perform one pending write at its home, whatever its order conditions: used where a rule makes everything perform first; nothing performs at a peer that is down (R354). A packet merged into another performs with that one, once (R241). -/
def State.settle (s : State) (a : Acc) : State :=
  if a.loc = 1 ∧ s.peerDown (a.pa / 2 ^ 48) then s
  else match a.kind with
  | .store | .tagStore => s.toHome a
  | .atomic =>
    if a.stage = 2 then s
    else
      let host := if a.stage = 1 then s.pend.find? fun b => b.merged.contains a.id else s.pend.find? fun b => b.id == a.id
      match host with
      | some h => if h.stage = 2 then s else (s.execAtomic h h.data).dropMerged h
      | none => s
  | _ => s

/-- Perform at their homes, in order, the pending writes a condition selects (R59, R91, R235, R239). -/
def State.flush (s : State) (p : Acc → Bool) : State := (flushPlan p s.pend).foldl State.settle s

/-- The accesses of an item's strands that their logs hold back (R232). -/
def State.heldIds (s : State) (uid : Nat) : List Nat := (s.strands.filter fun st => st.uid == uid && !st.isFrame).flatMap fun st => (s.stuck st.sid).map (·.id)

/-- The writes of an item's strands perform at their homes, but for those that a log holds back (R232), and what happens before them from other strands of their cores, or they have read there (R59, R91, R229, R230, R235). -/
def State.flushItem (s : State) (uid : Nat) : State :=
  let mine := (s.strands.filter fun st => st.uid == uid && !st.isFrame).map (·.sid)
  let held := s.heldIds uid
  s.flush fun a => !held.contains a.id && mine.any fun sid => sid == a.sid || s.hbStore sid a || a.seen.contains sid

end Sys2Proof.Machine
end

