-- ==== Sys2Proof/Machine/Save.lean ====
section
/-! DEFINITION. The save area and the save of an item (14 R332..R338): addresses, the image of a record to the bit, and the save itself. -/

namespace Sys2Proof.Machine

/-- Store bytes at virtual addresses for the launch unit, where they translate (log 14). -/
def State.putVa (s : State) (ctx va : Nat) : List Byte → State
  | [] => s
  | b :: bs =>
    let s := match s.vaToPa ctx va with
      | some (0, pa) => s.writeHome 0 0 pa [b]
      | _ => s
    State.putVa s ctx (va + 1) bs

/-- Store 64-byte pieces with their poison (R341): a piece replaces a codeword whole. -/
def State.putLines (s : State) (ctx va : Nat) : List (List (Byte × Bool)) → State
  | [] => s
  | l :: ls =>
    let s := match s.vaToPa ctx va with
      | some (0, pa) =>
        let s := s.writeHome 0 0 pa (l.map (·.1))
        if l.any (·.2) then { s with poison := pa / 64 :: s.poison } else s
      | _ => s
    State.putLines s ctx (va + 64) ls

/-- Read bytes at virtual addresses for the launch unit. -/
def State.getVa (s : State) (ctx va n : Nat) : Option (List Byte) :=
  (List.range n).mapM fun i => (s.vaToPa ctx (va + i)).map fun x => ((s.homeBytes x.1 x.2 1).headD 0)

def State.numVa (s : State) (ctx va n : Nat) : Nat := ofLeBytes ((s.getVa ctx va n).getD [])

/-- Set or clear the INUSE bit of a record (R333). -/
def State.setInuse (s : State) (ctx savebase h : Nat) (b : Bool) : State :=
  let va := savebase + 0x100 + h / 8
  let old := s.numVa ctx va 1
  s.putVa ctx va [BitVec.ofNat 8 (if b then old ||| 2 ^ (h % 8) else if bitN old (h % 8) then old - 2 ^ (h % 8) else old)]

/-- The virtual address of a record (R333). -/
def Item.recordVa (it : Item) (la : Launch) : Nat := it.savebase.toNat + 65536 + it.record * la.recsz

/-- The operations that a rank's engine has before it (R198, R204): an MMAG that still waits for its pool has not issued, and keeps the engine from what stands behind it. -/
def Rank.issued (r : Rank) : List MatOp := r.ops.takeWhile (·.checked)

/-- Whether the engines still work for an item: signing operations, copies, multicasts (R323, R332). DESIGN CHOICE (log 106): an MMAG whose round has completed and which still waits for its pool, and what stands behind it, are not waited for: they stay queued across a save. -/
def State.enginesBusy (s : State) (uid : Nat) : Bool :=
  (s.it uid).ranks.any (fun r => !r.issued.isEmpty) || s.copies.any (fun c => c.uid == uid) || s.mcasts.any fun m => m.uid == uid

/-- Whether a fault has ended an item (R323). -/
def Item.isEnding (it : Item) : Bool :=
  match it.status with
  | .ending _ => true
  | _ => false

/-- Whether a call has come back to its caller's core: its frame was shipped there (R81, R367). -/
def CallPhase.atCaller : CallPhase → Bool
  | .shipped _ => true
  | .finishing _ => true
  | _ => false

-- the record image (R334..R338)

/-- A byte of a record and whether it is poisoned (R341). -/
abbrev ImgByte := Byte × Bool

/-- A 32-bit word of a record. -/
def img4 (x : Nat) (p : Bool := false) : List ImgByte := (leBytes 4 x).map fun b => (b, p)

def imgN (n x : Nat) : List ImgByte := (leBytes n x).map fun b => (b, false)

def zeros (n : Nat) : List ImgByte := List.replicate n (0, false)

/-- Pad to a multiple of 64 bytes (R334). -/
def pad64 (bs : List ImgByte) : List ImgByte := bs ++ zeros (alignUp 64 bs.length - bs.length)

/-- PARK and PARKC of a park (R335). -/
def Park.code : Park → Nat × Nat
  | .signW c => (1, c)
  | .collective => (2, 0)
  | .freeze => (3, 0)
  | .sleep _ => (4, 0)
  | _ => (0, 0)

def Park.wakeAt : Park → Nat
  | .sleep t => t
  | _ => 0

/-- The PC at which a pre-empted strand continues, its park, its interrupted trap's registers and TRAPH (R330, R335). -/
def Strand.resumePc (st : Strand) : Addr := if st.phase = .run then st.pc else st.heldPc.getD st.tr.trpc
def Strand.parkOf (st : Strand) : Park := if st.phase = .run then st.park else st.savedPark
def Strand.trOf (st : Strand) : TrapRegs := if st.phase = .run then st.tr else st.savedTr
def Strand.traphOf (st : Strand) : Bool := if st.phase = .run then st.traph else st.savedTraph

/-- An operand-log entry (R336). -/
def LogEntry.image (e : LogEntry) : List ImgByte :=
  imgN 8 e.acc.pc.toNat ++ imgN 8 e.acc.va.toNat ++ imgN 8 e.acc.data ++ imgN 8 (if e.acc.kind = .atomic then e.acc.data2 else e.acc.data >>> 64)
    ++ img4 (e.trap.cls + 256) ++ zeros 12

/-- Whether the strand's signature stands in a crew's open round. -/
def Item.signedMask (it : Item) (st : Strand) : Nat :=
  maskOf 16 fun c => match it.crews.find? fun k => k.id == (if c = 15 then 0 else st.crew) with
    | some k => (k.rounds.getD c {}).signers.any fun g => g.sid == st.sid
    | none => false

/-- A strand record (R335); the empty map is that of the saved row. -/
def Item.strandImage (it : Item) (st : Strand) (row : Row) : List ImgByte :=
  let pk := st.parkOf
  let tr := st.trOf
  let w0 := b01 st.exited + 2 * b01 st.traphOf + 2 ^ 5 * pk.code.1 + 2 ^ 8 * (st.crew % 16) + 2 ^ 12 * pk.code.2 + 2 ^ 16 * st.preds.toNat
    + 2 ^ 23 * st.rstk.length + 2 ^ 28 * b01 st.lock.isSome
  let lk := st.lock.getD ⟨0, 0, 0⟩
  let logBytes := (st.log.filter fun e => !e.late).flatMap LogEntry.image
  let stk := st.rstk.reverse
  img4 w0 ++ img4 (lk.bank + 2 ^ 5 * lk.index + 2 ^ 9 * lk.rank) ++ imgN 8 st.resumePc.toNat ++ imgN 8 pk.wakeAt ++ img4 st.rstat.toNat
    ++ img4 st.nseq.toNat ++ img4 tr.tcode.toNat ++ img4 tr.tinfo.toNat ++ img4 tr.tret.toNat ++ img4 tr.faultrs.toNat
    ++ imgN 8 tr.trpc.toNat ++ imgN 8 tr.faultva.toNat ++ img4 (it.signedMask st) ++ zeros 28
    ++ (List.range 8).flatMap (fun i => img4 ((st.toks.getD i {}).word).toNat)
    ++ imgN 32 (maskOf 256 fun i => (row.reg i).empty.getLsbD st.lane)
    ++ (List.range 16).flatMap (fun i => imgN 8 ((stk.getD i 0).toNat))
    ++ logBytes ++ zeros (192 - logBytes.length) ++ zeros 32

/-- A register that is empty or poisoned in any lane goes into the record raw, as a general register (R337). -/
def VReg.forRecord (v : VReg) (item : Word) : VReg :=
  if v.empty = 0 ∧ v.poison = 0 then { v with raw := false }
  else { v with shape := .general ((List.range 32).map (v.shape.at item)), tref := false, raw := true }

/-- The entry of a v register in the register section (R337): the smallest form, the lower form on equal size; raw where the register was empty or poisoned in any lane when it was saved, which a late reply does not change (R85). -/
def VReg.image (v : VReg) (item : Word) : List ImgByte :=
  if v.tref then []
  else match v.shape with
    | .uniform x => img4 x.toNat
    | .affine b l t => img4 b.toNat ++ img4 l.toNat ++ img4 t.toNat
    | .general _ =>
      let at_ := fun L => (v.shape.at item L).toNat
      let nz := (List.range 32).filter fun L => at_ L != 0
      let delta := fun L => (v.shape.at item L - v.shape.at item (L - 1))
      let deltaOk := (List.range 31).all fun k => (delta (k + 1)).toInt ≥ -128 && (delta (k + 1)).toInt ≤ 127
      let zsize := 8 + 4 * nz.length
      if v.raw || (132 ≤ zsize && !deltaOk) then
        img4 0 ++ (List.range 32).flatMap fun L => img4 (at_ L) (v.poison.getLsbD L)
      else if zsize ≤ 40 || !deltaOk then
        img4 1 ++ img4 (maskOf 32 fun L => at_ L != 0) ++ nz.flatMap fun L => img4 (at_ L)
      else img4 2 ++ img4 (at_ 0) ++ (List.range 32).map fun L => (if L = 0 then 0 else (delta L).setWidth 8, false)

def VReg.shapeCode (v : VReg) : Nat := if v.tref then 3 else
  match v.shape with
  | .uniform _ => 0
  | .affine _ _ _ => 1
  | .general _ => 2

/-- A row of the register section (R337). -/
def Row.image (r : Row) (regs : Nat) (item : Word) : List ImgByte :=
  (List.range (ceilDiv regs 16)).flatMap (fun k => img4 ((List.range 16).map fun j => 4 ^ j * (if 16 * k + j < regs then (r.reg (16 * k + j)).shapeCode else 0)).sum)
    ++ (List.range regs).flatMap fun i => (r.reg i).image item

/-- A tile-table entry (R285). -/
def Slot.entry (x : Slot) : BitVec 64 :=
  x.bitmap ++ x.expect ++ x.owner ++ bit x.cerr ++ bit x.err ++ bit x.tref ++ x.fmt ++ x.planes ++ (0 : BitVec 6) ++ x.state.code

/-- The slot part of one rank (R338). -/
def Rank.slotsImage (r : Rank) : List ImgByte :=
  (r.slots.flatMap fun x => (imgN 8 x.entry.toNat).map fun b => (b.1, x.poison.contains entryPoison))
    ++ (r.slots.filter fun x => (x.state = .ready || x.state = .filling) && !x.tref).flatMap fun x =>
        ((List.range 1024).map fun i => (x.pay.get i, x.poison.contains i)) ++ (List.range 32).map fun i => (x.side.get i, x.poison.contains (1024 + i))

/-- The accumulator part of one rank (R338). -/
def Rank.accsImage (r : Rank) (narrow : Bool) : List ImgByte :=
  img4 (r.mstat narrow).toNat ++ img4 (maskOf 8 fun i => (r.accs.getD i {}).int)
    ++ r.accs.flatMap fun a => (List.range 4096).map fun i => (a.data.get i, a.poison.contains (i / 4))

/-- The crew section (R338). -/
def Item.crewImage (it : Item) (id : Nat) : List ImgByte :=
  match it.crews.find? fun k => k.id == id with
  | none => zeros 288
  | some k =>
    let ent := fun (r : Round) (count : Nat) =>
      imgN 12 ((r.first.map (·.toNat)).getD 0) ++ img4 (b01 r.first.isSome + 2 ^ 16 * (count % 65536))
    img4 1 ++ zeros 12 ++ (List.range 16).flatMap (fun c => ent (k.rounds.getD c {}) (k.counts.getD c 0)) ++ ent k.coll 0

/-- The member strands of an item in ascending rank order; a rank whose strand is gone has exited. -/
def State.byRank (s : State) (uid n : Nat) : List Strand :=
  (List.range n).map fun r => ((s.strands.find? fun st => st.uid == uid && !st.isFrame && !st.isFinishing && st.rank == r).getD { rank := r, exited := true })

/-- The scalar section (R338): a stamped item stores only its private registers. -/
def Item.scalarsImage (it : Item) : List ImgByte :=
  let own := (List.range 512).filter fun i => (it.sregs.getD i {}).own
  imgN 64 (maskOf 512 fun i => (it.sregs.getD i {}).own) ++ own.flatMap fun i => img4 (it.sregs.getD i {}).val.toNat (it.sregs.getD i {}).poison

/-- Whether a core's matrix engine is narrowed (R357, R358). -/
def State.narrowOn (s : State) (core : Nat) : Bool := s.palert.isSome || s.hold || decide (s.thermal.getD (dieOf core) 0 ≥ 1)

/-- The six sections of a record: strands, registers, scalars, slots, accumulators, crews. -/
def State.sections (s : State) (it : Item) : List (List ImgByte) :=
  let rows := it.saved.flatten
  let rowOf := fun (st : Strand) => rows.getD (((it.saved.take st.prank).map (·.length)).sum + st.row) {}
  [ pad64 ((s.byRank it.uid it.strandsN).flatMap fun st => it.strandImage st (rowOf st)),
    pad64 (rows.flatMap fun r => r.image it.kernel.regs it.number),
    pad64 it.scalarsImage,
    pad64 (it.ranks.flatMap Rank.slotsImage),
    pad64 (it.ranks.flatMap fun r => r.accsImage (s.narrowOn r.core)),
    pad64 ((List.range 16).flatMap it.crewImage) ]

/-- The 128-byte record header (R334). -/
def Item.headerImage (it : Item) (stateCode len : Nat) (ofs : List Nat) (frank : Word) : List ImgByte :=
  img4 0x53415631 ++ img4 stateCode ++ img4 it.strandsN ++ img4 ((it.ranks.length - 1) % 16 + 16 * it.tlev) ++ img4 it.number.toNat
    ++ img4 it.pitem.toNat ++ img4 it.pforced ++ img4 it.faultm.toNat ++ img4 len ++ ofs.flatMap (fun o => img4 o) ++ zeros 4 ++ img4 frank.toNat ++ zeros 60

/-- The offsets of consecutive sections. -/
def offsets : Nat → List (List ImgByte) → List Nat
  | _, [] => []
  | o, x :: xs => o :: offsets (o + x.length) xs

/-- The image of a record. -/
def State.recordImage (s : State) (it : Item) (stateCode : Nat) (frank : Word) : List ImgByte :=
  let secs := s.sections it
  it.headerImage stateCode (128 + secs.flatten.length) (offsets 128 secs) frank ++ secs.flatten

/-- Cut a list in pieces of 64, with fuel. -/
def pieces {α : Type} : Nat → List α → List (List α)
  | 0, _ => []
  | n + 1, l => if l.isEmpty then [] else l.take 64 :: pieces n (l.drop 64)

/-- Write an item's record to its place in the save area (R333). DESIGN CHOICE (log 114): what the device goes on with is its own copy, not these bytes. -/
def State.writeRecord (s : State) (uid stateCode : Nat) (frank : Word) : State :=
  let it := s.it uid
  let bs := s.recordImage it stateCode frank
  s.putLines it.ctx (it.recordVa (s.la it.launch)) (pieces (bs.length / 64 + 1) bs)

/-- The record of an item whose save or fault report is due shows STATE 4 until it has been written (R334): the model's choice of when (log 107). -/
def State.markWriting (s : State) (uid : Nat) : State :=
  let it := s.it uid
  let va := it.recordVa (s.la it.launch) + 4
  if s.numVa it.ctx va 4 = 4 then s else s.putVa it.ctx va (leBytes 4 4)

/-- What a log has held back of an item's strands goes on from the cores they are on now (R332, R339; log 105). -/
def State.rehome (s : State) (uid : Nat) : State :=
  let core := fun (sid old : Nat) => match s.strand? sid with
    | some st => if st.uid = uid ∧ !st.isFrame ∧ old < Config.cores then s.coreOf st else old
    | none => old
  { s with
    pend := s.pend.map fun a => { a with core := core a.sid a.core, issued := if core a.sid a.core = a.core then a.issued else s.now }
    tileOps := s.tileOps.map fun o => { o with core := core o.sid o.core } }

-- the save (R332)

/-- A register as the save keeps it: with handlers, what the strands' CSAVEs copied, 0 in a live lane that saved nothing, and nothing when no strand saved it; otherwise a CSAVE copy where there is one and the current value elsewhere. -/
def State.savedReg (s : State) (it : Item) (mine : List Strand) (forced : Bool) (i : Nat) (v : VReg) : VReg :=
  let _ := s
  let copy := fun (st : Strand) => (st.csaved.find? fun x => x.1 == i).map (·.2)
  if !forced && mine.all (fun st => (copy st).isNone) then {}
  else
    let lane := fun (L : Nat) => match mine.find? fun st => st.lane == L with
      | none => (v.shape.at it.number L, false, v.poison.getLsbD L)
      | some st => match copy st with
        | some x => x
        | none => if forced then (v.shape.at it.number L, v.empty.getLsbD L, v.poison.getLsbD L) else (0, false, false)
    if (List.range 32).all fun L => lane L == (v.shape.at it.number L, v.empty.getLsbD L, v.poison.getLsbD L) then v.forRecord it.number
    else VReg.forRecord
      { shape := .general ((List.range 32).map fun L => (lane L).1)
        empty := BitVec.ofNat 32 (maskOf 32 fun L => (lane L).2.1), poison := BitVec.ofNat 32 (maskOf 32 fun L => (lane L).2.2) } it.number

/-- The rows of an item as the save keeps them: its own, without those drawn for finishing strands. -/
def State.savedRows (s : State) (it : Item) (forced : Bool) : SavedRows :=
  it.ranks.zipIdx.map fun rp => (rp.1.rows.zipIdx.filter fun wi => !wi.1.fin).map fun wi =>
    let mine := s.strands.filter fun st => st.uid == it.uid && !st.isFrame && !st.isFinishing && !st.exited && st.prank == rp.2 && st.row == wi.2
    { wi.1 with regs := (List.range (max it.kernel.regs wi.1.regs.length)).map fun i => s.savedReg it mine forced i (wi.1.reg i) }

/-- The value, empty bit and poison bit of a register in a lane. -/
def VReg.laneOf (v : VReg) (item : Word) (L : Nat) : Word × Bool × Bool := (v.shape.at item L, v.empty.getLsbD L, v.poison.getLsbD L)

/-- A saved register of a strand's row (R337). -/
def State.savedRegOf (s : State) (st : Strand) (i : Nat) : VReg :=
  { (((s.it st.uid).saved.getD st.prank []).getD st.row {}).reg i with raw := false }

/-- Restore one register in the strand's lane (R326, R339): when no live lane differs from the saved register any more, it takes its saved shape. -/
def State.restoreReg (s : State) (st : Strand) (i : Nat) : State :=
  let item := (s.it st.uid).number
  let sv := s.savedRegOf st i
  let cur := (s.rowOf st).reg i
  let x := sv.laneOf item st.lane
  let bitAt := fun (b : BitVec 32) (on : Bool) => (b &&& ~~~ BitVec.ofNat 32 (2 ^ st.lane)) ||| (if on then BitVec.ofNat 32 (2 ^ st.lane) else 0)
  let one : VReg := { shape := .general ((List.range 32).map fun L => if L = st.lane then x.1 else cur.shape.at item L)
                      empty := bitAt cur.empty x.2.1, poison := bitAt cur.poison x.2.2 }
  let live := (s.strands.filter fun y => sameRow y st && !y.exited).map (·.lane)
  s.setRow st fun row => row.setReg i (if live.all fun L => one.laneOf item L == sv.laneOf item L then sv else one)

/-- A finishing strand's state as a shipped frame (R81): its lane of its row, and a SLEEP that still runs. -/
def State.shipState (s : State) (st : Strand) : Strand :=
  let row := s.rowOf st
  let item := (s.it st.uid).number
  { st with
    kind := .frame (st.call.getD 0)
    park := match st.park with
      | .sleep t => .sleep t
      | _ => .none
    frame := { regs := row.regs.map fun v =>
      { shape := .general (List.replicate 32 (v.shape.at item st.lane))
        empty := if v.empty.getLsbD st.lane then 0xFFFFFFFF else 0
        poison := if v.poison.getLsbD st.lane then 0xFFFFFFFF else 0 } } }

/-- Whether an item's save is due: forced, or every live strand has executed PDONE (R332). -/
def State.saveDue (s : State) (uid : Nat) : Bool :=
  match (s.it uid).status with
  | .preempting _ forced => forced || s.strands.all fun st => st.uid != uid || st.isFrame || st.isFinishing || st.exited || st.park == .pdone
  | _ => false

/-- Whether an item still has results on their way: loads, long-latency results, tile operations, but for those that a log holds back, which go on after the resumption (R232; log 105). -/
def State.resultsDue (s : State) (uid : Nat) : Bool :=
  let mine := fun sid => s.strands.any fun st => st.sid == sid && st.uid == uid && !st.isFrame
  let held := s.heldIds uid
  s.pend.any (fun a => mine a.sid && !held.contains a.id && !(a.kind == .store || a.kind == .tagStore || (a.kind == .atomic && a.dest.isNone)))
    || s.lats.any (fun l => mine l.sid) || s.tileOps.any fun o => mine o.sid && !s.tileStuck o

-- results that wait for storage (R67, R71)

/-- The strand's result of that number has been written: one that waits for no other goes on. -/
def Strand.paid (st : Strand) (id : Nat) : Strand :=
  let rest := st.owed.filter fun o => o.id != id
  { st with owed := rest, park := if rest.isEmpty ∧ st.park = .storage ∧ !st.due then .none else st.park }

/-- Write one result that a strand still owes, with those of its row that share it: none when the core's storage is short and the write is not forced. -/
def State.payOne (s : State) (force : Bool) (sid : Nat) (o : Owed) : Option State :=
  let st := s.st sid
  let row := if o.scalar then [st] else s.strands.filter fun x => sameRow x st && x.owed.any fun y => y.id == o.id
  let words := fun (x : Strand) => ((x.owed.find? fun y => y.id == o.id).map (·.vals)).getD []
  let n := o.vals.length
  let write := fun (s : State) =>
    if o.scalar then s.writeS st.uid o.dest (o.vals.headD 0)
    else
      let s := row.foldl (fun (s : State) x => if x.phase = .resume ∧ o.record then s.fillSaved x o.dest (words x) else s) s
      let s := s.writeV st o.dest (row.map fun x => (x, words x)) (fun j => if o.uni then some (.uniform (o.vals.getD j 0)) else none) n
      if o.bad then row.foldl (fun (s : State) x => (List.range n).foldl (fun (s : State) j => s.markPoison x (o.dest + j)) s) s else s
  let paid := fun (s : State) => row.foldl (fun (s : State) x => s.setSt x.sid fun y => y.paid o.id) s
  if force then some (paid (write s)) else (s.grow st.uid st.prank write).map paid

/-- Write what a strand owes, as far as the core has the storage, or, forced, all of it. -/
def State.payOwed (s : State) (force : Bool) (sid : Nat) : State :=
  (s.st sid).owed.foldl (fun (s : State) o => (s.payOne force sid o).getD s) s

/-- Results are due to strands: each row's, or each scalar write, is done where the core has the storage; the other strands park on storage until it has (R67, R71). A strand in a pre-emption or resume handler keeps its park, and issues nothing until then (log 30). -/
def State.owe (s : State) (dues : List (Nat × Owed)) : State :=
  let s := dues.foldl (fun (s : State) x => s.setSt x.1 fun st =>
    { st with owed := st.owed ++ [x.2], park := if st.phase = .run ∧ st.park = .none then .storage else st.park }) s
  dues.foldl (fun (s : State) x => s.payOwed false x.1) s

/-- Every result that strands of an item owe goes with its save, in the act that frees its storage (R68, R332; log 30). -/
def State.payAll (s : State) (uid : Nat) : State :=
  (s.strands.filter fun st => st.uid == uid && !st.owed.isEmpty).foldl (fun (s : State) st => s.payOwed true st.sid) s

/-- The strands of an item that a forced save stops in their resume handlers get back the registers their handlers have not restored or written: those are what they hold for the program (R326, log 63). -/
def State.restoreAll (s : State) (uid : Nat) : State :=
  (s.strands.filter fun st => st.uid == uid && !st.isFrame && !st.exited && st.phase == .resume).foldl (fun (s : State) st =>
    ((List.range (s.it uid).kernel.regs).filter fun i => !st.handlerWrote.contains i).foldl (fun (s : State) i => s.restoreReg st i) s) s

/-- Save an item (R332) once its save is due, its engines are idle and its results have arrived: release, record, free. -/
def State.trySave (s : State) (uid : Nat) : State :=
  if !(s.saveDue uid) then s
  else if s.enginesBusy uid || s.resultsDue uid then s.markWriting uid
  else
    let s := s.payAll uid
    let s := (s.flushItem uid).restoreAll uid
    let fins := s.strands.filter fun st => st.uid == uid && st.isFinishing
    let s : State := { s with
      calls := s.calls.map fun c => match fins.find? fun st => st.call == some c.id with
        | some st => { c with phase := .shipped (s.shipState st) }
        | none => c
      strands := s.strands.filter fun st => !(st.uid == uid && st.isFinishing) }
    let it := s.it uid
    let rows := s.savedRows it (it.pforced != 0)
    let s := s.setIt uid fun it => { it with
      saved := rows
      status := .saved
      ranks := it.ranks.map fun r => { r with rows := (r.rows.filter fun w => !w.fin).map fun w => { w with regs := [] } } }
    let s := s.writeRecord uid 2 0
    let s := it.ranks.foldl (fun (s : State) r => s.handover r.core it.template) s
    { s with strands := s.strands.map fun st =>
        if st.uid = uid ∧ !st.isFrame then
          { st with pc := st.resumePc, park := st.parkOf, tr := st.trOf, traph := st.traphOf, phase := .run, savedPark := .none, csaved := [], handlerWrote := [], redc := none, rjoin := none, replay := none, heldPc := none, dooming := false, eretw := false, due := false, early := [] }
        else st }

end Sys2Proof.Machine
end

