-- ==== Sys2Proof/Machine/Ops.lean ====
section
/-! DEFINITION. The shared operations: taking a trap (14 R322, R323) and what follows from it, the end of strands, items and launches (05 R91, 04 R59), rounds (04 R77, R78), matrix operations issuing (09 R197, R204), and how a bundle issues a word (11 R255, 14 R324). -/

namespace Sys2Proof.Machine

-- completion of launches

/-- Whether a port has been set as endpoint (R349). -/
def Port.endpoint (p : Port) : Bool := p.set && !p.root

/-- MSI-X vector q goes out on every endpoint port that firmware enabled it on (R352). -/
def State.msix (s : State) (q : Nat) : State :=
  { s with ports := s.ports.map fun p => if p.endpoint && p.msix.getLsbD q then { p with sent := p.sent ++ [q] } else p }

/-- The head packet of a queue leaves it; the next becomes head (R54). -/
def Queue.pop (q : Queue) : Queue := { q with packets := q.packets.tail, head := .unchecked, aged := 0 }

def State.setQueue (s : State) (q : Nat) (f : Queue → Queue) : State := { s with queues := s.queues.modify q f }

/-- A launch completes (R59): its writes are released, DONEINC is added to the done counter, then the queue's vector goes out. DESIGN CHOICE (log 110): the add to a counter of a peer that cannot be reached is lost. -/
def State.completeLaunch (s : State) (lid : Nat) : State :=
  let la := s.la lid
  let s := if la.doneaddr = 0 then s else
    match s.vaToPa la.ctx la.doneaddr.toNat with
    | some (loc, pa) => if loc = 1 ∧ s.peerDown (pa / 2 ^ 48) then s else s.rmwHome 0 loc pa (leBytes 8 ((s.homeNum loc pa 8 + la.doneinc.toNat) % 2 ^ 64))
    | none => s
  let s := s.msix la.queue
  let s := s.setQueue la.queue fun q => if q.head = .selected lid then q.pop else q
  { s with launches := s.launches.filter fun x => x.lid != lid, templates := s.templates.filter fun t => t.launch != lid }

/-- A suspended parent resumes after its sub-items (R72): its strands, also those in their trap handlers, leave FREEZE with the destination uniform 1, which draws storage (R67), and acquire at device scope. -/
def State.resumeParent (s : State) (uid dest : Nat) : State :=
  let (id, s) := s.fresh
  let frozen := (s.strands.filter fun st => st.uid == uid && (st.park == .freeze || st.phase == .run && st.traph && !st.exited && st.kind == .member)).map (·.sid)
  let s := s.setIt uid fun it => { it with
    child := none, childDone := false
    saved := it.saved.map fun rows => rows.map fun w => w.setReg dest { shape := .uniform 1 } }
  let later := (s.strands.filter fun st => st.uid == uid && !st.isFrame && st.savedPark == .freeze).map (·.sid)
  let s := frozen.foldl (fun (s : State) sid => s.setSt sid fun st => { st with park := if st.park = .freeze then .none else st.park }) s
  let s := (frozen ++ later).foldl (fun (s : State) sid => s.acquire sid 1) s
  s.owe (frozen.map fun sid => (sid, { id := id, dest := dest, vals := [1], uni := true, record := true }))

/-- Whether a launch is over (R59): its own items have been admitted and have ended, the templates of its FREEZEs are stamped out, and no item of it is left at any template level. -/
def State.launchOver (s : State) (lid : Nat) : Bool :=
  let la := s.la lid
  (s.launch? lid).isSome && decide (la.ended ≥ if la.prologue then 1 else la.items)
    && (s.templates.all fun t => t.launch != lid || decide (t.ended ≥ t.n)) && s.items.all fun it => it.launch != lid

/-- An item ended: its template's count, its parent, its launch (R59, R72, R91). -/
def State.itemGone (s : State) (it : Item) : State :=
  let s := match it.template with
    | some tid =>
      let s := s.setTemplate tid fun t => { t with ended := t.ended + 1 }
      match s.template? tid with
      | none => s
      | some t =>
        if t.ended < t.n then s
        else match t.parent with
          | some p =>
            let s : State := { s with templates := s.templates.filter fun x => x.tid != tid }
            match s.item? p with
            | none => s
            | some par => if par.status = .resident then s.resumeParent p t.dest else s.setIt p fun x => { x with childDone := true }
          | none => s
    | none => s.setLa it.launch fun la => { la with ended := la.ended + 1 }
  let s := it.ranks.foldl (fun (s : State) r => s.handover r.core it.template) s
  if s.launchOver it.launch then s.completeLaunch it.launch else s

/-- Remove an item with its strands and everything they left pending; its writes perform first (R91 steps 1 to 3). -/
def State.removeItem (s : State) (uid : Nat) : State :=
  let mine := fun (sid : Nat) => s.strands.any fun st => st.sid == sid && st.uid == uid && !st.isFrame
  let s1 := s.flushItem uid
  { s1 with
    pend := s1.pend.filter fun a => !mine a.sid
    lats := s1.lats.filter fun l => !mine l.sid
    tileOps := s1.tileOps.filter fun o => !mine o.sid || decide (o.busy > 0)
    strands := s1.strands.filter fun st => st.uid != uid || st.isFrame
    items := s1.items.filter fun it => it.uid != uid }

/-- FAULTM is reported with an item that ends (R91, R323). -/
def State.reportExit (s : State) (it : Item) : State := { s with exits := s.exits ++ [(it.launch, it.number, it.faultm)] }

/-- The item's last strand has exited (R91). -/
def State.endItem (s : State) (uid : Nat) : State :=
  let it := s.it uid
  let s := (s.removeItem uid).reportExit it
  let s := s.putVa it.ctx (it.recordVa (s.la it.launch) + 4) (leBytes 4 0)
  let s := s.setInuse it.ctx it.savebase.toNat it.record false
  s.itemGone it

/-- The engine of a rank begins its head operation, unless that still waits for its pool (R198, R204, R205). -/
def Rank.begins (r : Rank) (now : Nat) : Rank :=
  { r with ops := match r.ops with
    | o :: os => (if o.checked && o.since.isNone then { o with since := some now } else o) :: os
    | [] => [] }

/-- The engines of an item begin what they can. -/
def State.beginOps (s : State) (uid : Nat) : State := s.setIt uid fun it => { it with ranks := it.ranks.map fun r => r.begins s.now }

/-- The fault report of an item whose engines are done (R323 steps 2 and 3): the record's STATE 3, FRANK and the trap registers, then REPORTS. Its calls are over, and what its logs hold never performs. -/
def State.faultReport (s : State) (uid : Nat) (frank : Word) : State :=
  let it := s.it uid
  let s : State := { s with strands := s.strands.map fun st => if st.uid = uid ∧ !st.isFrame then { st with phase := .run } else st }
  let s := (s.setIt uid fun it => { it with saved := s.savedRows it true, reported := true }).writeRecord uid 3 frank
  let rp := it.savebase.toNat + 0x14
  let s := s.putVa it.ctx rp (leBytes 4 (s.numVa it.ctx rp 4 + 1))
  { s with
    strands := s.strands.map fun st => if st.uid = uid ∧ !st.isFrame then { st with log := [], faults := [] } else st
    calls := (s.calls.filter fun c => !(c.uid == uid && c.phase.atCaller)).map fun c => if c.uid = uid then { c with dead := true } else c }

/-- The end of an item that a fault stopped (R323 steps 2 to 4): its report once its engines are done, and its exit once its posted tile edits have performed with its other writes (R91). -/
def State.tryEnd (s : State) (uid : Nat) : State :=
  let it := s.it uid
  match it.status with
  | .ending frank =>
    if !it.reported && s.enginesBusy uid then s.markWriting uid
    else
      let s := if it.reported then s else s.faultReport uid frank
      if s.tileOps.any fun o => o.uid == uid && o.op != 0x87 && o.op != 0x88 then s
      else ((s.removeItem uid).reportExit it).itemGone it
  | _ => s

/-- A trap ends the item with a fault report (R323): every strand stops, and an MMAG that has not issued never does. Of an item that a cluster reset broke firmware writes the report (R345). -/
def State.faultEnd (s : State) (uid : Nat) (frank : Word) : State :=
  if (s.it uid).isEnding then s
  else if (s.it uid).status = .broken then { s with strands := s.strands.map fun st => if st.uid = uid ∧ !st.isFrame then { st with disabled := true } else st }
  else
  let s := s.setIt uid fun it => { it with status := .ending frank, ranks := it.ranks.map fun r => { r with ops := r.ops.filter (·.checked) } }
  let s : State := { s with strands := s.strands.map fun st => if st.uid = uid ∧ !st.isFrame then { st with park := .none } else st }
  (s.beginOps uid).tryEnd uid

/-- The trap of a strand ends its item (R323). The record of its rank holds the trap registers: a finishing strand's go to the member strand whose rank it has (R367). -/
def State.trapEnds (s : State) (sid : Nat) : State :=
  let st := s.st sid
  let s : State := if !st.isFinishing then s
    else { s with strands := s.strands.map fun x =>
      if x.uid = st.uid ∧ !x.isFrame ∧ !x.isFinishing ∧ x.rank = st.rank then { x with tr := st.tr, savedTr := st.tr } else x }
  s.faultEnd st.uid (BitVec.ofNat 32 st.rank)

-- traps

/-- Whether a remote frame's accesses have come back (R367): of its stores to device memory nothing does. -/
def State.settledFrame (s : State) (sid : Nat) : Bool := s.pend.all fun a => a.sid != sid || (a.kind == .store && a.loc == 0)

/-- A strand at an NMU ships its state to the caller's core (R81), once its reads and long-latency results are done, so that its registers arrive full (R367); a call that has completed, or whose item is gone or ending, is discarded (R83, R323). -/
def State.ship (s : State) (st : Strand) : State :=
  match (if !(s.settledFrame st.sid) || s.lats.any fun l => l.sid == st.sid then none else st.call) with
  | some c =>
    let s : State := { s with strands := s.strands.filter fun x => x.sid != st.sid }
    match s.call? c with
    | none => s
    | some k =>
      let gone := match s.item? k.uid with
        | none => true
        | some it => it.isEnding
      if k.dead || gone then { s with calls := s.calls.filter fun k => k.id != c }
      else s.setCall c fun k => { k with phase := .shipped st }
  | none => s

/-- TRET for a fault of issue count n (R325): a run of one bit for each unit issued after it, at most 8. -/
def Strand.tretFor (st : Strand) (n : Nat) : Nat := 2 ^ min 8 (st.seq - n - 1) - 1

/-- The TRET of every fault as it stands now (R325). -/
def Strand.freeze (st : Strand) : Strand :=
  { st with
    log := st.log.map fun e => { e with tret := some (e.tret.getD (st.tretFor e.acc.seq)) }
    faults := st.faults.map fun f => { f with tret := some (f.tret.getD (st.tretFor f.seq)) } }

/-- What the log holds back keeps the TRET it has as a handler is entered (R325; log 105). -/
def Strand.behindLog (st : Strand) (held : List Acc) : Strand :=
  { st with behind := st.behind ++ (held.filter fun a => st.behind.all fun b => b.1 != a.id).map fun a => (a.id, st.tretFor a.seq) }

/-- Entry to the trap handler (R322, R324): faults that stand are exempt from its run-ahead limits. With no handler the item ends (R323). -/
def State.enterTrap (s : State) (sid : Nat) : State :=
  let st := s.st sid
  let it := s.it st.uid
  if it.kernel.trapofs = 0 then s.trapEnds sid
  else s.setSt sid fun x =>
    let x := (x.freeze).behindLog (s.stuck sid)
    { x with
      traph := true, pc := it.kernel.code + BitVec.ofNat 64 it.kernel.trapofs, park := .none, eretw := false, dooming := false
      log := x.log.map fun e => { e with exempt := true }
      faults := x.faults.map fun f => { f with exempt := true } }

/-- The trap registers of a delivery (R322). -/
def Trap.regs (t : Trap) (trpc : Addr) (defer : Bool) (tret : Nat) : TrapRegs :=
  ⟨BitVec.ofNat 32 (t.cls + (if defer then 256 else 0)), BitVec.ofNat 32 t.code, trpc, BitVec.ofNat 32 tret, t.fva, t.frs⟩

/-- Taking a trap (R322): the trap registers are written and the strand enters its trap handler at CODE + TRAPOFS; with none, or in a handler, the item ends (R323); in a pre-empt handler the forced save begins (R331); at an NMU the frame is shipped (R81). -/
def State.deliver (s : State) (sid : Nat) (t : Trap) (trpc : Addr) (defer : Bool) (tret : Nat) : State :=
  let st := s.st sid
  if st.isFrame then s.ship st
  else if st.phase = .preempt then
    (s.setIt st.uid fun i => match i.status with
      | .preempting d _ => { i with status := .preempting d true, pforced := 1 }
      | _ => i).trySave st.uid
  else
    let s := s.setSt sid fun x => { x with tr := t.regs trpc defer tret }
    if st.traph || st.phase = .resume then s.trapEnds sid else s.enterTrap sid

/-- A precise trap of the word at the strand's pc. -/
def State.trap (s : State) (sid : Nat) (t : Trap) : State := s.deliver sid t (s.st sid).pc false 0

-- crews and rounds

/-- A signing word without the bits R78 ignores: GUARD, WAIT and HINT. -/
def sigBits (c : Code) : Code := c &&& (~~~ ((0xF : Code) <<< 84 ||| (0x7FF : Code) <<< 32))

def Item.crew (it : Item) (id : Nat) : Option Crew := it.crews.find? fun c => c.id == id

def Item.setCrew (it : Item) (id : Nat) (f : Crew → Crew) : Item :=
  { it with crews := it.crews.map fun c => if c.id = id then f c else c }

def State.setRound (s : State) (uid crew c : Nat) (f : Round → Round) : State :=
  s.setIt uid fun it => it.setCrew crew fun k => { k with rounds := k.rounds.modify c f }

def State.setColl (s : State) (uid crew : Nat) (f : Round → Round) : State :=
  s.setIt uid fun it => it.setCrew crew fun k => { k with coll := f k.coll }

/-- The live members of a crew, in the order of the strand list (R76). -/
def State.members (s : State) (uid crew : Nat) : List Nat :=
  (s.strands.filter fun st => st.uid == uid && !st.isFrame && !st.exited && st.crew == crew).map (·.sid)

/-- The scope of a crew's round (R77, R98, R100): core, or device when the crew, with the round's signers, spans cores. -/
def State.roundScope (s : State) (uid crew : Nat) (rd : Round) : Nat :=
  match (s.members uid crew ++ rd.pending ++ rd.signers.map (·.sid)).map fun x => s.coreOf (s.st x) with
  | [] => 0
  | c :: cs => if cs.any (· != c) then 1 else 0

/-- A round that completes is an acquire for its signers (R77, R98, R100): at core scope they are passed on what its signers had acquired. -/
def State.syncFrom (s : State) (sid scope acq : Nat) : State := if scope = 0 then s.acquireCore sid acq else s.acquire sid scope

/-- A round that completes or is discarded leaves its register open for the next (R77, R78). -/
def Round.closed (r : Round) : Round := { r with first := none, pending := [], signers := [] }

/-- A member no longer counts in a round (R77, R78, R95). -/
def Round.without (r : Round) (sid : Nat) : Round :=
  { r with pending := r.pending.filter fun x => x != sid, broken := r.broken.filter fun x => x != sid }

/-- Whether a word is a signing matrix or quantise operation (R197). -/
def isSigning (op : Nat) : Bool := op == 0x70 || op == 0x71 || op == 0x72 || op == 0x78 || op == 0x79 || op == 0x7A

/-- The slot a signing operation writes: QNT, BPK, BUNP (R199). -/
def destSlot (c : Code) : Option Nat :=
  let r := Raw.ofCode c
  match r.op.toNat with
  | 0x78 | 0x79 | 0x7A => some (slotNum r.d.toNat)
  | _ => none

/-- The formats the operands of an MMA pair require (R200). -/
def mmaFmts (ty : Nat) : Nat × Nat :=
  match ty with
  | 0 => (11, 11)
  | 1 => (11, 12)
  | 2 => (12, 11)
  | 3 => (12, 12)
  | 4 => (10, 10)
  | 5 => (9, 9)
  | 6 => (14, 6)
  | 7 => (14, 7)
  | 8 => (6, 6)
  | _ => (6, 7)

/-- The failures of an MMAG's pool (R204), in their order, and the traps they give. -/
def poolTrap (k : Nat) : Trap :=
  match k with
  | 0 => ⟨8, 5, 0, 0⟩
  | 1 => ⟨7, 1, 0, 0⟩
  | _ => ⟨9, 0, 0, 0⟩

/-- The failures that an MMAG meets in a rank's pool (R204): the row, and the first failure of the row. DEDUCED (log 77): the tag of a selected slot that is FILLING or DRAINING is compared once it is READY. -/
def Rank.poolFails (r : Rank) (scratch : Nat) (o : MatOp) : List (Nat × Nat) :=
  let fmt := (mmaFmts (Raw.ofCode o.word).ty.toNat).1
  o.gather.zipIdx.filterMap fun g =>
    let xs := mmagSlots o.word g.1
    if xs.any fun x => decide (x ≥ scratch) then some (g.2, 0)
    else if xs.any fun x => let sl := r.slots.getD x {}; sl.state == .ready && sl.fmt != 15 && sl.fmt.toNat != fmt then some (g.2, 1)
    else if xs.any fun x => let sl := r.slots.getD x {}; sl.state == .empty && sl.cerr then some (g.2, 2)
    else none

/-- Whether every pool slot that an MMAG selects on a rank is READY (R204). -/
def Rank.poolReady (r : Rank) (o : MatOp) : Bool := o.gather.all fun g => (mmagSlots o.word g).all fun x => (r.slots.getD x {}).state == .ready

/-- A fault of an instruction the strand has run past (R325). -/
def State.addFault (s : State) (g : Signer) (t : Trap) : State :=
  s.setSt g.sid fun st => { st with faults := st.faults ++ [{ seq := g.seq, pc := g.pc, trap := t }] }

/-- Check the pools of an MMAG on all its ranks (R204): it issues once every slot it selects is READY; the failure of the lowest row, on any rank, discards it on all of them and faults every signer. -/
def State.checkPool (s : State) (uid gid : Nat) : State :=
  let it := s.it uid
  let mine := fun (o : MatOp) => o.gid == gid && !o.checked
  let parts := it.ranks.flatMap fun r => (r.ops.filter mine).map fun o => (r, o)
  match parts, sortBy (fun x => 3 * x.1 + x.2) (parts.flatMap fun x => x.1.poolFails it.kernel.scratch x.2) with
  | [], _ => s
  | x :: _, f :: _ =>
    let s := s.setIt uid fun it => { it with ranks := it.ranks.map fun r => { r with ops := r.ops.filter fun o => !mine o } }
    (x.2.signers.foldl (fun s g => s.addFault g (poolTrap f.2)) s).beginOps uid
  | _, [] =>
    if parts.all fun x => x.1.poolReady x.2 then
      (s.setIt uid fun it => { it with ranks := it.ranks.map fun r => { r with ops := r.ops.map fun o => if mine o then { o with checked := true } else o } }).beginOps uid
    else s

/-- The destination slot of an operation is taken (R199, R210): it turns FILLING, a template-ref one taking its copy fault first; none when storage is short. Its OWNER reads 0x1FFF, since several strands sign an operation: DEDUCED (log 117). -/
def State.takeDest (s : State) (uid p d : Nat) : Option State :=
  let take := fun (s : State) => s.setSlot uid p d fun x => { x with state := .filling, tref := false, owner := 0x1FFF }
  if (s.slot uid p d).tref then s.grow uid p take else some (take s)

/-- A signing operation issues on one rank (R198, R199): it joins the rank's queue and its destination slot turns FILLING; where storage is short, the slot stays READY until the operation starts (R210). -/
def State.issueOp (s : State) (uid p gid : Nat) (word : Code) (signers : List Signer) : State :=
  let r := Raw.ofCode word
  let isMmag := r.op.toNat = 0x72
  let idx := fieldN r.imm.toNat 23 9
  let gather := if isMmag then (List.range 32).map fun i => (s.slot uid p idx).pay.num (2 * i) 2 else []
  let op : MatOp := { id := s.nextId, gid := gid, word := word, signers := signers, gather := gather, checked := !isMmag }
  let s : State := { s with nextId := s.nextId + 1 }
  let s := s.setRank uid p fun rk => { rk with ops := rk.ops ++ [op] }
  match destSlot word with
  | some d => (s.takeDest uid p d).getD s
  | none => s

/-- The results of a collective word for its participants (R101..R103): the value of each. -/
def State.collResult (s : State) (uid : Nat) (word : Code) (gs : List Signer) (g : Signer) : Word :=
  let r := Raw.ofCode word
  let fn := r.fn.toNat
  let ty := r.ty.toNat
  let _ := uid
  match r.op.toNat with
  | 0x16 =>
    let me := s.st g.sid
    match gs.find? fun h => sameRow (s.st h.sid) me && (s.st h.sid).lane == g.aux with
    | some h => h.val
    | none => g.val
  | 0x17 =>
    let ordered := (sortBy (fun a => (s.st a.sid).rank) gs).map fun h => h.val.toNat
    if ty = 8 then
      let op := match fn with
        | 0 => add32
        | 1 => fminmax fp32 false
        | _ => fminmax fp32 true
      BitVec.ofNat 32 (treeSum op 0 (ordered.length + 1) (ordered.map canonNan32))
    else
      let f := fun (a b : Nat) => match fn with
        | 0 => (a + b) % 2 ^ 32
        | 1 => if readInt ty a ≤ readInt ty b then a else b
        | 2 => if readInt ty a ≥ readInt ty b then a else b
        | 3 => a &&& b
        | 4 => a ||| b
        | _ => a ^^^ b
      match ordered with
      | [] => 0
      | x :: xs => BitVec.ofNat 32 (xs.foldl f x)
  | _ =>
    let yes := gs.filter fun h => h.val != 0
    match fn with
    | 0 => if yes.length = gs.length then 1 else 0
    | 1 => if yes.isEmpty then 0 else 1
    | 2 => BitVec.ofNat 32 yes.length
    | _ =>
      let me := s.st g.sid
      BitVec.ofNat 32 (maskOf 32 fun L => yes.any fun h => sameRow (s.st h.sid) me && (s.st h.sid).lane == L)

/-- A collective round completes (R100): its participants write their results, as storage allows (R67, R71), and go on. -/
def State.completeColl (s : State) (uid crew : Nat) : State :=
  match (s.it uid).crew crew with
  | none => s
  | some k =>
    match k.coll.first with
    | none => s
    | some word =>
      if !k.coll.pending.isEmpty then s
      else
        let gs := k.coll.signers
        let scope := s.roundScope uid crew k.coll
        let acq := (gs.map (·.acq)).foldl max 0
        let r := Raw.ofCode word
        let op := r.op.toNat
        let res := gs.map fun g => (g, s.collResult uid word gs g)
        let (id, s1) := (s.setColl uid crew Round.closed).fresh
        let s1 := gs.foldl (fun s g => (s.setSt g.sid fun st => { st with park := if st.park = .collective then .none else st.park }).syncFrom g.sid scope acq) s1
        match Operand.ofBits r.d with
        | some (.p i) => res.foldl (fun t x => t.setSt x.1.sid fun st => st.setPred i.toNat (x.2 != 0)) s1
        | some (.s i) => s1.owe (res.map fun x => (x.1.sid, { id := id, scalar := true, dest := i.toNat, vals := [x.2] }))
        | some (.v i) =>
          let uni := fun (sid : Nat) => op != 0x16 || match Operand.ofBits r.a with
            | some (.v a) => ((s.rowOf (s.st sid)).reg a.toNat).shape.isUniform
            | _ => false
          s1.owe (res.map fun x => (x.1.sid, { id := id, dest := i.toNat, vals := [x.2], uni := uni x.1.sid, record := (s.st x.1.sid).savedPark == .collective }))
        | _ => s1

/-- A round of a convergence register completes when nothing is pending (R77): it is an acquire for its signers, SIGN.w parks end, a signing operation issues once on each rank that has a signer with its guard true. c15 completes through FREEZE_COMPLETE. -/
def State.completeRound (s : State) (uid crew c : Nat) : State :=
  match (s.it uid).crew crew with
  | none => s
  | some k =>
    let rd := k.rounds.getD c {}
    match rd.first with
    | none => s
    | some word =>
      if !rd.pending.isEmpty || c = 15 then s
      else
        let scope := s.roundScope uid crew rd
        let acq := (rd.signers.map (·.acq)).foldl max 0
        let s := s.setRound uid crew c Round.closed
        let s := rd.signers.foldl (fun s g =>
          (s.setSt g.sid fun st => { st with park := if st.park = .signW c then .none else st.park }).syncFrom g.sid scope acq) s
        if isSigning (Raw.ofCode word).op.toNat then
          let (gid, s) := s.fresh
          let s := (List.range (s.it uid).ranks.length).foldl (fun s p =>
            if rd.signers.any fun g => g.guard && (s.st g.sid).prank == p then s.issueOp uid p gid word rd.signers else s) s
          (s.checkPool uid gid).beginOps uid
        else s

/-- A strand leaves the pending sets of a crew (R77, R95); rounds it alone held complete. -/
def State.leaveCrew (s : State) (uid crew sid : Nat) : State :=
  let s := (List.range 15).foldl (fun s c =>
    (s.setRound uid crew c fun r => r.without sid).completeRound uid crew c) s
  (s.setColl uid crew fun r => r.without sid).completeColl uid crew

/-- A strand moves to another crew (R95). -/
def State.moveTo (s : State) (sid crew : Nat) : State :=
  let st := s.st sid
  if st.crew = crew then s
  else (s.setSt sid fun x => { x with crew := crew }).leaveCrew st.uid st.crew sid

/-- LEAVE (R77, R95): the strand returns to crew 0 and leaves the pending sets of the crew it was in. DEDUCED (log 109): a member of crew 0 leaves those of crew 0 and stays its member. -/
def State.leave (s : State) (sid : Nat) : State :=
  let st := s.st sid
  if st.crew = 0 then s.leaveCrew st.uid 0 sid else s.moveTo sid 0

/-- A strand ends (R91): it leaves its crew and every round, frees its lock, and its item may end. A finishing strand's drawn row returns to the pool with its last one (R367). -/
def State.endStrand (s : State) (sid : Nat) : State :=
  let st := s.st sid
  let s := s.setSt sid fun x => { x with exited := true, lock := none, park := .none }
  let s := s.leaveCrew st.uid st.crew sid
  let s := s.setRound st.uid 0 15 fun r => r.without sid
  let s := if st.isFinishing then
      let s : State := { s with strands := s.strands.filter fun x => x.sid != sid }
      let s := s.setIt st.uid fun it => { it with crews := it.crews.filter fun c => c.id != st.crew || decide (c.id < 16) }
      let used := s.strands.any fun x => sameRow x st
      if ((s.rowOf st).fin && !used) then
        s.setRow st fun w => { w with regs := [] }
      else s
    else s
  if (s.it st.uid).status != .broken && s.strands.all fun x => x.uid != st.uid || x.isFrame || x.exited then s.endItem st.uid else s

-- issue

/-- The park that a strand's resume handler leads back to (R326). -/
def Strand.backTo (st : Strand) : Park := if st.phase = .resume then st.savedPark else .none

/-- The issue counts of the instructions of a strand that are unsettled (R324), a part in a collective round among them (R78, R100). DEDUCED (log 111): in a resume handler the signature whose park the handler leads back to holds nothing. -/
def State.unsettled (s : State) (st : Strand) : List Nat :=
  let it := s.it st.uid
  let mine := fun (p : Park) (r : Round) => if st.backTo = p then [] else (r.signers.filter fun g => g.sid == st.sid).map (·.seq)
  ((st.log.filter fun e => !e.exempt).map fun e => e.acc.seq)
    ++ ((s.tileOps.filter fun o => o.sid == st.sid).map (·.seq))
    ++ (it.crews.flatMap fun k => (k.rounds.zipIdx.flatMap fun r => mine (if r.2 = 15 then .freeze else .signW r.2) r.1) ++ mine .collective k.coll)
    ++ (it.ranks.flatMap fun r => (r.ops.filter fun o => !o.checked).flatMap fun o => (o.signers.filter fun g => g.sid == st.sid).map (·.seq))
    ++ (st.faults.filter fun f => !f.exempt).map (·.seq)

/-- Opcodes that do not issue while an instruction is unsettled (R324). -/
def isControl (op : Nat) : Bool := (1 ≤ op && op ≤ 6) || op == 0x0A || op == 0x19 || op == 0x1E || op == 0xC7 || op == 0xC8

/-- Once delivery of a fault has begun nothing issues (R325); nor does anything while a fault stands of a handler the strand has left. -/
def Strand.doomed (st : Strand) : Bool :=
  st.dooming || (!st.traph && st.phase == .run && (!st.faults.isEmpty || st.log.any (·.exempt)))

/-- Whether the run-ahead limits, or a fifth fault, hold a strand at a word (R324, R325). -/
def State.held (s : State) (st : Strand) (op : Nat) : Bool :=
  let u := s.unsettled st
  st.doomed || st.eretw || st.log.any (fun e => e.late && !e.exempt) || (!u.isEmpty && isControl op) || u.any fun n => decide (n + 8 < st.seq)

/-- Instructions an NMU does not execute (R80). -/
def nmuExcluded (op : Nat) : Bool :=
  (0x70 ≤ op && op ≤ 0x7D) || (0x80 ≤ op && op ≤ 0x89) || (0x92 ≤ op && op ≤ 0x96) || (0x10 ≤ op && op ≤ 0x1A) || op == 0x1D
    || op == 0x47 || (0x48 ≤ op && op ≤ 0x4D) || op == 0xB0 || op == 0xB1 || op == 0xB3 || op == 0xB4 || op == 0xB5 || op == 0xB6 || op == 0xB7

/-- What a strand of a bundle does with a word at issue. -/
inductive Verdict where
  /-- guard false: passes with no effect (R20) -/
  | pass
  /-- not ready: stays at the word (R52) -/
  | wait
  | trap (t : Trap)
  /-- ships to the caller's core (R81) -/
  | ship
  | go
  deriving DecidableEq, Repr

/-- The address after a word or unit (R45). -/
def nextPc (w : Ins) (pc : Addr) : Addr := pc + (if w.modw.isSome then 24 else 12)

/-- The token an operand names. -/
def tkOf (o : Operand) : Nat :=
  match o with
  | .tk i => i.toNat
  | _ => 0

/-- Engine commands that name a token: CPY, MCAST, NVSQ (R269). -/
def namesToken (op : Nat) : Bool := op == 0xB0 || op == 0xB1 || op == 0xB7

/-- The source and token conditions of a word whose guard holds (R31, R41, R165, R269, R341; steps 3 and 4 of R255). -/
def State.operandVerdict (s : State) (st : Strand) (op : Nat) (w : Ins) : Verdict :=
  let rs := s.reads st op w
  let ws := s.writes st op w
  if (List.range 8).any fun i => (w.wait.getLsbD i || namesToken op && i == tkOf w.d) && (st.toks.getD i {}).busy then .wait
  else if rs.1.any (s.isEmpty st) then (if w.fe then .trap ⟨2, 0, 0, 0⟩ else .wait)
  else if ws.any (s.isEmpty st) then .wait
  else if rs.1.any (s.isPoisoned st) then .trap ⟨0x0C, 1, 0, 0⟩
  else if rs.2.any fun i => ((s.it st.uid).sregs.getD i {}).poison then .trap ⟨0x0C, 2, 0, 0⟩
  else .go

/-- Words that access memory spaces, whose tag checks come after a TAGST that waits in the log (R232, R268). -/
def checksTags (op : Nat) : Bool := (0x74 ≤ op && op ≤ 0x75) || (0x80 ≤ op && op ≤ 0xA4) || op == 0xB0 || op == 0xB6 || op == 0xB7 || (0x1A ≤ op && op ≤ 0x1D)

/-- Whether an acquire of the strand is still to perform that orders memory (R228, R249). -/
def State.acqPending (s : State) (st : Strand) : Bool :=
  s.pend.any (fun b => b.owns st.sid && decide (b.stage < 2) && acqHolds b.acq (b.loc == 3)) || st.log.any (fun e => e.acc.acq.isSome && !e.exempt)
    || s.tileOps.any fun o => o.sid == st.sid && o.acq.isSome

/-- Whether a word waits to check tags: they come after a TAGST that stands in the log (R232), and, where their own elements have tags to check, after every acquire before them, which may show a newer one (R268, R312). -/
def State.tagsWait (s : State) (st : Strand) (op : Nat) : Bool :=
  checksTags op && (st.log.any (fun e => e.acc.kind == .tagStore && !e.exempt)
    || !((0x92 ≤ op && op ≤ 0x96) || op == 0xA0 || op == 0xA3 || op == 0xA4) && s.acqPending st)

/-- What a strand does with a word (R20, R80, R232, R255, R268, R324, R366). -/
def State.verdict (s : State) (op : Nat) (w : Ins) (st : Strand) : Verdict :=
  if s.held st op then .wait
  else if !st.guard w.guard then .pass
  else if s.tagsWait st op then .wait
  else if st.isFrame && nmuExcluded op then .ship
  else s.operandVerdict st op w

/-- Waiting on the tokens of a WAIT mask that a command has completed acquires (R31, R250); a token never used gives nothing. DESIGN CHOICE (log 104): a command that waits at issue only for the token it names (R269) acquires nothing by that. -/
def State.onWait (s : State) (w : Ins) (sid : Nat) : State :=
  let done := ((s.st sid).toks.zipIdx.filter fun t => w.wait.getLsbD t.2 && t.1.origin != 0).map (·.1)
  if done.isEmpty then s else s.acquire sid (if done.any (·.sys) then 2 else 1)

/-- A strand goes on at an address: one more unit issued. -/
def State.jump (s : State) (sid : Nat) (pc : Addr) : State :=
  s.setSt sid fun st => { st with pc := pc, seq := st.seq + 1, age := 0, satAt := none }

/-- A strand goes on after the word. -/
def State.retire (s : State) (sid : Nat) (w : Ins) : State := s.jump sid (nextPc w (s.st sid).pc)

def State.setPark (s : State) (sid : Nat) (p : Park) : State := s.setSt sid fun st => { st with park := p }

/-- How a strand goes on after its part of a word. -/
inductive Flow where
  | next
  /-- stays at the word and tries again: the strand is not ready (R52) -/
  | stay
  | goto (pc : Addr)
  /-- parks at the word -/
  | park (p : Park)
  /-- parks after the word -/
  | parkNext (p : Park)
  | trap (t : Trap)
  /-- the strand has ended -/
  | done
  deriving DecidableEq, Repr

def State.flow (s : State) (sid : Nat) (w : Ins) (f : Flow) : State :=
  match f with
  | .next => s.retire sid w
  | .stay => s
  | .goto pc => s.jump sid pc
  | .park p => match p, (s.st sid).isFrame with
    | .page _ _ _, true => s.ship (s.st sid)
    | p, _ => s.setPark sid p
  | .parkNext p => (s.retire sid w).setPark sid p
  | .trap t => s.trap sid t
  | .done => s

/-- What one strand does with a word under a verdict; `body` is its effect. -/
def State.act (s : State) (sid : Nat) (w : Ins) (v : Verdict) (body : State → Strand → State × Flow) : State :=
  match v with
  | .pass => s.retire sid w
  | .wait => s
  | .trap t => s.trap sid t
  | .ship => s.ship (s.st sid)
  | .go =>
    let s := s.onWait w sid
    let r := body s (s.st sid)
    r.1.flow sid w r.2

/-- Each strand of the bundle, in order, does its part of a word. -/
def State.each (s : State) (op : Nat) (w : Ins) (body : State → Strand → State × Flow) : State :=
  s.bundle.foldl (fun s sid => s.act sid w (s.verdict op w (s.st sid)) body) s

/-- Write a scalar destination (R164): a template's register is copied first, and its strand parks when the scalar pool is empty (R67, R71). -/
def State.putS (s : State) (st : Strand) (d : Nat) (vals : List Word) (n : Nat) : Option State :=
  s.grow st.uid st.prank fun s => (List.range n).foldl (fun s j => s.writeS st.uid (d + j) (vals.getD j 0)) s

/-- Write a v destination for the strands of one row, drawing storage (R67); at an NMU there is no pool. -/
def State.putV (s : State) (st : Strand) (d : Nat) (writers : List (Strand × List Word)) (hint : Nat → Option Shape) (n : Nat) : Option State :=
  if st.isFrame then some (s.writeV st d writers hint n)
  else s.grow st.uid st.prank fun s => s.writeV st d writers hint n

/-- The strands of a bundle for which a word takes effect, with their results, computed before any is written. -/
def State.goers (s : State) (op : Nat) (w : Ins) (f : State → Strand → List Word) : List (Strand × List Word) :=
  (s.bundle.filter fun sid => decide (s.verdict op w (s.st sid) = .go)).map fun sid => (s.st sid, f s (s.st sid))

/-- Write one row's results and let its strands go on, or park them on storage. -/
def State.finishRow (s0 s : State) (w : Ins) (n : Nat) (shape : State → Strand → List Word → Nat → Option Shape)
    (go : State → Nat → List Word → State) (row : List (Strand × List Word)) : State :=
  match row with
  | [] => s
  | x :: _ =>
    let r := match w.d with
      | .v d => s.putV x.1 d.toNat row (shape s0 x.1 x.2) n
      | _ => some s
    match r with
    | some s => row.foldl (fun s y => go s y.1.sid y.2) s
    | none => row.foldl (fun s y => s.setPark y.1.sid .storage) s

/-- A word that computes `n` words from the strand's operands into D (08, 06): every strand's sources are read before any destination is written; rows are written whole (R166, R167). `go` is how a strand goes on with its words. -/
def State.aluWith (s : State) (op : Nat) (w : Ins) (n : Nat) (shape : State → Strand → List Word → Nat → Option Shape)
    (f : State → Strand → List Word) (go : State → Nat → List Word → State) : State :=
  let gs := s.goers op w f
  let s1 := s.bundle.foldl (fun t sid => match s.verdict op w (s.st sid) with
    | .go => t.onWait w sid
    | v => t.act sid w v fun t _ => (t, .next)) s
  match w.d with
  | .s d => gs.foldl (fun t x => match t.putS x.1 d.toNat x.2 n with
      | some t => go t x.1.sid x.2
      | none => t.setPark x.1.sid .storage) s1
  | .p i => gs.foldl (fun t x => go (t.setSt x.1.sid fun st => st.setPred i.toNat (x.2.headD 0 != 0)) x.1.sid x.2) s1
  | _ => gs.foldl (fun t x =>
      let row := gs.filter fun y => sameRow y.1 x.1
      if (row.head?.map fun y => y.1.sid) = some x.1.sid then State.finishRow s t w n shape go row else t) s1

/-- The same, every strand going on after the word. -/
def State.alu (s : State) (op : Nat) (w : Ins) (n : Nat) (shape : State → Strand → List Word → Nat → Option Shape)
    (f : State → Strand → List Word) : State := s.aluWith op w n shape f fun t sid _ => t.retire sid w

/-- The shape of R166 for a word. -/
def ruleOf (op : Nat) (w : Ins) : State → Strand → List Word → Nat → Option Shape := fun s st vals j => s.ruleShape st op w vals j

/-- A result that is always general. -/
def generalOf : State → Strand → List Word → Nat → Option Shape := fun _ _ _ _ => none

/-- A result that is uniform over its row. -/
def uniformOf : State → Strand → List Word → Nat → Option Shape := fun _ _ vals j => some (.uniform (vals.getD j 0))

/-- Make registers ready for a result that arrives later (R165, R259): general, drawing storage, and empty in the strand's lane (log 15). -/
def State.prepDest (s : State) (st : Strand) (regs : List Nat) : Option State :=
  let item := (s.it st.uid).number
  let gen := fun (s : State) => s.setRow st fun row => regs.foldl (fun row d =>
    let v := row.reg d
    row.setReg d { v with shape := .general ((List.range 32).map (v.shape.at item)), tref := false }) row
  (if st.isFrame then some (gen s) else s.grow st.uid st.prank gen).map fun s => s.markEmpty st regs

/-- Make registers ready for a uniform result that arrives later for a whole row (R166, R167): the entry is drawn, and the strands' lanes are empty (log 15). -/
def State.prepUniform (s : State) (st : Strand) (group : List Strand) (d : Nat) (vals : List Word) : Option State :=
  let set := fun (s : State) => s.setRow st fun row => vals.zipIdx.foldl (fun row x =>
    row.setReg (d + x.2) { row.reg (d + x.2) with shape := .uniform x.1, tref := false }) row
  (if st.isFrame then some (set s) else s.grow st.uid st.prank set).map fun s =>
    group.foldl (fun t y => t.markEmpty y ((List.range vals.length).map (d + ·))) s

/-- Make registers ready for a word that one read brings to a whole row (R166, R167, R259): an entry is drawn for each that has none, with any word in every lane until then, which SHAPE shows as uniform (R194); a register still in a general template register gets its private copy (R71, log 15). -/
def State.prepShared (s : State) (st : Strand) (group : List Strand) (regs : List Nat) : Option State :=
  let item := (s.it st.uid).number
  let set := fun (s : State) => s.setRow st fun row => regs.foldl (fun row d =>
    let v := row.reg d
    row.setReg d { v with
      shape := if v.generalTref then .general ((List.range 32).map (v.shape.at item)) else if st.isFrame || v.entries = 1 then v.shape else .affine (s.anyWord d) 0 0
      tref := false }) row
  (if st.isFrame then some (set s) else s.grow st.uid st.prank set).map fun s => group.foldl (fun t y => t.markEmpty y regs) s

/-- A step after which an item's end or save may be due (R323, R332). -/
def State.settled (s : State) (uid : Nat) : State := (s.tryEnd uid).trySave uid

/-- Deliver a late result to a strand's registers: written in its lane and full. The registers were made ready when its word issued, except those of a strand that has entered its resume handler since: there the result may wait for storage (R67, R326). -/
def State.fill (s : State) (sid d : Nat) (vals : List Word) (bad : Bool := false) : State :=
  match s.strand? sid with
  | none => s
  | some st =>
    if st.phase = .resume then
      let (id, s) := s.fresh
      s.owe [(sid, { id := id, dest := d, vals := vals, bad := bad })]
    else
      let s := s.writeV st d [(st, vals)] (fun _ => none) vals.length
      if bad then (List.range vals.length).foldl (fun (s : State) j => s.markPoison st (d + j)) s else s

/-- Results that one issue gives a whole row as uniform values (R166, R167). -/
def State.rowUniform (s : State) (op : Nat) (w : Ins) (row : List (Strand × List Word)) : Bool :=
  match row with
  | [] => false
  | x :: _ => s.covers x.1 (row.map fun y => y.1.lane) && (s.ruleShape x.1 op w x.2 0).isSome

/-- A word whose destination stays empty until it completes (R165): its values are those of the sources at issue. -/
def State.longOp (s : State) (op : Nat) (w : Ins) (n : Nat) (f : State → Strand → List Word) : State :=
  let gs := s.goers op w f
  let s1 := s.bundle.foldl (fun t sid => match s.verdict op w (s.st sid) with
    | .go => t.onWait w sid
    | v => t.act sid w v fun t _ => (t, .next)) s
  match w.d with
  | .v d =>
    let regs := (List.range n).map (d.toNat + ·)
    gs.foldl (fun t x =>
      let row := gs.filter fun y => sameRow y.1 x.1
      if s.rowUniform op w row && regs.all fun r => !((s.rowOf x.1).reg r).generalTref then
        if (row.head?.map fun y => y.1.sid) = some x.1.sid then
          match t.prepUniform x.1 (row.map (·.1)) d.toNat x.2 with
          | none => row.foldl (fun t y => t.setPark y.1.sid .storage) t
          | some t =>
            let (id, t) := t.fresh
            let t : State := { t with lats := t.lats ++ [{ id := id, sid := x.1.sid, dest := d.toNat, vals := x.2, group := row.map fun y => y.1.sid }] }
            row.foldl (fun t y => t.retire y.1.sid w) t
        else t
      else match t.prepDest x.1 regs with
        | none => t.setPark x.1.sid .storage
        | some t =>
          let (id, t) := t.fresh
          ({ t with lats := t.lats ++ [{ id := id, sid := x.1.sid, dest := d.toNat, vals := x.2 }] } : State).retire x.1.sid w) s1
  | _ => s1

/-- A long-latency result arrives (R165). -/
def State.finishLat (s : State) (l : Lat) : State :=
  let s : State := { s with lats := s.lats.filter fun x => x.id != l.id }
  match s.strand? l.sid with
  | none => s
  | some st =>
    let s := match l.group with
      | [] => s.fill l.sid l.dest l.vals
      | g => s.writeV st l.dest ((g.filterMap s.strand?).map fun x => (x, l.vals)) (fun j => some (.uniform (l.vals.getD j 0))) l.vals.length
    s.settled st.uid

end Sys2Proof.Machine
end

