-- ==== Sys2Proof/Machine/Fetch.lean ====
section
/-! DEFINITION. Which strands issue together (04 R75), and the bytes of the unit at a PC (03 R45..R47, 13 R302..R307). -/

namespace Sys2Proof.Machine

/-- Whether a strand may issue (R52): it runs, it is not parked, no result of it waits for storage, its item is resident, and it has not yielded (R93). A finishing strand stops when its item is pre-empted (R81); a remote frame goes on once its accesses have come back (log 27). -/
def State.canIssue (s : State) (st : Strand) : Bool :=
  st.park == .none && st.owed.isEmpty && !st.exited && !st.disabled && st.yieldFor == 0
    && (if st.isFrame then s.settledFrame st.sid else match (s.it st.uid).status with
      | .resident | .broken => (s.item? st.uid).isSome && (s.it st.uid).child.isNone
      | .preempting _ forced => !forced && !st.isFinishing
      | _ => false)

/-- The strands that join a head strand in its bundle (R75): the same PC, core and context, at most one for each lane. -/
def State.joins (s : State) (hd : Strand) : List Nat → List Nat → List Nat
  | _, [] => []
  | lanes, sid :: rest =>
    let st := s.st sid
    if (s.strand? sid).isSome && s.canIssue st && !hd.isFrame && !st.isFrame && st.pc == hd.pc && s.coreOf st == s.coreOf hd
        && s.ctxOf st == s.ctxOf hd && !lanes.contains st.lane then
      sid :: State.joins s hd (st.lane :: lanes) rest
    else State.joins s hd lanes rest

/-- The bundle an issue names: the first strand that may issue, and those that join it. -/
def State.bundleOf (s : State) : List Nat → List Nat
  | [] => []
  | sid :: rest =>
    if (s.strand? sid).isSome && s.canIssue (s.st sid) then sid :: s.joins (s.st sid) [(s.st sid).lane] rest
    else State.bundleOf s rest

/-- One 4-byte element of code: what stands there now, or a value it held since the kernel's items became resident (R47). -/
def State.codeElem (s : State) (pa : Nat) : Word :=
  let olds := ((s.oldCode.find? fun x => x.1 == pa).map (·.2)).getD []
  match olds, Config.takesOldCode s.tick pa with
  | [], _ => BitVec.ofNat 32 (s.mem.num pa 4)
  | olds, some k => olds.getD k (BitVec.ofNat 32 (s.mem.num pa 4))
  | _, none => BitVec.ofNat 32 (s.mem.num pa 4)

/-- Fetch 4-byte elements for a strand from an address on; a fault is reported at its element. -/
def State.fetchElems (s : State) (sid core ctx : Nat) (va : Addr) : Nat → State × Except Trap (List Byte)
  | 0 => (s, .ok [])
  | n + 1 =>
    match s.translate core ctx va { fetch := true, locs := [0] } with
    | (s, .bad t) => (s, .error t)
    | (s, .ok x) =>
      let s := s.walkAcquire sid x
      if s.poisonedAt x.pa 4 then (s, .error ⟨0x0C, 5, 0, 0⟩)
      else match State.fetchElems s sid core ctx (va + 4) n with
        | (s, .ok bs) => (s, .ok (leBytes 4 (s.codeElem x.pa).toNat ++ bs))
        | (s, .error t) => (s, .error t)

/-- The bytes of the unit at a strand's PC (R43, R45). -/
def State.fetchUnit (s : State) (st : Strand) : State × Except Trap (List Byte) :=
  let ctx := s.ctxOf st
  match s.fetchElems st.sid (s.coreOf st) ctx st.pc 3 with
  | (s, .error t) => (s, .error t)
  | (s, .ok bs) =>
    if isModw (codeOf bs) then
      match s.fetchElems st.sid (s.coreOf st) ctx (st.pc + 12) 3 with
      | (s, .error t) => (s, .error t)
      | (s, .ok cs) => (s, .ok (bs ++ cs))
    else (s, .ok bs)

/-- The issue pipe of an opcode (R13, R168): 0 INT, 1 FP0 and FP1, 2 MEM, 3 SFU/CTL. DESIGN CHOICE (log 74), for the words whose pipe neither rule names: AST and ALD, which are matrix instructions and move data to and from memory, issue on SFU/CTL with the other matrix instructions, not on MEM; so do tile-view words and the system and recovery words 0xC0 to 0xC8; the rest of the memory and engine groups (FENCE, WAITA, WAKE, TKTST, XARM, XSTAT, XFREE) issues on MEM. -/
def pipeOf (op : Nat) : Nat :=
  if op = 0x25 ∨ op = 0x26 ∨ (0x47 ≤ op ∧ op ≤ 0x4D) then 3
  else if (0x20 ≤ op ∧ op ≤ 0x3B) ∨ (0x60 ≤ op ∧ op ≤ 0x62) then 0
  else if 0x40 ≤ op ∧ op ≤ 0x55 then 1
  else if 0x90 ≤ op ∧ op ≤ 0xB7 then 2
  else 3

/-- The opcode of a unit. -/
def unitOp (bs : List Byte) : Nat := (Raw.ofCode (codeOf (if isModw (codeOf bs) then bs.drop 12 else bs))).op.toNat

/-- The place in the bundler's order that a PC has through a ready strand (R75): a saturated one by when it saturated, ahead of every other; then the older ahead of the younger. -/
def Strand.turn (st : Strand) : Nat × Nat :=
  match st.satAt with
  | some t => (0, t)
  | none => (1, 1024 - st.age)

/-- Whether one place in that order is ahead of another. -/
def ahead (a b : Nat × Nat) : Bool := decide (a.1 < b.1) || (a.1 == b.1 && decide (a.2 < b.2))

/-- Whether two strands stand at the same PC of the same context. -/
def State.samePlace (s : State) (a b : Strand) : Bool := a.pc == b.pc && s.ctxOf a == s.ctxOf b

/-- A fetch that fails: a page fault waits for firmware at the word, any other fault traps precisely (R305, R321); a frame ships (R81). -/
def State.fetchFault (s : State) (t : Trap) (sid : Nat) : State :=
  let st := s.st sid
  if st.isFrame then s.ship st
  else if t.cls = 4 then s.setPark sid (.page t.fva false true)
  else s.trap sid t

end Sys2Proof.Machine
end

