-- ==== Sys2Proof/Machine/Calls.lean ====
section
/-! DEFINITION. Remote calls: frames, finishing strands, completion (04 R79..R85; 05 R91, R109..R112; 20 R365, R367). -/

namespace Sys2Proof.Machine

/-- The scope of a call: system on a peer, device otherwise (R82). -/
def Call.scope (c : Call) : Nat := if c.loc = 1 then 2 else 1

/-- Change the strand that issued a call: as it stands, or as its finishing strand's state is kept while its item is saved (R81). -/
def State.setCaller (s : State) (sid : Nat) (f : Strand → Strand) : State :=
  { s.setSt sid f with calls := s.calls.map fun k => match k.phase with
      | .shipped g => if g.sid = sid then { k with phase := .shipped (f g) } else k
      | _ => k }

/-- The reply words reach the caller's registers, its save record (R85, R110), or the state kept of a finishing strand that called (R81). -/
def State.replyRegs (s : State) (c : Call) (vals : List Word) : State :=
  match s.strand? c.sid with
  | none => s.setCaller c.sid fun g => { g with frame := g.frame.putLane (s.it c.uid).number g.lane c.dest vals }
  | some st =>
    let it := s.it c.uid
    let s := s.acquire c.sid c.scope
    let s := if it.status = .saved then s else s.fill c.sid c.dest vals
    if it.saved.isEmpty then s else s.fillSaved st c.dest vals

/-- Exactly n words: missing ones are 0. -/
def padTo (n : Nat) (vals : List Word) : List Word := (List.range n).map fun i => vals.getD i 0

/-- RJOINs whose count has read 0 are due: later calls on the register do not extend their wait (R112). -/
def State.joinsDue (s : State) (uid crew creg : Nat) : State :=
  match (s.it uid).crew crew with
  | some k => if k.counts.getD creg 0 ≠ 0 then s
    else { s with strands := s.strands.map fun st => match st.rjoin with
      | some (n, c, _) => if st.uid = uid ∧ st.crew = crew ∧ c = creg then { st with rjoin := some (n, c, true) } else st
      | none => st }
  | none => s

/-- A call completes (R83, R110): registers, RSTAT and the count, as one step; a completed call is marked so that a later reply is discarded. Of an item that a fault has ended nothing is written any more (R323). -/
def State.completeCall (s : State) (id : Nat) (vals : List Word) (status : Nat) : State :=
  match s.call? id with
  | none => s
  | some c =>
    if c.dead then s
    else if (s.it c.uid).isEnding then s.setCall id fun k => { k with dead := true }
    else
      let s := s.replyRegs c (padTo c.fn.rets vals)
      let s := s.setCaller c.sid fun st => { st with rstat := rstatOf st.rstat c.seq status }
      let s := match c.crew with
        | none => s
        | some crew => (s.setIt c.uid fun it => it.setCrew crew fun k =>
          { k with counts := k.counts.modify c.creg (· - 1), acqs := k.acqs.modify c.creg (max c.scope) }).joinsDue c.uid crew c.creg
      let s := s.setCall id fun k => { k with dead := true }
      if (s.it c.uid).status = .saved then s.writeRecord c.uid 2 0 else s

def State.dropCall (s : State) (id : Nat) : State := { s with calls := s.calls.filter fun c => c.id != id }

/-- The status a call completes with (R79, R81): OK from an NMU, LOCAL for a target in host memory, RETTRAP from a finishing strand. -/
def Call.okStatus (c : Call) (finishing : Bool) : Nat := if c.loc = 2 then 1 else if finishing then 2 else 0

/-- A call completes abnormally (R83): zeros, TIMEOUT or PEERDOWN; kept state is discarded with its crew, a running frame or finishing strand goes on without a caller; a frame that a reset took is gone already (R343). -/
def State.abandonCall (s : State) (id status : Nat) : State :=
  match s.call? id with
  | none => s
  | some c =>
    if c.dead then s
    else
      let s := s.completeCall id [] status
      match c.phase with
      | .shipped _ => (s.dropCall id).setIt c.uid fun it => { it with crews := it.crews.filter fun k => k.id != 16 + id }
      | .replying _ _ => s.dropCall id
      | .running sid => if (s.strand? sid).isNone then s.dropCall id else s
      | _ => s

/-- A reply lands (R83, R110): within the timeout the call completes with it; one that lands later finds the call completed TIMEOUT, and is discarded. -/
def State.landReply (s : State) (c : Call) (vals : List Word) (status : Nat) : State :=
  (if s.now > c.deadline then s.abandonCall c.id 3 else s.completeCall c.id vals status).dropCall c.id

/-- A frame's function has returned words (R91, R111): from an NMU the reply goes on its way and the frame's strand ends; from a finishing strand the call completes and the strand ends. -/
def State.returnCall (s : State) (st : Strand) (vals : List Word) : State :=
  match st.call.bind s.call? with
  | none => s.endStrand st.sid
  | some c =>
    if st.isFrame then
      let s := s.setCall c.id fun k => { k with phase := .replying vals (c.okStatus false) }
      { s with strands := s.strands.filter fun x => x.sid != st.sid }
    else (s.landReply c vals (c.okStatus true)).endStrand st.sid

/-- The scope at which a frame's writes are released when it returns (R91, R111). -/
def State.returnScope (s : State) (st : Strand) : Nat :=
  match st.call.bind s.call? with
  | some c => if st.isFrame && c.loc = 1 then 2 else 1
  | none => 1

/-- A fresh frame (R32, R80): the target in v0:v1, the payload from v2, the rest 0. -/
def State.newFrame (s : State) (c : Call) (sid : Nat) : Strand :=
  let caller := s.st c.sid
  { sid := sid, kind := .frame c.id, uid := c.uid, rank := caller.rank, prank := caller.prank, lane := caller.lane
    pc := c.fpc
    frame := { regs := (List.range c.fn.fregs).map fun i =>
      let x : Word := if i = 0 then c.target.setWidth 32 else if i = 1 then c.target.extractLsb' 32 32 else c.args.getD (i - 2) 0
      { shape := .uniform x } } }

/-- Frames that run at an NMU (R365). -/
def State.framesAt (s : State) (c : Call) : Nat :=
  (s.calls.filter fun k => k.nmu == c.nmu && k.loc == c.loc && k.peer == c.peer && match k.phase with
    | .running sid => (s.strand? sid).isSome
    | _ => false).length

/-- REMOTE_FRAME_START (R80, R365): a call that has arrived at an NMU with room starts as a strand; with 64 frames there it waits. -/
def execRemoteFrameStart (call : Nat) (s : State) : Host.Outcome State Fault Refusal :=
  .next <|
    match s.call? call with
    | none => s
    | some c =>
      if (c.phase = .transit || c.phase = .waiting) && (c.loc = 0 || c.loc = 1) then
        if s.framesAt c < Config.nmuFrames then
          let (sid, s) := s.fresh
          let s : State := { s with strands := s.strands ++ [s.newFrame c sid] }
          s.setCall call fun k => { k with phase := .running sid }
        else s.setCall call fun k => { k with phase := .waiting }
      else s

/-- Physical rows of a core that hold no row of a resident item (R367). -/
def State.freeRow (s : State) (core : Nat) : Option Nat :=
  let used := (s.ranksOn core).flatMap fun x => (x.2.2.rows.filter fun w => !(w.fin && w.regs.isEmpty)).map (·.phys)
  firstIdx Config.rows fun p => !used.contains p

/-- Where a finishing strand goes (R81, R367): the lowest row of the item whose slot at the caller's lane is free, or else a row drawn from the core. -/
def State.finishingRow (s : State) (caller : Strand) : Option (Nat × Option Nat) :=
  let r := s.rank caller.uid caller.prank
  let taken := fun (i : Nat) => s.strands.any fun st => st.uid == caller.uid && !st.isFrame && st.prank == caller.prank && st.row == i && st.lane == caller.lane && !st.exited
  let own := r.rows.zipIdx.filter fun wi => !(wi.1.fin && wi.1.regs.isEmpty) && !taken wi.2
  match sortBy (fun wi => wi.1.phys) own with
  | wi :: _ => some (wi.2, none)
  | [] => (s.freeRow r.core).map fun p => (r.rows.length, some p)

/-- Start a finishing strand from a shipped state, which acquires at device scope as a strand of the core it starts on (R235, R248); none when storage is short (R67, R367). A frame's registers arrive full; those of a finishing strand that a save stopped, as they stood (R81). -/
def State.startFinishing (s : State) (c : Call) (f : Strand) : Option State :=
  match s.strand? c.sid with
  | none => none
  | some caller =>
    match s.finishingRow caller with
    | none => none
    | some (row, drawn) =>
      let it := s.it c.uid
      let sid := if f.sid = 0 then s.nextId else f.sid
      let crew := 16 + c.id
      let st : Strand := { f with
        sid := sid, kind := .finishing c.id, rank := caller.rank, prank := caller.prank, row := row, lane := caller.lane
        crew := crew, frame := {}, acqAt := s.tick, syncAt := s.tick, early := [] }
      s.grow c.uid caller.prank fun s =>
        let s : State := { s with nextId := s.nextId + 1 }
        let s : State := match drawn with
          | some p => s.setRank c.uid caller.prank fun (r : Rank) => { r with rows := r.rows ++ [{ phys := p, fin := true, regs := List.replicate it.kernel.regs {} }] }
          | none => s
        let s := s.setIt c.uid fun (it : Item) => if it.crews.any fun k => k.id == crew then it else { it with crews := it.crews ++ [{ id := crew }] }
        let s := ({ s with strands := s.strands ++ [st] } : State).rehome c.uid
        let s := (List.range c.fn.fregs).foldl (fun s i =>
          let v := f.frame.reg i
          let x := v.shape.at it.number f.lane
          let s := s.writeV st i [(st, [x])] (fun _ => some (.uniform x)) 1
          let s := if v.empty.getLsbD f.lane then s.markEmpty st [i] else s
          if v.poison.getLsbD f.lane then s.markPoison st i else s) s
        s.setCall c.id fun k => { k with phase := .finishing sid }

/-- FINISHING_STRAND_START (R81, R367): a shipped frame starts on the caller's core, once the item is resident and has a slot for it. -/
def execFinishingStrandStart (call : Nat) (s : State) : Host.Outcome State Fault Refusal :=
  .next <|
    match s.call? call with
    | none => s
    | some c =>
      match c.phase with
      | .shipped f =>
        if (s.item? c.uid).isSome && (s.it c.uid).status = .resident then (s.startFinishing c f).getD s else s
      | _ => s

/-- RCALL_REPLY (R85, R110): an arriving reply completes its call, or is discarded when the call has completed. -/
def execRcallReply (call : Nat) (s : State) : Host.Outcome State Fault Refusal :=
  .next <|
    match s.call? call with
    | none => s
    | some c =>
      match c.phase with
      | .replying vals status => s.landReply c vals status
      | _ => s

/-- RCALL_TIMEOUT (R83): a call whose reply has not landed within the context's timeout completes TIMEOUT. -/
def execRcallTimeout (call : Nat) (s : State) : Host.Outcome State Fault Refusal :=
  .next <|
    match s.call? call with
    | none => s
    | some c => if s.now ≥ c.deadline then s.abandonCall call 3 else s

end Sys2Proof.Machine
end

