-- ==== Sys2Proof/Machine/Rounds.lean ====
section
/-! DEFINITION. Signing and collective words, and FREEZE (04 R69, R72, R76..R78; 05 R98, R100, R104, R105). -/

namespace Sys2Proof.Machine

/-- The trap of a word that differs from the first of its round (R78, R322). -/
def mismatch (pc : Addr) : Trap := ⟨0x0D, 0, pc, 0⟩

/-- Earlier signers of a mismatched round take the trap deferred; a park in the round ends (R78, R325). -/
def State.mismatchAll (s : State) (gs : List Signer) (pc : Addr) : State :=
  gs.foldl (fun s g => (s.addFault g (mismatch pc)).setSt g.sid fun st => { st with park := match st.park with
    | .signW _ => .none
    | .collective => .none
    | .freeze => .none
    | p => p }) s

/-- A round is discarded by a word that differs (R78): the members that had not signed it trap when they next sign. -/
def Round.discarded (r : Round) (breaker : Nat) (pc : Addr) : Round :=
  { broken := r.pending.filter fun x => x != breaker, brokenPc := pc }

/-- A member of a discarded round has signed or passed its next word. -/
def Round.signedOff (r : Round) (sid : Nat) : Round := { r with broken := r.broken.filter fun x => x != sid }

/-- The word at a strand's PC as a signature: the code of the bundle's word. -/
def Ins.code (op : Nat) (w : Ins) : Code := (Ins.raw op w).toCode

/-- A strand signs a convergence register (R77, R78, R98) and goes on by `f`; it stays while its earlier signature is pending, while it joined after the round began, or while its writes are not released. -/
def State.sign (s : State) (sid c : Nat) (op : Nat) (w : Ins) (guard : Bool) (f : Flow) : State :=
  let st := s.st sid
  let it := s.it st.uid
  match it.crew st.crew with
  | none => s
  | some k =>
    let rd := k.rounds.getD c {}
    let word := Ins.code op w
    let opened := rd.first.isSome
    if rd.broken.contains sid then
      (s.setRound st.uid st.crew c fun r => r.signedOff sid).trap sid (mismatch rd.brokenPc)
    else if opened && !rd.pending.contains sid then s
    else if !s.released sid (s.roundScope st.uid st.crew rd) then s
    else
      let first := rd.first.getD word
      if sigBits first != sigBits word then
        let s := s.mismatchAll rd.signers st.pc
        let s := s.setRound st.uid st.crew c fun r => r.discarded sid st.pc
        s.trap sid (mismatch st.pc)
      else
        let pend := if opened then rd.pending else s.members st.uid st.crew
        let s := s.setRound st.uid st.crew c fun r =>
          { r with first := some first, pending := pend.filter fun x => x != sid, signers := rd.signers ++ [{ sid := sid, seq := st.seq, pc := st.pc, guard := guard, acq := st.acqAt }] }
        (s.flow sid w f).completeRound st.uid st.crew c

/-- Each strand of the bundle signs: one whose guard is false is checked, signs and parks like the others (R20, R98, R197, R201). -/
def State.eachSign (s : State) (op : Nat) (w : Ins) (c : Nat) (f : Flow) (pre : State → Strand → Option Flow) : State :=
  s.bundle.foldl (fun s sid =>
    let st := s.st sid
    match s.verdict op w st with
    | .pass => if st.isFrame then s.retire sid w else match pre s st with
      | some fl => s.flow sid w fl
      | none => s.sign sid c op w false f
    | .go =>
      let s := s.onWait w sid
      match pre s (s.st sid) with
      | some fl => s.flow sid w fl
      | none => s.sign sid c op w true f
    | v => s.act sid w v fun s _ => (s, .next)) s

/-- A strand passes a collective word (R100): a participant releases, contributes a value and parks, a strand whose guard is false goes on at once. -/
def State.collect (s : State) (sid : Nat) (op : Nat) (w : Ins) (guard : Bool) (val : Word) (aux : Nat) : State :=
  let st := s.st sid
  let it := s.it st.uid
  match it.crew st.crew with
  | none => s
  | some k =>
    let rd := k.coll
    let word := Ins.code op w
    let opened := rd.first.isSome
    if guard && rd.broken.contains sid then
      (s.setColl st.uid st.crew fun r => r.signedOff sid).trap sid (mismatch rd.brokenPc)
    else if opened && !rd.pending.contains sid then s
    else if guard && !s.released sid (s.roundScope st.uid st.crew rd) then s
    else
      let first := rd.first.getD word
      if sigBits first != sigBits word then
        let s := s.mismatchAll rd.signers st.pc
        let s := s.setColl st.uid st.crew fun r => r.discarded sid st.pc
        if guard then s.trap sid (mismatch st.pc) else s.retire sid w
      else
        let pend := if opened then rd.pending else s.members st.uid st.crew
        let s := s.setColl st.uid st.crew fun r =>
          { r.signedOff sid with
            first := some first
            pending := pend.filter fun x => x != sid
            signers := if guard then rd.signers ++ [{ sid := sid, seq := st.seq, pc := st.pc, val := val, aux := aux, acq := st.acqAt }] else rd.signers }
        (s.flow sid w (if guard then .parkNext .collective else .next)).completeColl st.uid st.crew

/-- Each strand of the bundle passes a collective word (R87, R100). -/
def State.eachColl (s : State) (op : Nat) (w : Ins) (f : State → Strand → Word × Nat) : State :=
  s.bundle.foldl (fun s sid =>
    let st := s.st sid
    match s.verdict op w st with
    | .pass => if st.isFrame then s.retire sid w else s.collect sid op w false 0 0
    | .go =>
      let s := s.onWait w sid
      let x := f s (s.st sid)
      s.collect sid op w true x.1 x.2
    | v => s.act sid w v fun s _ => (s, .next)) s

-- FREEZE

/-- The live member strands of an item, whatever their crew (R104). -/
def State.liveOf (s : State) (uid : Nat) : List Nat :=
  (s.strands.filter fun st => st.uid == uid && !st.isFrame && !st.isFinishing && !st.exited).map (·.sid)

/-- A strand signs c15 (R104): it moves to crew 0 and parks until the round has completed. -/
def State.signFreeze (s : State) (sid : Nat) (op : Nat) (w : Ins) : State :=
  let s := s.leave sid
  let st := s.st sid
  let it := s.it st.uid
  match it.crew 0 with
  | none => s
  | some k =>
    let rd := k.rounds.getD 15 {}
    let word := Ins.code op w
    let first := rd.first.getD word
    if rd.broken.contains sid then
      (s.setRound st.uid 0 15 fun r => r.signedOff sid).trap sid (mismatch rd.brokenPc)
    else if sigBits first != sigBits word then
      let s := s.mismatchAll rd.signers st.pc
      let s := s.setRound st.uid 0 15 fun r => r.discarded sid st.pc
      s.trap sid (mismatch st.pc)
    else
      let pend := if rd.first.isSome then rd.pending else s.liveOf st.uid
      let s := s.setRound st.uid 0 15 fun r =>
        { r with first := some first, pending := pend.filter fun x => x != sid, signers := rd.signers ++ [{ sid := sid, seq := st.seq, pc := st.pc, acq := st.acqAt }] }
      s.flow sid w (.parkNext .freeze)

/-- Whether a strand has nothing outstanding: registers full, tokens idle, its calls complete, no fault in its log that is neither serviced nor delivered (R91, R104). -/
def State.strandIdle (s : State) (st : Strand) : Bool :=
  (s.rowOf st).regs.all (fun v => !(v.empty.getLsbD st.lane)) && st.toks.all (fun t => !t.busy)
    && s.calls.all (fun c => c.sid != st.sid || c.dead) && st.log.all (fun e => e.exempt && e.trap.cls != 4) && st.faults.all (·.exempt)

/-- Whether the FREEZE round of an item may complete (R104): its signers have nothing outstanding, and none is in its resume handler, whose registers and PC are not what FREEZE captures (R69, R105). -/
def State.freezeReady (s : State) (uid : Nat) : Bool :=
  let it := s.it uid
  match it.crew 0 with
  | none => false
  | some k =>
    let rd := k.rounds.getD 15 {}
    it.status == .resident && rd.first.isSome && rd.pending.isEmpty
      && rd.signers.all (fun g => s.strandIdle (s.st g.sid) && (s.st g.sid).phase == .run)
      && it.ranks.all fun r => r.slots.all fun x => x.state == .ready || x.state == .empty

/-- The template an item's FREEZE captures (R69, R72): its strands go on after their FREEZE, also one that a fault has put in its trap handler since. -/
def State.capture (s : State) (it : Item) (tid n d : Nat) (signers : List Signer) : Template :=
  let after := fun (st : Strand) => match signers.find? fun g => g.sid == st.sid with
    | some g => g.pc + 12
    | none => st.pc
  let prologue := it.prologue
  { tid := tid, launch := it.launch
    parent := if prologue then none else some it.uid
    parentNumber := if prologue then 0xFFFFFFFF else it.number
    level := if prologue then 0 else it.tlev + 1
    n := n
    strands := (s.byRank it.uid it.strandsN).map fun st => ⟨after st, st.preds, st.rstk, st.exited⟩
    rows := it.ranks.flatMap fun r => (r.rows.filter fun w => !w.fin).map fun w =>
      (w.setReg d { shape := .uniform 0 }).regs.map fun v => { v with tref := false }
    sregs := it.sregs.map (·.val)
    slots := it.ranks.map fun r => (r.slots.take it.kernel.tslots).map fun x => { x with tref := true }
    dest := d }

/-- The FREEZE round of an item completes (R69, R72, R105). -/
def State.completeFreeze (s : State) (uid : Nat) : State :=
  let it := s.it uid
  let rd := ((it.crew 0).map fun k => k.rounds.getD 15 {}).getD {}
  let w := ((rd.first.map Raw.ofCode).bind fun r => Ins.ofRaw none r).getD {}
  let n : Word := match rd.signers.head? with
    | some g => s.src (s.st g.sid) w w.a
    | none => 0
  let d := match w.d with
    | .v i => i.toNat
    | _ => 0
  let s := s.setRound uid 0 15 Round.closed
  if n = 0xFFFFFFFF then
    rd.signers.foldl (fun s g => (s.setPark g.sid .none).deliver g.sid ⟨8, 4, 0, 0⟩ g.pc false 0) s
  else
    let s := s.flushItem uid
    let tid := s.nextId
    let t := s.capture it tid n.toNat d rd.signers
    if it.prologue then
      let s : State := if n = 0 then s else { s with nextId := s.nextId + 1, templates := s.templates ++ [t] }
      s.endItem uid
    else if n = 0 then s.resumeParent uid d
    else
      let s : State := { s with nextId := s.nextId + 1, templates := s.templates ++ [t] }
      s.setIt uid fun it => { it with child := some tid, childDest := d }

end Sys2Proof.Machine
end

