-- ==== Sys2Proof/Machine/Control.lean ====
section
/-! DEFINITION. Control words (05 R88..R99): branches, calls, ending, yielding, sleeping, crews and convergence registers. -/

namespace Sys2Proof.Machine

/-- The target of a relative branch: next + 12 × the signed word offset (R45, R88). -/
def relTarget (w : Ins) (pc : Addr) : Addr := nextPc w pc + 12 * w.imm.signExtend 64

/-- A call to an address: the return address is pushed, or STACK 2 at CALLDEPTH (R88). -/
def State.callTo (s : State) (st : Strand) (w : Ins) (target : Addr) : State × Flow :=
  if st.rstk.length ≥ s.depthOf st then (s, .trap ⟨0x0F, 2, 0, 0⟩)
  else (s.setSt st.sid fun x => { x with rstk := nextPc w st.pc :: x.rstk }, .goto target)

/-- An ALIGN trap. -/
def alignTrap : Trap := ⟨3, 0, 0, 0⟩

/-- BRA (R88). -/
def execBra (w : Ins) (s : State) : Host.Outcome State Fault Refusal :=
  .next (s.each 0x01 w fun s st => (s, .goto (relTarget w st.pc)))

/-- BRX (R45, R88). -/
def execBrx (w : Ins) (s : State) : Host.Outcome State Fault Refusal :=
  .next (s.each 0x02 w fun s st =>
    let t := s.src64 st w w.a
    if t.toNat % 12 ≠ 0 then (s, .trap alignTrap) else (s, .goto t))

/-- CALL (R88). -/
def execCall (w : Ins) (s : State) : Host.Outcome State Fault Refusal :=
  .next (s.each 0x03 w fun s st => s.callTo st w (relTarget w st.pc))

/-- CALLX (R45, R88). -/
def execCallx (w : Ins) (s : State) : Host.Outcome State Fault Refusal :=
  .next (s.each 0x04 w fun s st =>
    let t := s.src64 st w w.a
    if t.toNat % 12 ≠ 0 then (s, .trap alignTrap) else s.callTo st w t)

/-- RET (R89). -/
def execRet (w : Ins) (s : State) : Host.Outcome State Fault Refusal :=
  .next (s.each 0x05 w fun s st =>
    match st.rstk with
    | [] => (s, .trap ⟨0x0F, 3, 0, 0⟩)
    | pc :: rest => (s.setSt st.sid fun x => { x with rstk := rest }, .goto pc))

/-- EXIT (R91): waits until the strand has nothing outstanding; in a remote frame it returns words of 0. -/
def execExit (w : Ins) (s : State) : Host.Outcome State Fault Refusal :=
  .next (s.each 0x06 w fun s st =>
    if !s.strandIdle st then (s, .stay)
    else match st.call with
      | none => (s.endStrand st.sid, .done)
      | some _ => if s.released st.sid (s.returnScope st) then (s.returnCall st [], .done) else (s, .stay))

/-- NOP (R92). -/
def execNop (w : Ins) (s : State) : Host.Outcome State Fault Refusal := .next (s.each 0x07 w fun s _ => (s, .next))

/-- A strand yields (R93): no candidate for issue in this regroup period and the next. -/
def State.yieldOf (s : State) (sid : Nat) : State := s.setSt sid fun x => { x with yieldFor := 2 }

/-- YIELD (R93). -/
def execYield (w : Ins) (s : State) : Host.Outcome State Fault Refusal :=
  .next (s.each 0x08 w fun s st => (s.yieldOf st.sid, .next))

/-- SLEEP (R94): parks until NSTIME + A; SLEEP 0 acts as YIELD. -/
def execSleep (w : Ins) (s : State) : Host.Outcome State Fault Refusal :=
  .next (s.each 0x09 w fun s st =>
    let a := s.src st w w.a
    if a = 0 then (s.yieldOf st.sid, .next) else (s, .parkNext (.sleep (s.nstime + a.toNat))))

/-- SLEEP_WAKE (R94): a sleep whose time has come ends. -/
def execSleepWake (sid : Nat) (s : State) : Host.Outcome State Fault Refusal :=
  .next <|
    match (s.st sid).park with
    | .sleep t => if s.nstime ≥ t then s.setPark sid .none else s
    | _ => s

/-- DBNZ (R90): each strand decrements D and branches unless its new value is 0. Strands of one bundle that share a scalar D all read it before any writes it: the model's choice among the races (log 31). -/
def execDbnz (w : Ins) (s : State) : Host.Outcome State Fault Refusal :=
  .next (s.aluWith 0x0A w 1 (ruleOf 0x0A w) (fun s st => [s.src st w w.d - 1])
    fun s sid vals => if vals.headD 0 = 0 then s.retire sid w else s.jump sid (relTarget w (s.st sid).pc))

/-- The live crew an id names (R95, R97): ids are 0..15. -/
def State.liveCrew (s : State) (st : Strand) (a : Word) : Bool := decide (a.toNat < 16) && ((s.it st.uid).crew a.toNat).isSome

/-- The trap of a crew id that is not live: OOR 1. -/
def crewTrap : Trap := ⟨8, 1, 0, 0⟩

/-- JOIN (R95). -/
def execJoin (w : Ins) (s : State) : Host.Outcome State Fault Refusal :=
  .next (s.each 0x10 w fun s st =>
    let a := s.src st w w.a
    if s.liveCrew st a then (s.moveTo st.sid a.toNat, .next) else (s, .trap crewTrap))

/-- LEAVE (R77, R95). -/
def execLeave (w : Ins) (s : State) : Host.Outcome State Fault Refusal :=
  .next (s.each 0x11 w fun s st => (s.leave st.sid, .next))

/-- The id CNEW hands to a strand: the free ids of 1..15 in ascending order to the executing strands of its item in ascending rank (R96). -/
def State.cnewId (s : State) (gs : List Nat) (st : Strand) : Word :=
  let mine := sortBy (fun x => (s.st x).rank) (gs.filter fun x => (s.st x).uid == st.uid)
  let free := (List.range 16).filter fun i => decide (i ≥ 1) && ((s.it st.uid).crew i).isNone
  match free[mine.findIdx (· == st.sid)]? with
  | some i => BitVec.ofNat 32 i
  | none => 0xFFFFFFFF

/-- CNEW (R96). -/
def execCnew (w : Ins) (s : State) : Host.Outcome State Fault Refusal :=
  let gs := s.bundle.filter fun sid => decide (s.verdict 0x12 w (s.st sid) = .go)
  let one := fun (s0 : State) (st : Strand) (vals : List Word) (_ : Nat) =>
    if (gs.filter fun x => sameRow (s0.st x) st).length = 1 then some (Shape.uniform (vals.headD 0)) else none
  .next (s.aluWith 0x12 w 1 one (fun s st => [s.cnewId gs st]) fun t sid vals =>
    let v := vals.headD 0
    let t := if v = 0xFFFFFFFF then t else t.setIt (t.st sid).uid fun it => { it with crews := it.crews ++ [{ id := v.toNat }] }
    t.retire sid w)

/-- CFREE (R97): every member moves to crew 0 and the id becomes free; calls still counted in the crew count nowhere. -/
def execCfree (w : Ins) (s : State) : Host.Outcome State Fault Refusal :=
  .next (s.each 0x13 w fun s st =>
    let a := s.src st w w.a
    if a = 0 || !s.liveCrew st a then (s, .trap crewTrap)
    else
      let s := (s.members st.uid a.toNat).foldl (fun s sid => s.moveTo sid 0) s
      let s : State := { s with calls := s.calls.map fun c => if c.uid = st.uid ∧ c.crew = some a.toNat then { c with crew := none } else c }
      (s.setIt st.uid fun it => { it with crews := it.crews.filter fun k => k.id != a.toNat }, .next))

/-- The convergence register an operand names. -/
def cOf (o : Operand) : Nat :=
  match o with
  | .c i => i.toNat
  | _ => 0

/-- SIGN (R98). -/
def execSign (w : Ins) (s : State) : Host.Outcome State Fault Refusal :=
  .next (s.eachSign 0x14 w (cOf w.a) .next fun _ _ => none)

/-- SIGN.w (R98): the strand parks until the round completes. -/
def execSignW (w : Ins) (s : State) : Host.Outcome State Fault Refusal :=
  .next (s.eachSign 0x14 w (cOf w.a) (.parkNext (.signW (cOf w.a))) fun _ _ => none)

/-- CWAIT (R99): waits while the strand's signature stands in the register's open round. -/
def execCwait (w : Ins) (s : State) : Host.Outcome State Fault Refusal :=
  .next (s.each 0x15 w fun s st =>
    match (s.it st.uid).crew st.crew with
    | some k => if ((k.rounds.getD (cOf w.a) {}).signers.any fun g => g.sid == st.sid) then (s, .stay) else (s, .next)
    | none => (s, .next))

/-- SHFL (R101): the source lane, or 32 and above for the strand's own value. -/
def shflLane (fn : Nat) (lane : Nat) (b : Word) : Nat :=
  let l := BitVec.ofNat 32 lane
  match fn with
  | 0 => b.toNat
  | 1 => (l - b).toNat
  | 2 => (l + b).toNat
  | _ => (l ^^^ b).toNat

def execShfl (w : Ins) (s : State) : Host.Outcome State Fault Refusal :=
  .next (s.eachColl 0x16 w fun s st => (s.src st w w.a, shflLane w.fn.toNat st.lane (s.src st w w.b)))

/-- CRED (R102). -/
def execCred (w : Ins) (s : State) : Host.Outcome State Fault Refusal :=
  .next (s.eachColl 0x17 w fun s st => (s.src st w w.a, 0))

/-- What a strand contributes to a vote: its predicate (R103). -/
def voteVal (w : Ins) (s : State) (st : Strand) : Word × Nat := (s.src st w w.a, 0)

/-- VOTE.all (R103). -/
def execVoteAll (w : Ins) (s : State) : Host.Outcome State Fault Refusal := .next (s.eachColl 0x18 w (voteVal w))

/-- VOTE.any (R103). -/
def execVoteAny (w : Ins) (s : State) : Host.Outcome State Fault Refusal := .next (s.eachColl 0x18 w (voteVal w))

/-- VOTE.count (R103). -/
def execVoteCount (w : Ins) (s : State) : Host.Outcome State Fault Refusal := .next (s.eachColl 0x18 w (voteVal w))

/-- VOTE.rowmask (R103). -/
def execVoteRowmask (w : Ins) (s : State) : Host.Outcome State Fault Refusal := .next (s.eachColl 0x18 w (voteVal w))

/-- FREEZE (R104, R105): signs c15; at TLEV 3 it traps STACK 1, in a finishing strand STACK 4, which comes first where both apply: the model's choice (log 88). -/
def execFreeze (w : Ins) (s : State) : Host.Outcome State Fault Refusal :=
  .next (s.bundle.foldl (fun s sid =>
    match s.verdict 0x19 w (s.st sid) with
    | .go =>
      let s := s.onWait w sid
      let st := s.st sid
      if st.isFinishing then s.trap sid ⟨0x0F, 4, 0, 0⟩
      else if (s.it st.uid).tlev = 3 then s.trap sid ⟨0x0F, 1, 0, 0⟩
      else s.signFreeze sid 0x19 w
    | v => s.act sid w v fun s _ => (s, .next)) s)

/-- FREEZE_COMPLETE (R69, R72, R104): the round completes once every signer has nothing outstanding. -/
def execFreezeComplete (uid : Nat) (s : State) : Host.Outcome State Fault Refusal :=
  .next (if s.freezeReady uid then s.completeFreeze uid else s)

/-- Accept the address of `len` bytes for a control instruction (R87, R106..R109, R312): translated with its rights and every granule tag-checked; every refusal is precise, a page fault waits at the word. -/
def State.ctlAccess (s : State) (st : Strand) (va : Addr) (need : Need) (len : Nat := 1) : State × Except Flow Xlat :=
  match s.access st.sid (s.coreOf st) (s.ctxOf st) va need len with
  | (s, .ok x) => (s, .ok x)
  | (s, .bad t) => if t.cls = 4 then (s, .error (.park (.page va need.wr false))) else (s, .error (.trap t))

/-- POISON of memory that an engine or tile word reads for itself (R341): delivered deferred-precise with the word's PC, and the word does nothing else. DEDUCED (log 113): no entry of the operand log holds such a word. -/
def State.deferPoison (s : State) (st : Strand) (loc : Nat) : State × Flow := (s.addFault { sid := st.sid, seq := st.seq, pc := st.pc } (memPoison loc), .next)

/-- LAUNCH (R106). Its traps are precise (R87). -/
def execLaunch (w : Ins) (s : State) : Host.Outcome State Fault Refusal :=
  .next (s.each 0x1A w fun s st =>
    let va := s.src64 st w w.a
    let q := s.src st w w.b
    if va.toNat % 128 ≠ 0 then (s, .trap alignTrap)
    else match s.ctlAccess st va { rd := true, locs := [0] } 128 with
      | (s, .error f) => (s, f)
      | (s, .ok x) =>
        if q.toNat > 63 then (s, .trap ⟨8, 2, 0, 0⟩)
        else if !s.released st.sid 1 || !s.ownClear st va 0 x.pa 128 then (s, .stay)
        else if s.poisonedAt x.pa 128 then (s, .trap ⟨0x0C, 5, 0, 0⟩)
        else if ((s.queues.getD q.toNat {}).packets.length ≥ 32) then (s, .stay)
        else
          let bs := s.mem.bytes x.pa 128
          let c := s.ctxOf st
          let bs := if bs.getD 0x60 0 = 0 then bs.set 0x60 (BitVec.ofNat 8 c) else bs
          (s.setQueue q.toNat fun y => { y with packets := y.packets ++ [{ bytes := bs, issuer := some c }] }, .next))

/-- EVSIG (R107): releases, at the scope of a pending FENCE.rel if that is wider (R228, R265), then adds at the counter's home. -/
def execEvsig (w : Ins) (s : State) : Host.Outcome State Fault Refusal :=
  .next (s.each 0x1B w fun s st =>
    let va := s.src64 st w w.a
    if va.toNat % 8 ≠ 0 then (s, .trap alignTrap)
    else match s.ctlAccess st va { rd := true, wr := true, locs := [0, 1, 2] } with
      | (s, .error f) => (s, f)
      | (s, .ok x) =>
        let scope := if w.fn = 1 ∨ x.loc ≠ 0 ∨ st.nextRel = some 2 then 2 else 1
        if !s.released st.sid scope then (s, .stay)
        else
          let (id, s) := s.fresh
          let s := s.setSt st.sid fun y => { y with nextRel := none }
          let a : Acc := { id := id, sid := st.sid, uid := st.uid, core := s.coreOf st, ctx := s.ctxOf st, seq := st.seq, pc := st.pc, kind := .atomic, op := 0x1B, ty := 3, known := true
                           va := va, width := 8, loc := x.loc, pa := x.pa, pol := x.pol, data := (s.src st w w.b).toNat, rel := some scope, issued := s.now, relAcq := (s.st st.sid).acqAt }
          ({ s with pend := s.pend ++ [a] }, .next))

/-- The scope at which an EVWAIT that an add has woken acquires (R108). -/
def Strand.wokenScope (st : Strand) : Option Nat :=
  match st.woken with
  | some (n, sc) => if n = st.seq then some sc else none
  | none => none

/-- EVWAIT (R108): completes, acquiring, when the counter has reached B; otherwise the strand parks. -/
def execEvwait (w : Ins) (s : State) : Host.Outcome State Fault Refusal :=
  .next (s.each 0x1C w fun s st =>
    let va := s.src64 st w w.a
    match st.wokenScope with
    | some sc => ((s.setSt st.sid fun x => { x with woken := none }).acquire st.sid sc, .next)
    | none =>
    if va.toNat % 8 ≠ 0 then (s, .trap alignTrap)
    else match s.ctlAccess st va { rd := true, locs := [0, 1, 2] } with
      | (s, .error f) => (s, f)
      | (s, .ok x) =>
        if !s.ownClear st va x.loc x.pa 8 then (s, .stay)
        else if s.poisonedIn x.loc x.pa 8 then (s, .trap (memPoison x.loc))
        else if s.homeNum x.loc x.pa 8 ≥ (s.src64 st w w.b).toNat then (s.acquire st.sid (if x.loc = 0 then 1 else 2), .next)
        else (s, .park (.evwait va (s.src64 st w w.b) x.loc x.pa false)))

/-- EVWAIT_WAKE (R108): a strand for which an add has made the condition true goes back to its word, which completes. -/
def execEvwaitWake (sid : Nat) (s : State) : Host.Outcome State Fault Refusal :=
  .next <|
    match (s.st sid).park with
    | .evwait _ _ loc _ true => s.setSt sid fun x => { x with park := .none, woken := some (x.seq, if loc = 0 then 1 else 2) }
    | _ => s

/-- RCALL (R79, R82, R109). -/
def execRcall (w : Ins) (s : State) : Host.Outcome State Fault Refusal :=
  .next (s.each 0x1D w fun s st =>
    let it := s.it st.uid
    let k := it.kernel
    let fi := w.imm.toNat % 256
    let creg := w.imm.toNat / 256 % 16
    let d := (w.d.vregs 1).headD 0
    let b := (w.b.vregs 1).headD 0
    if fi ≥ k.rfs.length then (s, .trap ⟨8, 3, 0, 0⟩)
    else
      let f := s.rfOf st w
      let regs := (s.limitsOf st).regs
      if d + f.rets > regs || b + f.args > regs then (s, .trap ⟨1, 11, 0, 0⟩)
      else
        let va := s.src64 st w w.a
        match s.ctlAccess st va { rd := true, rcx := true, locs := [0, 1, 2] } with
        | (s, .error fl) => (s, fl)
        | (s, .ok x) =>
          if !s.released st.sid (if x.loc = 1 then 2 else 1) then (s, .stay)
          else
            let args := (List.range f.args).map fun i => s.vreg st (b + i)
            match s.prepDest st ((List.range f.rets).map (d + ·)) with
            | none => (s, .park .storage)
            | some s =>
              let (id, s) := s.fresh
              let seq := st.nseq + 1
              let c : Call := { id := id, sid := st.sid, uid := st.uid, crew := some st.crew, creg := creg, fn := f, fpc := k.code + BitVec.ofNat 64 f.ofs, ctx := it.ctx
                                depth := k.calldepth, detred := (s.la it.launch).detred, target := va, loc := x.loc, peer := if x.loc = 1 then x.pa / 2 ^ 48 else 0, nmu := nmuOf (x.pa % 2 ^ 48)
                                args := args, dest := d, seq := seq, deadline := s.now + (s.ctx it.ctx).rcto.toNat * 1000 * Config.perNs }
              let c : Call := if x.loc = 2 then { c with phase := .shipped (s.newFrame c 0) } else c
              let s := s.setSt st.sid fun y => { y with nseq := seq }
              let s := s.setIt st.uid fun it => it.setCrew st.crew fun k => { k with counts := k.counts.modify creg (· + 1) }
              ({ s with calls := s.calls ++ [c] }, .next))

/-- The words RRET returns: RETS registers from A; registers beyond the frame's FREGS read 0, the model's choice (log 88). -/
def State.retWords (s : State) (st : Strand) (w : Ins) (f : RemoteFn) : List Word :=
  (List.range f.rets).map fun i => let r := (w.a.vregs 1).headD 0 + i; if r < f.fregs then s.vreg st r else 0

/-- RRET (R111): returns RETS words from A; outside a remote frame it traps STACK 5. -/
def execRret (w : Ins) (s : State) : Host.Outcome State Fault Refusal :=
  .next (s.each 0x1E w fun s st =>
    match st.call.bind s.call? with
    | none => (s, .trap ⟨0x0F, 5, 0, 0⟩)
    | some c =>
      if !s.released st.sid (s.returnScope st) then (s, .stay)
      else (s.returnCall st (s.retWords st w c.fn), .done))

/-- RJOIN (R112): waits until the count of the register in the strand's crew reads 0, whatever is issued after that, then acquires what the calls acquired. A frame at an NMU has no crew and goes on at once; a strand whose crew CFREE dissolves waits for the register's count in crew 0: the model's choices (log 88). -/
def execRjoin (w : Ins) (s : State) : Host.Outcome State Fault Refusal :=
  .next (s.each 0x1F w fun s st =>
    let c := cOf w.a
    match (if st.isFrame then none else (s.it st.uid).crew st.crew) with
    | none => (s, .next)
    | some k =>
      if k.counts.getD c 0 ≠ 0 ∧ st.rjoin ≠ some (st.seq, c, true) then
        (s.setSt st.sid fun x => { x with rjoin := some (st.seq, c, false) }, .stay)
      else
        let s := s.setSt st.sid fun x => { x with rjoin := none }
        let sc := k.acqs.getD c 0
        (if sc = 0 then s else s.acquire st.sid sc, .next))

end Sys2Proof.Machine
end

