-- ==== Sys2Proof/Machine/Integer.lean ====
section
/-! DEFINITION. Integer words (08 R169..R178; 06 R128..R130). -/

namespace Sys2Proof.Machine

/-- Registers of a result of the word's type. -/
def tyWords (w : Ins) : Nat := if wideTy w.ty.toNat then 2 else 1

/-- A word that computes an integer from A and B in its type, wrapped, or saturated under SAT = 1. -/
def intOp (op : Nat) (f : Int → Int → Int) (w : Ins) (s : State) : State :=
  let ty := w.ty.toNat
  s.alu op w (tyWords w) (ruleOf op w) fun s st => w.finishInt ty (f (s.srcInt st w ty w.a) (s.srcInt st w ty w.b))

/-- A word that computes a w-bit pattern from the w-bit patterns of A and B. -/
def bitOp (op : Nat) (f : Nat → Nat → Nat → Nat) (w : Ins) (s : State) : State :=
  let ty := w.ty.toNat
  let n := intWidth ty
  s.alu op w (tyWords w) (ruleOf op w) fun s st => intWords ty (readInt ty (f n (s.srcTy st w ty w.a % 2 ^ n) (s.srcTy st w ty w.b % 2 ^ n)))

/-- IADD (R170). -/
def execIadd (w : Ins) (s : State) : Host.Outcome State Fault Refusal := .next (intOp 0x20 (· + ·) w s)

/-- ISUB (R170). -/
def execIsub (w : Ins) (s : State) : Host.Outcome State Fault Refusal := .next (intOp 0x21 (· - ·) w s)

/-- IMUL (R170). -/
def execImul (w : Ins) (s : State) : Host.Outcome State Fault Refusal := .next (intOp 0x22 (· * ·) w s)

/-- IMULH (R170): the floor of the product over 2^w. -/
def execImulh (w : Ins) (s : State) : Host.Outcome State Fault Refusal :=
  .next (intOp 0x23 (fun a b => a * b / ((2 ^ intWidth w.ty.toNat : Nat) : Int)) w s)

/-- IMAD (R170). -/
def execImad (w : Ins) (s : State) : Host.Outcome State Fault Refusal :=
  let ty := w.ty.toNat
  .next (s.alu 0x24 w (tyWords w) (ruleOf 0x24 w) fun s st =>
    w.finishInt ty (s.srcInt st w ty w.a * s.srcInt st w ty w.b + s.srcInt st w ty w.third))

/-- The quotient of IDIV (R129): truncated toward zero; every bit set for a divisor of 0. -/
def divInt (a b : Int) : Int := if b = 0 then -1 else Int.tdiv a b

/-- The remainder of IREM (R129). -/
def remInt (a b : Int) : Int := if b = 0 then a else Int.tmod a b

/-- IDIV (R129, R165). -/
def execIdiv (w : Ins) (s : State) : Host.Outcome State Fault Refusal :=
  let ty := w.ty.toNat
  .next (s.longOp 0x25 w (tyWords w) fun s st => intWords ty (wrapInt ty (divInt (s.srcInt st w ty w.a) (s.srcInt st w ty w.b))))

/-- IREM (R129, R165). -/
def execIrem (w : Ins) (s : State) : Host.Outcome State Fault Refusal :=
  let ty := w.ty.toNat
  .next (s.longOp 0x26 w (tyWords w) fun s st => intWords ty (wrapInt ty (remInt (s.srcInt st w ty w.a) (s.srcInt st w ty w.b))))

/-- IMIN (R170). -/
def execImin (w : Ins) (s : State) : Host.Outcome State Fault Refusal := .next (intOp 0x27 (fun a b => if a ≤ b then a else b) w s)

/-- IMAX (R170). -/
def execImax (w : Ins) (s : State) : Host.Outcome State Fault Refusal := .next (intOp 0x28 (fun a b => if a ≥ b then a else b) w s)

/-- AND (R170). -/
def execAnd (w : Ins) (s : State) : Host.Outcome State Fault Refusal := .next (bitOp 0x29 (fun _ a b => a &&& b) w s)

/-- OR (R170). -/
def execOr (w : Ins) (s : State) : Host.Outcome State Fault Refusal := .next (bitOp 0x2A (fun _ a b => a ||| b) w s)

/-- XOR (R170). -/
def execXor (w : Ins) (s : State) : Host.Outcome State Fault Refusal := .next (bitOp 0x2B (fun _ a b => a ^^^ b) w s)

/-- ANDN (R170). -/
def execAndn (w : Ins) (s : State) : Host.Outcome State Fault Refusal := .next (bitOp 0x2C (fun n a b => a &&& (2 ^ n - 1 - b)) w s)

/-- The width shifts work in (R171). -/
def shiftW (ty : Nat) : Nat := if wideTy ty then 64 else 32

/-- A shift (R130, R171): the count is the pattern of B modulo the operation width. -/
def shiftOp (op : Nat) (f : Nat → Nat → Nat → Int) (w : Ins) (s : State) : State :=
  let ty := w.ty.toNat
  s.alu op w (tyWords w) (ruleOf op w) fun s st =>
    intWords ty (wrapInt ty (f (shiftW ty) (s.srcTy st w ty w.a) (wrapN 64 (s.srcInt st w ty w.b) % shiftW ty)))

/-- SHL (R171). -/
def execShl (w : Ins) (s : State) : Host.Outcome State Fault Refusal :=
  .next (shiftOp 0x2D (fun W a c => (((a % 2 ^ intWidth w.ty.toNat) * 2 ^ c % 2 ^ W : Nat) : Int)) w s)

/-- SHR (R171): the zero-extended pattern. -/
def execShr (w : Ins) (s : State) : Host.Outcome State Fault Refusal :=
  .next (shiftOp 0x2E (fun _ a c => ((a % 2 ^ intWidth w.ty.toNat / 2 ^ c : Nat) : Int)) w s)

/-- SAR (R171): sign-extended from bit w - 1. -/
def execSar (w : Ins) (s : State) : Host.Outcome State Fault Refusal :=
  .next (shiftOp 0x2F (fun _ a c => signedN (intWidth w.ty.toNat) a / ((2 ^ c : Nat) : Int)) w s)

/-- POPC (R172): one N32 register. -/
def execPopc (w : Ins) (s : State) : Host.Outcome State Fault Refusal :=
  .next (s.alu 0x30 w 1 (ruleOf 0x30 w) fun s st => [BitVec.ofNat 32 (setBits (intWidth w.ty.toNat) (s.srcTy st w w.ty.toNat w.a)).length])

/-- Zero bits above the highest set bit of a w-bit pattern (R172). -/
def clzN (n x : Nat) : Nat := if x % 2 ^ n = 0 then n else n - 1 - (x % 2 ^ n).log2

/-- CLZ (R172). -/
def execClz (w : Ins) (s : State) : Host.Outcome State Fault Refusal :=
  .next (s.alu 0x31 w 1 (ruleOf 0x31 w) fun s st => [BitVec.ofNat 32 (clzN (intWidth w.ty.toNat) (s.srcTy st w w.ty.toNat w.a))])

/-- BREV (R172). -/
def execBrev (w : Ins) (s : State) : Host.Outcome State Fault Refusal :=
  let ty := w.ty.toNat
  .next (s.alu 0x32 w (tyWords w) (ruleOf 0x32 w) fun s st => intWords ty (readInt ty (revN (intWidth ty) (s.srcTy st w ty w.a))))

/-- Position and length of BFX and BFI (R173). -/
def bfPos (W : Nat) (b : Word) : Nat × Nat :=
  let pos := b.toNat % 256 % W
  (pos, min (b.toNat / 256 % 256) (W - pos))

/-- BFX (R173). -/
def execBfx (w : Ins) (s : State) : Host.Outcome State Fault Refusal :=
  let ty := w.ty.toNat
  .next (s.alu 0x33 w (tyWords w) (ruleOf 0x33 w) fun s st =>
    let pl := bfPos (shiftW ty) (s.src st w w.b)
    let f := s.srcTy st w ty w.a / 2 ^ pl.1 % 2 ^ pl.2
    intWords ty (if intSigned ty then signedN pl.2 f else (f : Int)))

/-- BFI (R173). -/
def execBfi (w : Ins) (s : State) : Host.Outcome State Fault Refusal :=
  let ty := w.ty.toNat
  .next (s.alu 0x34 w (tyWords w) (ruleOf 0x34 w) fun s st =>
    let pl := bfPos (shiftW ty) (s.src st w w.b)
    let old := s.srcTy st w ty w.d
    let f := old / 2 ^ pl.1 % 2 ^ pl.2
    intWords ty ((old - f * 2 ^ pl.1 + s.srcTy st w ty w.a % 2 ^ pl.2 * 2 ^ pl.1 : Nat) : Int))

/-- A truth value in registers of the word's type. -/
def truthWords (w : Ins) (b : Bool) : List Word := intWords w.ty.toNat (b01 b : Nat)

/-- ISET (R174). -/
def execIset (w : Ins) (s : State) : Host.Outcome State Fault Refusal :=
  let ty := w.ty.toNat
  .next (s.alu 0x35 w (tyWords w) (ruleOf 0x35 w) fun s st => truthWords w (cmpInt w.fn.toNat (s.srcInt st w ty w.a) (s.srcInt st w ty w.b)))

/-- The bits of a source that is moved (R175): a pair with a 64-bit type, an FP32 pattern with TY 8. -/
def State.srcMove (s : State) (st : Strand) (w : Ins) (o : Operand) : List Word :=
  if wideTy w.ty.toNat then
    let x := s.src64 st w o
    [x.setWidth 32, x.extractLsb' 32 32]
  else if w.ty.toNat = 8 then [BitVec.ofNat 32 (s.srcFp st w 8 o)]
  else [s.src st w o]

/-- SEL (R175): A where the predicate, after its negation, reads true, else B. -/
def execSel (w : Ins) (s : State) : Host.Outcome State Fault Refusal :=
  .next (s.alu 0x36 w (tyWords w) (ruleOf 0x36 w) fun s st =>
    s.srcMove st w (if st.pred (w.fn.toNat % 8) != bitN w.fn.toNat 3 then w.a else w.b))

/-- LEA (R176). -/
def execLea (w : Ins) (s : State) : Host.Outcome State Fault Refusal :=
  .next (s.alu 0x37 w 2 (ruleOf 0x37 w) fun s st =>
    let b := s.src st w w.b
    let x : Addr := if w.ty = 0 then b.signExtend 64 else b.setWidth 64
    let d := s.src64 st w w.a + x <<< (w.imm.toNat % 64)
    [d.setWidth 32, d.extractLsb' 32 32])

/-- MOV (R175). -/
def execMov (w : Ins) (s : State) : Host.Outcome State Fault Refusal :=
  .next (s.alu 0x38 w (tyWords w) (ruleOf 0x38 w) fun s st => s.srcMove st w w.a)

/-- PACK of two words (R177). -/
def packWord (ty : Nat) (sat : Bool) (a b : Word) : Word :=
  let c := fun (z : Int) => wrapN (intWidth ty) (if sat then satInt ty z else z)
  if ty = 4 ∨ ty = 5 then
    let rd := fun (x : Word) => readInt (if ty = 4 then 0 else 1) x.toNat
    BitVec.ofNat 32 (c (rd b) * 2 ^ 16 + c (rd a))
  else
    let rd := fun (x : Nat) => readInt (if ty = 6 then 4 else 5) x
    BitVec.ofNat 32 (c (rd (b.toNat / 65536)) * 2 ^ 24 + c (rd b.toNat) * 2 ^ 16 + c (rd (a.toNat / 65536)) * 2 ^ 8 + c (rd a.toNat))

/-- PACK (R177). -/
def execPack (w : Ins) (s : State) : Host.Outcome State Fault Refusal :=
  .next (s.alu 0x39 w 1 (ruleOf 0x39 w) fun s st => [packWord w.ty.toNat (w.sat = 1) (s.src st w w.a) (s.src st w w.b)])

/-- UNPK of a word (R177). -/
def unpkWord (ty : Nat) (hi : Bool) (a : Word) : Word :=
  let x := a.toNat / (if hi then 65536 else 1)
  if ty = 4 ∨ ty = 5 then BitVec.ofInt 32 (readInt ty x)
  else BitVec.ofNat 32 (wrapN 16 (readInt ty (x / 256)) * 65536 + wrapN 16 (readInt ty x))

/-- UNPK (R177). -/
def execUnpk (w : Ins) (s : State) : Host.Outcome State Fault Refusal :=
  .next (s.alu 0x3A w 1 (ruleOf 0x3A w) fun s st => [unpkWord w.ty.toNat (w.fn = 1) (s.src st w w.a)])

/-- The running checksum over the low n bits of b, bit 0 first (R178). -/
def crcBits : Nat → Nat → Word → Word
  | 0, _, c => c
  | n + 1, b, c =>
    let c := c ^^^ BitVec.ofNat 32 (b % 2)
    crcBits n (b / 2) (if c.getLsbD 0 then (c >>> 1) ^^^ 0x82F63B78 else c >>> 1)

/-- CRC32C (R178). -/
def execCrc32c (w : Ins) (s : State) : Host.Outcome State Fault Refusal :=
  .next (s.alu 0x3B w 1 (ruleOf 0x3B w) fun s st => [crcBits (intWidth w.ty.toNat) (s.src st w w.b).toNat (s.src st w w.a)])

/-- LONG_LATENCY_COMPLETE (R165). -/
def execLongLatencyComplete (id : Nat) (s : State) : Host.Outcome State Fault Refusal :=
  .next <|
    match s.lats.find? fun l => l.id == id with
    | none => s
    | some l => s.finishLat l

end Sys2Proof.Machine
end

