-- ==== Sys2Proof/Machine/Lane.lean ====
section
/-! DEFINITION. Special registers, predicates, shapes and full/empty state (08 R190..R196; 02 R29). -/

namespace Sys2Proof.Machine

/-- A 64-bit value as the words of a pair, low first. -/
def pairWords (x : Nat) : List Word := [BitVec.ofNat 32 x, BitVec.ofNat 32 (x / 2 ^ 32)]

/-- CLOCK of a core (R191): arithmetic-clock cycles since its cluster was released. -/
def State.clock (s : State) (cluster : Nat) : Nat :=
  match (s.clusters.getD cluster {}).released with
  | some t => (s.now - t) / Config.perCycle
  | none => 0

/-- The value of a special register (R191), as words: RSTAT of a finishing strand reads 0 (R367); at an NMU, which is no core, the registers of a core are free. -/
def State.special (s : State) (st : Strand) (r : SpecReg) : List Word :=
  let it := s.it st.uid
  let core := s.coreOf st
  let n := fun (x : Nat) => [(BitVec.ofNat 32 x : Word)]
  let onCore := fun (x : Nat) => if st.isFrame then [s.anyWord 0] else n x
  match r with
  | .lane => n st.lane
  | .row => onCore (s.rowOf st).phys
  | .strand => n st.rank
  | .nstrand => n it.strandsN
  | .item => [it.number]
  | .nitem => [it.nitem]
  | .pitem => [it.pitem]
  | .tlev => n it.tlev
  | .core => onCore core
  | .cluster => onCore (clusterOf core)
  | .die => onCore (dieOf core)
  | .dev => n s.devId.toNat
  | .ctx => n (s.ctxOf st)
  | .clock => if st.isFrame then [s.anyWord 0, s.anyWord 1] else pairWords (s.clock (clusterOf core))
  | .nstime => pairWords s.nstime
  | .rstat => if st.isFinishing then [0] else [st.rstat]
  | .pforced => n it.pforced
  | .faultm => [it.faultm]

/-- The shape of a special register (R29, R191): STRAND is general only in a row where a finishing strand, whose caller may have any rank (R367), breaks its affine form. -/
def specialShape (s : State) (r : SpecReg) (st : Strand) (vals : List Word) (j : Nat) : Option Shape :=
  match r with
  | .lane => some (.affine 0 1 0)
  | .strand =>
    let base := fun (y : Strand) => BitVec.ofNat 32 y.rank - BitVec.ofNat 32 y.lane
    if s.strands.any (fun y => sameRow y st && !y.exited && base y != base st) then none else some (.affine (base st) 1 0)
  | .item => some (.affine 0 0 1)
  | .clock | .nstime | .rstat => none
  | _ => some (.uniform (vals.getD j 0))

/-- The special register an operand names. -/
def srOf (o : Operand) : SpecReg :=
  match o with
  | .sr r => r
  | _ => .lane

/-- SRD (R191): a read of RSTAT clears ANYABN (R84). -/
def execSrd (w : Ins) (s : State) : Host.Outcome State Fault Refusal :=
  let r := srOf w.a
  .next (s.aluWith 0x60 w (if r = .clock ∨ r = .nstime then 2 else 1) (fun s st vals j => specialShape s r st vals j)
    (fun s st => s.special st r) fun t sid _ =>
      (if r = .rstat then t.setSt sid fun x => { x with rstat := x.rstat &&& ~~~ (0x10 : Word) } else t).retire sid w)

/-- PLOG (R192). -/
def execPlog (w : Ins) (s : State) : Host.Outcome State Fault Refusal :=
  .next (s.alu 0x61 w 1 generalOf fun s st =>
    [BitVec.ofNat 32 (b01 (plogVal w.fn.toNat (s.src st w w.a != 0) (s.src st w w.b != 0)))])

/-- Results of PMOV are general, but uniform when no other lane of the row holds a live strand (R193). -/
def pmovShape (s : State) (st : Strand) (vals : List Word) (_ : Nat) : Option Shape :=
  if s.covers st [st.lane] then some (.uniform (vals.headD 0)) else none

/-- PMOV.nz (R193). -/
def execPmovNz (w : Ins) (s : State) : Host.Outcome State Fault Refusal :=
  .next (s.alu 0x62 w 1 generalOf fun s st => [BitVec.ofNat 32 (b01 (s.src st w w.a != 0))])

/-- PMOV.val (R193). -/
def execPmovVal (w : Ins) (s : State) : Host.Outcome State Fault Refusal :=
  .next (s.alu 0x62 w 1 pmovShape fun s st => [s.src st w w.a])

/-- PMOV.save (R193). -/
def execPmovSave (w : Ins) (s : State) : Host.Outcome State Fault Refusal :=
  .next (s.alu 0x62 w 1 pmovShape fun _ st => [BitVec.ofNat 32 (128 + st.preds.toNat)])

/-- PMOV.load (R193). -/
def execPmovLoad (w : Ins) (s : State) : Host.Outcome State Fault Refusal :=
  .next (s.each 0x62 w fun s st =>
    let x := s.src st w w.a
    (s.setSt st.sid fun y => { y with preds := x.setWidth 7 }, .next))

/-- The v register an operand names. -/
def vOf (o : Operand) : Nat := (o.vregs 1).headD 0

/-- A field of a register's shape (R194). One whose lane is empty and that has the same word in every lane is a uniform one on its way (log 15). -/
def State.shapeField (s : State) (st : Strand) (fn i : Nat) : Word :=
  let v := (s.rowOf st).reg i
  let sh := v.shape
  match fn with
  | 0 => BitVec.ofNat 32 ((match sh with
    | .uniform _ => 0
    | .affine _ l t => if l = 0 ∧ t = 0 ∧ s.isEmpty st i then 0 else 1
    | .general _ => 2) + 4 * b01 v.tref)
  | 1 => match sh with
    | .uniform x => x
    | .affine b _ _ => b
    | .general _ => s.vreg st i
  | 2 => match sh with
    | .affine _ l _ => l
    | _ => 0
  | _ => match sh with
    | .affine _ _ t => t
    | _ => 0

/-- SHAPE (R194). -/
def execShape (w : Ins) (s : State) : Host.Outcome State Fault Refusal :=
  let general := fun (s : State) (st : Strand) => match ((s.rowOf st).reg (vOf w.a)).shape with
    | .general _ => w.fn == 1
    | _ => false
  .next (s.alu 0x63 w 1 (fun s st vals _ => if general s st then none else some (.uniform (vals.headD 0)))
    fun s st => [s.shapeField st w.fn.toNat (vOf w.a)])

/-- GEN (R195): the row's register turns general with every lane's value, drawing storage. -/
def execGen (w : Ins) (s : State) : Host.Outcome State Fault Refusal :=
  .next (s.each 0x64 w fun s st =>
    let d := vOf w.d
    let item := (s.it st.uid).number
    let v := (s.rowOf st).reg d
    let done := match v.shape with
      | .general _ => !v.tref
      | _ => false
    let gen := fun (s : State) => s.setRow st fun row =>
      row.setReg d { (row.reg d) with shape := .general ((List.range 32).map ((row.reg d).shape.at item)), tref := false }
    if done then (s, .next)
    else if st.isFrame then (gen s, .next)
    else match s.grow st.uid st.prank gen with
      | some s => (s, .next)
      | none => (s, .park .storage))

/-- FEMK.test (R196): a scalar register is always full. -/
def execFemkTest (w : Ins) (s : State) : Host.Outcome State Fault Refusal :=
  .next (s.alu 0x65 w 1 generalOf fun s st => [BitVec.ofNat 32 (b01 ((w.a.vregs 1).all fun i => !s.isEmpty st i))])

/-- FEMK.mask (R196). -/
def execFemkMask (w : Ins) (s : State) : Host.Outcome State Fault Refusal :=
  .next (s.alu 0x65 w 1 generalOf fun s st => [BitVec.ofNat 32 (maskOf 32 fun i => !s.isEmpty st (vOf w.a / 32 * 32 + i))])

end Sys2Proof.Machine
end

