-- ==== Sys2Proof/Machine/MemOps.lean ====
section
/-! DEFINITION. How memory words issue their accesses (11 R254..R260; 14 R324): effective addresses, the steps of R255, the operand log, loads for a whole row, the scratchpad, and performing what has issued. -/

namespace Sys2Proof

open Machine

/-- Bytes of an element by TY (R258). -/
def tyBytes (ty : Nat) : Nat :=
  match ty with
  | 0 | 1 | 8 => 4
  | 2 | 3 => 8
  | 4 | 5 | 9 | 10 => 2
  | _ => 1

/-- The acquire and release parts of an ordering FN, with their scopes (R256). -/
def acqOf (fn : Nat) : Option Nat := if (4 ≤ fn ∧ fn ≤ 7) ∨ 12 ≤ fn then some (fn % 4) else none
def relOf (fn : Nat) : Option Nat := if 8 ≤ fn then some (fn % 4) else none

/-- The wider of two scopes; .rp orders as core (R227). -/
def widerScope (a b : Nat) : Nat := if a % 3 < b % 3 then b else a

/-- The byte offset in IMM, or 0 when IMM holds an immediate or ACAS's third source (R254). -/
def Ins.memOff (op : Nat) (w : Ins) : Word :=
  let cls4 := fun (o : Operand) => match o with
    | .imm _ => true
    | _ => false
  if op = 0x9E || cls4 w.d || cls4 w.a || cls4 w.b then 0 else w.imm

/-- The effective address of a memory-space word (R255). -/
def Machine.State.ea (s : State) (st : Strand) (op : Nat) (w : Ins) : Addr :=
  let b : Addr := if (op = 0x90 ∨ op = 0x91) ∧ w.b ≠ .v 0 then (s.src st w w.b).setWidth 64 else 0
  s.src64 st w w.a + b + (w.memOff op).signExtend 64

/-- The scratchpad address of a word (R255). -/
def Machine.State.sea (s : State) (st : Strand) (op : Nat) (w : Ins) : Word := s.src st w w.a + w.memOff op

/-- The operand n registers on. -/
def Operand.plus (o : Operand) (n : Nat) : Operand :=
  match o with
  | .v i => .v (i + BitVec.ofNat 8 n)
  | .s i => .s (i + BitVec.ofNat 9 n)
  | o => o

/-- The register words of a loaded element (R163, R258). -/
def loadWords (ty v : Nat) : List Word := if ty ≤ 7 then intWords ty (readInt ty v) else [BitVec.ofNat 32 v]

namespace Machine

-- elements

/-- The unit an access is split in: accumulator rows move 4-byte elements (R207), a 16-byte access two of 8 bytes (R226). -/
def Acc.unit (a : Acc) : Nat := if a.op = 0x74 ∨ a.op = 0x75 then 4 else if a.width > 8 then 8 else a.width

def Acc.count (a : Acc) : Nat := if a.unit = 0 then 1 else a.width / a.unit

/-- Element k of an access: consecutive numbers keep program order. -/
def Acc.elem (a : Acc) (k : Nat) : Acc :=
  { a with
    id := a.id + k
    width := a.unit
    va := a.va + BitVec.ofNat 64 (a.unit * k)
    pa := a.pa + a.unit * k
    data := if a.count ≤ 1 then a.data else a.data / 2 ^ (8 * a.unit * k) % 2 ^ (8 * a.unit)
    data2 := if a.unit = 8 ∧ a.width = 16 then a.data / 2 ^ (64 * (1 - k)) % 2 ^ 64 else a.data2
    half := if a.unit = 8 ∧ a.width = 16 then k + 1 else a.half
    dest := a.dest.map fun d => d + 2 * k
    kind := match a.kind with
      | .accLoad acc e int => .accLoad acc (e + k) int
      | x => x }

def Acc.elements (a : Acc) : List Acc := (List.range a.count).map a.elem

/-- The access of which one is a half, or itself (R226, R336). -/
def Acc.whole (a : Acc) : Acc :=
  match a.half with
  | 0 => a
  | k + 1 =>
    { a with
      id := a.id - k, va := a.va - BitVec.ofNat 64 (8 * k), pa := a.pa - 8 * k, width := 16, half := 0, data2 := 0
      data := if k = 0 then a.data + 2 ^ 64 * a.data2 else a.data2 + 2 ^ 64 * a.data
      dest := a.dest.map fun d => d - 2 * k }

/-- Accept numbers for the elements of an access. -/
def State.reserve (s : State) (a : Acc) : Acc × State := ({ a with id := s.nextId }, { s with nextId := s.nextId + a.count })

/-- The elements join the pending accesses. -/
def State.post (s : State) (a : Acc) : State := { s with pend := s.pend ++ a.elements }

/-- An access of a word, before its address is translated; its packets carry the launch's DETRED, those of a remote frame the caller's (R298). -/
def State.newAcc (s : State) (st : Strand) (kind : AccKind) (op : Nat) (w : Ins) (va : Addr) (width : Nat) : Acc :=
  { sid := st.sid, uid := st.uid, core := s.coreOf st, ctx := s.ctxOf st, seq := st.seq, pc := st.pc, kind := kind, op := op, ty := w.ty.toNat
    va := va, width := width, issued := s.now, relAcq := st.acqAt
    detred := match st.call.bind s.call? with
      | some c => c.detred
      | none => (s.la (s.it st.uid).launch).detred }

-- acceptance

/-- The alignment of an access (R226, R268): WAKE and tag accesses need none. -/
def Acc.align (a : Acc) : Nat :=
  match a.kind with
  | .tagLoad | .tagStore | .wake => 1
  | _ => if a.op = 0x74 ∨ a.op = 0x75 then 4 else a.width

/-- A PROT trap of an access, with the level of the entry that decided, 0 where none did (R314). -/
def protTrap (va : Addr) (wr : Bool) (reason : Nat) (level : Nat := 0) : Trap := ⟨5, 0, va, reasonWord 0 (fieldN va.toNat 56 4) wr false level reason⟩

/-- The outcome of the steps of R255 for an access. -/
inductive Accepted where
  | ok (a : Acc)
  /-- a fault that goes into the operand log, with the access as far as it has been translated -/
  | log (a : Acc) (t : Trap)
  /-- a precise trap -/
  | trap (t : Trap)
  /-- the operand log holds the strand at the word (R232) -/
  | held
  deriving DecidableEq, Repr

/-- Traps of step 7 that are refused at issue (R279): every PROT of a tag instruction, and a location that a host atomic or a .q access does not take. An atomic on I/O space is no host atomic: its PROT goes through the operand log. -/
def State.precise (s : State) (a : Acc) (t : Trap) : Bool :=
  t.cls == 5 && (a.isTag || t.frs.toNat % 256 == 9 && !(a.kind == .atomic && (s.vaToPa a.ctx a.va.toNat).any fun x => x.1 == 3))

/-- Translation and the tag check (steps 7 and 8). TAGST on a page without tags is refused (R268). -/
def State.locate (s : State) (a : Acc) : State × Accepted :=
  let st := s.st a.sid
  match s.translate (s.coreOf st) a.ctx a.va a.need with
  | (s, .bad t) => (s, if s.precise a t then .trap t else .log { a with known := false } t)
  | (s, .ok x) =>
    let s := s.walkAcquire a.sid x
    let b := { a with loc := x.loc, pa := x.pa, pol := x.pol, tg := x.tg, known := true, level := x.level, relAcq := (s.st a.sid).acqAt }
    let bad := if a.isTag then none
      else (List.range a.count).findSome? fun k =>
        s.tagCheck a.sid { x with pa := x.pa + a.unit * k } (a.va + BitVec.ofNat 64 (a.unit * k)) a.need.wr
    if a.kind = .tagStore ∧ !x.tg then (s, .trap (protTrap a.va true 9 x.level))
    else match bad with
      | some t => (s, .log b t)
      | none => (s, .ok b)

/-- Whether a strand's log keeps it from issuing an access (R232, R324): to an element of a logged access, after a logged acquire, or a release. What a handler found in the log does not hold the handler's words at issue: their accesses wait after it. -/
def State.heldByLog (s : State) (sid : Nat) (a : Acc) : Bool :=
  let st := s.st sid
  st.log.any fun e => !e.exempt && (e.acc.acq.isSome || a.rel.isSome || (a.writes && st.nextRel.isSome) || (if a.known then a.meets e.acc else a.meetsVa e.acc))

/-- Steps 5 to 8 of R255, and the limits of R232. -/
def State.accept (s : State) (a : Acc) : State × Accepted :=
  if fieldN a.va.toNat 60 4 ≠ 0 then (s, .trap (protTrap a.va a.need.wr 1))
  else if a.va.toNat % a.align ≠ 0 then (s, .trap ⟨3, 0, 0, 0⟩)
  else match s.locate a with
    | (s, .ok b) => (s, if s.heldByLog a.sid b then .held else .ok b)
    | (s, .log b t) => (s, if s.heldByLog a.sid b then .held else .log b t)
    | r => r

/-- Registers that await a result. -/
def State.await (s : State) (st : Strand) (regs : List Nat) : Option State := if regs.isEmpty then some s else s.prepDest st regs

/-- A FENCE.rel makes the strand's next write a release (R228). -/
def State.takeRel (s : State) (a : Acc) : Acc × State :=
  match (s.st a.sid).nextRel with
  | some sc => if a.writes then
      ({ a with rel := some ((a.rel.map fun x => widerScope x sc).getD sc) }, s.setSt a.sid fun st => { st with nextRel := none })
    else (a, s)
  | none => (a, s)

/-- The entries of a strand's log: at most four (R324). -/
def Strand.entries (st : Strand) : List LogEntry := st.log.filter fun e => !e.late

/-- Whether a strand's log holds its four entries (R324). -/
def Strand.logFull (st : Strand) : Bool := decide (st.entries.length ≥ 4)

/-- An entry joins its strand's operand log in program order, or waits until there is room for it (R324). -/
def State.relog (s : State) (e : LogEntry) : State :=
  s.setSt e.acc.sid fun st => { st with log := sortBy (fun e => e.acc.id) (st.log ++ [{ e with late := st.logFull }]) }

/-- Waiting faults enter a log that has room for some (R324). -/
def admitLate : Nat → List LogEntry → List LogEntry
  | _, [] => []
  | 0, es => es
  | n + 1, e :: es => if e.late then { e with late := false } :: admitLate n es else e :: admitLate (n + 1) es

/-- Entries have left a strand's log: faults that waited enter it (R324). -/
def Strand.admitted (st : Strand) : Strand := { st with log := admitLate (4 - st.entries.length) st.log }

/-- Put a fault into the operand log (R324). -/
def State.pushLog (s : State) (a : Acc) (t : Trap) : State := s.relog { acc := a, trap := t }

/-- Issue an access for one strand: it becomes pending, or its fault goes into the operand log, or it traps; a fifth fault holds the strand, and at an NMU every fault ships it (R81, R324). -/
def State.issueAcc (s : State) (st : Strand) (a : Acc) (regs : List Nat) : State × Flow :=
  match s.accept a with
  | (s, .trap t) => (s, .trap t)
  | (s, .held) => (s, .stay)
  | (s, .log a t) =>
    if st.isFrame then (s.ship st, .done)
    else if st.log.length ≥ 4 then (s, .stay)
    else match s.await st regs with
      | none => (s, .park .storage)
      | some s =>
        let (a, s) := s.reserve a
        let (a, s) := s.takeRel a
        (s.pushLog a t, .next)
  | (s, .ok a) =>
    match s.await st regs with
    | none => (s, .park .storage)
    | some s =>
      let (a, s) := s.reserve a
      let (a, s) := s.takeRel a
      (s.post a, .next)

/-- The registers an access with a destination fills. -/
def destRegs (d n : Nat) : List Nat := (List.range n).map (d + ·)

/-- The strands of a row that take part in a word. -/
def State.rowGo (s : State) (op : Nat) (w : Ins) (st : Strand) : List Nat :=
  s.bundle.filter fun sid => sameRow (s.st sid) st && decide (s.verdict op w (s.st sid) = .go)

/-- Whether the device makes one read for all lanes of a row (R259): every address operand uniform, no 16-byte access, the row covered. -/
def State.oneRead (s : State) (op : Nat) (w : Ins) (st : Strand) : Bool :=
  (Ins.srcOps op w).all (fun x => s.srcUniform st x.1 x.2) && s.covers st ((s.rowGo op w st).map fun sid => (s.st sid).lane)

/-- One strand's part of a read for a whole row: the first strand's access serves all of them, once there is storage for what it brings. -/
def State.shareRead (s : State) (st : Strand) (a : Acc) (row : List Nat) (regs : List Nat) : State × Flow :=
  if row.head? = some st.sid then
    match s.prepShared st (row.map s.st) regs with
    | none => (s, .park .storage)
    | some t =>
      let (a, t) := t.reserve a
      (t.post { a with group := row, bundle := s.bundle, gens := regs.filter fun r => ((s.rowOf st).reg r).generalTref }, .next)
  else if regs.all (s.isEmpty st) then (s, .next) else (s, .park .storage)

/-- Loads of a bundle (R258, R259): `mk` gives a strand's access, or how it goes on without one. -/
def State.eachLoad (s : State) (op : Nat) (w : Ins) (n : Nat) (one : Bool) (mk : State → Strand → State × Except Flow Acc) : State :=
  let s0 := s
  s.each op w fun s st =>
    match mk s st with
    | (s, .error f) => (s, f)
    | (s, .ok a) =>
      let regs := destRegs ((w.d.vregs 1).headD 0) n
      let a := { a with dest := some ((w.d.vregs 1).headD 0) }
      if one && s0.oneRead op w st then
        let row := s0.rowGo op w st
        let share := fun (s : State) (a : Acc) => if row.any fun sid => s.heldByLog sid a then (s, .stay) else s.shareRead st a row regs
        if a.loc = 4 then share s a
        else match s.accept a with
          | (s, .ok a) => share s a
          | _ => s.issueAcc st a regs
      else if a.loc = 4 then
        if s.heldByLog st.sid a then (s, .stay) else match s.await st regs with
        | none => (s, .park .storage)
        | some s =>
          let (a, s) := s.reserve a
          (s.post a, .next)
      else s.issueAcc st a regs

-- the scratchpad

/-- A strand whose scratchpad address lies outside the allocation is disabled (R260): it is counted in FAULTM, its pending accesses do not perform, and it counts as ended. -/
def State.disable (s : State) (sid : Nat) : State :=
  let st := s.st sid
  let s := s.setIt st.uid fun it => { it with
    faultLow := BitVec.ofNat 16 (min it.faultLow.toNat st.rank)
    faultN := if it.faultN = 0xFFFF then it.faultN else it.faultN + 1 }
  let pend := (s.pend.filter fun a => a.group.contains sid || a.sid != sid).map fun a => { a with group := a.group.filter fun x => x != sid }
  let s : State := { s with
    pend := (pend.filter fun a => !(a.group.isEmpty && a.sid == sid)).map fun a => { a with sid := a.group.headD a.sid }
    tileOps := s.tileOps.filter fun o => o.sid != sid || decide (o.busy > 0) }
  (s.setSt sid fun x => { x with disabled := true, log := [], faults := [] }).endStrand sid

/-- The checks of R260 on a scratchpad element: the peer rank and offset, or how the strand goes on. -/
def State.spad (s : State) (st : Strand) (ea : Word) (n : Nat) : State × Except Flow (Nat × Nat) :=
  let p := fieldN ea.toNat 28 4
  let o := fieldN ea.toNat 0 19
  let it := s.it st.uid
  if fieldN ea.toNat 19 9 ≠ 0 ∨ p ≥ it.ranks.length ∨ o ≥ it.kernel.scratch * 1024 then (s.disable st.sid, .error .done)
  else if o % n ≠ 0 then (s, .error (.trap ⟨3, 0, 0, 0⟩))
  else
    let x := s.slot st.uid p (o / 1024)
    if x.state = .empty ∧ x.cerr then (s, .error (.trap ⟨9, 0, 0, 0⟩))
    else if x.state ≠ .ready then (s, .error .stay)
    else (s, .ok (p, o))

/-- Whether a scratchpad element is poisoned (R341). -/
def State.spadPoison (s : State) (uid p o n : Nat) : Bool := (s.slot uid p (o / 1024)).poison.any fun i => decide (o % 1024 ≤ i ∧ i < o % 1024 + n)

/-- The scope of a scratchpad ordering: core on the strand's own rank (R260). -/
def spadScope (st : Strand) (p : Nat) (sc : Option Nat) : Option Nat := sc.map fun x => if p = st.prank then 0 else x

/-- A template-ref slot takes its copy fault before a write (R71): none when storage is short. -/
def State.ownSlot (s : State) (uid p x : Nat) : Option State :=
  if (s.slot uid p x).tref then s.grow uid p fun s => s.setSlot uid p x fun y => { y with tref := false } else some s

/-- The lock that covers an offset of a rank (R261). -/
def lockOf (p o : Nat) : Lock := ⟨p, fieldN o 2 5, fieldN o 7 4 ^^^ fieldN o 11 4 ^^^ fieldN o 15 4⟩

/-- Whether another strand of the item holds a lock. -/
def State.lockTaken (s : State) (st : Strand) (l : Lock) : Bool :=
  s.strands.any fun x => x.uid == st.uid && !x.isFrame && x.sid != st.sid && x.lock == some l

-- performing

/-- The registers an access fills. -/
def Acc.destAll (a : Acc) : List Nat :=
  match a.dest with
  | some d => (List.range (if a.isTag then 1 else (loadWords a.ty 0).length * a.count)).map (d + ·)
  | none => []

/-- A packet that fails parts from those merged into it: each then goes on by itself, with its own data (R241). -/
def State.unmerge (s : State) (a : Acc) : Acc × State :=
  if a.merged.isEmpty then (a, s)
  else ({ a with data := a.data2, data2 := 0, merged := [] }, { s with pend := s.pend.map fun b => if a.merged.contains b.id then { b with stage := 0 } else b })

/-- The other half of a 16-byte access, while it has not performed. -/
def State.sibling (s : State) (a : Acc) : Option Acc :=
  if a.half = 0 then none else s.pend.find? fun b => b.half != 0 && b.id != a.id && b.sid == a.sid && b.stage == 0 && b.whole.id == a.whole.id

/-- The TRET of an access that the log held back when the strand's handler was entered (log 105). -/
def Strand.heldTret (st : Strand) (id : Nat) : Option Nat :=
  if st.traph || st.phase ≠ .run then (st.behind.find? fun b => b.1 == id).map (·.2) else none

/-- A fault found while an access performs: it goes into the operand logs of its strands, or waits for room there (R324); one that was there, or that the log held back, before a handler was entered stays exempt (R324, R327; log 105). A 16-byte access makes one entry, with both halves (R336). `did`: it has performed all the same (R347). Of an item that a fault has ended nothing is logged any more (R323), and of a saved one nothing happens. At an NMU, where a frame has issued nothing after it, the frame ships, its registers full, at the instruction itself, which it re-executes (R81, R367). -/
def State.lateFault (s : State) (a : Acc) (t : Trap) (did : Bool := false) : State :=
  if a.owners.any fun sid => !(s.st sid).isFrame && (s.it (s.st sid).uid).status == .saved then s
  else
    let (a, s) := s.unmerge a
    let sib := s.sibling a
    let s := (s.dropAcc a.id).dropAcc ((sib.map (·.id)).getD a.id)
    let part := match a.half, sib with
      | 0, _ => none
      | _ + 1, some b => if did then some (b.half - 1) else none
      | k + 1, none => some k
    a.owners.foldl (fun s sid =>
      if (s.st sid).isFrame then
        let s := s.markFull (s.st sid) (a.whole.destAll)
        let s := s.setSt sid fun x => { x with pc := a.pc, seq := a.seq }
        s.ship (s.st sid)
      else if (s.it (s.st sid).uid).isEnding then s
      else
        let held := (s.st sid).heldTret a.id
        s.relog { acc := { a.whole with sid := sid, group := [] }, trap := t, exempt := a.again.isSome || held.isSome && (s.st sid).phase != .preempt
                  tret := a.again.or held, did := did && sib.isNone, part := part }) s

/-- Whether a rank of an item lies on a cluster that is down, so that requests to it are answered "cluster down" (R345). -/
def State.rankDown (s : State) (uid p : Nat) : Bool := (s.clusters.getD (clusterOf (s.rank uid p).core) {}).down

/-- Whether an access goes to the scratchpad of a rank on a cluster that is down. -/
def State.coreGone (s : State) (a : Acc) : Bool := a.loc == 4 && s.rankDown a.uid (a.pa / 2 ^ 19)

/-- Whether every byte of a load comes from stores that have not gone home. -/
def State.forwarded (s : State) (a : Acc) : Bool :=
  (List.range a.width).all fun i => s.pend.any fun b => b.kind == .store && b.loc == a.loc && decide (b.pa ≤ a.pa + i) && decide (a.pa + i < b.pa + b.width)
    && ((b.sid == a.sid && decide (b.id < a.id) && b.stage == 0) || b.atCore a.core)

/-- Results reach the registers of an access (R165, R259), and, of a log entry that runs again, the saved registers of a strand that is still to restore them (R326). -/
def State.answer (s : State) (a : Acc) (vals : List Word) (poisoned : Bool) : State :=
  match a.dest, a.owners.filterMap s.strand? with
  | some d, st :: rest =>
    let s := if a.group.isEmpty then s.fill st.sid d vals poisoned
      else s.writeV st d ((st :: rest).map fun x => (x, vals)) (fun j => if a.gens.contains (d + j) then none else some (.uniform (vals.getD j 0))) vals.length
    let s := if poisoned && !a.group.isEmpty then s.setRow st fun row => (destRegs d vals.length).foldl (fun row i =>
        row.setReg i { (row.reg i) with poison := (row.reg i).poison ||| BitVec.ofNat 32 (maskOf 32 fun L => (st :: rest).any fun x => x.lane == L) }) row
      else s
    (st :: rest).foldl (fun s x => if x.isFrame || a.again.isNone || (s.it x.uid).saved.isEmpty then s else s.fillSaved x d vals) s
  | _, _ => s

/-- Whether an operation writes an accumulator, and whether it reads it as its source (R199). -/
def MatOp.usesAcc (o : MatOp) (acc : Nat) : Bool :=
  let r := Raw.ofCode o.word
  match r.op.toNat with
  | 0x70 | 0x71 | 0x72 => r.d.toNat % 256 == acc
  | 0x78 => r.a.toNat % 256 == acc
  | _ => false

/-- ALD or ACLR of an accumulator that an operation in flight uses spoils the operation (R199). -/
def State.spoilAcc (s : State) (uid p acc : Nat) : State :=
  s.setRank uid p fun r => { r with ops := r.ops.map fun o => if o.usesAcc acc then { o with spoilt := true } else o }

/-- A load returns (R231, R259). The core's L1 takes the line it read from the home, or keeps no copy older than the early read that answers it (R230, R238). -/
def State.finishLoad (s : State) (a : Acc) : State :=
  let uid := (s.st a.sid).uid
  let v := if a.loc = 3 then (Config.foreignData s.tick).toNat % 2 ^ (8 * a.width)
    else if a.isTag then (if a.tg then s.tagAt a.pa else 0) else s.loadNum a
  let bad := a.loc = 4 && s.spadPoison a.uid (a.pa / 2 ^ 19) (a.pa % 2 ^ 19) a.width
  let s : State := if a.loc = 3 then { s with ioLog := s.ioLog ++ [⟨a.pa / 2 ^ 47, a.pa % 2 ^ 47, a.width, none⟩] } else s
  let e := s.earlyFor a
  let at_ := (e.map (·.stamp)).getD s.tick
  let acq := (e.map (·.acq)).getD (s.passedOn a.core a.uid a.loc a.pa a.width (s.takesCopy a))
  let rels := (e.map (·.rels)).getD (s.relsOf a.core a.uid a.loc a.pa a.width (s.takesCopy a))
  let copy := s.takesCopy a
  let s := (s.acquireBy a at_ acq rels).markSeen a at_
  let s := if a.loc ≥ 3 || a.homeOnly || e.isNone && copy then s
    else if e.isSome then s.dropOlder a.core a.loc (a.pa / 128) at_ else s.l1Fill a
  let s := ((s.dropAcc a.id).noteRead a at_ acq rels).dropEarly a.owners a.loc a.pa a.width
  let s := match a.kind with
    | .accLoad acc e int => (s.setAccum uid (s.st a.sid).prank acc fun x =>
        { x with data := x.data.put (4 * e) 4 v, int := int, poison := x.poison.filter fun i => i != e }).spoilAcc uid (s.st a.sid).prank acc
    | _ => s.answer a (if a.isTag then [BitVec.ofNat 32 v] else loadWords a.ty v) bad
  s.settled uid

/-- Whether a read of memory finds poison, in the core's copy or at the home (R313, R341). -/
def State.readsPoison (s : State) (a : Acc) : Bool :=
  !(s.forwarded a) && (s.earlyFor a).isNone && if s.takesCopy a then
      s.l1.any fun l => l.core == a.core && l.loc == a.loc && l.line == a.pa / 128 && l.poison.any fun i => decide (a.pa % 128 ≤ i ∧ i < a.pa % 128 + a.width)
    else s.poisonedIn a.loc a.pa a.width

/-- POISON of an access to memory (R341): code 5 of device memory, 6 of peer or host memory. -/
def poisonTrap (a : Acc) : Trap := memPoison a.loc

/-- Whether a read may perform: a WAITA reads at the home, so the strand's own earlier accesses to the element, and its core's stores, are there first (R266, R228); ALDs of one accumulator keep their order (R206). A load answered "cluster down" is sent again when the cluster returns (R345). -/
def State.mayRead (s : State) (a : Acc) : Bool :=
  s.mayLoad a && !(s.coreGone a) && (s.earlier a).all (fun b => !(b.sameAld a)) && (s.earlierLog a).all (fun e => !(e.acc.sameAld a)) && (a.kind != .waita || s.coreClear a && (s.earlier a).all fun b => !(b.overlaps a))

/-- Whether an access goes to a peer that is down (R346). -/
def State.peerGone (s : State) (a : Acc) : Bool := a.loc == 1 && s.peerDown (a.pa / 2 ^ 48)

/-- Whether the port of an access to host or I/O space answers it with an error (R308). -/
def State.portRefuses (s : State) (a : Acc) : Bool :=
  let p := s.ports.getD (a.pa / 2 ^ 47) {}
  a.loc == 2 && p.root || a.loc == 3 && !p.up

/-- The trap of an access that its completer refuses (R308, R314). -/
def refusedTrap (a : Acc) : Trap := protTrap a.va a.need.wr 11 a.level

/-- RPEER of an access (R345, R346, R348): code 1 where a peer, 2 where a cluster is down. -/
def peerTrap (a : Acc) (code : Nat := 1) : Trap := ⟨0x0B, code, a.va, reasonWord 0 (fieldN a.va.toNat 56 4) a.need.wr false a.level 11⟩

/-- LOAD_COMPLETE (R259): a load fixes its value and returns, or an atomic's old value arrives. -/
def State.completeLoad (s : State) (a : Acc) : State :=
  match a.kind with
  | .atomic =>
    if a.stage ≠ 2 then s
    else
      let uid := (s.st a.sid).uid
      ((s.dropAcc a.id).answer a (loadWords a.ty a.old) false).settled uid
  | .store | .tagStore | .waita | .wake => s
  | _ =>
    if a.stage ≠ 0 || !(s.mayRead a) then s
    else if s.peerGone a then s.lateFault a (peerTrap a)
    else if s.portRefuses a then s.lateFault a (refusedTrap a)
    else if s.readsPoison a then s.lateFault a (poisonTrap a)
    else s.finishLoad a

/-- STORE_PERFORM (R369): a store reaches its core's L1, or its home; a peer or a cluster that is down answers with an error (R345, R346). -/
def State.performStore (s : State) (a : Acc) : State :=
  if !(a.kind == .store || a.kind == .tagStore) then s
  else if a.stage = 0 ∧ !a.homeOnly then
    (if s.mayReachCore a then s.toCore a else s)
  else if s.mayReachHome a then
    if s.peerGone a then s.lateFault a (peerTrap a)
    else if s.portRefuses a then s.lateFault a (refusedTrap a)
    else if s.coreGone a then s.lateFault a (peerTrap a 2)
    else
    let uid := (s.st a.sid).uid
    (s.toHome a).settled uid
  else s

/-- Whether two packets may merge (R241, R298, R301): additions of one context, without a destination, to one element of device or peer memory, no FP32 merge under DETRED. -/
def mergeable (a b : Acc) : Bool :=
  a.id != b.id && a.kind == .atomic && b.kind == .atomic && a.op == b.op && (a.op == 0x97 || a.op == 0x9F) && a.ty == b.ty && a.loc == b.loc && a.loc < 2
    && a.ctx == b.ctx && a.pa == b.pa && a.dest.isNone && b.dest.isNone && a.stage == 0 && b.stage == 0 && (a.op == 0x97 || !(a.detred || b.detred))

/-- The sum of two merged packets. -/
def mergedData (a b : Acc) : Nat := if a.op = 0x9F then add32 a.data b.data else (a.data + b.data) % 2 ^ (8 * a.width)

/-- The operand a packet came with: `data2` keeps it once others are merged in. -/
def Acc.ownData (a : Acc) : Nat := if a.merged.isEmpty then a.data else a.data2

/-- A router merges packet b into packet a; b waits as performed with it. -/
def State.mergeAtomics (s : State) (a b : Acc) : State :=
  { s with pend := s.pend.map fun x =>
      if x.id = a.id then { a with data := mergedData a b, data2 := a.ownData, merged := b.id :: (b.merged ++ a.merged) }
      else if x.id = b.id then { b with stage := 1, data := b.ownData, data2 := 0, merged := [] } else x }

/-- ATOMIC_EXECUTE (R240, R262, R264): poisoned data, or a completer that refuses, goes into the operand log. -/
def State.executeAtomic (s : State) (a : Acc) : State :=
  if !(s.mayExecute a) then s
  else if s.peerGone a then s.lateFault a (peerTrap a)
  else if s.poisonedIn a.loc a.pa a.width then s.lateFault a (poisonTrap a)
  else if s.portRefuses a || a.loc = 2 && !(Config.accepts s.tick) then s.lateFault a (refusedTrap a)
  else
    let uid := (s.st a.sid).uid
    ((s.execAtomic a a.data).dropMerged a).settled uid

-- WAITA and the operand log

/-- Strands parked in a cluster's watch table (R266). -/
def State.watching (s : State) (cluster : Nat) : Nat :=
  (s.strands.filter fun st => s.clusterFor st == cluster && match st.park with
    | .waita _ _ _ _ => true
    | _ => false).length

/-- WAITA reads its element at the home and parks when it equals B (R266): none when it goes on. The core keeps no older copy of the line (R230). -/
def State.watch (s : State) (a : Acc) (entry : Bool) : State × Option Park :=
  let v := if a.loc = 3 then (Config.foreignData s.tick).toNat % 2 ^ (8 * a.width) else s.homeNum a.loc a.pa a.width
  let s : State := if a.loc = 3 then { s with ioLog := s.ioLog ++ [⟨a.pa / 2 ^ 47, a.pa % 2 ^ 47, a.width, none⟩] } else s
  let s := s.noteRead a s.tick (s.passedOn a.core a.uid a.loc a.pa a.width) (s.relsOf a.core a.uid a.loc a.pa a.width)
  let s := if a.loc = 3 then s else s.l1Drop a.core a.loc (a.pa / 128)
  if v ≠ a.data % 2 ^ (8 * a.width) ∨ a.loc ≠ 0 ∨ s.watching (s.clusterFor (s.st a.sid)) ≥ Config.watchEntries then (s, none)
  else (s, some (.waita (a.pa / 128) (if a.timeout = 0 then none else some (s.nstime + a.timeout)) false entry))

/-- WAKE reaches the home of its line (R267). -/
def State.wakeLine (s : State) (a : Acc) : State :=
  if a.loc ≠ 0 then s
  else { s with strands := s.strands.map fun st => match st.park with
    | .waita line t _ e => if line = a.pa / 128 then { st with park := .waita line t true e } else st
    | _ => st }

/-- A parked WAITA returns: the core's copy of the line is dropped (R266). -/
def State.waitaReturn (s : State) (sid : Nat) : State :=
  match (s.st sid).park with
  | .waita line _ _ _ => ((s.l1Drop (s.coreOf (s.st sid)) 0 line).setPark sid .none)
  | _ => s

def State.dropEntry (s : State) (sid id : Nat) : State := s.setSt sid fun st => { st with log := st.log.filter fun e => e.acc.id != id }

def State.setEntryTrap (s : State) (sid id : Nat) (t : Trap) : State :=
  s.setSt sid fun st => { st with log := st.log.map fun e => if e.acc.id = id then { e with trap := t } else e }

/-- The access of a log entry, or the half of it that has still to perform, is pending again. -/
def State.repost (s : State) (e : LogEntry) : State :=
  let a := { e.acc with core := s.coreOf (s.st e.acc.sid), issued := s.now, stage := 0, again := if e.exempt then some (e.tret.getD 0) else none }
  match e.part with
  | none => s.post a
  | some k => { s with pend := s.pend ++ [a.elem k] }

/-- Re-execute a log entry from its logged address and data (R324, R327): the fault it meets again, if any. A WAITA entry runs again in full (R266). -/
def State.reexecute (s : State) (sid : Nat) (e : LogEntry) : State × Option Trap :=
  if e.did then
    let s := s.dropEntry sid e.acc.id
    (if e.acc.dest.isSome then { s with pend := s.pend ++ [{ e.acc with stage := 2 }] } else s, none)
  else if e.acc.loc = 4 then
    if s.coreGone e.acc then (s, some e.trap) else ((s.dropEntry sid e.acc.id).repost e, none)
  else match s.locate e.acc with
  | (s, .log _ t) | (s, .trap t) => (s.setEntryTrap sid e.acc.id t, some t)
  | (s, .held) => (s, none)
  | (s, .ok a) =>
    match a.kind with
    | .wake => ((s.dropEntry sid a.id).wakeLine a, none)
    | .waita =>
      if !(s.mayRead a) || (s.st sid).park != .none then (s, none)
      else if s.poisonedIn a.loc a.pa a.width then (s.setEntryTrap sid a.id (poisonTrap a), some (poisonTrap a))
      else
        let (s, p) := s.watch a true
        let s := s.dropEntry sid a.id
        match p with
        | some p => (s.setPark sid p, none)
        | none => (s, none)
    | _ =>
      if a.need.rd && s.poisonedIn a.loc a.pa a.width then (s.setEntryTrap sid a.id (poisonTrap a), some (poisonTrap a))
      else ((s.dropEntry sid a.id).repost { e with acc := a }, none)

end Machine

end Sys2Proof
end

