-- ==== Sys2Proof/Machine/LoadStore.lean ====
section
/-! DEFINITION. Loads and stores, the scratchpad and its locks, atomics, fences, parking on a line, tags (11 R256..R268), and the events by which accesses perform (10 R228, R240, R369). -/

namespace Sys2Proof.Machine

-- LD and ST (R258)

/-- Whether an LD or ST is a 16-byte access (R256). -/
def Ins.isQuad (w : Ins) : Bool := w.fn == 1

def Ins.bytes (w : Ins) : Nat := if Ins.isQuad w then 16 else tyBytes w.ty.toNat

def Ins.loadRegs (w : Ins) : Nat := if Ins.isQuad w then 4 else if wideTy w.ty.toNat then 2 else 1

/-- LD (R258, R259). -/
def execLd (w : Ins) (s : State) : Host.Outcome State Fault Refusal :=
  .next (s.eachLoad 0x90 w (Ins.loadRegs w) (!(Ins.isQuad w)) fun s st =>
    (s, .ok { (s.newAcc st .load 0x90 w (s.ea st 0x90 w) (Ins.bytes w)) with acq := acqOf w.fn.toNat }))

/-- The data of a store (R258). An immediate of ST.q gives its 64-bit extension to both halves of the 16 bytes: the model's choice (log 86). -/
def State.storeData (s : State) (st : Strand) (w : Ins) : Nat :=
  if Ins.isQuad w then (s.src64 st w w.d).toNat + 2 ^ 64 * (s.src64 st w (w.d.plus 2)).toNat
  else s.srcTy st w w.ty.toNat w.d % 2 ^ (8 * tyBytes w.ty.toNat)

/-- ST (R258). -/
def execSt (w : Ins) (s : State) : Host.Outcome State Fault Refusal :=
  .next (s.each 0x91 w fun s st =>
    s.issueAcc st { (s.newAcc st .store 0x91 w (s.ea st 0x91 w) (Ins.bytes w)) with data := s.storeData st w, rel := relOf w.fn.toNat } [])

-- the scratchpad (R260)

/-- An access to an element of the scratchpad. -/
def State.spadAcc (s : State) (st : Strand) (kind : AccKind) (op : Nat) (w : Ins) (p o : Nat) : Acc :=
  { (s.newAcc st kind op w (s.sea st op w).toNat (tyBytes w.ty.toNat)) with loc := 4, pa := p * 2 ^ 19 + o, known := true }

/-- The access of an LDS or LDLK, or how the strand goes on without one. -/
def State.spadLoad (s : State) (st : Strand) (op : Nat) (w : Ins) (acq : Option Nat) : State × Except Flow Acc :=
  match s.spad st (s.sea st op w) (tyBytes w.ty.toNat) with
  | (s, .error f) => (s, .error f)
  | (s, .ok (p, o)) =>
    if s.spadPoison st.uid p o (tyBytes w.ty.toNat) then (s, .error (.trap ⟨0x0C, 3, 0, 0⟩))
    else (s, .ok { (s.spadAcc st .load op w p o) with acq := spadScope st p acq })

/-- LDS (R260). -/
def execLds (w : Ins) (s : State) : Host.Outcome State Fault Refusal :=
  .next (s.eachLoad 0x92 w (Ins.loadRegs { w with fn := 0 }) true fun s st => s.spadLoad st 0x92 w (acqOf w.fn.toNat))

/-- STS (R260). -/
def execSts (w : Ins) (s : State) : Host.Outcome State Fault Refusal :=
  .next (s.each 0x93 w fun s st =>
    match s.spad st (s.sea st 0x93 w) (tyBytes w.ty.toNat) with
    | (s, .error f) => (s, f)
    | (s, .ok (p, o)) =>
      match s.ownSlot st.uid p (o / 1024) with
      | none => (s, .park .storage)
      | some s =>
        let (a, s) := s.reserve { (s.spadAcc st .store 0x93 w p o) with data := s.storeData st { w with fn := 0 }, rel := spadScope st p (relOf w.fn.toNat) }
        let (a, s) := s.takeRel a
        (s.post a, .next))

/-- Whether another strand that stands ready at an LDLK of the same free lock is served ahead of one by the bundler of their core (R75, R261). -/
def State.lockRival (s : State) (st : Strand) (l : Lock) : Bool :=
  s.strands.any fun y => ahead y.turn st.turn && y.sid != st.sid && y.uid == st.uid && !y.isFrame && s.coreOf y == s.coreOf st && s.canIssue y
    && match (s.fetchUnit y).2 with
      | .error _ => false
      | .ok bs => match (decodeWith (s.limitsOf y) bs).bind fun x => x.1.word? with
        | some (op, w) => op.toNat == 0x94 && decide (s.verdict 0x94 w y = .go) && (y.lock.isNone || y.lock == some l)
            && match (s.spad y (s.sea y 0x94 w) (tyBytes w.ty.toNat)).2 with
              | .ok (p, o) => lockOf p o == l
              | .error _ => false
        | none => false

/-- LDLK (R261): after the address checks of R260, another lock held traps SLOT 5; a lock that another strand holds makes the strand wait, as does a free one that the bundler gives to another first; then the lock is held and the element loaded as by LDS. A strand that parks for storage takes no lock. -/
def execLdlk (w : Ins) (s : State) : Host.Outcome State Fault Refusal :=
  .next (s.each 0x94 w fun s st =>
    let d := (w.d.vregs 1).headD 0
    match s.spad st (s.sea st 0x94 w) (tyBytes w.ty.toNat) with
    | (s, .error f) => (s, f)
    | (s, .ok (p, o)) =>
      let l := lockOf p o
      if st.lock.isSome && st.lock != some l then (s, .trap ⟨7, 5, 0, 0⟩)
      else if s.lockTaken st l || s.rankDown st.uid p || (st.lock.isNone && s.lockRival st l) then (s, .stay)
      else if s.spadPoison st.uid p o (tyBytes w.ty.toNat) then (s, .trap ⟨0x0C, 3, 0, 0⟩)
      else match s.await st (destRegs d (Ins.loadRegs w)) with
        | none => (s, .park .storage)
        | some s =>
          let (a, s) := s.reserve { (s.spadAcc st .load 0x94 w p o) with acq := spadScope st p (some 1), dest := some d }
          (((s.post a).setSt st.sid fun x => { x with lock := some l }).acquireCore st.sid ((((s.it st.uid).lockAcqs.find? fun k => k.1 == l).map fun k => k.2).getD 0), .next))

/-- A strand frees a lock, and passes on what it has acquired to who takes it next (R229, R236, R261). -/
def State.freeLock (s : State) (st : Strand) (l : Lock) : State :=
  (s.setIt st.uid fun it => { it with lockAcqs := (l, st.acqAt) :: it.lockAcqs.filter fun k => k.1 != l }).setSt st.sid fun x => { x with lock := none }

/-- The scope at which a lock instruction orders (R261): core on the strand's own rank, device on another. -/
def lockScope (st : Strand) (p : Nat) : Nat := if p = st.prank then 0 else 1

/-- The scope at which a STUL releases: the lock's, or that of a FENCE.rel before it if that is wider (R228, R265). -/
def stulScope (st : Strand) (p : Nat) : Nat := (st.nextRel.map fun x => widerScope x (lockScope st p)).getD (lockScope st p)

/-- STUL (R261): the strand's earlier accesses have performed, at the scope of a pending FENCE.rel if that is wider (R228, R265), then its store, which is a release, then the lock is free. On a cluster that is down the store goes into the operand log (R345). -/
def execStul (w : Ins) (s : State) : Host.Outcome State Fault Refusal :=
  .next (s.each 0x95 w fun s st =>
    let n := tyBytes w.ty.toNat
    match s.spad st (s.sea st 0x95 w) n with
    | (s, .error f) => (s, f)
    | (s, .ok (p, o)) =>
      if st.lock != some (lockOf p o) then (s, .trap ⟨7, 6, 0, 0⟩)
      else if !s.released st.sid (stulScope st p) then (s, .stay)
      else if s.rankDown st.uid p then
        if st.log.length ≥ 4 then (s, .stay)
        else
          let (a, s) := s.reserve { (s.spadAcc st .store 0x95 w p o) with data := s.storeData st { w with fn := 0 } }
          (((s.pushLog a (peerTrap a 2)).freeLock st (lockOf p o)).setSt st.sid fun x => { x with nextRel := none }, .next)
      else match s.ownSlot st.uid p (o / 1024) with
        | none => (s, .park .storage)
        | some s =>
          let (a, s) := s.reserve { (s.spadAcc st .store 0x95 w p o) with rel := some (stulScope st p) }
          let s := s.writeHome st.uid 4 (p * 2 ^ 19 + o) (leBytes n (s.storeData st { w with fn := 0 }))
          (((s.wroteAtOnce a).freeLock st (lockOf p o)).setSt st.sid fun x => { x with nextRel := none }, .next))

/-- UNLK (R261). DEDUCED (log 116): it names no element, so no address of it is misaligned. -/
def execUnlk (w : Ins) (s : State) : Host.Outcome State Fault Refusal :=
  .next (s.each 0x96 w fun s st =>
    match s.spad st (s.sea st 0x96 w) 1 with
    | (s, .error f) => (s, f)
    | (s, .ok (p, o)) =>
      if st.lock != some (lockOf p o) then (s, .trap ⟨7, 6, 0, 0⟩)
      else if !s.released st.sid (lockScope st p) then (s, .stay)
      else (s.freeLock st (lockOf p o), .next))

-- atomics (R262..R264)

/-- Whether a word names a destination: 0x000 is none where D is optional. -/
def Ins.hasDest (op : Nat) (w : Ins) : Bool := !((Ins.form op w).d.opt && w.d == .v 0)

/-- An atomic of one word: the old value goes to D when D is named, else the strand goes on at once (R262). -/
def State.atomicWord (s : State) (op : Nat) (w : Ins) : State :=
  s.each op w fun s st =>
    let n := if wideTy w.ty.toNat then 8 else 4
    let d := (w.d.vregs 1).headD 0
    let named := Ins.hasDest op w
    let c := if op = 0x9E then s.srcTy st w w.ty.toNat w.third else 0
    s.issueAcc st { (s.newAcc st .atomic op w (s.ea st op w) n) with
        data := s.srcTy st w w.ty.toNat w.b % 2 ^ (8 * n), data2 := c % 2 ^ (8 * n)
        acq := acqOf w.fn.toNat, rel := relOf w.fn.toNat, dest := if named then some d else none }
      (if named then destRegs d (if n = 8 then 2 else 1) else [])

/-- AADD (R263). -/
def execAadd (w : Ins) (s : State) : Host.Outcome State Fault Refusal := .next (s.atomicWord 0x97 w)
/-- AMIN (R263). -/
def execAmin (w : Ins) (s : State) : Host.Outcome State Fault Refusal := .next (s.atomicWord 0x98 w)
/-- AMAX (R263). -/
def execAmax (w : Ins) (s : State) : Host.Outcome State Fault Refusal := .next (s.atomicWord 0x99 w)
/-- AAND (R263). -/
def execAand (w : Ins) (s : State) : Host.Outcome State Fault Refusal := .next (s.atomicWord 0x9A w)
/-- AOR (R263). -/
def execAor (w : Ins) (s : State) : Host.Outcome State Fault Refusal := .next (s.atomicWord 0x9B w)
/-- AXOR (R263). -/
def execAxor (w : Ins) (s : State) : Host.Outcome State Fault Refusal := .next (s.atomicWord 0x9C w)
/-- AXCH (R263). -/
def execAxch (w : Ins) (s : State) : Host.Outcome State Fault Refusal := .next (s.atomicWord 0x9D w)
/-- ACAS (R263). -/
def execAcas (w : Ins) (s : State) : Host.Outcome State Fault Refusal := .next (s.atomicWord 0x9E w)
/-- AFADD (R263). -/
def execAfadd (w : Ins) (s : State) : Host.Outcome State Fault Refusal := .next (s.atomicWord 0x9F w)

-- performing

/-- An event on a pending access. -/
def State.onAcc (s : State) (id : Nat) (f : State → Acc → State) : State :=
  match s.pend.find? fun a => a.id == id with
  | some a => f s a
  | none => s

/-- ATOMIC_EXECUTE (R240, R241): the atomic executes at its home, or a router merges another reduction packet into it. -/
def execAtomicExecute (id : Nat) (merge : Option Nat) (s : State) : Host.Outcome State Fault Refusal :=
  .next (s.onAcc id fun s a =>
    match merge with
    | none => s.executeAtomic a
    | some j => s.onAcc j fun s b => if mergeable a b && s.mayExecute a && s.mayExecute b then s.mergeAtomics a b else s)

/-- LOAD_COMPLETE (R228, R259): a read fixes its value and its result arrives. -/
def execLoadComplete (id : Nat) (s : State) : Host.Outcome State Fault Refusal := .next (s.onAcc id State.completeLoad)

/-- STORE_PERFORM (R228, R237, R369): a store performs at core scope, then at its home. -/
def execStorePerform (id : Nat) (s : State) : Host.Outcome State Fault Refusal := .next (s.onAcc id State.performStore)

-- FENCE (R265)

/-- The scope a fence names; in a remote frame core scope is device scope (R248). -/
def fenceScope (st : Strand) (w : Ins) : Nat := if st.isFrame && w.fn.toNat % 4 == 0 then 1 else w.fn.toNat % 4

/-- What .rp does for a strand's previous read (R239). -/
def State.promoteLast (s : State) (st : Strand) : State :=
  match st.lastLine with
  | some l => s.promote l.1 l.2 st.lastRels
  | none => s

/-- FENCE.acq on the strand's previous read, which has returned: later reads are no older than it (R228, R238, R239). A read of I/O space acts as an acquire at system scope only (R249). -/
def State.acquirePrev (s : State) (sid scope : Nat) : State :=
  let st := s.st sid
  if st.lastIo && scope != 2 then s
  else if scope = 3 then (s.promoteLast st).acquireAt sid 1 st.lastRead 0
  else s.acquireAt sid scope st.lastRead st.lastAcq

/-- FENCE.acq (R228, R232, R265): waits for the previous read and for the operand log, then that read acts as an acquire. Below system scope it does not wait for reads of I/O space (R249). -/
def execFenceAcq (w : Ins) (s : State) : Host.Outcome State Fault Refusal :=
  .next (s.each 0xA0 w fun s st =>
    if !st.log.isEmpty || s.pend.any (fun a => a.owns st.sid && a.reads && a.stage < 2 && decide (a.id > st.lastId) && (a.loc != 3 || fenceScope st w == 2))
        || s.tileOps.any (fun o => o.sid == st.sid && (o.op == 0x87 || o.op == 0x88) && decide (o.id > st.lastId)) then (s, .stay)
    else (s.acquirePrev st.sid (fenceScope st w), .next))

/-- FENCE.rel (R228, R232, R265): the strand's next write acts as a release. -/
def execFenceRel (w : Ins) (s : State) : Host.Outcome State Fault Refusal :=
  .next (s.each 0xA0 w fun s st =>
    if !st.log.isEmpty then (s, .stay)
    else
      let sc := fenceScope st w
      (s.setSt st.sid fun x => { x with nextRel := some ((x.nextRel.map fun y => widerScope y sc).getD sc) }, .next))

/-- FENCE.ar's acquire (R228, R239): what follows is no older than now, or at core scope than what the previous read acquires; .rp as for that read's line. -/
def State.acquireAll (s : State) (sid scope : Nat) : State :=
  let st := s.st sid
  if scope = 3 then (s.promoteLast st).acquire sid 1 else s.acquireAt sid scope s.tick st.lastAcq

/-- FENCE.ar (R228, R265): waits until everything earlier has performed at the scope, then acquires. -/
def execFenceAr (w : Ins) (s : State) : Host.Outcome State Fault Refusal :=
  .next (s.each 0xA0 w fun s st =>
    let sc := fenceScope st w
    if !s.released st.sid sc then (s, .stay)
    else (s.acquireAll st.sid sc, .next))

-- WAITA and WAKE (R266, R267)

/-- WAITA (R266). -/
def execWaita (w : Ins) (s : State) : Host.Outcome State Fault Refusal :=
  .next (s.each 0xA1 w fun s st =>
    let n := tyBytes w.ty.toNat
    let a := { (s.newAcc st .waita 0xA1 w (s.ea st 0xA1 w) n) with
      data := s.srcTy st w w.ty.toNat w.b % 2 ^ (8 * n), timeout := (s.src st w w.d).toNat }
    match s.accept a with
    | (s, .trap t) => (s, .trap t)
    | (s, .held) => (s, .stay)
    | (_, .log _ _) => s.issueAcc st a []
    | (s, .ok a) =>
      let (a, s1) := s.reserve a
      if !(s1.mayRead a) then (s, .stay)
      else if s.poisonedIn a.loc a.pa a.width then
        if st.isFrame then (s.ship st, .done)
        else if st.log.length ≥ 4 then (s, .stay)
        else (s1.pushLog a (poisonTrap a), .next)
      else match s1.watch a false with
        | (s, some p) => (s, .parkNext p)
        | (s, none) => (s, .next))

/-- WATCH_WAKE (R266): a watcher whose line has been written or woken returns. -/
def execWatchWake (sid : Nat) (s : State) : Host.Outcome State Fault Refusal :=
  .next (match (s.st sid).park with
    | .waita _ _ true _ => s.waitaReturn sid
    | _ => s)

/-- WAITA_TIMEOUT (R266). -/
def execWaitaTimeout (sid : Nat) (s : State) : Host.Outcome State Fault Refusal :=
  .next (match (s.st sid).park with
    | .waita _ (some t) _ _ => if s.nstime ≥ t then s.waitaReturn sid else s
    | _ => s)

/-- WAITA_SPURIOUS (R266): a WAITA may return at any time. -/
def execWaitaSpurious (sid : Nat) (s : State) : Host.Outcome State Fault Refusal := .next (s.waitaReturn sid)

/-- WAKE (R267). -/
def execWake (w : Ins) (s : State) : Host.Outcome State Fault Refusal :=
  .next (s.each 0xA2 w fun s st =>
    let a := s.newAcc st .wake 0xA2 w (s.ea st 0xA2 w) 1
    match s.accept a with
    | (s, .ok a) => (s.wakeLine a, .next)
    | _ => s.issueAcc st a [])

-- tags (R268)

/-- TAGLD (R268). -/
def execTagld (w : Ins) (s : State) : Host.Outcome State Fault Refusal :=
  .next (s.eachLoad 0xA3 w 1 false fun s st => (s, .ok (s.newAcc st .tagLoad 0xA3 w (s.ea st 0xA3 w) 1)))

/-- TAGST (R268). -/
def execTagst (w : Ins) (s : State) : Host.Outcome State Fault Refusal :=
  .next (s.each 0xA4 w fun s st =>
    s.issueAcc st { (s.newAcc st .tagStore 0xA4 w (s.ea st 0xA4 w) 1) with data := (s.src st w w.d).toNat % 16 } [])

end Sys2Proof.Machine
end

