-- ==== Sys2Proof/Machine/Matrix.lean ====
section
/-! DEFINITION. The matrix group (09 R197..R213; 06 R118, R119, R133..R139): signing operations and how they finish, accumulator access, sidecars, the matrix status. -/

namespace Sys2Proof.Machine

-- the words' fields (R200)

/-- The fields of the MMA family, of QNT, BPK and BUNP. -/
structure MatWord where
  op : Nat
  fn : Nat
  ty : Nat
  d : Nat
  a : Nat
  b : Nat
  n : Nat
  k : Nat
  creg : Nat
  zp : Nat
  idx : Nat
  deriving DecidableEq, Repr

def MatWord.of (r : Raw) : MatWord where
  op := r.op.toNat
  fn := r.fn.toNat
  ty := r.ty.toNat
  d := if r.op.toNat < 0x78 then r.d.toNat % 256 else slotNum r.d.toNat
  a := if r.op.toNat = 0x78 then r.a.toNat % 256 else slotNum r.a.toNat
  b := slotNum r.b.toNat
  n := r.imm.toNat % 64 + 1
  k := fieldN r.imm.toNat 10 3 + 1
  creg := fieldN r.imm.toNat 6 4
  zp := if bitN r.imm.toNat 21 then fieldN r.imm.toNat 13 8 else 0
  idx := fieldN r.imm.toNat 23 9

/-- Slots of a tile position (R202). -/
def MatWord.per (m : MatWord) : Nat := mmaSlotsPer m.ty

/-- Whether a word of the MMA family runs on the integer path, and whether it accumulates in I32 (R133). -/
def MatWord.intPath (m : MatWord) : Bool := 6 ≤ m.ty
def MatWord.intAcc (m : MatWord) : Bool := m.intPath && m.fn == 0

def MatWord.isMma (m : MatWord) : Bool := m.op == 0x70 || m.op == 0x71 || m.op == 0x72

/-- The slots a signing word names, with the format each requires: none for the index slot (R200, R201, R204). DEDUCED (log 77): of an MMAG's pool the slot A, which its word names, must be READY; its tag, like that of every pool slot, is left to the pool check. -/
def MatWord.named (m : MatWord) : List (Nat × Option Nat) :=
  let ext := fun (x f : Nat) => (List.range (m.per * m.n)).map fun i => (x + i, some f)
  match m.op with
  | 0x70 | 0x71 => ext m.a (mmaFmts m.ty).1 ++ ext m.b (mmaFmts m.ty).2
  | 0x72 => (m.idx, none) :: (m.a, none) :: ext m.b (mmaFmts m.ty).2
  | 0x78 => [(m.d, some m.ty)]
  | 0x79 => [(m.a, some 6), (m.d, some 14)]
  | _ => [(m.a, some 14), (m.d, some 6)]

/-- The BNI slots whose planes must reach k (R201). DEDUCED (log 77): of an MMAG's pool none is checked so; their plane bytes are read as they stand. -/
def MatWord.bni (m : MatWord) : List Nat :=
  if m.op = 0x7A then [m.a]
  else if (m.op = 0x70 ∨ m.op = 0x71) ∧ (m.ty = 6 ∨ m.ty = 7) then (List.range m.n).map (m.a + ·) else []

def LogEntry.isAcc (e : LogEntry) (acc : Nat → Bool) : Bool :=
  match e.acc.kind with
  | .accLoad a _ _ => acc a
  | _ => false

/-- Whether the strand's ALDs of some accumulators have all performed (R206, R207). -/
def State.accSettled (s : State) (sid : Nat) (acc : Nat → Bool) : Bool :=
  (s.pend.all fun a => a.sid != sid || match a.kind with
    | .accLoad x _ _ => !acc x
    | _ => true) && (s.st sid).log.all fun e => !(e.isAcc acc)

/-- The checks of R201 and R30 before a member signs; its own loads of accumulators have completed (R207). -/
def signCheck (op : Nat) (w : Ins) (s : State) (st : Strand) : Option Flow :=
  let m := MatWord.of (Ins.raw op w)
  let sl := fun (x : Nat) => s.slot st.uid st.prank x
  let acc := if m.isMma then some (m.d, m.intAcc) else if m.op = 0x78 then some (m.a, false) else none
  if !(s.accSettled st.sid fun _ => true) then some .stay
  else if m.named.any fun x => (sl x.1).state == .empty && (sl x.1).cerr then some (.trap ⟨9, 0, 0, 0⟩)
  else if m.named.any fun x => (sl x.1).state != .ready then some .stay
  else if m.named.any fun x => match x.2 with
      | some f => (sl x.1).fmt != 15 && (sl x.1).fmt.toNat != f
      | none => false then some (.trap ⟨7, 1, 0, 0⟩)
  else if acc.any fun x => (s.accum st.uid st.prank x.1).int != x.2 then some (.trap ⟨7, 2, 0, 0⟩)
  else if m.bni.any fun x => decide ((sl x).planes.toNat < m.k) then some (.trap ⟨7, 3, 0, 0⟩)
  else none

/-- A signing word of the matrix group. -/
def State.signWord (s : State) (op : Nat) (w : Ins) : State := s.eachSign op w (MatWord.of (Ins.raw op w)).creg .next (signCheck op w)

/-- MMA (R197..R203). -/
def execMma (w : Ins) (s : State) : Host.Outcome State Fault Refusal := .next (s.signWord 0x70 w)
/-- MMAS (R197..R203). -/
def execMmas (w : Ins) (s : State) : Host.Outcome State Fault Refusal := .next (s.signWord 0x71 w)
/-- MMAG (R197..R204). -/
def execMmag (w : Ins) (s : State) : Host.Outcome State Fault Refusal := .next (s.signWord 0x72 w)
/-- QNT (R210). -/
def execQnt (w : Ins) (s : State) : Host.Outcome State Fault Refusal := .next (s.signWord 0x78 w)
/-- QNT.col (R210). -/
def execQntCol (w : Ins) (s : State) : Host.Outcome State Fault Refusal := .next (s.signWord 0x78 w)
/-- BPK (R211). -/
def execBpk (w : Ins) (s : State) : Host.Outcome State Fault Refusal := .next (s.signWord 0x79 w)
/-- BUNP (R211). -/
def execBunp (w : Ins) (s : State) : Host.Outcome State Fault Refusal := .next (s.signWord 0x7A w)

-- operand elements (R118, R202, R204)

/-- The first slot and the row within it of a tile row: of A, whose rows MMAG gathers, or of B (R202, R204). -/
def MatWord.rowA (m : MatWord) (gather : List Nat) (q i : Nat) : Nat × Nat :=
  if m.op = 0x72 then let g := gather.getD i 0; (m.a + m.per * (g / 32 * m.n + q), g % 32) else (m.a + m.per * q, i)

/-- The bytes of an element of a tile: their slot and places. A BNI element has one byte in each plane, and a read of k planes takes those of the k highest bits, which lie first (R118, R119). -/
def elemBytes (fmt k x row col : Nat) : Nat × List Nat :=
  match fmt with
  | 14 => (x, (List.range k).map fun p => 128 * p + 4 * row + col / 8)
  | 9 | 10 => let o := 2 * (32 * (row % 16) + col); (x + row / 16, [o, o + 1])
  | _ => (x, [32 * row + col])

/-- The pattern of an element of a tile. -/
def Rank.elem (r : Rank) (fmt x row col : Nat) : Nat :=
  let at_ := elemBytes fmt 8 x row col
  let sl := r.slots.getD at_.1 {}
  if fmt = 14 then maskOf 8 fun p => bitN (sl.pay.get (128 * (7 - p) + 4 * row + col / 8)).toNat (col % 8)
  else ofLeBytes (at_.2.map sl.pay.get)

/-- Whether a byte of an element that a read of k planes takes is poisoned. -/
def Rank.elemPoison (r : Rank) (fmt k x row col : Nat) : Bool :=
  let at_ := elemBytes fmt k x row col
  let sl := r.slots.getD at_.1 {}
  at_.2.any fun i => sl.poison.contains i

/-- Whether MMAS treats the block of an element as zero (R202, R203). -/
def MatWord.skips (m : MatWord) (r : Rank) (q i t : Nat) : Bool :=
  m.op == 0x71 && (r.slots.getD (m.a + m.per * q) {}).bitmap.getLsbD (4 * (i / 8) + t / 8)

/-- The products of block q for element (i, j) on the floating-point path (R134). -/
def MatWord.prodsF (m : MatWord) (r : Rank) (gather : List Nat) (q i j : Nat) : List Val :=
  let fa := (mmaFmts m.ty).1
  let fb := (mmaFmts m.ty).2
  let ra := m.rowA gather q i
  (List.range 32).map fun t =>
    if m.skips r q i t then .fin false 0 0
    else prodA (widenF (fmtOf fa) (r.elem fa ra.1 ra.2 t)) (widenF (fmtOf fb) (r.elem fb (m.b + m.per * q) t j))

/-- The products on the integer path (R133, R134). -/
def MatWord.prodsI (m : MatWord) (r : Rank) (gather : List Nat) (q i j : Nat) : List Int :=
  let fa := (mmaFmts m.ty).1
  let fb := (mmaFmts m.ty).2
  let ra := m.rowA gather q i
  (List.range 32).map fun t =>
    if m.skips r q i t then 0
    else
      let a := signedN 8 (r.elem fa ra.1 ra.2 t)
      let a := if fa = 14 then bniRead a m.k else a
      let b := r.elem fb (m.b + m.per * q) t j
      a * (if fb = 7 then (b : Int) - (m.zp : Int) else signedN 8 b)

/-- The position whose scales block q uses (R202). -/
def MatWord.scalePos (m : MatWord) (q : Nat) : Nat := q / 2 ^ (m.fn - 1) * 2 ^ (m.fn - 1)

/-- The scale bytes of block q for element (i, j) (R202, R204). -/
def MatWord.scales (m : MatWord) (r : Rank) (gather : List Nat) (q i j : Nat) : Nat × Nat :=
  let p := m.scalePos q
  let ra := m.rowA gather p i
  (((r.slots.getD ra.1 {}).side.get ra.2).toNat, ((r.slots.getD (m.b + m.per * p) {}).side.get j).toNat)

/-- A block sum with its scales (R136). -/
def scaleSum (ea eb : Nat) (s : Val) : Val :=
  if ea = 255 ∨ eb = 255 then .nan else widenF fp32 (rnd fp32 (s.scale ((ea : Int) + (eb : Int) - 254)))

/-- Block q added to an FP32 accumulator element (R136). -/
def MatWord.stepF (m : MatWord) (r : Rank) (gather : List Nat) (i j : Nat) (d q : Nat) : Nat :=
  let s := if m.intPath then ofInt (dotBlockI (m.prodsI r gather q i j)) else dotBlockF (m.prodsF r gather q i j)
  let sc := m.scales r gather q i j
  let s := if m.fn = 0 then s else scaleSum sc.1 sc.2 s
  rnd fp32 ((widenF fp32 d).add .rne s)

/-- An element of the destination after the operation: its pattern, and whether it saturated (R136, R203). -/
def MatWord.elem (m : MatWord) (r : Rank) (gather : List Nat) (i j d : Nat) : Nat × Bool :=
  if m.intAcc then
    (List.range m.n).foldl (fun acc q =>
      let z := signedN 32 acc.1 + dotBlockI (m.prodsI r gather q i j)
      (wrapN 32 (satInt 0 z), acc.2 || decide (satInt 0 z ≠ z))) (d, false)
  else ((List.range m.n).foldl (m.stepF r gather i j) d, false)

/-- Whether poison reaches an element of the destination (R341). -/
def MatWord.poisoned (m : MatWord) (r : Rank) (gather : List Nat) (i j : Nat) : Bool :=
  let fa := (mmaFmts m.ty).1
  let fb := (mmaFmts m.ty).2
  (List.range m.n).any fun q =>
    let ra := m.rowA gather q i
    let p := m.scalePos q
    let rs := m.rowA gather p i
    (List.range 32).any (fun t => r.elemPoison fa m.k ra.1 ra.2 t || r.elemPoison fb m.k (m.b + m.per * q) t j)
      || (m.op == 0x71 && (r.slots.getD (m.a + m.per * q) {}).poison.contains entryPoison)
      || (m.fn != 0 && ((r.slots.getD rs.1 {}).poison.contains (1024 + rs.2) || (r.slots.getD (m.b + m.per * p) {}).poison.contains (1024 + j)))

/-- The accumulator after an MMA, MMAS or MMAG, and whether SATI is set (R203). -/
def MatWord.mma (m : MatWord) (r : Rank) (gather : List Nat) : Accum × Bool :=
  let d := r.accs.getD m.d {}
  let es := (List.range 1024).map fun e => m.elem r gather (e / 32) (e % 32) (d.data.num (4 * e) 4)
  ({ d with
     data := ({} : Block).store 0 (es.flatMap fun e => leBytes 4 e.1)
     poison := (List.range 1024).filter fun e => d.poison.contains e || m.poisoned r gather (e / 32) (e % 32) },
   es.any (·.2))

-- quantisation and planes (R210, R211)

/-- The bitmap of a slot of bytes: bit 4 * bi + bj marks an 8x8 block whose bytes all count as zero. -/
def bitmapOf (b : Block) (zero : Byte → Bool) : BitVec 16 :=
  BitVec.ofNat 16 (maskOf 16 fun n => (List.range 64).all fun e => zero (b.get (32 * (8 * (n / 4) + e / 8) + 8 * (n % 4) + e % 8)))

/-- The slot after QNT, and whether UNDERSCALE is set (R139, R210). -/
def MatWord.qnt (m : MatWord) (r : Rank) (old : Slot) : Slot × Bool :=
  let a := r.accs.getD m.a {}
  let place := fun (blk e : Nat) => if m.fn = 1 then 32 * e + blk else 32 * blk + e
  let blocks := (List.range 32).map fun blk => (blk, qntBlock (fmtOf m.ty) ((List.range 32).map fun e => a.data.num (4 * place blk e) 4))
  let pay := blocks.foldl (fun b x => x.2.2.1.zipIdx.foldl (fun b y => b.set (place x.1 y.2) (BitVec.ofNat 8 y.1)) b) ({} : Block)
  let side := blocks.foldl (fun b x => b.set x.1 (BitVec.ofNat 8 x.2.1)) ({} : Block)
  let bad := (List.range 32).filter fun blk => (List.range 32).any fun e => a.poison.contains (place blk e)
  ({ old with
     pay := pay, side := side, fmt := BitVec.ofNat 4 m.ty, planes := 0
     poison := bad.flatMap fun blk => (1024 + blk) :: (List.range 32).map (place blk) },
   blocks.any fun x => x.2.2.2)

/-- The slot after BPK (R211): the I8 values as eight planes. -/
def MatWord.bpk (m : MatWord) (r : Rank) (old : Slot) : Slot :=
  let a := r.slots.getD m.a {}
  let byte := fun (n : Nat) =>
    let p := 7 - n / 128
    let i := n % 128 / 4
    let j := n % 4 * 8
    BitVec.ofNat 8 (maskOf 8 fun b => bitN (a.pay.get (32 * i + j + b)).toNat p)
  { old with
    pay := ({} : Block).store 0 ((List.range 1024).map byte), side := a.side, fmt := 14, planes := 8, bitmap := 0
    poison := (List.range 1024).filter (fun n => (List.range 8).any fun b => a.poison.contains (32 * (n % 128 / 4) + n % 4 * 8 + b))
      ++ a.poison.filter fun i => decide (i ≥ 1024) }

/-- The slot after BUNP (R211). -/
def MatWord.bunp (m : MatWord) (r : Rank) (old : Slot) : Slot :=
  let a := r.slots.getD m.a {}
  let byte := fun (n : Nat) => BitVec.ofInt 8 (bniRead (signedN 8 (r.elem 14 m.a (n / 32) (n % 32))) m.k)
  { old with
    pay := ({} : Block).store 0 ((List.range 1024).map byte), side := a.side, fmt := 6, planes := 0
    poison := (List.range 1024).filter (fun n => r.elemPoison 14 m.k m.a (n / 32) (n % 32)) ++ a.poison.filter fun i => decide (i ≥ 1024) }

-- finishing (R198, R199, R205)

/-- The cycles of an operation (R205), not narrowed; its figure doubles when narrowed, an MMAS's after rounding up. -/
def MatWord.cycles (m : MatWord) (r : Rank) (gather : List Nat) : Nat :=
  let per := if m.ty = 4 ∨ m.ty = 5 then 8 else if m.ty = 6 ∨ m.ty = 7 then ceilDiv m.k 2 else 4
  let c := per * m.n
  match m.op with
  | 0x70 => c
  | 0x71 =>
    let marked := ((List.range m.n).map fun q => (setBits 16 (r.slots.getD (m.a + m.per * q) {}).bitmap.toNat).length).sum
    ceilDiv (c * (16 * m.n - marked)) (16 * m.n)
  | 0x72 => c + m.n * ((gather.map (· / 32)).eraseDups.length - per)
  | 0x78 => 32
  | _ => 16

/-- Half cycles of work that an engine does in a cycle (R205). -/
def workRate (narrow : Bool) : Nat := if narrow then 1 else 2

/-- LASTCYC of an operation of c cycles (R205): what it took up to the last change of mode, and what remains, doubled when narrowed. -/
def State.lastCyc (s : State) (core : Nat) (o : MatOp) (c : Nat) : BitVec 16 :=
  BitVec.ofNat 16 (min (o.took + ceilDiv (2 * c - o.work) (workRate (s.narrowOn core))) 0xFFFF)

/-- An operation under way when the mode of its engine changes (R205): the work done so far, and the cycles it took. -/
def MatOp.account (o : MatOp) (now c : Nat) (narrow : Bool) : MatOp :=
  match o.since with
  | none => o
  | some t =>
    let done := min ((now - t) / Config.perCycle * workRate narrow) (2 * c - o.work)
    { o with since := some now, work := o.work + done, took := o.took + ceilDiv done (workRate narrow) }

/-- Whether an operation of a rank has a slot as its destination. -/
def Rank.fills (r : Rank) (d : Nat) : Bool := r.ops.any fun o => destSlot o.word == some d

/-- The rank after its head operation has finished, its destination slot READY unless another one in flight has it too (R199); `fresh` numbers the undefined contents of a spoilt result, whose sticky bit is any (R199). -/
def Rank.finishOp (r : Rank) (o : MatOp) (fresh : Nat) (any : Bool) (cyc : Nat → BitVec 16) : Rank :=
  let m := MatWord.of (Raw.ofCode o.word)
  let r1 := { r with ops := r.ops.tail, lastcyc := cyc (m.cycles r o.gather) }
  if m.isMma then
    let x := m.mma r o.gather
    { r1 with
      accs := r1.accs.modify m.d fun a => if o.spoilt then { a with data := Block.undef fresh, poison := [] } else x.1
      sati := r1.sati || (if o.spoilt then any && m.intAcc else x.2) }
  else
    let old := r.slots.getD m.d {}
    let res := if m.op = 0x78 then m.qnt r old else if m.op = 0x79 then (m.bpk r old, false) else (m.bunp r old, false)
    let sl := if o.spoilt then { res.1 with pay := Block.undef fresh, side := Block.undef (fresh + 1), poison := [] } else res.1
    let bm := if m.op = 0x78 then bitmapOf sl.pay fun b => b.toNat % 128 == 0 else if m.op = 0x7A then bitmapOf sl.pay fun b => b == 0 else 0
    { r1 with
      slots := r1.slots.modify m.d fun _ => { sl with bitmap := bm, state := if r1.fills m.d then .filling else .ready, tref := false, cerr := false, expect := 0 }
      underscale := r1.underscale || (if o.spoilt then any && m.op == 0x78 else res.2) }

/-- MATRIX_OP_FINISH (R198, R199, R204, R205): the head operation of a rank finishes, and a destination slot that turns READY is an acquire for the rank's strands; an MMAG whose pool is not yet ready is checked again, and one whose destination slot lacks storage waits (R210). The queue of a saved item stands still (log 106). -/
def execMatrixOpFinish (uid prank : Nat) (s : State) : Host.Outcome State Fault Refusal :=
  .next <|
    match (if (s.it uid).status = .saved then [] else (s.rank uid prank).ops) with
    | [] => s
    | o :: _ =>
      if !o.checked then (s.checkPool uid o.gid).settled uid
      else
        let ready := match destSlot o.word with
          | some d => if (s.slot uid prank d).state = SlotState.filling then some s else s.takeDest uid prank d
          | none => some s
        match ready with
        | none => s
        | some s =>
          let f := s.nextId
          let s : State := { s with nextId := s.nextId + 2 }
          let acq := ((o.signers.filter fun g => (s.st g.sid).prank == prank).map (·.acq)).foldl max 0
          let s := s.setRank uid prank fun r => { r.finishOp o f ((s.anyWord 1).getLsbD 0) (s.lastCyc (s.rank uid prank).core o) with finAcq := max r.finAcq acq }
          let s := if (destSlot o.word).any fun d => decide ((s.slot uid prank d).state = .ready) then s.readyAcquire uid prank acq else s
          (s.beginOps uid).settled uid

-- accumulators (R206..R209)

/-- The accumulator an operand names. -/
def aOf (o : Operand) : Nat :=
  match o with
  | .a i => i.toNat
  | _ => 0

/-- Whether an operation in flight writes an accumulator of a rank. -/
def Rank.accBusy (r : Rank) (acc : Nat) : Bool := r.ops.any fun o => (MatWord.of (Raw.ofCode o.word)).isMma && o.usesAcc acc

/-- An ACLR of one row, or of all. -/
def State.aclrWord (s : State) (w : Ins) (all : Bool) : State :=
  s.each 0x73 w fun s st =>
    let acc := aOf w.d
    if !s.accSettled st.sid (· == acc) then (s, .stay)
    else
      let es := if all then List.range 1024 else (List.range 32).map (32 * st.lane + ·)
      let s := s.setAccum st.uid st.prank acc fun a =>
        { a with
          data := if all then {} else es.foldl (fun b e => b.put (4 * e) 4 0) a.data
          int := w.ty == 0
          poison := a.poison.filter fun i => !es.contains i }
      (s.spoilAcc st.uid st.prank acc, .next)

/-- ACLR (R206). -/
def execAclr (w : Ins) (s : State) : Host.Outcome State Fault Refusal := .next (s.aclrWord w false)
/-- ACLR.all (R206). -/
def execAclrAll (w : Ins) (s : State) : Host.Outcome State Fault Refusal := .next (s.aclrWord w true)

/-- The parts of a 128-byte access within one page each: offset and bytes. -/
def pageParts (va : Addr) : List (Nat × Nat) :=
  let left := 4096 - va.toNat % 4096
  if left ≥ 128 then [(0, 128)] else [(0, left), (left, 128 - left)]

/-- One more accepted access before the others. -/
def acceptedWith (x : Acc × Option Trap) (r : State × Except Flow (List (Acc × Option Trap))) : State × Except Flow (List (Acc × Option Trap)) :=
  match r with
  | (s, .ok xs) => (s, .ok (x :: xs))
  | r => r

/-- The accesses of an ALD or AST as accepted, or the trap or the wait that stops them all; those that fault carry their trap. -/
def State.acceptAll (s : State) : List Acc → State × Except Flow (List (Acc × Option Trap))
  | [] => (s, .ok [])
  | a :: rest =>
    match s.accept a with
    | (s, .trap t) => (s, .error (.trap t))
    | (s, .held) => (s, .error .stay)
    | (s, .ok a) => acceptedWith (a, none) (State.acceptAll s rest)
    | (s, .log a t) => acceptedWith (a, some t) (State.acceptAll s rest)

/-- Issue the parts of an ALD or AST (R207, R324): a part whose page faults goes into the operand log, when all such parts fit. -/
def State.issueParts (s : State) (st : Strand) (parts : List Acc) : State × Flow :=
  match s.acceptAll parts with
  | (s, .error f) => (s, f)
  | (s, .ok xs) =>
    if st.log.length + (xs.filter fun x => x.2.isSome).length > 4 then (s, .stay)
    else
      (xs.foldl (fun s x =>
        let (a, s) := s.reserve x.1
        let (a, s) := s.takeRel a
        match x.2 with
        | some t => s.pushLog a t
        | none => s.post a) s, .next)

/-- AST (R207): the bits of the accumulator row as it stands, any value while an operation writes it (R199); poisoned elements trap. -/
def execAst (w : Ins) (s : State) : Host.Outcome State Fault Refusal :=
  .next (s.each 0x74 w fun s st =>
    let acc := aOf w.d
    let a := s.accum st.uid st.prank acc
    let busy := (s.rank st.uid st.prank).accBusy acc
    let word := fun (e : Nat) => if busy then (s.anyWord (32 * st.lane + e)).toNat else a.data.num (4 * (32 * st.lane + e)) 4
    let va := s.ea st 0x74 w
    if !s.accSettled st.sid (· == acc) then (s, .stay)
    else if !busy && (List.range 32).any fun e => a.poison.contains (32 * st.lane + e) then (s, .trap ⟨0x0C, 4, 0, 0⟩)
    else s.issueParts st ((pageParts va).map fun p =>
      { (s.newAcc st .store 0x74 w (va + BitVec.ofNat 64 p.1) p.2) with
        data := ofLeBytes (((List.range (p.2 / 4)).map fun e => word (p.1 / 4 + e)).flatMap (leBytes 4)) }))

/-- ALD (R207). -/
def execAld (w : Ins) (s : State) : Host.Outcome State Fault Refusal :=
  .next (s.each 0x75 w fun s st =>
    let acc := aOf w.d
    let va := s.ea st 0x75 w
    let r := s.issueParts st ((pageParts va).map fun p =>
      s.newAcc st (.accLoad acc (32 * st.lane + p.1 / 4) (w.ty == 0)) 0x75 w (va + BitVec.ofNat 64 p.1) p.2)
    if r.2 = .next then (r.1.spoilAcc st.uid st.prank acc, .next) else r)

/-- AGET (R208): waits for the strand's ALDs; any value while an operation writes the accumulator (R199). -/
def execAget (w : Ins) (s : State) : Host.Outcome State Fault Refusal :=
  .next (s.each 0x76 w fun s st =>
    let acc := aOf w.a
    let e := (s.src st w w.b).toNat % 1024
    let a := s.accum st.uid st.prank acc
    let busy := (s.rank st.uid st.prank).accBusy acc
    if !s.accSettled st.sid (fun _ => true) then (s, .stay)
    else if !busy && a.poison.contains e then (s, .trap ⟨0x0C, 4, 0, 0⟩)
    else match s.prepDest st (destRegs (vOf w.d) 1) with
      | none => (s, .park .storage)
      | some s =>
        let (id, s) := s.fresh
        let v : Word := if busy then s.anyWord st.lane else BitVec.ofNat 32 (a.data.num (4 * e) 4)
        ({ s with lats := s.lats ++ [{ id := id, sid := st.sid, dest := vOf w.d, vals := [v] }] }, .next))

/-- Whether a round holds a signature of a strand for an operation that writes an accumulator (R209). -/
def Round.signsFor (r : Round) (sid acc : Nat) : Bool :=
  match r.first with
  | some c =>
    let m := MatWord.of (Raw.ofCode c)
    m.isMma && m.d == acc && r.signers.any fun g => g.sid == sid
  | none => false

/-- MWAIT (R209): waits for the strand's rounds, then for the operations that write the accumulator and were in flight when those had completed, and acquires at core scope. -/
def execMwait (w : Ins) (s : State) : Host.Outcome State Fault Refusal :=
  .next (s.each 0x77 w fun s st =>
    let acc := aOf w.a
    if (s.it st.uid).crews.any fun k => k.rounds.any fun r => r.signsFor st.sid acc then (s, .stay)
    else
      let bound := match st.mwait with
        | some x => if x.1 = st.seq then x.2 else s.nextId
        | none => s.nextId
      let busy := (s.rank st.uid st.prank).ops.any fun o => decide (o.id < bound) && (MatWord.of (Raw.ofCode o.word)).isMma && o.usesAcc acc
      if busy then (s.setSt st.sid fun x => { x with mwait := some (st.seq, bound) }, .stay)
      else ((s.setSt st.sid fun x => { x with mwait := none }).acquireCore st.sid (s.rank st.uid st.prank).finAcq, .next))

-- sidecars and status (R212, R213)

/-- The slot an operand names. -/
def xOf (o : Operand) : Nat :=
  match o with
  | .x i => i.toNat
  | _ => 0

/-- A slot named by a word: READY, waited for, or COPYERR (R30). -/
def State.slotReady (s : State) (st : Strand) (x : Nat) : Option Flow :=
  let sl := s.slot st.uid st.prank x
  if sl.state = .empty ∧ sl.cerr then some (.trap ⟨9, 0, 0, 0⟩)
  else if sl.state ≠ .ready then some .stay
  else none

/-- Whether a scratchpad access made at once keeps the order of R228: no acquire pending, and no release owed. -/
def State.atOnce (s : State) (st : Strand) : Bool :=
  s.noAcqBefore { id := s.nextId, sid := st.sid, loc := 4 }
    && (match st.nextRel with
      | some sc => s.released st.sid sc
      | none => true)

/-- An access to a word of a slot's sidecar, in the strand's own rank (R212): a location of its own, 5, at peer rank * 2^14 + 32 * slot + 4 * word. -/
def State.sideAcc (s : State) (st : Strand) (kind : AccKind) (x k : Nat) : Acc :=
  { id := s.nextId, sid := st.sid, uid := st.uid, core := s.coreOf st, kind := kind, loc := 5, pa := st.prank * 2 ^ 14 + 32 * x + 4 * k, rel := if kind = .store then st.nextRel else none
    relAcq := st.acqAt }

/-- SCW (R212): a scratchpad write, to which FENCE.rel applies (R228). -/
def execScw (w : Ins) (s : State) : Host.Outcome State Fault Refusal :=
  .next (s.each 0x7B w fun s st =>
    let x := xOf w.a
    let k := (s.src st w w.b).toNat % 8
    match s.slotReady st x with
    | some f => (s, f)
    | none =>
      if !s.atOnce st then (s, .stay)
      else match s.ownSlot st.uid st.prank x with
        | none => (s, .park .storage)
        | some s =>
          let a := s.sideAcc st .store x k
          let s : State := { s with nextId := s.nextId + 1, relMarks := s.relMarks.filter fun m => !(m.lies a.uid a.loc a.pa a.width) }
          let s := s.setRank st.uid st.prank fun r =>
            { (r.spoil x) with slots := r.slots.modify x fun y =>
                { y with side := y.side.put (4 * k) 4 (s.src st w w.d).toNat, poison := y.poison.filter fun i => !(decide (1024 + 4 * k ≤ i ∧ i < 1024 + 4 * k + 4)) } }
          ((s.wroteAtOnce a).setSt st.sid fun y => { y with nextRel := none }, .next))

/-- How a word that writes a v or s destination of its own finishes: storage may be short (R67). -/
def State.putD (s : State) (st : Strand) (w : Ins) (v : Word) (hint : Nat → Option Shape) : State × Flow :=
  let r := match w.d with
    | .v d => s.putV st d.toNat [(st, [v])] hint 1
    | .s d => s.putS st d.toNat [v] 1
    | .p i => some (s.setSt st.sid fun y => y.setPred i.toNat (v != 0))
    | _ => some s
  match r with
  | some s => (s, .next)
  | none => (s, .park .storage)

/-- SCR (R212): a scratchpad read, which FENCE.acq may make an acquire (R228). -/
def execScr (w : Ins) (s : State) : Host.Outcome State Fault Refusal :=
  .next (s.each 0x7C w fun s st =>
    let x := xOf w.a
    let k := (s.src st w w.b).toNat % 8
    match s.slotReady st x with
    | some f => (s, f)
    | none =>
      let sl := s.slot st.uid st.prank x
      if !s.atOnce { st with nextRel := none } then (s, .stay)
      else if sl.poison.any fun i => decide (1024 + 4 * k ≤ i ∧ i < 1024 + 4 * k + 4) then (s, .trap ⟨0x0C, 3, 0, 0⟩)
      else match s.putD st w (BitVec.ofNat 32 (sl.side.num (4 * k) 4)) (fun _ => none) with
        | (t, .next) =>
          let a := s.sideAcc st .load x k
          (({ t with nextId := t.nextId + 1 } : State).noteRead a s.tick (s.passedOn a.core a.uid a.loc a.pa a.width) (s.relsOf a.core a.uid a.loc a.pa a.width), .next)
        | r => r)

/-- MSTAT (R213): each strand reads the status of its rank, and with .clr clears the sticky bits in the same access. -/
def State.mstatWord (s : State) (w : Ins) (clr : Bool) : State :=
  s.each 0x7D w fun s st =>
    match s.putD st w ((s.rank st.uid st.prank).mstat (s.narrowOn (s.coreOf st))) (fun _ => none) with
    | (s, .next) => (if clr then s.setRank st.uid st.prank fun r => { r with underscale := false, sati := false } else s, .next)
    | r => r

/-- MSTAT (R213). -/
def execMstat (w : Ins) (s : State) : Host.Outcome State Fault Refusal := .next (s.mstatWord w false)
/-- MSTAT.clr (R213). -/
def execMstatClr (w : Ins) (s : State) : Host.Outcome State Fault Refusal := .next (s.mstatWord w true)

end Sys2Proof.Machine
end

