-- ==== Sys2Proof/Machine/TileMap.lean ====
section
/-! DEFINITION. Tiles, headers and pending maps (07 R140..R162) and the instructions that edit and read them (09 R214..R222). -/

namespace Sys2Proof.Machine

-- descriptors (R142, R143)

/-- A tensor descriptor as read. -/
structure Desc where
  fmt : Nat
  satmat : Bool
  ord : Nat
  rows : Nat
  cols : Nat
  grid : Nat
  paybase : Addr
  hdrbase : Addr
  /-- the lowest code of R143 that applies to the descriptor itself; 0 for none -/
  code : Nat
  deriving DecidableEq, Repr

/-- Formats of tensors, and those whose headers are the identity or a fill (R140, R149). -/
def tensorFmt (f : Nat) : Bool := 6 ≤ f && f ≤ 14 && f != 13
def plainFmt (f : Nat) : Bool := f == 6 || f == 7 || f == 14

/-- A descriptor from its 64 bytes. -/
def Desc.ofBytes (bs : List Byte) : Desc :=
  let n := fun (o len : Nat) => ofLeBytes ((bs.drop o).take len)
  let ctl := n 0 4
  let rows := n 4 4
  let cols := n 8 4
  let grid := n 12 4
  let pay := n 16 8
  let hdr := n 24 8
  { fmt := ctl % 16, satmat := bitN ctl 4, ord := fieldN ctl 5 3, rows := rows, cols := cols, grid := grid
    paybase := BitVec.ofNat 64 pay, hdrbase := BitVec.ofNat 64 hdr
    code :=
      if !tensorFmt (ctl % 16) then 1
      else if ctl / 256 ≠ 0 ∨ n 32 32 ≠ 0 then 2
      else if rows = 0 ∨ rows ≥ 2 ^ 31 ∨ cols = 0 ∨ cols ≥ 2 ^ 31 ∨ grid < ceilDiv cols 32 then 3
      else if pay % 4096 ≠ 0 ∨ hdr % 32 ≠ 0 then 4 else 0 }

/-- The stored coordinates of a logical element, none outside the logical shape (R147). -/
def Desc.stored (d : Desc) (r c : Nat) : Option (Nat × Nat) :=
  let t := bitN d.ord 2
  if r ≥ (if t then d.cols else d.rows) ∨ c ≥ (if t then d.rows else d.cols) then none
  else
    let sr := if t then c else r
    let sc := if t then r else c
    some (if bitN d.ord 0 then d.rows - 1 - sr else sr, if bitN d.ord 1 then d.cols - 1 - sc else sc)

/-- The composition of index maps (R153): old ORD, then g. -/
def ordCompose (old g : Nat) : Nat :=
  if bitN old 2 then old ^^^ (b01 (bitN g 1) + 2 * b01 (bitN g 0) + 4 * b01 (bitN g 2)) else old ^^^ g

-- headers (R144..R146)

/-- The coefficients of a map. -/
structure ValMap where
  a : Nat
  b : Nat
  lo : Nat
  hi : Nat
  deriving DecidableEq, Repr

def ValMap.ident : ValMap := ⟨0x3F800000, 0x80000000, 0xFF800000, 0x7F800000⟩

/-- A tile header: word 0, the map, words 5 to 7. -/
structure TileHdr where
  ctl : Nat
  map : ValMap
  rest : Nat
  deriving DecidableEq, Repr

def TileHdr.ofBytes (bs : List Byte) : TileHdr :=
  let n := fun (o len : Nat) => ofLeBytes ((bs.drop o).take len)
  ⟨n 0 4, ⟨n 4 4, n 8 4, n 12 4, n 16 4⟩, n 20 12⟩

def TileHdr.bytes (h : TileHdr) : List Byte :=
  leBytes 4 h.ctl ++ leBytes 4 h.map.a ++ leBytes 4 h.map.b ++ leBytes 4 h.map.lo ++ leBytes 4 h.map.hi ++ leBytes 12 h.rest

def isZero32 (x : Nat) : Bool := (widenF fp32 x).isZero
def isFin32 (x : Nat) : Bool := (widenF fp32 x).isFin
def isNan32 (x : Nat) : Bool := (widenF fp32 x).isNan
def cmp32 (x y : Nat) : Int := (widenF fp32 x).cmp (widenF fp32 y)

def TileHdr.pv (h : TileHdr) : Bool := bitN h.ctl 0
def TileHdr.fmt (h : TileHdr) : Nat := fieldN h.ctl 4 4
def TileHdr.gen (h : TileHdr) : Nat := fieldN h.ctl 16 16

/-- The check of R146 and R149 against a descriptor's format: 0 valid, 6 or 7. -/
def TileHdr.check (h : TileHdr) (fmt : Nat) : Nat :=
  let m := h.map
  let fill := isZero32 m.a
  if !fill && h.pv && h.fmt ≠ fmt then 6
  else if h.ctl &&& 0xFF08 ≠ 0 || h.rest ≠ 0 || isNan32 m.lo || isNan32 m.hi || cmp32 m.lo m.hi = 1 then 7
  else if !fill && (!isFin32 m.a || !isFin32 m.b || !h.pv) then 7
  else if !fill && plainFmt fmt && m ≠ ValMap.ident then 7
  else 0

/-- A header that the device writes (R145, R160): GEN counts up, BUSY is 0, ID marks the identity. -/
def TileHdr.put (h : TileHdr) (pv : Bool) (fmt : Nat) (m : ValMap) : TileHdr :=
  { ctl := b01 pv + 2 * b01 (decide (m = ValMap.ident)) + 16 * fmt + 2 ^ 16 * ((h.gen + 1) % 65536), map := m, rest := 0 }

/-- The header after an edit that does not materialise (R150, R160): only the coefficients, ID and GEN change. -/
def TileHdr.edit (h : TileHdr) (m : ValMap) : TileHdr :=
  { h with ctl := h.ctl % 65536 - (h.ctl &&& 2) + 2 * b01 (decide (m = ValMap.ident)) + 2 ^ 16 * ((h.gen + 1) % 65536), map := m }

/-- compose (R150): none stands for MATERIALISE. -/
def ValMap.compose (m n : ValMap) : Option ValMap :=
  if isZero32 n.a then some n
  else if isZero32 m.a then
    let c := clampMap m.a m.b m.lo m.hi (.fin false 0 0)
    some ⟨0, clampMap n.a n.b n.lo n.hi (widenF fp32 c), 0xFF800000, 0x7F800000⟩
  else
    let a := rnd fp32 ((widenF fp32 n.a).mul (widenF fp32 m.a))
    let b := fma32 n.a m.b n.b
    if !isFin32 a || !isFin32 b then none
    else
      let pos := !bitN n.a 31
      let l := if pos then m.lo else m.hi
      let h := if pos then m.hi else m.lo
      let il := fma32 n.a l n.b
      let ih := fma32 n.a h n.b
      let lo := if cmp32 il n.lo = 1 then il else n.lo
      let hi := if cmp32 ih n.hi = -1 then ih else n.hi
      if cmp32 lo hi = 1 then
        if cmp32 il n.hi = 1 then some ⟨0, n.hi, 0xFF800000, 0x7F800000⟩ else some ⟨0, n.lo, 0xFF800000, 0x7F800000⟩
      else some ⟨a, b, lo, hi⟩

-- elements (R140, R148)

/-- The bytes of element (i, j) of a tile. -/
def tileElemBytes (fmt i j : Nat) : List Nat :=
  match fmt with
  | 14 => (List.range 8).map fun p => 128 * (7 - p) + 4 * i + j / 8
  | 8 => (List.range 4).map (4 * (32 * i + j) + ·)
  | 9 | 10 => (List.range 2).map (2 * (32 * i + j) + ·)
  | _ => [32 * i + j]

/-- The stored element of a tile, as a value. -/
def tileElem (fmt : Nat) (get : Nat → Byte) (i j : Nat) : Val :=
  match fmt with
  | 14 => ofInt (signedN 8 (maskOf 8 fun p => bitN (get (128 * (7 - p) + 4 * i + j / 8)).toNat (j % 8)))
  | 6 => ofInt (signedN 8 (get (32 * i + j)).toNat)
  | 7 => ofInt ((get (32 * i + j)).toNat : Int)
  | f => widenF (fmtOf f) (ofLeBytes ((tileElemBytes f i j).map get))

/-- A value converted once to a format, as its pattern (R148 step 3); BNI stands for I8. -/
def convTo (fmt : Nat) (sat : Bool) (y : Val) : Nat :=
  if isFp fmt then
    let d := roundTo (fmtOf fmt) y .rne
    (if sat then d.sat (fmtOf fmt) else d).enc (fmtOf fmt)
  else
    let ty := if fmt = 14 then 6 else fmt
    wrapN (intWidth ty) (toInt ty y .rne sat)

/-- The value an element reads as through a map, before the reader's conversion (R148); a fill of a BNI tile stands for an I8 value (R149). -/
def ValMap.read (m : ValMap) (fmt : Nat) (x : Val) : Val :=
  let y := widenF fp32 (clampMap m.a m.b m.lo m.hi x)
  if fmt = 14 ∧ isZero32 m.a then ofInt (toInt 6 y .rne true) else y

/-- The bytes of a tile from the patterns of its elements. -/
def tileBytes (fmt : Nat) (els : List Nat) : List Byte :=
  match fmt with
  | 14 => (List.range 1024).map fun n =>
      let p := 7 - n / 128
      BitVec.ofNat 8 (maskOf 8 fun b => bitN (els.getD (32 * (n % 128 / 4) + n % 4 * 8 + b) 0) p)
  | f => els.flatMap (leBytes (tileBytesOf f / 1024))

/-- The patterns of a tile's elements after materialisation (R156). -/
def materialised (fmt : Nat) (sat : Bool) (m : ValMap) (get : Nat → Byte) : List Nat :=
  (List.range 1024).map fun e => convTo fmt (sat || fmt == 14) (m.read fmt (tileElem fmt get (e / 32) (e % 32)))

-- posting (R215..R221)

/-- The bytes of the descriptor that a word names, with its address, or how the strand goes on without it (R142, R215). -/
def State.readDesc (s : State) (st : Strand) (va : Addr) (wr : Bool) : State × Except Flow (Xlat × Desc) :=
  if va.toNat % 64 ≠ 0 then (s, .error (.trap alignTrap))
  else match s.ctlAccess st va { rd := true, wr := wr } with
    | (s, .error f) => (s, .error f)
    | (s, .ok x) =>
      match s.tagRange st.sid x va wr 64 with
      | some t => (s, .error (.trap t))
      | none =>
        if !s.ownClear st va x.loc x.pa 64 then (s, .error .stay)
        else if s.poisonedIn x.loc x.pa 64 then ((s.deferPoison st x.loc).1, .error .next)
        else
          let d := Desc.ofBytes (s.homeBytes x.loc x.pa 64)
          if d.code ≠ 0 then (s, .error (.trap ⟨0x0E, d.code, 0, 0⟩)) else (s, .ok (x, d))

/-- The tile-view operation of a word. -/
def State.newTile (s : State) (st : Strand) (op : Nat) (w : Ins) (va : Addr) (x : Xlat) (d : Desc) : TileOp :=
  { id := s.nextId, sid := st.sid, uid := st.uid, ctx := s.ctxOf st, core := s.coreOf st, seq := st.seq, pc := st.pc, op := op, fn := w.fn.toNat, ty := w.ty.toNat
    desc := va, descPa := x.pa, hdrLoc := if op = 0x85 then x.loc else 0, hdrLevel := x.level, fmt := d.fmt, satmat := d.satmat, ord := d.ord, rows := d.rows, cols := d.cols, grid := d.grid
    paybase := d.paybase, hdrbase := d.hdrbase }

/-- A tile-view operation that writes takes a release that FENCE.rel left (R228). -/
def TileOp.withRel (o : TileOp) (nextRel : Option Nat) : TileOp :=
  if !o.writes then o
  else { o with rel := match o.rel, nextRel with
    | some a, some b => some (widerScope a b)
    | a, none => a
    | none, b => b }

/-- Post a tile-view operation. -/
def State.postTile (s : State) (o : TileOp) : State :=
  let nr := (s.st o.sid).nextRel
  let s := if o.writes then s.setSt o.sid fun st => { st with nextRel := none } else s
  let o := o.withRel nr
  { s with nextId := s.nextId + 1, tileOps := s.tileOps ++ [o] }

/-- Whether the strand's log keeps a tile-view operation from issuing (R232), as it does an access. -/
def State.tileHeld (s : State) (o : TileOp) : Bool :=
  let st := s.st o.sid
  st.log.any fun e => !e.exempt && (s.tileAfter o e.acc || (o.writes && st.nextRel.isSome))

/-- An operation is posted, unless the strand's log holds it at the word. -/
def State.issueTile (s : State) (o : TileOp) : State × Flow := if s.tileHeld o then (s, .stay) else (s.postTile o, .next)

/-- An edit of every tile of a tensor by a map (R151, R215, R216): `n` answers none for a refused operand. -/
def State.editWord (s : State) (op : Nat) (w : Ins) (n : State → Strand → Option ValMap) : State :=
  s.each op w fun s st =>
    let va := s.src64 st w w.a
    match s.readDesc st va false with
    | (s, .error f) => (s, f)
    | (s, .ok (x, d)) =>
      match n s st with
      | none => (s, .trap ⟨8, 8, 0, 0⟩)
      | some m =>
        if plainFmt d.fmt && op != 0x83 then (s, .trap ⟨0x0E, 5, 0, 0⟩)
        else s.issueTile { (s.newTile st op w va x d) with
          mapA := BitVec.ofNat 32 m.a, mapB := BitVec.ofNat 32 m.b, mapLo := BitVec.ofNat 32 m.lo, mapHi := BitVec.ofNat 32 m.hi }

/-- Clamp bounds that R216 accepts. -/
def boundsOk (lo hi : Nat) : Bool := !isNan32 lo && !isNan32 hi && cmp32 lo hi != 1

/-- TSCL (R151, R216). -/
def execTscl (w : Ins) (s : State) : Host.Outcome State Fault Refusal :=
  .next (s.editWord 0x80 w fun s st =>
    let x := s.srcFp st w 8 w.b
    if isFin32 x then some { ValMap.ident with a := x } else none)

/-- TOFS (R151, R216). -/
def execTofs (w : Ins) (s : State) : Host.Outcome State Fault Refusal :=
  .next (s.editWord 0x81 w fun s st =>
    let x := s.srcFp st w 8 w.b
    if isFin32 x then some { ValMap.ident with b := x } else none)

/-- TCLP on registers (R151, R216). -/
def execTclp (w : Ins) (s : State) : Host.Outcome State Fault Refusal :=
  .next (s.editWord 0x82 w fun s st =>
    let lo := (s.src st w w.b).toNat
    let hi := (s.src st w w.third).toNat
    if boundsOk lo hi then some { ValMap.ident with lo := lo, hi := hi } else none)

/-- TCLP with the bounds in IMM as FP16 (R214, R216). -/
def execTclpImm (w : Ins) (s : State) : Host.Outcome State Fault Refusal :=
  .next (s.editWord 0x82 w fun _ _ =>
    let lo := rnd fp32 (widenF fp16 (w.imm.toNat % 65536))
    let hi := rnd fp32 (widenF fp16 (w.imm.toNat / 65536))
    if boundsOk lo hi then some { ValMap.ident with lo := lo, hi := hi } else none)

/-- TFIL (R151). -/
def execTfil (w : Ins) (s : State) : Host.Outcome State Fault Refusal :=
  .next (s.editWord 0x83 w fun s st => some { ValMap.ident with a := 0, b := s.srcFp st w 8 w.b })

/-- TMAP (R151, R216). -/
def execTmap (w : Ins) (s : State) : Host.Outcome State Fault Refusal :=
  .next (s.editWord 0x84 w fun s st =>
    let x := fun (k : Nat) => (s.src st w (w.b.plus k)).toNat
    if isFin32 (x 0) && isFin32 (x 1) && boundsOk (x 2) (x 3) then some ⟨x 0, x 1, x 2, x 3⟩ else none)

/-- TORD (R153, R217). -/
def execTord (w : Ins) (s : State) : Host.Outcome State Fault Refusal :=
  .next (s.each 0x85 w fun s st =>
    let va := s.src64 st w w.a
    match s.readDesc st va true with
    | (s, .error f) => (s, f)
    | (s, .ok (x, d)) =>
      let g := s.src st w w.b
      if g.toNat > 7 then (s, .trap ⟨8, 6, 0, 0⟩)
      else s.issueTile { (s.newTile st 0x85 w va x d) with data := g })

/-- TMAT of one tile (R218). -/
def execTmat (w : Ins) (s : State) : Host.Outcome State Fault Refusal :=
  .next (s.each 0x86 w fun s st =>
    let va := s.src64 st w w.a
    match s.readDesc st va false with
    | (s, .error f) => (s, f)
    | (s, .ok (x, d)) =>
      let rc := s.src64 st w w.b
      match d.stored (rc.toNat % 2 ^ 32) (rc.toNat / 2 ^ 32) with
      | none => (s, .trap ⟨8, 7, 0, 0⟩)
      | some (sr, sc) => s.issueTile { (s.newTile st 0x86 w va x d) with row := sr, col := sc })

/-- TMAT.all (R218). -/
def execTmatAll (w : Ins) (s : State) : Host.Outcome State Fault Refusal :=
  .next (s.each 0x86 w fun s st =>
    let va := s.src64 st w w.a
    match s.readDesc st va false with
    | (s, .error f) => (s, f)
    | (s, .ok (x, d)) => s.issueTile (s.newTile st 0x86 w va x d))

/-- A pseudo access that stands for an operation in the order conditions. -/
def TileOp.asAcc (o : TileOp) (va : Addr) (loc pa len : Nat) : Acc :=
  { id := o.id, sid := o.sid, uid := o.uid, ctx := o.ctx, core := o.core, va := va, loc := loc, pa := pa, width := len }

/-- Whether an operation may touch some bytes now: the strand's earlier accesses and operations have reached them, before a write its reads of their lines have returned, its acquires have performed, its releases are kept (R228, R231, R233). -/
def State.mayTouch (s : State) (o : TileOp) (va : Addr) (loc pa len : Nat) : Bool :=
  let a := o.asAcc va loc pa len
  s.homeClear a && (!o.writes || s.linesRead a && s.logClear a)
    && (match o.rel with
      | some sc => s.allBefore a sc
      | none => true)

/-- Whether a strand's own earlier raw accesses to the payload of an operation's tile have reached it (R233). -/
def State.payClear (s : State) (o : TileOp) : Bool :=
  let va := o.payVa o.doneTiles
  let n := tileBytesOf o.fmt
  match s.vaToPa o.ctx va.toNat with
  | some x => s.homeClear (o.asAcc va x.1 x.2 n)
  | none => (s.earlierLog (o.asAcc va 0 0 n)).all fun e => !((o.asAcc va 0 0 n).meetsVa e.acc)

/-- Whether an operation that has its header, checked, goes before what would work on the tile in another format, which could leave the header invalid for it (R159, log 103). -/
def State.tileFirst (s : State) (p : TileOp) (id fmt : Nat) : Bool :=
  !p.hold.isEmpty && p.fmt != fmt
    && (decide (p.id < id) || (s.tileOps.find? fun q => q.id == id).all fun q => q.hold.isEmpty)

/-- Translate parts of a tile, whose bytes share a page, as an operation reaches them, and check the granules of each (R215). -/
def State.tilePage (s : State) (o : TileOp) (va : Addr) (need : Need) (parts : List (Nat × Nat)) : State × Except Trap Xlat :=
  let first := (parts.headD (0, 1)).1
  match s.translate (s.coreOf (s.st o.sid)) o.ctx (va + BitVec.ofNat 64 first) need with
  | (s, .bad t) => (s, .error t)
  | (s, .ok x) =>
    let s := s.walkAcquire o.sid x
    let x := { x with pa := x.pa - first }
    match parts.findSome? fun p =>
        let lo := p.1 / 32 * 32
        (s.tagRange o.sid { x with pa := x.pa + lo } (va + BitVec.ofNat 64 lo) need.wr (p.2 + p.1 % 32)).map fun t => if t.cls = 6 then { t with fva := va + BitVec.ofNat 64 (max p.1 (t.fva - va).toNat) } else t with
    | some t => (s, .error t)
    | none => (s, .ok x)

/-- POISON when a part of a tile that an operation reads is poisoned (R341). -/
def State.tilePoison (s : State) (x : Xlat) (parts : List (Nat × Nat)) : Option Trap :=
  if parts.any (fun p => s.poisonedIn x.loc (x.pa + p.1) p.2) then some (memPoison x.loc) else none

/-- The bytes of a header. -/
def hdrParts : List (Nat × Nat) := [(0, 32)]

/-- What a TLDE or TSTE at issue finds at the header of its tile. -/
inductive HdrCheck where
  | go (x : Xlat) (bs : List Byte)
  | flow (f : Flow)
  /-- a fault that ends the operation when it performs -/
  | fault (t : Trap)
  deriving DecidableEq, Repr

/-- Whether another operation or copy is materialising the tile of a header, or comes first at it (R159). -/
def State.tileBusy (s : State) (id fmt loc pa : Nat) : Bool :=
  s.tileOps.any (fun p => p.id != id && (decide (p.busy > 0) || s.tileFirst p id fmt) && p.hdrLoc == loc && p.hdrPa == pa)
    || s.copies.any fun c => c.id != id && decide (c.busy > 0) && c.hdrLoc == loc && c.hdrPa == pa

/-- TLDE and TSTE read and check their header at the word (R143, R146, R220, R221): the strand's own earlier accesses to the tile are there first, and what a TSTE releases has performed, so that nothing of the strand's holds the operation afterwards; nothing is rewriting the tile; a page fault is serviced there, an invalid header traps precisely. A fault that firmware has declined, a refused right or a tag mismatch ends the operation deferred (R215). -/
def State.hdrAtIssue (s : State) (st : Strand) (o : TileOp) : State × HdrCheck :=
  match st.refused.filter fun x => x.1 == st.seq with
  | some x => (s.setSt st.sid fun y => { y with refused := none }, .fault x.2)
  | none =>
    let va := o.hdrVa 0
    let wr := o.op == 0x89
    match s.tilePage o va { rd := true, wr := wr } hdrParts with
    | (s, .error t) => (s, if t.cls = 4 then .flow (.park (.tile va wr)) else .fault t)
    | (s, .ok x) =>
      let rel := (o.withRel st.nextRel).rel
      if !s.ownClear st va x.loc x.pa 32 || !s.payClear o || s.tileBusy o.id o.fmt x.loc x.pa || rel.any (fun sc => !s.released o.sid sc) then (s, .flow .stay)
      else match s.tilePoison x hdrParts with
        | some t => (s, .fault t)
        | none =>
          let bs := s.homeBytes x.loc x.pa 32
          let c := (TileHdr.ofBytes bs).check o.fmt
          (s, if c ≠ 0 then .flow (.trap ⟨0x0E, c, 0, 0⟩) else .go x bs)

/-- The operation of a TLDE or TSTE once its header is checked, or how the strand goes on without it. -/
def State.withHdr (s : State) (st : Strand) (o : TileOp) : State × Except Flow TileOp :=
  match s.hdrAtIssue st o with
  | (s, .flow f) => (s, .error f)
  | (s, .fault t) => (s, .ok { o with fail := some t })
  | (s, .go x bs) => (s, .ok { o with hdrLoc := x.loc, hdrPa := x.pa, hdrLevel := x.level, hold := bs })

/-- A read of a tile for a v destination (R219, R220). -/
def State.tileRead (s : State) (op : Nat) (w : Ins) (acq : Option Nat) : State :=
  s.each op w fun s st =>
    let va := s.src64 st w w.a
    match s.readDesc st va false with
    | (s, .error f) => (s, f)
    | (s, .ok (x, d)) =>
      let rc := s.src64 st w w.b
      match d.stored (rc.toNat % 2 ^ 32) (rc.toNat / 2 ^ 32) with
      | none => (s, .trap ⟨8, 7, 0, 0⟩)
      | some (sr, sc) =>
        let o := { (s.newTile st op w va x d) with row := sr, col := sc, dest := vOf w.d, sat := Ins.sat w != 0, acq := acq }
        match (if op = 0x88 then s.withHdr st o else (s, .ok o)) with
        | (s, .error f) => (s, f)
        | (s, .ok o) =>
          if s.tileHeld o then (s, .stay) else match s.prepDest st [vOf w.d] with
          | none => (s, .park .storage)
          | some s => (s.postTile o, .next)

/-- THDR (R219). -/
def execThdr (w : Ins) (s : State) : Host.Outcome State Fault Refusal := .next (s.tileRead 0x87 w none)

/-- TLDE (R220). -/
def execTlde (w : Ins) (s : State) : Host.Outcome State Fault Refusal :=
  .next (s.tileRead 0x88 w (if w.fn = 0 then none else some w.fn.toNat))

/-- TSTE (R221). -/
def execTste (w : Ins) (s : State) : Host.Outcome State Fault Refusal :=
  .next (s.each 0x89 w fun s st =>
    let va := s.src64 st w w.a
    match s.readDesc st va false with
    | (s, .error f) => (s, f)
    | (s, .ok (x, d)) =>
      match d.stored (s.src st w w.b).toNat (s.src st w w.third).toNat with
      | none => (s, .trap ⟨8, 7, 0, 0⟩)
      | some (sr, sc) =>
        let o := { (s.newTile st 0x89 w va x d) with row := sr, col := sc, data := s.src st w w.d, rel := if w.fn = 0 then none else some w.fn.toNat }
        match s.withHdr st o with
        | (s, .error f) => (s, f)
        | (s, .ok o) => s.issueTile o)

-- performing (R155, R156, R159..R162, R215)

def State.setTile (s : State) (o : TileOp) : State := { s with tileOps := s.tileOps.map fun p => if p.id = o.id then o else p }
def State.dropTile (s : State) (id : Nat) : State := { s with tileOps := s.tileOps.filter fun p => p.id != id }

/-- What has been read early of bytes that a tile-view operation writes is older than the tile's last state, which no later operation sees (R159). -/
def State.tileSeen (s : State) (loc pa n : Nat) : State := { s with copies := s.copies.map fun c => { c with early := earlyWithout c.early loc pa n } }

/-- Bytes written by a tile-view operation perform at home; the strand's core keeps no older copy (R161, R233). A TSTE's release passes on what its strand acquired (R229). -/
def State.tileWrite (s : State) (o : TileOp) (loc pa : Nat) (bs : List Byte) : State :=
  let s := ((s.writeHome o.uid loc pa bs).tileSeen loc pa bs.length).dropEarly [o.sid] loc pa bs.length
  let s := s.markRel { o.asAcc o.desc loc pa bs.length with rel := o.rel, relAcq := (s.st o.sid).acqAt }
  { s with l1 := s.l1.filter fun l => !(l.core == o.core && l.loc == loc && decide (pa / 128 ≤ l.line) && decide (l.line ≤ (pa + bs.length - 1) / 128)) }

/-- A header that a tile-view operation has written: reads and writes that wait at the tile after their check see it (R159), where it is valid for their format; one of another format waits for them (log 103). -/
def State.noteHdr (s : State) (loc pa : Nat) (h : TileHdr) : State :=
  { s with tileOps := s.tileOps.map fun p =>
      if !p.hold.isEmpty && p.busy == 0 && p.hdrLoc == loc && p.hdrPa == pa && h.check p.fmt == 0 then { p with hold := h.bytes } else p }

/-- The engine's core keeps no copy of a tile older than what the operation has seen (R159). -/
def State.dropTileLines (s : State) (o : TileOp) : State :=
  { s with l1 := s.l1.filter fun l => !(l.core == o.core && s.tileTouches o l.loc (128 * l.line) 128 o.doneTiles) }

/-- A tile is done: the operation goes on to the next, or has performed; one whose strand is gone ends here. -/
def State.nextTile (s : State) (o : TileOp) : State :=
  let o := { o with doneTiles := o.doneTiles + 1, busy := 0, hold := [], want := none }
  if o.doneTiles ≥ o.tiles || (s.strand? o.sid).all (·.disabled) then (s.dropTile o.id).settled o.uid else s.setTile o

/-- The result of a TLDE or THDR reaches its register, an acquire with it (R219, R220). -/
def State.tileAnswer (s : State) (o : TileOp) (v : Word) : State :=
  let acq := s.passedOn o.core o.uid o.hdrLoc o.hdrPa 32
  let rels := s.relsOf o.core o.uid o.hdrLoc o.hdrPa 32
  let s := (((s.dropTile o.id).dropTileLines o).noteRead (o.asAcc o.desc o.hdrLoc o.hdrPa 32) s.tick acq rels).setSt o.sid fun x => { x with early := [] }
  let s := match o.acq with
    | some sc => (s.acquire o.sid sc).passLater o.sid o.id
    | none => s
  (s.answer { sid := o.sid, dest := some o.dest } [v] false).settled o.uid

/-- A fault ends the operation at its tile (R215, R325): the trap is delivered deferred-precise, a read answers 0. -/
def State.tileFault (s : State) (o : TileOp) (t : Trap) : State :=
  let s := s.addFault { sid := o.sid, seq := o.seq, pc := o.pc } t
  if !o.writes then s.tileAnswer o 0 else (s.dropTile o.id).settled o.uid

/-- A page fault waits at the tile for firmware; any other fault ends the operation there (R215). -/
def State.tileStop (s : State) (o : TileOp) (t : Trap) : State :=
  if t.cls = 4 then s.setTile { o with want := some (t.fva, o.writes) } else s.tileFault o t

/-- A posted edit or TMAT that finds an invalid header (R162): the tile is left as it is and the other tiles are done. DEDUCED (log 115): each such tile is a fault of the word with its own code; they have one place in issue order, so that the first is the trap delivered and the rest go with it. -/
def State.tileInvalid (s : State) (o : TileOp) (c : Nat) : State :=
  (s.addFault { sid := o.sid, seq := o.seq, pc := o.pc } ⟨0x0E, c, 0, 0⟩).nextTile o

/-- The map an edit composes. -/
def TileOp.editMap (o : TileOp) : ValMap := ⟨o.mapA.toNat, o.mapB.toNat, o.mapLo.toNat, o.mapHi.toNat⟩

/-- The element a TSTE writes, as its pattern in the tensor's format (R221). -/
def TileOp.element (o : TileOp) : Nat :=
  convTo o.fmt o.satmat (if isFp o.ty then widenF (fmtOf o.ty) (o.data.toNat % 2 ^ (fmtOf o.ty).width) else ofInt (readInt o.ty o.data.toNat))

/-- The payload after the rewriting part of a materialising operation (R152, R156, R221): a BNI tile under the identity keeps its bytes. -/
def TileOp.rewrite (o : TileOp) (m : ValMap) (get : Nat → Byte) : List Byte :=
  let els := materialised o.fmt o.satmat m get
  let els := if o.op = 0x89 then els.set (32 * (o.row % 32) + o.col % 32) o.element else els
  tileBytes o.fmt els

/-- A materialising operation begins on its tile (R156, R160): BUSY is set; header and payload stay where they have been translated to. -/
def State.beginMat (s : State) (o : TileOp) (hx px : Xlat) (h : TileHdr) : State :=
  (s.tileWrite o hx.loc hx.pa (leBytes 4 (h.ctl ||| 4))).setTile
    { o with
      busy := 1, hdrLoc := hx.loc, hdrPa := hx.pa, hdrLevel := hx.level, payLoc := px.loc, payPa := px.pa, payLevel := px.level, hold := h.bytes, want := none }

/-- Codewords of a range that were poisoned when their bytes were read for rewriting stay poisoned (R341). -/
def State.keepPoison (s : State) (old : List Nat) (loc pa n : Nat) : State :=
  { s with poison := (old.filter fun c => decide (codeword loc pa ≤ c) && decide (c ≤ codeword loc (pa + n - 1))) ++ s.poison }

/-- The later stages of a materialising operation (R156, R160): the payload is rewritten through the map, the header becomes the identity, or the edit's map (R152). -/
def State.materialise (s : State) (o : TileOp) : State :=
  let h := TileHdr.ofBytes o.hold
  if o.busy = 1 then
    let n := tileBytesOf o.fmt
    let get := fun (i : Nat) => (s.homeBytes o.payLoc (o.payPa + i) 1).headD 0
    ((s.tileWrite o o.payLoc o.payPa (o.rewrite h.map get)).keepPoison (if isZero32 h.map.a then [] else s.poison) o.payLoc o.payPa n).setTile { o with busy := 2 }
  else
    let h := h.put true o.fmt (if o.op < 0x85 then o.editMap else ValMap.ident)
    ((s.tileWrite o o.hdrLoc o.hdrPa h.bytes).nextTile o).noteHdr o.hdrLoc o.hdrPa h

/-- The header that an operation works on (R159): as it stands; for a TLDE or TSTE, whose header was valid at issue, the state before the raw stores that race with it when those have made it invalid. -/
def State.hdrOf (s : State) (o : TileOp) (hx : Xlat) : TileHdr :=
  let h := TileHdr.ofBytes (s.homeBytes hx.loc hx.pa 32)
  if !o.hold.isEmpty && h.check o.fmt ≠ 0 then TileHdr.ofBytes o.hold else h

/-- Consecutive bytes of an element: one part for each plane of a BNI element. -/
def elemParts (fmt i j : Nat) : List (Nat × Nat) :=
  let bs := tileElemBytes fmt i j
  if fmt = 14 then bs.map fun o => (o, 1) else [(bs.headD 0, bs.length)]

/-- An operation reaches the header of its tile. -/
def State.tileAtHeader (s : State) (o : TileOp) (hx : Xlat) : State :=
  let h := s.hdrOf o hx
  let c := if o.op = 0x87 then 0 else h.check o.fmt
  let pv := o.payVa o.doneTiles
  if o.op = 0x87 then
    s.tileAnswer { o with hdrLoc := hx.loc, hdrPa := hx.pa } (BitVec.ofNat 32 (match o.fn with
      | 0 => h.ctl
      | 1 => h.map.a
      | 2 => h.map.b
      | 3 => h.map.lo
      | _ => h.map.hi))
  else if c ≠ 0 then s.tileInvalid o c
  else if o.op = 0x88 then
    let i := o.row % 32
    let j := o.col % 32
    let done := fun (s : State) (get : Nat → Byte) =>
      let v := convTo o.ty o.sat (h.map.read o.fmt (tileElem o.fmt get i j))
      s.tileAnswer o ((loadWords o.ty v).headD 0)
    if isZero32 h.map.a then done s fun _ => 0
    else
      match s.tilePage o pv { rd := true } (elemParts o.fmt i j) with
      | (s, .error t) => s.tileStop o t
      | (s, .ok px) =>
        if !s.mayTouch o pv px.loc px.pa (tileBytesOf o.fmt) then s
        else match s.tilePoison px (elemParts o.fmt i j) with
          | some t => s.tileFault o t
          | none => done s fun k => (s.homeBytes px.loc (px.pa + k) 1).headD 0
  else
    match (if o.op < 0x85 then h.map.compose o.editMap else none) with
    | some m => ((s.tileWrite o hx.loc hx.pa (h.edit m).bytes).nextTile o).noteHdr hx.loc hx.pa (h.edit m)
    | none =>
      let fill := isZero32 h.map.a
      let parts := [(0, tileBytesOf o.fmt)]
      match s.tilePage o pv { rd := !fill, wr := true } parts with
      | (s, .error t) => s.tileStop o t
      | (s, .ok px) =>
        if !s.mayTouch o pv px.loc px.pa (tileBytesOf o.fmt) then s
        else match (if fill then none else s.tilePoison px parts) with
          | some t => s.tileFault o t
          | none => s.beginMat o hx px h

/-- An operation on its next tile: the header is translated as the operation reaches it, but for TLDE and TSTE, which hold it since issue (R215). -/
def State.tileReach (s : State) (o : TileOp) : State :=
  let va := o.hdrVa o.doneTiles
  match (if o.hold.isEmpty then s.tilePage o va { rd := true, wr := o.writes } hdrParts else (s, .ok { loc := o.hdrLoc, pa := o.hdrPa, level := o.hdrLevel })) with
  | (s, .error t) => s.tileStop o t
  | (s, .ok hx) =>
    if s.tileBusy o.id o.fmt hx.loc hx.pa || !s.mayTouch o va hx.loc hx.pa 32 || !s.payClear o then s
    else match s.tilePoison hx hdrParts with
      | some t => s.tileFault o t
      | none => s.tileAtHeader o hx

/-- One act of a tile-view operation. -/
def State.tileStep (s : State) (o : TileOp) : State :=
  match o.fail with
  | some t => s.tileFault o t
  | none =>
  if o.op = 0x85 then
    if !s.mayTouch o o.desc o.hdrLoc o.descPa 4 then s
    else
      let ctl := s.homeNum o.hdrLoc o.descPa 4
      let h := ordCompose (fieldN ctl 5 3) (o.data.toNat % 8)
      (s.tileWrite o o.hdrLoc o.descPa (leBytes 4 (ctl - 32 * fieldN ctl 5 3 + 32 * h))).nextTile o
  else if o.busy > 0 then s.materialise o
  else s.tileReach o

/-- TILE_VIEW_OP (R159): a posted operation acts on its next tile at the tile's home slice. -/
def execTileViewOp (id : Nat) (s : State) : Host.Outcome State Fault Refusal :=
  .next (match s.tileOps.find? fun o => o.id == id with
    | some o => s.tileStep o
    | none => s)

end Sys2Proof.Machine
end

