-- ==== Sys2Proof/Machine/Copy.lean ====
section
/-! DEFINITION. The copy engine (11 R269..R271; 12 R280..R285; 16 R360, 17 R362): the record, its checks, the elements each kind moves, chunks and their faults. -/

namespace Sys2Proof.Machine

-- tokens (R269, R274)

/-- A command takes a token: busy, with its origin; ERR and CSTAT stay those of the last command until it completes, NVST reads 0 until then and ORIGIN is the new command's: what the two read meanwhile is the model's choice (log 104). -/
def State.takeToken (s : State) (sid t : Nat) (origin : BitVec 2) (sys : Bool) : State :=
  s.setSt sid fun st => { st with toks := st.toks.modify t fun k => { k with busy := true, origin := origin, nvst := 0, sys := sys } }

/-- A command completes its token (R269, R274). -/
def State.endToken (s : State) (sid t : Nat) (cstat : BitVec 8) (err : Bool) (nvst : BitVec 15) : State :=
  s.setSt sid fun st => { st with toks := st.toks.modify t fun k => { k with busy := false, err := err, cstat := cstat, nvst := nvst } }

/-- The strand slot of a strand (R285): 32 × its row on the core + its lane. -/
def State.ownerOf (s : State) (st : Strand) : BitVec 13 := BitVec.ofNat 13 ((s.rowOf st).phys * 32 + st.lane)

-- the record (R280)

/-- The fields of a copy record. -/
structure CpyRec where
  kind : Nat
  src : Nat
  dst : Nat
  sf : Nat
  df : Nat
  trans : Bool
  conv : Bool
  permit : Bool
  maps : Bool
  crc : Bool
  rsv : Nat
  scale : Nat
  w3 : Nat
  rows : Nat
  cols : Nat
  fill : Nat
  len : Nat
  w5 : Nat
  w6 : Nat
  deriving DecidableEq, Repr

def CpyRec.of (ws : List Word) : CpyRec :=
  let w := fun (i : Nat) => (ws.getD i 0).toNat
  { kind := fieldN (w 0) 0 4, sf := fieldN (w 0) 4 4, df := fieldN (w 0) 8 4, trans := bitN (w 0) 12, conv := bitN (w 0) 13
    permit := bitN (w 0) 14, maps := bitN (w 0) 15, crc := bitN (w 0) 16, rsv := fieldN (w 0) 17 7, scale := fieldN (w 0) 24 8
    src := w 1 + 2 ^ 32 * w 2, dst := w 5 + 2 ^ 32 * w 6, w3 := w 3, rows := fieldN (w 4) 0 8, cols := fieldN (w 4) 8 8
    fill := fieldN (w 4) 16 16, len := w 4, w5 := w 5, w6 := w 6 }

def CpyRec.toSlot (r : CpyRec) : Bool := r.kind == 0 || r.kind == 3
def CpyRec.fromSlot (r : CpyRec) : Bool := r.kind == 1 || r.kind == 4
def CpyRec.tensor (r : CpyRec) : Bool := r.kind == 3 || r.kind == 4
def CpyRec.slot (r : CpyRec) : Nat := r.w5 % 512
def CpyRec.va (r : CpyRec) : Addr := BitVec.ofNat 64 r.src

/-- Bytes of an element, which is also how many slots a tile of them takes (R283). -/
def fmtBytes (f : Nat) : Nat := tileBytesOf f / 1024

/-- The format of the slot side. -/
def CpyRec.slotFmt (r : CpyRec) : Nat := if r.toSlot then r.df else r.sf
def CpyRec.per (r : CpyRec) : Nat := fmtBytes r.slotFmt

/-- Formats a copy takes (R281). -/
def copyFmt (f : Nat) : Bool := [6, 7, 8, 9, 10, 11, 12, 14].contains f

def CpyRec.row0 (r : CpyRec) : Int := signedN 16 r.w3
def CpyRec.col0 (r : CpyRec) : Int := signedN 16 (r.w3 / 65536)

/-- The BNI conditions of R281 that the record shows. -/
def CpyRec.bniPlain (r : CpyRec) : Bool :=
  r.sf == 14 && r.df == 14 && !r.conv && !r.trans && r.rows == 32 && r.cols == 32
    && (!r.tensor || decide (r.row0 % 32 = 0) && decide (r.col0 % 32 = 0))
def CpyRec.anyBni (r : CpyRec) : Bool := r.sf == 14 || r.df == 14

/-- A record that R271 and R281 refuse at issue: OOR code 10. -/
def CpyRec.refused (r : CpyRec) (scratch : Nat) : Bool :=
  decide (r.kind > 4) || r.rsv != 0 || (r.scale != 0 && !r.conv) || (r.kind == 2 && r.w3 != 0)
    || (r.kind != 2 && (decide (r.w5 ≥ 512) || r.w6 != 0)) || (decide (r.kind ≤ 2) && r.maps) || (decide (r.kind ≥ 3) && r.crc)
    || (r.kind != 2 && !(1 ≤ r.rows && r.rows ≤ 32 && 1 ≤ r.cols && r.cols ≤ 32)) || (r.kind == 2 && r.len == 0)
    || (r.kind == 2 && (r.sf != 0 || r.df != 0 || r.conv || r.trans || r.permit))
    || (r.kind != 2 && (!copyFmt r.slotFmt || decide (r.slot + r.per > scratch)))
    || (decide (r.kind ≤ 1) && (!copyFmt r.sf || !copyFmt r.df || (!r.conv && r.sf != r.df))) || (r.kind != 2 && r.anyBni && !r.bniPlain)

/-- A descriptor, or a format beside it, that ends the command with STATUS 3 (R281). -/
def CpyRec.unfit (r : CpyRec) (d : Desc) : Bool := d.code != 0 || (if r.kind = 3 then r.sf else r.df) != d.fmt || (r.anyBni && d.ord != 0)

/-- The stored element of a region element, none outside the tensor (R147, R283). -/
def CpyRec.stored (r : CpyRec) (d : Desc) (i j : Nat) : Option (Nat × Nat) :=
  let y := r.row0 + i
  let x := r.col0 + j
  if y < 0 ∨ x < 0 then none else d.stored y.toNat x.toNat

/-- The region's elements: row, column. -/
def CpyRec.region (r : CpyRec) : List (Nat × Nat) := (List.range (r.rows * r.cols)).map fun n => (n / r.cols, n % r.cols)

/-- The stored tiles a region touches, in ascending order of their index (R283). -/
def CpyRec.tiles (r : CpyRec) (d : Desc) : List Nat :=
  sortBy id ((r.region.filterMap fun x => (r.stored d x.1 x.2).map fun y => y.1 / 32 * d.grid + y.2 / 32).eraseDups)

/-- The number of chunks (R284). -/
def CpyRec.chunks (r : CpyRec) (d : Desc) : Nat :=
  match r.kind with
  | 1 => if r.sf = 14 then 4 else ceilDiv r.rows 8
  | 2 => (r.dst + r.len - 1) / 4096 - r.dst / 4096 + 1
  | 4 => (r.tiles d).length
  | _ => 4

-- conversions (R282, R283)

/-- R282 for CONV = 1. -/
def CpyRec.scaled (r : CpyRec) (y : Val) : Nat :=
  if r.scale = 255 then (if isFp r.df then Rd.enc (fmtOf r.df) .nan else 0)
  else
    let z := y.scale (127 - (r.scale : Int))
    if isFp r.df then ((roundTo (fmtOf r.df) z .rne).sat (fmtOf r.df)).enc (fmtOf r.df)
    else wrapN (intWidth r.df) (toInt r.df z .rne true)

/-- cvt of R282 for KIND 3 and 4; for an integer DSTFMT, round_to is to_int without saturation (R125). -/
def CpyRec.cvtTensor (r : CpyRec) (y : Val) : Nat :=
  if r.conv then r.scaled y
  else if isFp r.df then (roundTo (fmtOf r.df) y .rne).enc (fmtOf r.df)
  else
    let ty := if r.df = 14 then 6 else r.df
    wrapN (intWidth ty) (toInt ty y .rne false)

/-- The value of a pattern of a format. -/
def fmtVal (f x : Nat) : Val := if isFp f then widenF (fmtOf f) x else ofInt (readInt (if f = 14 then 6 else f) x)

/-- cvt of R282 for KIND 0 and 1, on patterns. -/
def CpyRec.cvtPlain (r : CpyRec) (x : Nat) : Nat := if r.conv then r.scaled (fmtVal r.sf x) else x

/-- f(FILL) (R283). -/
def CpyRec.fillPat (r : CpyRec) : Nat :=
  let y := widenF fp16 r.fill
  if r.conv then r.scaled y
  else if isFp r.df then (roundTo (fmtOf r.df) y .rne).enc (fmtOf r.df)
  else let ty := if r.df = 14 then 6 else r.df; wrapN (intWidth ty) (toInt ty y .rne true)

-- slots of one, two or four (R202, R283, R362)

/-- Where element (i, j) of a tile with `e`-byte elements lies: which slot, and its first byte. -/
def slotPlace (e i j : Nat) : Nat × Nat := (i / (32 / e), e * (32 * (i % (32 / e)) + j))

/-- The pattern of an element in the slots from X on, and whether it is poisoned. -/
def Rank.slotElem (r : Rank) (f x i j : Nat) : Nat × Bool :=
  if f = 14 then (r.elem 14 x i j, r.elemPoison 14 8 x i j)
  else
    let e := fmtBytes f
    let p := slotPlace e i j
    let sl := r.slots.getD (x + p.1) {}
    (sl.pay.num p.2 e, (List.range e).any fun k => sl.poison.contains (p.2 + k))

/-- Write bytes with their poison into the payload of a slot. -/
def Slot.putBytes (sl : Slot) (ofs : Nat) (bs : List (Byte × Bool)) : Slot :=
  { sl with
    pay := sl.pay.store ofs (bs.map (·.1))
    poison := (sl.poison.filter fun i => !(decide (ofs ≤ i) && decide (i < ofs + bs.length)))
      ++ (bs.zipIdx.filter fun b => b.1.2).map fun b => ofs + b.2 }

/-- The bitmap of a whole destination tile (R202, R360): bit 4 * bi + bj marks an 8x8 block of ±0 encodings. -/
def Rank.tileBitmap (r : Rank) (f x : Nat) : BitVec 16 :=
  let zero := fun (p : Nat) => if isFp f then p % 2 ^ ((fmtOf f).width - 1) == 0 else p == 0
  BitVec.ofNat 16 (maskOf 16 fun b => (List.range 64).all fun e => zero (r.slotElem f x (8 * (b / 4) + e / 8) (8 * (b % 4) + e % 8)).1)

/-- The bytes of an element pattern with its poison. -/
def patBytes (e : Nat) (x : Nat × Bool) : List (Byte × Bool) := (leBytes e x.1).map fun b => (b, x.2)

-- memory accesses of the engines

/-- The core whose engine runs a copy. -/
def State.copyCore (s : State) (c : Copy) : Nat := (s.rank c.uid c.prank).core

/-- An address of a copy with the pointer tag of the record's address (R312). -/
def Copy.tagged (c : Copy) (va : Addr) : Addr :=
  let r := CpyRec.of c.words
  if r.tensor then va &&& ~~~ ((0xF : Addr) <<< 56) ||| (r.va &&& ((0xF : Addr) <<< 56)) else va

/-- Translate one page's part of an access of a copy and check its granules; a poisoned tag does not stop a read, whose data is poisoned (R284, R312, R313). -/
def State.copyPage (s : State) (c : Copy) (va : Addr) (n : Nat) (wr : Bool) : State × Except Trap Xlat :=
  match s.translate (s.copyCore c) c.ctx va { rd := !wr, wr := wr, locs := [0, 1, 2] } with
  | (s, .bad t) => (s, .error t)
  | (s, .ok x) =>
    let o := x.pa % 32
    match (List.range (ceilDiv (n + o) 32)).findSome? fun k =>
        (s.tagCheck 0 { x with pa := x.pa - o + 32 * k } (c.tagged va - BitVec.ofNat 64 o + BitVec.ofNat 64 (32 * k)) wr).filter fun t => wr || t.cls != 0x0C with
    | some t => (s, .error t)
    | none => (s, .ok x)

/-- The parts of n bytes from an address on, one for each page. -/
def bytesParts : Nat → Addr → Nat → List (Addr × Nat)
  | 0, _, _ => []
  | k + 1, va, n =>
    let m := min n (4096 - va.toNat % 4096)
    if n = 0 then [] else (va, m) :: bytesParts k (va + BitVec.ofNat 64 m) (n - m)

/-- Translate parts in order. -/
def State.copyPages (s : State) (c : Copy) (wr : Bool) : List (Addr × Nat) → State × Except Trap (List (Xlat × Nat))
  | [] => (s, .ok [])
  | p :: ps =>
    match s.copyPage c p.1 p.2 wr with
    | (s, .error t) => (s, .error t)
    | (s, .ok x) => match State.copyPages s c wr ps with
      | (s, .error t) => (s, .error t)
      | (s, .ok xs) => (s, .ok ((x, p.2) :: xs))

/-- No store of the copy's core to some bytes is on its way to their home: the engine, a party of core scope, comes after what the core has performed (R227, R228). -/
def State.engineClear (s : State) (c : Copy) (loc pa n : Nat) : Bool := s.pend.all fun b => !(b.atCore (s.copyCore c) && b.loc == loc && bytesMeet b.pa b.width pa n)

/-- The bytes at a home with their poison (R284). -/
def State.poisonBytes (s : State) (loc pa n : Nat) : List (Byte × Bool) :=
  (s.homeBytes loc pa n).zipIdx.map fun b => (b.1, s.poisonedIn loc (pa + b.2) 1)

/-- A copy that has translated a page: what it read early is older than a walk, which acquires, and goes (R305). -/
def Copy.walked (c : Copy) (x : Xlat) : Copy := if x.walked then { c with early := [] } else c

/-- Elements of e bytes as a copy reads them, with their poison: those it has read early, else as its core sees them (R227, R250, R251). -/
def State.copyBytes (s : State) (c : Copy) (e loc pa n : Nat) : List (Byte × Bool) :=
  let e := if n % e = 0 then e else 1
  (List.range (n / e)).flatMap fun k => (earlyBytes c.early loc (pa + e * k) e).getD (s.coreBytes (s.copyCore c) loc (pa + e * k) e)

/-- Read n bytes for a copy, as elements of e. -/
def State.copyRead (s : State) (c : Copy) (e : Nat) (va : Addr) (n : Nat) : State × Except Trap (List (Byte × Bool)) :=
  match s.copyPages c false (bytesParts 3 va n) with
  | (s, .error t) => (s, .error t)
  | (s, .ok xs) => (s, .ok (xs.flatMap fun x => s.copyBytes (c.walked x.1) e x.1.loc x.1.pa x.2))

/-- Write bytes with their poison at a home (R284, R341). -/
def State.writePoison (s : State) (loc pa : Nat) (bs : List (Byte × Bool)) : State :=
  let s := s.writeHome 0 loc pa (bs.map (·.1))
  { s with poison := ((bs.zipIdx.filter fun b => b.1.2).map fun b => codeword loc (pa + b.2)).eraseDups ++ s.poison }

/-- A copy engine's write performs at home, and for its core too (R227, R228): the core keeps no older copy of the lines, and no other copy an older read of the bytes. -/
def State.engineStore (s : State) (core loc pa : Nat) (bs : List (Byte × Bool)) : State :=
  let s := s.writePoison loc pa bs
  { s with l1 := s.l1.filter fun l => !(l.core == core && l.loc == loc && decide (pa / 128 ≤ l.line) && decide (l.line ≤ (pa + bs.length - 1) / 128)) }

/-- Write bytes to translated parts. -/
def State.writeParts (s : State) (core : Nat) : List (Xlat × Nat) → List (Byte × Bool) → State
  | [], _ => s
  | x :: xs, bs => State.writeParts (s.engineStore core x.1.loc x.1.pa (bs.take x.2)) core xs (bs.drop x.2)

/-- Write pieces for a copy: every page translates before any byte is written. -/
def State.copyWrite (s : State) (c : Copy) (ps : List (Addr × List (Byte × Bool))) : State × Except Trap Unit :=
  match s.copyPages c true (ps.flatMap fun p => bytesParts 3 p.1 p.2.length) with
  | (s, .error t) => (s, .error t)
  | (s, .ok xs) => (s.writeParts (s.copyCore c) xs (ps.flatMap (·.2)), .ok ())

-- the record as the engine writes it (R271, R280)

/-- An engine's write of a word of the record: dropped when the record's slot is no longer READY (R271). -/
def State.putRecord (s : State) (c : Copy) (w : Nat) (v : Nat) : State :=
  if (s.slot c.uid c.prank (c.recordAt / 1024)).state = .ready then s.storeScratch c.uid (c.prank * 2 ^ 19 + c.recordAt + 4 * w) (leBytes 4 v) else s

/-- CHUNK and STATUS in w7; a count past 16 bits, which the field cannot hold, is any value. -/
def State.putStatus (s : State) (c : Copy) (status : Nat) : State :=
  s.putRecord c 7 ((if c.chunk < 65536 then c.chunk else (s.anyWord 65535).toNat % 65536) + 65536 * status)

def State.setCopy (s : State) (c : Copy) : State := { s with copies := s.copies.map fun x => if x.id = c.id then c else x }

/-- The slots of a copy turn as a state says. -/
def State.copySlots (s : State) (c : Copy) (f : Slot → Slot) : State :=
  let r := CpyRec.of c.words
  if r.kind = 2 then s else (List.range r.per).foldl (fun s q => s.setSlot c.uid c.prank (r.slot + q) f) s

/-- The parts of memory that the chunks of a copy from the n-th on would write (R283, R284): address and length. -/
def Copy.restParts (c : Copy) (n : Nat) : List (Addr × Nat) :=
  let r := CpyRec.of c.words
  match r.kind with
  | 1 =>
    if r.sf = 14 then [(r.va + BitVec.ofNat 64 (256 * n), 1024 - 256 * n)]
    else ((List.range r.rows).drop (8 * n)).map fun i => (r.va + BitVec.ofNat 64 (i * r.w3), r.cols * fmtBytes r.df)
  | 2 =>
    let at_ := if n = 0 then r.dst else (r.dst / 4096 + n) * 4096
    [(BitVec.ofNat 64 at_, r.dst + r.len - at_)]
  | 4 =>
    let d := Desc.ofBytes c.desc
    let left := (r.tiles d).drop n
    r.region.flatMap fun x => match r.stored d x.1 x.2 with
      | some y =>
        let t := y.1 / 32 * d.grid + y.2 / 32
        if left.contains t then (tileElemBytes d.fmt (y.1 % 32) (y.2 % 32)).map fun o => (d.paybase + BitVec.ofNat 64 (t * tileBytesOf d.fmt + o), 1) else []
      | none => []
  | _ => []

/-- Where a byte of a copy's destination lies, if its writes may reach it: a peer's too when it, or the port, is what failed (R284). -/
def State.undefPlace (s : State) (c : Copy) (va : Addr) : Option (Nat × Nat) :=
  match (s.copyPage c va 1 true).2 with
  | .ok x => some (x.loc, x.pa)
  | .error t => if t.frs.toNat % 256 = 11 then s.vaToPa c.ctx va.toNat else none

/-- The destination bytes in memory that a failed copy leaves undefined from the n-th chunk on (R284): those its writes may reach. Each byte is a free value of its own. -/
def State.undefFrom (s : State) (c : Copy) (n : Nat) : State :=
  let bytes := (c.restParts n).flatMap fun p => (List.range p.2).map fun i => p.1 + BitVec.ofNat 64 i
  let s := bytes.zipIdx.foldl (fun s b => match s.undefPlace c b.1 with
    | some x => s.engineStore (s.copyCore c) x.1 x.2 [(Config.freeByte s.nextId b.2, false)]
    | none => s) s
  { s with nextId := s.nextId + 1 }

def State.undefRest (s : State) (c : Copy) : State := s.undefFrom c c.chunk

/-- A copy ends with STATUS 1 or 3 (R270, R283, R284). DEDUCED (log 54): W6 takes the CRC with STATUS 1 only. -/
def State.endCopy (s : State) (c : Copy) (status : Nat) : State :=
  let r := CpyRec.of c.words
  let s : State := { s with copies := s.copies.filter fun x => x.id != c.id }
  let s :=
    if r.fromSlot then (s.copySlots c fun x => { x with state := .ready, owner := 0x1FFF }).readyAcquire c.uid c.prank c.acq
    else if r.kind = 2 then s
    else if status = 1 then
      let bm := (s.rank c.uid c.prank).tileBitmap r.df r.slot
      (s.copySlots c fun x => { x with
        state := .ready, expect := 0, owner := 0x1FFF, fmt := BitVec.ofNat 4 r.df, planes := if r.df = 14 then 8 else 0, bitmap := bm
        pay := ({} : Block).store 0 ((List.range 1024).map x.pay.get)
        side := ({} : Block).store 0 (List.replicate 32 (BitVec.ofNat 8 (if r.conv then r.scale else 127))), poison := x.poison.filter fun i => decide (i < 1024) }).readyAcquire c.uid c.prank c.acq
    else
      let f := s.nextId
      let s : State := { s with nextId := s.nextId + 2 * r.per }
      (List.range r.per).foldl (fun s q => s.setSlot c.uid c.prank (r.slot + q) fun x => { x with
        state := .empty, cerr := true, expect := 0, owner := 0x1FFF, pay := Block.undef (f + 2 * q), side := Block.undef (f + 2 * q + 1), poison := [] }) s
  let s := if status = 3 && !c.bad then s.undefRest c else s
  let s := if r.crc && status == 1 then s.putRecord c 6 (~~~ c.crc).toNat else s
  let s := s.putStatus c status
  (s.endToken c.sid c.tok (BitVec.ofNat 8 status) (status == 3) 0).settled c.uid

/-- A chunk has been written: it is counted, and the last one ends the command. -/
def State.chunkDone (s : State) (c : Copy) (bs : List Byte) : State :=
  let r := CpyRec.of c.words
  let c := { c with chunk := c.chunk + 1, crc := if r.crc then bs.foldl (fun x b => crcBits 8 b.toNat x) c.crc else c.crc }
  if c.chunk ≥ r.chunks (Desc.ofBytes c.desc) then s.endCopy c 1 else (s.setCopy c).putStatus c 0

/-- A fault of a chunk (R284): a page fault leaves STATUS 2 until firmware has resolved it; any other ends the command. -/
def State.copyFault (s : State) (c : Copy) (t : Trap) : State :=
  if t.cls = 4 then (s.setCopy { c with faulted := true }).putStatus c 2 else s.endCopy c 3

-- the chunks (R282..R284)

/-- The chunk's bytes are written into the destination slots, and EXPECT counts them (R270). -/
def State.slotChunk (s : State) (c : Copy) (q ofs : Nat) (bs : List (Byte × Bool)) : State :=
  let r := CpyRec.of c.words
  let s := (s.setRank c.uid c.prank fun k => k.spoilFilled (r.slot + q)).setSlot c.uid c.prank (r.slot + q) fun x => { x.putBytes ofs bs with expect := x.expect - BitVec.ofNat 16 bs.length }
  s.chunkDone c (bs.map (·.1))

/-- The bytes of rows 8k..8k+7 of the destination tile, from the region's elements (R283). -/
def CpyRec.destRows (r : CpyRec) (k : Nat) (elem : Nat → Nat → Option (Nat × Bool)) : List (Byte × Bool) :=
  (List.range 256).flatMap fun n =>
    let i := 8 * k + n / 32
    let j := n % 32
    let a := if r.trans then j else i
    let b := if r.trans then i else j
    patBytes (fmtBytes r.df) ((if a < r.rows ∧ b < r.cols then elem a b else none).getD (r.fillPat, false))

/-- Put a chunk of rows in its slot; BNI elements of a KIND 3 copy go into the planes, two a chunk. DEDUCED (log 54): of a tile whose header is not the identity, or at the tensor's edge under PERMIT, those are the elements read through the map and f(FILL) (R282, R283), not the stored planes unchanged (R284). -/
def State.putRows (s : State) (c : Copy) (elem : Nat → Nat → Option (Nat × Bool)) : State :=
  let r := CpyRec.of c.words
  let e := fmtBytes r.df
  if r.df = 14 then
    let els := (List.range 1024).map fun n => (elem (n / 32) (n % 32)).getD (r.fillPat, false)
    let bad := fun (o : Nat) => (List.range 8).any fun b => (els.getD (32 * (o % 128 / 4) + o % 4 * 8 + b) (0, false)).2
    s.slotChunk c 0 (256 * c.chunk) ((((tileBytes 14 (els.map (·.1))).drop (256 * c.chunk)).take 256).zipIdx.map fun b => (b.1, bad (256 * c.chunk + b.2)))
  else
    let p := slotPlace e (8 * c.chunk) 0
    s.slotChunk c p.1 p.2 (r.destRows c.chunk elem)

/-- Read region rows of a KIND 0 copy: their elements' bytes. -/
def State.copyRows (s : State) (c : Copy) : List Nat → State × Except Trap (List (Nat × List (Byte × Bool)))
  | [] => (s, .ok [])
  | i :: is =>
    let r := CpyRec.of c.words
    match s.copyRead c (fmtBytes r.sf) (r.va + BitVec.ofNat 64 (i * r.w3)) (r.cols * fmtBytes r.sf) with
    | (s, .error t) => (s, .error t)
    | (s, .ok bs) => match State.copyRows s c is with
      | (s, .error t) => (s, .error t)
      | (s, .ok rest) => (s, .ok ((i, bs) :: rest))

/-- KIND 0: eight rows of the destination, or two planes. -/
def State.chunkMemSlot (s : State) (c : Copy) : State :=
  let r := CpyRec.of c.words
  let k := c.chunk
  if r.sf = 14 then
    match s.copyRead c 1 (r.va + BitVec.ofNat 64 (256 * k)) 256 with
    | (s, .error t) => s.copyFault c t
    | (s, .ok bs) => s.slotChunk c 0 (256 * k) bs
  else
    let rows := if r.trans then (if 8 * k < r.cols then List.range r.rows else []) else (List.range r.rows).filter fun i => i / 8 == k
    match s.copyRows c rows with
    | (s, .error t) => s.copyFault c t
    | (s, .ok rs) =>
      let e := fmtBytes r.sf
      s.putRows c fun a b => (rs.find? fun x => x.1 == a).map fun x =>
        let bs := (x.2.drop (e * b)).take e
        (r.cvtPlain (ofLeBytes (bs.map (·.1))), bs.any (·.2))

/-- Whether the rows of a KIND 1 copy overlap in memory. -/
def CpyRec.rowsOverlap (r : CpyRec) : Bool := r.sf != 14 && decide (r.rows > 1) && decide (r.w3 < r.cols * fmtBytes r.df)

/-- The bytes that overlapping rows leave, in ascending address (R283): each of the last row that has it, the model's choice (log 112). -/
def CpyRec.ascending {α : Type} (r : CpyRec) (row : Nat → List α) : List α :=
  let last := fun (o : Nat) => if r.w3 = 0 then r.rows - 1 else min (r.rows - 1) (o / r.w3)
  (List.range ((r.rows - 1) * r.w3 + r.cols * fmtBytes r.df)).filterMap fun o => (row (last o))[o - last o * r.w3]?

/-- KIND 1: eight region rows, or two planes. -/
def State.chunkSlotMem (s : State) (c : Copy) : State :=
  let r := CpyRec.of c.words
  let k := c.chunk
  let rank := s.rank c.uid c.prank
  let row := fun (i : Nat) => (List.range r.cols).flatMap fun j =>
    let x := if r.trans then rank.slotElem r.sf r.slot j i else rank.slotElem r.sf r.slot i j
    patBytes (fmtBytes r.df) (r.cvtPlain x.1, x.2)
  let ps : List (Addr × List (Byte × Bool)) :=
    if r.sf = 14 then
      let sl := rank.slots.getD r.slot {}
      [(r.va + BitVec.ofNat 64 (256 * k), (List.range 256).map fun i => (sl.pay.get (256 * k + i), sl.poison.contains (256 * k + i)))]
    else ((List.range r.rows).filter fun i => i / 8 == k).map fun i => (r.va + BitVec.ofNat 64 (i * r.w3), row i)
  match s.copyWrite c ps with
  | (s, .error t) => s.copyFault c t
  | (s, .ok _) => s.chunkDone c ((if !r.rowsOverlap then ps.flatMap (·.2)
      else if (k + 1) * 8 < r.rows then [] else r.ascending row).map (·.1))

/-- KIND 2: 4 KiB of the destination; bytes where the ranges overlap, whatever their pointer tags (R302), take any value (R283). -/
def State.chunkMemMem (s : State) (c : Copy) : State :=
  let r := CpyRec.of c.words
  let lo := if c.chunk = 0 then r.dst else (r.dst / 4096 + c.chunk) * 4096
  let n := min (r.dst + r.len) ((r.dst / 4096 + c.chunk + 1) * 4096) - lo
  match s.copyRead c 1 (BitVec.ofNat 64 (r.src + (lo - r.dst))) n with
  | (s, .error t) => s.copyFault c t
  | (s, .ok bs) =>
    let f := s.nextId
    let s : State := { s with nextId := f + 1 }
    let va := fun (x : Nat) => x % 2 ^ 56
    let bs := bs.zipIdx.map fun b => if va r.src ≤ va (lo + b.2) ∧ va (lo + b.2) < va r.src + r.len then (Config.freeByte f b.2, false) else b.1
    match s.copyWrite c [(BitVec.ofNat 64 lo, bs)] with
    | (s, .error t) => s.copyFault c t
    | (s, .ok _) => s.chunkDone c (bs.map (·.1))

/-- The pages of a range that a copy reads, writes or both. -/
def State.copyNeed (s : State) (c : Copy) (va : Addr) (n : Nat) (rd wr : Bool) : State × Except Trap Xlat :=
  match (if rd then s.copyPage c va n false else (s, .ok {})) with
  | (s, .error e) => (s, .error e)
  | (s, .ok x) => if wr then s.copyPage c va n true else (s, .ok x)

/-- The header of a tile of a tensor-kind copy, translated; a full-tile write does not read it (R157); none while another operation materialises the tile (R159). -/
def State.copyHeader (s : State) (c : Copy) (d : Desc) (t : Nat) (rd wr : Bool) : State × Except Trap (Option Xlat) :=
  match s.copyNeed c (d.hdrbase + BitVec.ofNat 64 (32 * t)) 32 rd wr with
  | (s, .error e) => (s, .error e)
  | (s, .ok x) => (s, .ok (if s.tileBusy c.id d.fmt x.loc x.pa then none else some x))

/-- KIND 3 first reads the tiles its region touches, each as one tile-view operation (R148, R159); elements and header words that raw stores change meanwhile are seen old or new, each for itself (R159, R250). -/
def State.fetchTile (s : State) (c : Copy) (d : Desc) (t : Nat) : State :=
  let r := CpyRec.of c.words
  match s.copyHeader c d t true false with
  | (s, .error e) => s.copyFault c e
  | (s, .ok none) => s
  | (s, .ok (some hx)) =>
    let hs := s.copyBytes (c.walked hx) 4 hx.loc hx.pa 32
    let h := TileHdr.ofBytes (hs.map (·.1))
    let hbad := hs.any (·.2)
    if h.check d.fmt ≠ 0 then s.endCopy { c with bad := true } 3
    else
      let want := r.region.filterMap fun x => match r.stored d x.1 x.2 with
        | some y => if y.1 / 32 * d.grid + y.2 / 32 = t then some (x.1 * r.cols + x.2, y.1 % 32, y.2 % 32) else none
        | none => none
      let done := fun (s : State) (get : Nat → Byte) (bad : Nat → Bool) =>
        let els := want.map fun x =>
          (x.1, r.cvtTensor (h.map.read d.fmt (tileElem d.fmt get x.2.1 x.2.2)), hbad || (tileElemBytes d.fmt x.2.1 x.2.2).any bad)
        s.setCopy { c with fetched := c.fetched + 1, buf := c.buf ++ els }
      if isZero32 h.map.a then done s (fun _ => 0) (fun _ => false)
      else match s.copyPage c (d.paybase + BitVec.ofNat 64 (t * tileBytesOf d.fmt)) (tileBytesOf d.fmt) false with
        | (s, .error e) => s.copyFault c e
        | (s, .ok px) =>
          let bs := s.copyBytes (c.walked px) (if d.fmt = 14 then 1 else fmtBytes d.fmt) px.loc px.pa (tileBytesOf d.fmt)
          done s (fun i => (bs.getD i (0, false)).1) (fun i => (bs.getD i (0, false)).2)

/-- KIND 3. -/
def State.chunkTensorSlot (s : State) (c : Copy) : State :=
  let r := CpyRec.of c.words
  let d := Desc.ofBytes c.desc
  match (r.tiles d)[c.fetched]? with
  | some t => s.fetchTile c d t
  | none => s.putRows c fun a b => (c.buf.find? fun x => x.1 == a * r.cols + b).map (·.2)

/-- The payload of a tile that a KIND 4 copy writes (R283): elements over a base. -/
def State.putTile (s : State) (core : Nat) (d : Desc) (loc pa : Nat) (base : List (Nat × Bool)) (cells : List (Nat × Nat × Bool)) : State :=
  let els := cells.foldl (fun (l : List (Nat × Bool)) x => l.set x.1 x.2) base
  let bad := els.zipIdx.flatMap fun x => if x.1.2 then tileElemBytes d.fmt (x.2 / 32) (x.2 % 32) else []
  (s.engineStore core loc pa ((tileBytes d.fmt (els.map (·.1))).zipIdx.map fun b => (b.1, bad.contains b.2))).tileSeen loc pa (tileBytesOf d.fmt)

/-- A header that a copy writes (R157, R160). -/
def State.putHdr (s : State) (core loc pa : Nat) (h : TileHdr) : State := ((s.engineStore core loc pa (h.bytes.map fun b => (b, false))).tileSeen loc pa 32).noteHdr loc pa h

/-- A partial KIND 4 write goes on with its tile (R156, R160): the payload is rewritten with the copied elements, then the header becomes the identity. -/
def State.copyMaterialise (s : State) (c : Copy) : State :=
  let d := Desc.ofBytes c.desc
  let h := TileHdr.ofBytes c.hold
  if c.busy = 1 && !s.engineClear c c.payLoc c.payPa (tileBytesOf d.fmt) then s
  else if c.busy = 1 then
    let old := s.poisonBytes c.payLoc c.payPa (tileBytesOf d.fmt)
    let bad := fun (i : Nat) => !isZero32 h.map.a && (tileElemBytes d.fmt (i / 32) (i % 32)).any fun o => (old.getD o (0, false)).2
    let base := (materialised d.fmt d.satmat h.map fun i => (old.getD i (0, false)).1).zipIdx.map fun x => (x.1, bad x.2)
    (s.putTile (s.copyCore c) d c.payLoc c.payPa base c.buf).setCopy { c with busy := 2 }
  else
    let s := s.putHdr (s.copyCore c) c.hdrLoc c.hdrPa (h.put true d.fmt ValMap.ident)
    if (s.item? c.uid).isNone then { s with copies := s.copies.filter fun x => x.id != c.id } else s.chunkDone { c with busy := 0, buf := [], hold := [] } []

/-- KIND 4: one stored tile, written whole, or in part after materialisation (R155..R157, R160, R283). An invalid header ends a partial write, which leaves its tile unchanged (R146). -/
def State.chunkSlotTensor (s : State) (c : Copy) : State :=
  let r := CpyRec.of c.words
  let d := Desc.ofBytes c.desc
  let rank := s.rank c.uid c.prank
  let t := (r.tiles d).getD c.chunk 0
  let ti := t / d.grid
  let tj := t % d.grid
  let cells := r.region.filterMap fun x => match r.stored d x.1 x.2 with
    | some y => if y.1 / 32 * d.grid + y.2 / 32 = t then
        let e := if r.trans then rank.slotElem r.sf r.slot x.2 x.1 else rank.slotElem r.sf r.slot x.1 x.2
        some (32 * (y.1 % 32) + y.2 % 32, r.cvtTensor (fmtVal r.sf e.1), e.2)
      else none
    | none => none
  let whole := decide (cells.length = min 32 (d.rows - 32 * ti) * min 32 (d.cols - 32 * tj))
  match s.copyHeader c d t (!whole) true with
  | (s, .error e) => s.copyFault c e
  | (s, .ok none) => s
  | (s, .ok (some hx)) =>
    if !s.engineClear c hx.loc hx.pa 32 then s else
    let h := TileHdr.ofBytes (s.homeBytes hx.loc hx.pa 32)
    let pva := d.paybase + BitVec.ofNat 64 (t * tileBytesOf d.fmt)
    let n := tileBytesOf d.fmt
    if !whole && h.check d.fmt ≠ 0 then (s.undefFrom c (c.chunk + 1)).endCopy { c with bad := true } 3
    else match s.copyNeed c pva n (!whole && !isZero32 h.map.a) true with
      | (s, .error e) => s.copyFault c e
      | (s, .ok px) =>
        if !s.engineClear c px.loc px.pa n then s
        else if whole then ((s.putTile (s.copyCore c) d px.loc px.pa (List.replicate 1024 (0, false)) cells).putHdr (s.copyCore c) hx.loc hx.pa (h.put true d.fmt ValMap.ident)).chunkDone c []
        else ((s.engineStore (s.copyCore c) hx.loc hx.pa ((leBytes 4 (h.ctl ||| 4)).map fun b => (b, false))).tileSeen hx.loc hx.pa 4).setCopy
          { c with busy := 1, hdrLoc := hx.loc, hdrPa := hx.pa, payLoc := px.loc, payPa := px.pa, hold := h.bytes, buf := cells }

/-- COPY_CHUNK_WRITE (R284): the engine writes the next chunk of a command, reads the next tile for it, or ends it. -/
def State.copyStep (s : State) (c : Copy) : State :=
  let r := CpyRec.of c.words
  if c.busy > 0 then s.copyMaterialise c
  else if c.faulted then s
  else if c.bad then s.endCopy c 3
  else if r.chunks (Desc.ofBytes c.desc) = 0 then s.endCopy c 1
  else match r.kind with
    | 0 => s.chunkMemSlot c
    | 1 => s.chunkSlotMem c
    | 2 => s.chunkMemMem c
    | 3 => s.chunkTensorSlot c
    | _ => s.chunkSlotTensor c

/-- COPY_CHUNK_WRITE (R284). -/
def execCopyChunkWrite (id : Nat) (s : State) : Host.Outcome State Fault Refusal :=
  .next (match s.copies.find? fun c => c.id == id with
    | some c => s.copyStep c
    | none => s)

/-- COPY_FAULT_RESUME (R284): firmware has resolved the fault; STATUS reads 0 again and the engine resumes from chunk CHUNK. -/
def execCopyFaultResume (id : Nat) (s : State) : Host.Outcome State Fault Refusal :=
  .next (match s.copies.find? fun c => c.id == id with
    | some c => if c.faulted then (s.setCopy { c with faulted := false }).putStatus c 0 else s
    | none => s)

-- CPY at issue (R271)

/-- The strand's own earlier scratchpad accesses to some bytes have performed, and its acquires (R228). -/
def State.spadClear (s : State) (st : Strand) (p o n : Nat) : Bool :=
  let a : Acc := { id := s.nextId, sid := st.sid, uid := st.uid, loc := 4, pa := p * 2 ^ 19 + o, width := n }
  s.noAcqBefore a && (s.earlier a).all (fun b => !(b.overlaps a))

/-- Whether any address of a command is host or peer (R250). -/
def State.copySys (s : State) (ctx : Nat) (r : CpyRec) (d : Option Desc) : Bool :=
  let far := fun (va : Addr) (n : Nat) => (bytesParts 1048577 va n).any fun p => match s.vaToPa ctx p.1.toNat with
    | some x => x.1 == 1 || x.1 == 2
    | none => false
  match r.kind, d with
  | 0, _ => (List.range r.rows).any fun i => far (r.va + BitVec.ofNat 64 (i * r.w3)) (r.cols * fmtBytes r.sf)
  | 1, _ => (List.range r.rows).any fun i => far (r.va + BitVec.ofNat 64 (i * r.w3)) (r.cols * fmtBytes r.df)
  | 2, _ => far r.va r.len || far (BitVec.ofNat 64 r.dst) r.len
  | _, some d => far r.va 64 || (r.tiles d).any fun t =>
      far (d.hdrbase + BitVec.ofNat 64 (32 * t)) 32 || far (d.paybase + BitVec.ofNat 64 (t * tileBytesOf d.fmt)) (tileBytesOf d.fmt)
  | _, none => far r.va 64

/-- The descriptor of a tensor-kind copy as read at issue: none when it is not 64-byte aligned. Every refusal is precise but poison; a page fault is serviced at the word (R271). -/
def State.copyDesc (s : State) (st : Strand) (r : CpyRec) : State × Except Flow (Option (List Byte)) :=
  if !r.tensor || r.src % 64 ≠ 0 then (s, .ok none)
  else match s.ctlAccess st r.va { rd := true, locs := [0, 1, 2] } with
    | (s, .error f) => (s, .error f)
    | (s, .ok x) => match s.tagRange st.sid x r.va false 64 with
      | some t => (s, .error (.trap t))
      | none =>
        if !s.ownClear st r.va x.loc x.pa 64 then (s, .error .stay)
        else if s.poisonedIn x.loc x.pa 64 then ((s.deferPoison st x.loc).1, .error .next)
        else (s, .ok (some (s.homeBytes x.loc x.pa 64)))

/-- Storage for the slots a copy writes: the record's, and its destinations (R71, R276). -/
def State.ownAll (s : State) (uid p : Nat) : List Nat → Option State
  | [] => some s
  | x :: xs => match s.ownSlot uid p x with
    | some s => State.ownAll s uid p xs
    | none => none

/-- The command is accepted (R270, R271). -/
def State.acceptCopy (s : State) (st : Strand) (tok o : Nat) (ws : List Word) (desc : List Byte) (bad sys : Bool) : State :=
  let r := CpyRec.of ws
  let (id, s) := s.fresh
  let c : Copy := { id := id, sid := st.sid, uid := st.uid, ctx := s.ctxOf st, prank := st.prank, tok := tok, recordAt := o, words := ws, bad := bad, sys := sys, desc := desc, acq := st.acqAt }
  let s := s.storeScratch st.uid (st.prank * 2 ^ 19 + o + 28) (leBytes 4 0)
  let s := s.takeToken st.sid tok 1 sys
  let own := s.ownerOf st
  let s := if r.toSlot then s.copySlots c fun x => { x with state := .filling, expect := 1024, owner := own, cerr := false }
    else s.copySlots c fun x => { x with state := .draining, owner := own }
  { s with copies := s.copies ++ [c] }

/-- The checks of CPY on a record that has been read (R271, R279, R281). -/
def State.cpyChecks (s : State) (st : Strand) (r : CpyRec) (p : Nat) : Option Flow :=
  let sl := (List.range r.per).map fun q => s.slot st.uid st.prank (r.slot + q)
  if p ≠ st.prank || r.refused (s.it st.uid).kernel.scratch then some (.trap ⟨8, 10, 0, 0⟩)
  else if r.toSlot && sl.any fun x => x.state != .empty then some (.trap ⟨7, 4, 0, 0⟩)
  else if r.kind != 2 && sl.any fun x => x.state == .empty && x.cerr then some (.trap ⟨9, 0, 0, 0⟩)
  else none

/-- One strand's CPY. -/
def State.cpyOne (s : State) (st : Strand) (w : Ins) : State × Flow :=
  let tok := tkOf w.d
  match s.spad st (s.sea st 0xB0 w) 32 with
    | (s, .error f) => (s, f)
    | (s, .ok (p, o)) =>
      if s.spadPoison st.uid p o 32 then (s, .trap ⟨0x0C, 3, 0, 0⟩)
      else if !s.spadClear st p o 32 then (s, .stay)
      else
        let sl := s.slot st.uid p (o / 1024)
        let ws : List Word := (List.range 8).map fun i => BitVec.ofNat 32 (sl.pay.num (o % 1024 + 4 * i) 4)
        let r := CpyRec.of ws
        match s.cpyChecks st r p with
        | some f => (s, f)
        | none => match s.copyDesc st r with
          | (s, .error f) => (s, f)
          | (s, .ok bs) =>
            let d := bs.map Desc.ofBytes
            let bad := r.tensor && (d.map fun d => r.unfit d).getD true
            let good := if bad then none else d
            let outside := match good with
              | some d => !r.permit && r.region.any fun x => (r.stored d x.1 x.2).isNone
              | none => false
            let waits := r.fromSlot && (List.range r.per).any fun q => (s.slot st.uid st.prank (r.slot + q)).state != .ready
            let sys := s.copySys (s.ctxOf st) r good
            if outside then (s, .trap ⟨8, 11, 0, 0⟩)
            else if waits || !s.released st.sid (if sys then 2 else 1) then (s, .stay)
            else match s.ownAll st.uid p (o / 1024 :: if r.toSlot then (List.range r.per).map (r.slot + ·) else []) with
              | none => (s, .park .storage)
              | some s => (s.acceptCopy st tok o ws (bs.getD []) bad sys, .next)

/-- CPY (R271). -/
def execCpy (w : Ins) (s : State) : Host.Outcome State Fault Refusal := .next (s.each 0xB0 w fun s st => s.cpyOne st w)

end Sys2Proof.Machine
end

