-- ==== Sys2Proof/Machine/Engines.lean ====
section
/-! DEFINITION. Multicast, tokens and slots (11 R269..R276), Grinders (11 R277; 12 R286..R290), storage queues (11 R278; 12 R291..R293). -/

namespace Sys2Proof.Machine

-- MCAST (R272)

/-- One strand's MCAST of slot S to slot T. -/
def State.mcastOne (s : State) (st : Strand) (w : Ins) (dst : Nat) : State × Flow :=
  let tok := tkOf w.d
  let src := xOf w.a
  let mask := w.imm.toNat % 65536
  if bitN mask st.prank || decide (mask ≥ 2 ^ (s.it st.uid).ranks.length) then (s, .trap ⟨8, 9, 0, 0⟩)
  else if mask = 0 then ((s.takeToken st.sid tok 2 false).endToken st.sid tok 0 false 0, .next)
  else match s.slotReady st src with
    | some f => (s, f)
    | none =>
      if !s.released st.sid 1 then (s, .stay)
      else
        let (id, s) := s.fresh
        let own := s.ownerOf st
        let s := s.takeToken st.sid tok 2 false
        let s := s.setSlot st.uid st.prank src fun x => { x with state := .draining, owner := own }
        ({ s with mcasts := s.mcasts ++ [{ id := id, sid := st.sid, uid := st.uid, prank := st.prank, tok := tok, src := src, dst := dst, todo := setBits 16 mask, owner := own, acq := st.acqAt }] }, .next)

/-- MCAST (R272). -/
def execMcast (w : Ins) (s : State) : Host.Outcome State Fault Refusal := .next (s.each 0xB1 w fun s st => s.mcastOne st w (xOf w.b))

/-- MCAST.same (R272). -/
def execMcastSame (w : Ins) (s : State) : Host.Outcome State Fault Refusal := .next (s.each 0xB1 w fun s st => s.mcastOne st w (xOf w.a))

/-- Whether a FILLING slot was armed by XARM: no copy and no operation fills it. -/
def State.armed (s : State) (uid k x : Nat) : Bool :=
  (s.slot uid k x).state == .filling
    && (s.copies.all fun c => let r := CpyRec.of c.words; !(c.uid == uid && c.prank == k && r.toSlot && decide (r.slot ≤ x) && decide (x < r.slot + r.per)))
    && ((s.rank uid k).ops.all fun o => destSlot o.word != some x)

/-- The contents a delivery brings: payload, sidecar, format tag, planes, bitmap. -/
def Slot.deliver (x src : Slot) : Slot :=
  { x with pay := src.pay, side := src.side, fmt := src.fmt, planes := src.planes, bitmap := src.bitmap, poison := src.poison, tref := false, cerr := false }

/-- A delivery reaches an EMPTY slot, which turns FILLING (R270) for the command of a strand slot (R285): none while a template-ref slot has no storage of its own. -/
def State.arriveAt (s : State) (uid k t : Nat) (own : BitVec 13) : Option State :=
  (s.ownSlot uid k t).map fun s => s.setSlot uid k t fun x => { x with state := .filling, expect := 1024, cerr := false, owner := own }

/-- A delivery fills slot T of a rank (R270, R272), and whether it was dropped. On the sender's own rank the slot passes on, as it turns READY, what the sender had acquired (R229, R236). -/
def State.deliverTo (s : State) (uid k t : Nat) (src : Slot) (acq : Nat) : State × Bool :=
  let x := s.slot uid k t
  if s.armed uid k t then
    let left := x.expect.toNat - 1024
    let s := (s.setRank uid k fun r => r.spoilFilled t).setSlot uid k t fun x =>
      { (x.deliver src) with expect := BitVec.ofNat 16 left, state := if left = 0 then .ready else .filling, owner := if left = 0 then 0x1FFF else x.owner }
    (if left = 0 then s.readyAcquire uid k acq else s, false)
  else (s.setSlot uid k t fun x => { x with err := true }, true)

/-- Whether another delivery has arrived at a slot and is filling it. -/
def State.filledBy (s : State) (m : Mcast) (rank : Nat) : Bool :=
  s.mcasts.any fun x => x.id != m.id && x.uid == m.uid && x.dst == m.dst && x.arrived.contains rank

/-- MCAST_DELIVERY (R270, R272): a delivery arrives at a rank, whose slot turns FILLING if it is EMPTY, and then fills it; deliveries to one slot come one after another; one answered "cluster down" is dropped (R345). After the last, the source is READY again and the token idle. -/
def execMcastDelivery (id rank : Nat) (s : State) : Host.Outcome State Fault Refusal :=
  .next <|
    match s.mcasts.find? fun m => m.id == id with
    | none => s
    | some m =>
      let put := fun (s : State) (m : Mcast) => { s with mcasts := s.mcasts.map fun x => if x.id = m.id then m else x }
      if !m.todo.contains rank || s.filledBy m rank then s
      else if (s.slot m.uid rank m.dst).state = .empty ∧ !(s.rankDown m.uid rank) then
        match s.arriveAt m.uid rank m.dst m.owner with
        | none => s
        | some s => put s { m with arrived := rank :: m.arrived }
      else
        let r := if s.rankDown m.uid rank then (s, true) else s.deliverTo m.uid rank m.dst (s.slot m.uid m.prank m.src) (if rank = m.prank then m.acq else 0)
        let s := r.1
        let m := { m with todo := m.todo.filter fun k => k != rank, arrived := m.arrived.filter fun k => k != rank, dropped := m.dropped || r.2 }
        if m.todo.isEmpty then
          let s : State := { s with mcasts := s.mcasts.filter fun x => x.id != m.id }
          let s := (s.setSlot m.uid m.prank m.src fun x => { x with state := .ready, owner := 0x1FFF }).readyAcquire m.uid m.prank m.acq
          (s.endToken m.sid m.tok (if m.dropped then 1 else 0) m.dropped 0).settled m.uid
        else put s m

-- TKTST, XSTAT, XARM, XFREE

/-- TKTST (R269). -/
def execTktst (w : Ins) (s : State) : Host.Outcome State Fault Refusal :=
  .next (s.alu 0xB2 w 1 generalOf fun _ st =>
    let t := st.toks.getD (tkOf w.a) {}
    [if !t.busy && !t.err then 1 else 0])

/-- XARM (R273): the slot is looked at before the count, and the slot's OWNER is the strand's until it turns READY (R285): DEDUCED (log 116, 117). -/
def execXarm (w : Ins) (s : State) : Host.Outcome State Fault Refusal :=
  .next (s.each 0xB3 w fun s st =>
    let x := xOf w.a
    let n := s.src st w w.b
    if (s.slot st.uid st.prank x).state ≠ .empty then (s, .trap ⟨7, 4, 0, 0⟩)
    else if n = 0 ∨ n.toNat > 65535 then (s, .trap ⟨8, 15, 0, 0⟩)
    else match s.ownSlot st.uid st.prank x with
      | none => (s, .park .storage)
      | some s =>
        let own := s.ownerOf st
        (s.setSlot st.uid st.prank x fun y => { y with state := .filling, expect := n.setWidth 16, cerr := false, owner := own }, .next))

/-- XSTAT of a token (R274). -/
def execXstatToken (w : Ins) (s : State) : Host.Outcome State Fault Refusal :=
  .next (s.each 0xB4 w fun s st => s.putD st w (st.toks.getD (tkOf w.a) {}).word fun _ => none)

/-- XSTAT of a slot of the strand's own rank (R275); a poisoned tile-table entry traps POISON 3: the model's choice of code (log 98). -/
def execXstatSlot (w : Ins) (s : State) : Host.Outcome State Fault Refusal :=
  .next (s.each 0xB4 w fun s st =>
    let x := s.slot st.uid st.prank (xOf w.a)
    if x.poison.contains entryPoison then (s, .trap ⟨0x0C, 3, 0, 0⟩) else s.putD st w x.word fun _ => none)

/-- XFREE of a READY slot (R270, R276): EMPTY with undefined contents; operations that read it are spoilt (R199). -/
def State.freeSlot (s : State) (uid p x : Nat) : State :=
  let f := s.nextId
  let s : State := { s with nextId := f + 2 }
  s.setRank uid p fun r => { (r.spoil x) with slots := (r.spoil x).slots.modify x fun y =>
    { y with state := .empty, pay := Block.undef f, side := Block.undef (f + 1), err := false, fmt := 15, planes := 0, bitmap := 0, expect := 0, poison := [] } }

/-- XFREE (R276): the strand's own accesses to the slot have performed. -/
def execXfree (w : Ins) (s : State) : Host.Outcome State Fault Refusal :=
  .next (s.each 0xB5 w fun s st =>
    let x := xOf w.a
    let sl := s.slot st.uid st.prank x
    if sl.state = .empty then (s, if sl.cerr then .trap ⟨9, 0, 0, 0⟩ else .next)
    else if sl.state ≠ .ready || !s.spadClear st st.prank (1024 * x) 1024 then (s, .stay)
    else match s.ownSlot st.uid st.prank x with
      | none => (s, .park .storage)
      | some s => (s.freeSlot st.uid st.prank x, .next))

-- Grinders (R277, R286, R287)

/-- A Grinder parameter block (R286). -/
structure GrindRec where
  w0 : Nat
  count : Nat
  dst : Nat
  flag : Nat
  flagval : Nat
  srcs : List Nat
  deriving DecidableEq, Repr

def GrindRec.of (bs : List Byte) : GrindRec :=
  let n := fun (o len : Nat) => ofLeBytes ((bs.drop o).take len)
  let w0 := n 0 4
  { w0 := w0, count := n 4 4, dst := n 8 8, flag := n 16 8, flagval := n 24 4, srcs := (List.range (min 8 (fieldN w0 8 4))).map fun k => n (32 + 8 * k) 8 }

def GrindRec.op (g : GrindRec) : Nat := g.w0 % 16
def GrindRec.n (g : GrindRec) : Nat := fieldN g.w0 8 4

/-- Bytes of a source element. -/
def grindBytes (op : Nat) : Nat := if op = 1 then 2 else 4

/-- A block that R277 refuses with OOR code 12 before any translation. -/
def GrindRec.refused (g : GrindRec) : Bool :=
  decide (g.op > 4) || decide (g.n < 2) || decide (g.n > 8) || g.w0 &&& 0xFFFFF0F0 != 0 || g.count == 0 || decide (g.count > 16777216)
    || g.srcs.any (fun a => a % grindBytes g.op != 0) || g.dst % 4 != 0 || g.flag % 4 != 0

/-- Pages a buffer of n bytes touches. -/
def pagesOf (va n : Nat) : Nat := (va % 4096 + n + 4095) / 4096

/-- Translate the pages of a buffer (R277): their addresses, and whether each lies in device memory; the trap, if any. -/
def State.grindPages (s : State) (st : Strand) (va n : Nat) (wr : Bool) : State × Except Trap (List Xlat) :=
  s.translateRange st.sid (s.coreOf st) (s.ctxOf st) (BitVec.ofNat 64 va) { rd := !wr, wr := wr, locs := if wr then [0] else [0, 1, 2, 3] } (pagesOf va n)

/-- Translate several buffers. -/
def State.grindAll (s : State) (st : Strand) (n : Nat) : List Nat → State × Except Trap (List (List Xlat))
  | [] => (s, .ok [])
  | va :: vas => match s.grindPages st va n false with
    | (s, .error t) => (s, .error t)
    | (s, .ok xs) => match State.grindAll s st n vas with
      | (s, .error t) => (s, .error t)
      | (s, .ok rest) => (s, .ok (xs :: rest))

/-- A trap of a translated page (R277): a source that no device channel holds is code 12, not the reply of the unit behind it. -/
def grindTrap (t : Trap) : Trap := if t.cls = 0x0B ∨ (t.cls = 5 ∧ t.frs.toNat % 256 = 11) then ⟨8, 12, 0, 0⟩ else t

/-- How a fault of a page holds a REDC or an NVSQ at its word (R277, R292). -/
def pageFlow (t : Trap) (wr : Bool) : Flow := if t.cls = 4 then .park (.page t.fva wr false) else .trap t

/-- The physical page a translated address lies in. -/
def Xlat.page (x : Xlat) : Nat := x.pa / 4096 * 4096

/-- REDC once the block is read (R277): checks, translation, and the queue of the stack. -/
def State.redcQueue (s : State) (st : Strand) (blockPa : Nat) (bs : List Byte) : State × Flow :=
  let g := GrindRec.of bs
  if g.refused then (s, .trap ⟨8, 12, 0, 0⟩)
  else
    let s := s.setSt st.sid fun x => { x with redc := some (st.seq, bs) }
    match s.grindAll st (g.count * grindBytes g.op) g.srcs with
    | (s, .error t) => (s, pageFlow (grindTrap t) false)
    | (s, .ok srcs) => match s.grindPages st g.dst (4 * g.count) true with
      | (s, .error t) => (s, pageFlow t true)
      | (s, .ok dst) => match s.grindPages st g.flag 4 true with
        | (s, .error t) => (s, pageFlow t true)
        | (s, .ok fl) =>
          let pages := dst ++ srcs.flatten
          let stack := stackOf ((pages.headD {}).pa)
          let q := s.grinders.getD stack {}
          if pages.any fun x => x.loc != 0 || stackOf x.pa != stack then (s, .trap ⟨8, 12, 0, 0⟩)
          else if q.queue.length + (if q.running.isSome then 1 else 0) ≥ Config.grinderBlocks then (s, .stay)
          else
            let b : GBlock := { op := g.op, n := g.n, count := g.count, srcs := srcs.map (·.map Xlat.page), dst := dst.map Xlat.page
                                srcOfs := g.srcs.map (· % 4096), dstOfs := g.dst % 4096, flag := (fl.headD {}).pa, flagval := BitVec.ofNat 32 g.flagval
                                block := blockPa, ctx := s.ctxOf st }
            let s := s.setSt st.sid fun x => { x with redc := none }
            ({ s with grinders := s.grinders.modify stack fun k => { k with queue := k.queue ++ [b] } }, .next)

/-- REDC (R277): the release and the block read are made once; a REDC held at its word goes on from the block it has read. -/
def execRedc (w : Ins) (s : State) : Host.Outcome State Fault Refusal :=
  .next (s.each 0xB6 w fun s st =>
    let va := s.ea st 0xB6 w
    if fieldN va.toNat 60 4 ≠ 0 then (s, .trap (protTrap va false 1))
    else if va.toNat % 128 ≠ 0 then (s, .trap alignTrap)
    else match s.access st.sid (s.coreOf st) (s.ctxOf st) va { rd := true, locs := [0] } 128 with
      | (s, .bad t) => (s, pageFlow t false)
      | (s, .ok x) =>
        let held := st.redc.bind fun r => if r.1 = st.seq then some r.2 else none
        match held with
        | some bs => s.redcQueue st x.pa bs
        | none =>
          if !s.released st.sid 1 || !s.ownClear st va 0 x.pa 128 then (s, .stay)
          else if s.poisonedAt x.pa 128 then s.deferPoison st 0
          else s.redcQueue st x.pa (s.mem.bytes x.pa 128))

/-- The channels of a stack that a block touches (R288). -/
def GBlock.channels (b : GBlock) : List Nat := ((b.dst ++ b.srcs.flatten).map channelOf).eraseDups

/-- All banks of a channel refresh a number of rows (R288, R289): 8,192 rows each (R8). -/
def Channel.refresh (x : Channel) (n : Nat) : Channel := { x with banks := x.banks.map fun b => { b with nextRow := (b.nextRow + n) % 8192 } }

/-- Change a channel's entry, making one if it has none. -/
def State.setChannel (s : State) (c : Nat) (f : Channel → Channel) : State :=
  if s.channels.any fun x => x.c == c then { s with channels := s.channels.map fun x => if x.c = c then f x else x }
  else { s with channels := s.channels ++ [f { c := c }] }

def State.setGrinder (s : State) (stack : Nat) (f : Grinder → Grinder) : State := { s with grinders := s.grinders.modify stack f }

/-- GRINDER_BLOCK_START (R287, R288): an idle Grinder takes its next block, and the block's channels enter compute mode: their sequencer takes over each bank's next refresh row, postponed count and activation counter as they stand. -/
def execGrinderBlockStart (stack : Nat) (s : State) : Host.Outcome State Fault Refusal :=
  .next <|
    let g := s.grinders.getD stack {}
    match g.running, g.queue with
    | none, b :: rest =>
      let s := s.setGrinder stack fun _ => { queue := rest, running := some (b, 0, false) }
      b.channels.foldl (fun s c => s.setChannel c fun x => { x with compute := true }) s
    | _, _ => s

/-- The physical address of a byte of a buffer given by its pages. -/
def pageAddr (pages : List Nat) (ofs i : Nat) : Nat := pages.getD ((ofs + i) / 4096) 0 + (ofs + i) % 4096

/-- The operation of a block (R182, R287), on FP32 or I32 patterns. -/
def grindOp (op : Nat) (a b : Nat) : Nat :=
  match op with
  | 0 | 1 => add32 a b
  | 2 => fminmax fp32 true a b
  | 3 => fminmax fp32 false a b
  | _ => (a + b) % 2 ^ 32

/-- Element e of a block, and whether a source of it is poisoned (R287). -/
def State.grindElem (s : State) (b : GBlock) (e : Nat) : Nat × Bool :=
  let n := grindBytes b.op
  let src := fun (k : Nat) => pageAddr (b.srcs.getD k []) (b.srcOfs.getD k 0) (n * e)
  let bytes := fun (k : Nat) => (earlyBytes b.early 0 (src k) n).getD (s.poisonBytes 0 (src k) n)
  let val := fun (k : Nat) => let x := ofLeBytes ((bytes k).map (·.1)); if b.op = 1 then rnd fp32 (widenF bf16 x) else x
  (treeSum (grindOp b.op) 0 (b.n + 1) ((List.range b.n).map val), (List.range b.n).any fun k => (bytes k).any (·.2))

/-- Whether a destination element lies in a source it is not allowed to share (R287): only SRC0 may be DST itself. -/
def GBlock.shared (b : GBlock) (e : Nat) : Bool :=
  let d := pageAddr b.dst b.dstOfs (4 * e)
  let n := grindBytes b.op * b.count
  (List.range b.n).any fun k =>
    let pages := b.srcs.getD k []
    let ofs := b.srcOfs.getD k 0
    !(k == 0 && b.op != 1 && pages == b.dst && ofs == b.dstOfs)
      && pages.zipIdx.any fun p => p.1 == d / 4096 * 4096 && bytesMeet (p.2 * 4096 + d % 4096) 4 ofs n

/-- One element of a slice: read and written at the homes; shared elements take any value. -/
def State.grindOne (s : State) (b : GBlock) (f e : Nat) : State × Bool :=
  let x := s.grindElem b e
  let d := pageAddr b.dst b.dstOfs (4 * e)
  let bs := if b.shared e then (List.range 4).map fun i => (Config.freeByte f (4 * e + i), x.2) else patBytes 4 x
  (s.writePoison 0 d bs, x.2)

/-- COMPUTE_SLICE_END (R287, R289): a slice has worked through the elements below `upto`; refreshes postponed in it are issued. How many activations it made is not stated: the counters take any values. -/
def execComputeSliceEnd (stack upto : Nat) (s : State) : Host.Outcome State Fault Refusal :=
  .next <|
    match (s.grinders.getD stack {}).running with
    | none => s
    | some (b, done, bad) =>
      if upto ≤ done ∨ upto > b.count then s
      else
        let f := s.nextId
        let s : State := { s with nextId := f + 1 }
        let r := (List.range (upto - done)).foldl (fun (x : State × Bool) k => let y := x.1.grindOne b f (done + k); (y.1, x.2 || y.2)) (s, bad)
        let s := r.1.setGrinder stack fun g => { g with running := some (b, upto, r.2) }
        b.channels.foldl (fun (s : State) c => s.setChannel c fun x =>
          { x.refresh x.postponed with postponed := 0, banks := ((x.refresh x.postponed).banks.zipIdx.map fun k => { k.1 with acts := (s.anyWord k.2).toNat }) }) s

/-- ACTIVATION_ALERT (R290): the channel's alert counter is incremented. -/
def execActivationAlert (channel : Nat) (s : State) : Host.Outcome State Fault Refusal :=
  .next (if channel < 1000 then s.setChannel channel fun x => { x with alerts := x.alerts + 1 } else s)

/-- GRINDER_BLOCK_DONE (R252, R287, R288): after the last element STATUS is written, then the flag; the channels leave compute mode, and their refresh state goes back as it stands. -/
def execGrinderBlockDone (stack : Nat) (s : State) : Host.Outcome State Fault Refusal :=
  .next <|
    match (s.grinders.getD stack {}).running with
    | none => s
    | some (b, done, bad) =>
      if done < b.count then s
      else
        let s := s.writeHome 0 0 (b.block + 28) (leBytes 4 (if bad then 3 else 1))
        let s := s.writeHome 0 0 b.flag (leBytes 4 b.flagval.toNat)
        let s := s.setGrinder stack fun g => { g with running := none }
        b.channels.foldl (fun s c => s.setChannel c fun x => { x with compute := false }) s

/-- REFRESH_DUE (R288, R289): in compute mode the refresh is postponed to the slice's end; while four are outstanding no slice runs, so the sequencer issues those before it postpones another; in normal mode the controller issues it, with those handed back to it. -/
def execRefreshDue (channel : Nat) (s : State) : Host.Outcome State Fault Refusal :=
  .next (if channel ≥ 1000 then s
    else s.setChannel channel fun x => if x.compute then (if x.postponed < 4 then { x with postponed := x.postponed + 1 } else { x.refresh x.postponed with postponed := 1 }) else { x.refresh (x.postponed + 1) with postponed := 0 })

-- storage queues (R278, R291..R293); the layout of NVMe entries is that of the NVMe base specification (log 16)

def State.nvq (s : State) (q : Nat) : Option NvQueue := s.nvqs.find? fun x => x.q == q && x.live
def State.setNvq (s : State) (q : Nat) (f : NvQueue → NvQueue) : State := { s with nvqs := s.nvqs.map fun x => if x.q = q then f x else x }

/-- A number in an entry. -/
def entryNum (e : List Byte) (o n : Nat) : Nat := ofLeBytes ((e.drop o).take n)

def nvOp (e : List Byte) : Nat := entryNum e 0 1

/-- The byte offset and length on the namespace of a Read, Write or Write Zeroes (R293). -/
def nvRange (e : List Byte) (lbash : Nat) : Nat × Nat := (entryNum e 40 8 * 2 ^ lbash, (entryNum e 48 2 + 1) * 2 ^ lbash)

/-- Bytes a command moves to or from memory. -/
def nvLen (e : List Byte) (lbash : Nat) : Nat :=
  match nvOp e with
  | 1 | 2 => (nvRange e lbash).2
  | 9 => (entryNum e 40 1 + 1) * 16
  | _ => 0

/-- How a walk of the data pointers ended. -/
inductive NvWalk where
  | ok (segs : List (Nat × Nat))
  /-- a page fault for firmware -/
  | page (va : Addr) (wr : Bool)
  /-- R292: completes with CSTAT 1 and an NVMe status -/
  | bad (status : BitVec 15)
  deriving DecidableEq, Repr

/-- Translate one page of the queue's context for the storage engine, which checks no tags (R292, R312). -/
def State.nvPage (s : State) (st : Strand) (ctx : Nat) (va : Addr) (wr : Bool) : State × Except NvWalk Nat :=
  match s.translate (s.coreOf st) ctx va { rd := !wr, wr := wr, locs := [0] } with
  | (s, .ok x) => (s.walkAcquire st.sid x, .ok x.pa)
  | (s, .bad t) => (s, .error (if t.cls = 4 then .page va wr else .bad 4))

/-- Translate parts of pages in order. -/
def State.nvParts (s : State) (st : Strand) (ctx : Nat) (wr : Bool) : List (Addr × Nat) → State × NvWalk
  | [] => (s, .ok [])
  | p :: ps =>
    match s.nvPage st ctx p.1 wr with
    | (s, .error x) => (s, x)
    | (s, .ok pa) => match State.nvParts s st ctx wr ps with
      | (s, .ok xs) => (s, .ok ((pa, p.2) :: xs))
      | r => r

/-- The data pages a PRP list names, from a list pointer on: the last entry of a page of the list points to the next page when more remain. -/
def State.prpList (s : State) (st : Strand) (ctx : Nat) : Nat → Addr → Nat → State × Except NvWalk (List (Addr × Nat))
  | 0, _, _ => (s, .ok [])
  | k + 1, at_, left =>
    if left = 0 then (s, .ok [])
    else match s.nvPage st ctx at_ false with
      | (s, .error x) => (s, .error x)
      | (s, .ok pa) =>
        let e : Addr := BitVec.ofNat 64 (s.mem.num pa 8)
        if at_.toNat % 4096 = 4088 ∧ left > 4096 then State.prpList s st ctx k e left
        else
          let m := min left 4096
          match State.prpList s st ctx k (at_ + 8) (left - m) with
          | (s, .ok xs) => (s, .ok ((e, m) :: xs))
          | r => r

/-- The data blocks an SGL names: descriptors from a segment on, with how many the segment holds. PRESUMED (log 16): any descriptor that is no segment is a data block, and the walk ends with the list. -/
def State.sglWalk (s : State) (st : Strand) (ctx : Nat) : Nat → Addr → Nat → Nat → State × Except NvWalk (List (Addr × Nat))
  | 0, _, _, _ => (s, .ok [])
  | k + 1, at_, n, left =>
    if n = 0 ∨ left = 0 then (s, .ok [])
    else match s.nvPage st ctx at_ false with
      | (s, .error x) => (s, .error x)
      | (s, .ok pa) =>
        let a : Addr := BitVec.ofNat 64 (s.mem.num pa 8)
        let len := s.mem.num (pa + 8) 4
        let ty := s.mem.num (pa + 15) 1 / 16
        if ty = 2 ∨ ty = 3 then State.sglWalk s st ctx k a (len / 16) left
        else
          let m := min len left
          match State.sglWalk s st ctx k (at_ + 16) (n - 1) (left - m) with
          | (s, .ok xs) => (s, .ok ((a, m) :: xs))
          | r => r

/-- The data of an entry as virtual pieces (R292): PRPs, or an SGL when PSDT says so; an SGL shorter than the transfer moves what it describes (PRESUMED, log 16). -/
def State.nvPieces (s : State) (st : Strand) (ctx : Nat) (e : List Byte) (len : Nat) : State × Except NvWalk (List (Addr × Nat)) :=
  let p1 : Addr := BitVec.ofNat 64 (entryNum e 24 8)
  let p2 : Addr := BitVec.ofNat 64 (entryNum e 32 8)
  if len = 0 then (s, .ok [])
  else if fieldN (entryNum e 0 2) 14 2 = 0 then
    let m := min len (4096 - p1.toNat % 4096)
    if len - m = 0 then (s, .ok [(p1, m)])
    else if len - m ≤ 4096 then (s, .ok [(p1, m), (p2, len - m)])
    else match s.prpList st ctx (len / 2048 + 4) p2 (len - m) with
      | (s, .ok xs) => (s, .ok ((p1, m) :: xs))
      | r => r
  else
    let ty := entryNum e 39 1 / 16
    let n := entryNum e 32 4
    if ty = 2 ∨ ty = 3 then s.sglWalk st ctx (len + 64) p1 (n / 16) len else (s, .ok [(p1, min n len)])

/-- The checks and translation of R292. -/
def State.nvCheck (s : State) (st : Strand) (d : NvQueue) (e : List Byte) : State × NvWalk :=
  let r := nvRange e d.lbash
  let op := nvOp e
  if entryNum e 16 8 ≠ 0 ∨ fieldN (entryNum e 0 2) 8 2 ≠ 0
      ∨ (d.crcbase ≠ 0 ∧ (op = 1 ∨ op = 2 ∨ op = 8) ∧ (r.1 % 4096 ≠ 0 ∨ r.2 % 4096 ≠ 0)) then (s, .bad 2)
  else match s.nvPieces st d.ctx e (nvLen e d.lbash) with
    | (s, .error x) => (s, x)
    | (s, .ok ps) => s.nvParts st d.ctx (op == 2) (ps.flatMap fun p => bytesParts (p.2 / 4096 + 2) p.1 p.2)

/-- The lowest tag no command of the queue holds. -/
def NvQueue.freeCid (d : NvQueue) : Nat := (firstIdx 65536 fun i => d.cmds.all fun c => c.cid != i).getD 0

/-- An access of the storage engine to a doorbell of the drive. -/
def State.doorbell (s : State) (d : NvQueue) (addr v : Nat) : State := { s with ioLog := s.ioLog ++ [⟨d.port, addr, 4, some v⟩] }

/-- Fill pieces of memory: with bytes, or with any values. -/
def State.fillSegs (s : State) : List (Nat × Nat) → List Byte → State
  | [], _ => s
  | x :: xs, bs => if bs.isEmpty then s else State.fillSegs (s.writeHome 0 0 x.1 (bs.take x.2)) xs (bs.drop x.2)

/-- Submit an entry (R278, R292): it is written at the tail with the engine's tag and its own bus addresses, and the doorbell rung; until completion a Read's bytes hold any values (R253). -/
def State.nvSubmit (s : State) (st : Strand) (d : NvQueue) (tok : Nat) (e : List Byte) (segs : List (Nat × Nat)) : State :=
  let f := s.nextId
  let s : State := { s with nextId := f + 2 }
  let cid := d.freeCid
  let e2 := (e.take 2 ++ leBytes 2 cid ++ (e.take 24).drop 4) ++ (if nvLen e d.lbash = 0 then (e.take 40).drop 24 else (List.range 16).map (Config.freeByte f)) ++ e.drop 40
  let len := (segs.map (·.2)).sum
  let sent := if nvOp e = 2 then [] else segs.flatMap fun x => s.mem.bytes x.1 x.2
  let s := if nvOp e = 2 then s.fillSegs segs ((List.range len).map (Config.freeByte (f + 1))) else s
  let s := s.writeHome 0 0 (d.sqbase + 64 * d.tail) e2
  let tail := (d.tail + 1) % (d.depthm1 + 1)
  let s := s.setNvq d.q fun x => { x with tail := tail, cmds := x.cmds ++ [{ cid := cid, sid := st.sid, uid := st.uid, tok := tok, entry := e, segs := segs, sent := sent }] }
  (s.doorbell d d.sqdb tail).takeToken st.sid tok 3 true

/-- One strand's NVSQ. -/
def State.nvsqOne (s : State) (st : Strand) (w : Ins) : State × Flow :=
  let tok := tkOf w.d
  let q := (s.src st w w.b).toNat
  let va := s.ea st 0xB7 w
  match (if q > 4095 then none else s.nvq q) with
    | none => (s, .trap ⟨8, 13, 0, 0⟩)
    | some d =>
      if d.ctx ≠ s.ctxOf st then (s, .trap (protTrap va false 9))
      else if fieldN va.toNat 60 4 ≠ 0 then (s, .trap (protTrap va false 1))
      else if va.toNat % 64 ≠ 0 then (s, .trap alignTrap)
      else match s.ctlAccess st va { rd := true, locs := [0] } 64 with
        | (s, .error f) => (s, f)
        | (s, .ok x) =>
          if !s.ownClear st va x.loc x.pa 64 then (s, .stay)
          else if s.poisonedAt x.pa 64 then s.deferPoison st 0
          else
            let e := s.mem.bytes x.pa 64
            if !([0, 1, 2, 8, 9].contains (nvOp e)) then (s, .trap ⟨8, 14, 0, 0⟩)
            else if !s.released st.sid 2 || decide (d.cmds.length ≥ d.depthm1) then (s, .stay)
            else match s.nvCheck st d e with
              | (s, .page va wr) => (s, .park (.page va wr false))
              | (s, .bad c) => ((s.takeToken st.sid tok 3 true).endToken st.sid tok 1 true c, .next)
              | (s, .ok segs) => (s.nvSubmit st d tok e segs, .next)

/-- NVSQ (R278). -/
def execNvsq (w : Ins) (s : State) : Host.Outcome State Fault Refusal := .next (s.each 0xB7 w fun s st => s.nvsqOne st w)

/-- The standard CRC32C of bytes (R178, R293). -/
def crcOf (bs : List Byte) : Word := ~~~ (bs.foldl (fun x b => crcBits 8 b.toNat x) 0xFFFFFFFF)

/-- The CRC32C of each 4 KiB of a range, with its place in the checksum array (R293). -/
def crcPlaces (base ofs : Nat) (bs : List Byte) : List (Nat × Word) :=
  (List.range (bs.length / 4096)).map fun k => (base + 4 * (ofs / 4096 + k), crcOf ((bs.drop (4096 * k)).take 4096))

/-- The bytes a command has sent to its drive (R253): each as it stood at submission, or when the engine read it again. -/
def NvCmd.bytes (c : NvCmd) : List Byte :=
  (c.segs.flatMap fun x => (List.range x.2).map (x.1 + ·)).zipIdx.map fun x => ((earlyBytes c.early 0 x.1 1).bind fun b => b.head?.map (·.1)).getD (c.sent.getD x.2 0)

/-- What a completed command does to the checksum array, and whether a Read mismatches it (R253, R293). -/
def State.nvCrc (s : State) (d : NvQueue) (c : NvCmd) (data : List Byte) : State × Bool :=
  let r := nvRange c.entry d.lbash
  let put := fun (s : State) (bs : List Byte) => (crcPlaces d.crcbase r.1 bs).foldl (fun (s : State) (x : Nat × Word) => s.writeHome 0 0 x.1 (leBytes 4 x.2.toNat)) s
  if d.crcbase = 0 then (s, false)
  else match nvOp c.entry with
    | 1 => (put s c.bytes, false)
    | 2 => (s, (crcPlaces d.crcbase r.1 data).any fun x => s.mem.num x.1 4 != x.2.toNat)
    | 8 => (put s (List.replicate r.2 0), false)
    | _ => (s, false)

/-- A storage command completes its token (R274, R278); the record of a saved item takes the token as it stands. -/
def State.nvToken (s : State) (c : NvCmd) (cstat : BitVec 8) (nvst : BitVec 15) : State :=
  let s := s.endToken c.sid c.tok cstat (cstat != 0) nvst
  if (s.item? c.uid).isSome && (s.it c.uid).status = .saved then s.writeRecord c.uid 2 0 else s

/-- NVME_COMPLETION (R253, R278, R291, R293): the data of a Read has landed, the completion entry is consumed, checksums are kept or compared, the token completes. A Read without error brings all its bytes. -/
def execNvmeCompletion (q cid : Nat) (status : BitVec 15) (data : List Byte) (s : State) : Host.Outcome State Fault Refusal :=
  .next <|
    match s.nvqs.find? fun x => x.q == q with
    | none => s
    | some d => match d.cmds.find? fun c => c.cid == cid with
      | none => s
      | some c =>
        let want := if nvOp c.entry = 2 then nvLen c.entry d.lbash else 0
        if data.length > want || (status == 0 && data.length != want) then s
        else
          let s := s.fillSegs c.segs data
          let f := s.nextId
          let s : State := { s with nextId := f + 1 }
          let dw3 := cid % 65536 + 65536 * ((Config.freeByte f 12).toNat % 2) + 131072 * status.toNat
          let s := s.writeHome 0 0 (d.cqbase + 16 * d.head) ((List.range 12).map (Config.freeByte f) ++ leBytes 4 dw3)
          let (s, bad) := if status = 0 ∨ nvOp c.entry ≠ 2 then s.nvCrc d c data else (s, false)
          let head := (d.head + 1) % (d.depthm1 + 1)
          let s := s.setNvq q fun x => { x with head := head, cmds := x.cmds.filter fun y => y.cid != cid }
          (s.doorbell d d.cqdb head).nvToken c (if status ≠ 0 then 1 else if bad then 2 else 0) status

/-- NVME_QUEUE_ABORT (R274): the queue is deleted or its controller reset; every command in flight completes with CSTAT 3. -/
def execNvmeQueueAbort (q : Nat) (s : State) : Host.Outcome State Fault Refusal :=
  .next <|
    match s.nvq q with
    | none => s
    | some d =>
      let s := s.setNvq q fun x => { x with live := false, cmds := [] }
      d.cmds.foldl (fun (s : State) (c : NvCmd) => s.nvToken c 3 0) s

end Sys2Proof.Machine
end

