-- ==== Sys2Proof/Machine/Float.lean ====
section
/-! DEFINITION. Floating-point words (08 R179..R189; 03 R44; 06 R131, R132, R138). -/

namespace Sys2Proof.Machine

/-- Sources A, B and C as exact values after their modifiers (R44). -/
def State.fpA (s : State) (st : Strand) (w : Ins) : Val := w.modA (widenF (fmtOf w.ty.toNat) (s.srcFp st w w.ty.toNat w.a))
def State.fpB (s : State) (st : Strand) (w : Ins) : Val := w.modB (widenF (fmtOf w.ty.toNat) (s.srcFp st w w.ty.toNat w.b))
def State.fpC (s : State) (st : Strand) (w : Ins) : Val := w.modC (widenF (fmtOf w.ty.toNat) (s.srcFp st w w.ty.toNat w.third))

/-- A word whose result is the sequence of R44 on an exact value of A, B and C. -/
def fpOp (op : Nat) (f : Mode → Val → Val → Val → Val) (w : Ins) (s : State) : State :=
  s.alu op w 1 (ruleOf op w) fun s st => [BitVec.ofNat 32 (w.finish (fmtOf w.ty.toNat) (f w.mode (s.fpA st w) (s.fpB st w) (s.fpC st w)))]

/-- FADD (R180). -/
def execFadd (w : Ins) (s : State) : Host.Outcome State Fault Refusal := .next (fpOp 0x40 (fun m a b _ => a.add m b) w s)

/-- FSUB (R180). -/
def execFsub (w : Ins) (s : State) : Host.Outcome State Fault Refusal := .next (fpOp 0x41 (fun m a b _ => a.add m b.neg) w s)

/-- FMUL (R180). -/
def execFmul (w : Ins) (s : State) : Host.Outcome State Fault Refusal := .next (fpOp 0x42 (fun _ a b _ => a.mul b) w s)

/-- FFMA (R180). -/
def execFfma (w : Ins) (s : State) : Host.Outcome State Fault Refusal := .next (fpOp 0x43 (fun m a b c => (a.mul b).add m c) w s)

/-- A pattern after a source modifier: ABS clears the sign, NEG flips it (R44). -/
def modPat (f : Fmt) (neg abs : Bool) (x : Nat) : Nat :=
  let x := x % 2 ^ f.width
  let x := if abs && bitN x (f.eb + f.mb) then x - f.signBit else x
  if neg then (if bitN x (f.eb + f.mb) then x - f.signBit else x + f.signBit) else x

/-- FMIN and FMAX (R182). -/
def minMaxOp (op : Nat) (isMax : Bool) (w : Ins) (s : State) : State :=
  let f := fmtOf w.ty.toNat
  let m := w.modw.getD ⟨0, 0, 0, false, false, false, false, false, false, 0⟩
  s.alu op w 1 (ruleOf op w) fun s st =>
    [BitVec.ofNat 32 (fminmax f isMax (modPat f m.nega m.absa (s.srcFp st w w.ty.toNat w.a)) (modPat f m.negb m.absb (s.srcFp st w w.ty.toNat w.b)))]

/-- FMIN (R182). -/
def execFmin (w : Ins) (s : State) : Host.Outcome State Fault Refusal := .next (minMaxOp 0x44 false w s)

/-- FMAX (R182). -/
def execFmax (w : Ins) (s : State) : Host.Outcome State Fault Refusal := .next (minMaxOp 0x45 true w s)

/-- FSET (R183). -/
def execFset (w : Ins) (s : State) : Host.Outcome State Fault Refusal :=
  .next (s.alu 0x46 w 1 (ruleOf 0x46 w) fun s st => [BitVec.ofNat 32 (b01 (cmpFp w.fn.toNat (s.fpA st w) (s.fpB st w)))])

/-- FDIV (R132, R165). -/
def execFdiv (w : Ins) (s : State) : Host.Outcome State Fault Refusal :=
  .next (s.longOp 0x47 w 1 fun s st => [BitVec.ofNat 32 (w.finish (fmtOf w.ty.toNat) ((s.fpA st w).div (s.fpB st w)))])

/-- FSQRT (R132, R165). -/
def execFsqrt (w : Ins) (s : State) : Host.Outcome State Fault Refusal :=
  .next (s.longOp 0x48 w 1 fun s st => [BitVec.ofNat 32 (w.finish (fmtOf w.ty.toNat) (s.fpA st w).sqrt)])

/-- An approximate function (R131, R181): its own rounding, then saturation. -/
def approxOp (op : Nat) (w : Ins) (s : State) : State :=
  let f := fmtOf w.ty.toNat
  s.longOp op w 1 fun s st => [BitVec.ofNat 32 (w.finishQ f (approxRd op f (s.fpA st w)))]

/-- FRCP (R131). -/
def execFrcp (w : Ins) (s : State) : Host.Outcome State Fault Refusal := .next (approxOp 0x49 w s)

/-- FRSQ (R131). -/
def execFrsq (w : Ins) (s : State) : Host.Outcome State Fault Refusal := .next (approxOp 0x4A w s)

/-- FEXP2 (R131). -/
def execFexp2 (w : Ins) (s : State) : Host.Outcome State Fault Refusal := .next (approxOp 0x4B w s)

/-- FLOG2 (R131). -/
def execFlog2 (w : Ins) (s : State) : Host.Outcome State Fault Refusal := .next (approxOp 0x4C w s)

/-- FTANH (R131). -/
def execFtanh (w : Ins) (s : State) : Host.Outcome State Fault Refusal := .next (approxOp 0x4D w s)

/-- The integral value of a value under a mode, with its sign (R184). -/
def Val.integral (m : Mode) (v : Val) : Val :=
  match v with
  | .fin n k e => if e ≥ 0 then v else .fin n (roundMag m n k e) 0
  | v => v

/-- FRND (R184). -/
def execFrnd (w : Ins) (s : State) : Host.Outcome State Fault Refusal :=
  .next (s.alu 0x4E w 1 (ruleOf 0x4E w) fun s st => [BitVec.ofNat 32 (rnd (fmtOf w.ty.toNat) ((s.fpA st w).integral w.mode))])

/-- The class mask of A (R185). -/
def State.fpClass (s : State) (st : Strand) (w : Ins) : Nat :=
  let v := s.fpA st w
  classMask (fmtOf w.ty.toNat) (match v with
    | .fin n _ _ => n
    | .inf n => n
    | .nan => false) v

/-- FCLS (R185). -/
def execFcls (w : Ins) (s : State) : Host.Outcome State Fault Refusal :=
  .next (s.alu 0x4F w 1 (ruleOf 0x4F w) fun s st => [BitVec.ofNat 32 (s.fpClass st w)])

/-- FCLS with a mask (R185). -/
def execFclsTest (w : Ins) (s : State) : Host.Outcome State Fault Refusal :=
  .next (s.alu 0x4F w 1 (ruleOf 0x4F w) fun s st => [BitVec.ofNat 32 (b01 (s.fpClass st w &&& w.imm.toNat % 512 != 0))])

/-- A packed-half word (R186): the sequence of R44 on each half. -/
def halfOp (op : Nat) (g : Mode → Val → Val → Val → Val) (w : Ins) (s : State) : State :=
  let ty := w.ty.toNat
  let f := fmtOf ty
  s.alu op w 1 (ruleOf op w) fun s st =>
    let a := s.srcHalf st w ty w.a
    let b := s.srcHalf st w ty w.b
    let c := s.srcHalf st w ty w.third
    let half := fun (x y z : Nat) => w.finish f (g w.mode (w.modA (widenF f x)) (w.modB (widenF f y)) (w.modC (widenF f z)))
    [BitVec.ofNat 32 (half a.2 b.2 c.2 * 65536 + half a.1 b.1 c.1)]

/-- HADD2 (R186). -/
def execHadd2 (w : Ins) (s : State) : Host.Outcome State Fault Refusal := .next (halfOp 0x50 (fun m a b _ => a.add m b) w s)

/-- HMUL2 (R186). -/
def execHmul2 (w : Ins) (s : State) : Host.Outcome State Fault Refusal := .next (halfOp 0x51 (fun _ a b _ => a.mul b) w s)

/-- HFMA2 (R186). -/
def execHfma2 (w : Ins) (s : State) : Host.Outcome State Fault Refusal := .next (halfOp 0x52 (fun m a b c => (a.mul b).add m c) w s)

/-- FCVT to E8M0 (R187). -/
def toE8 (y : Val) (m : Mode) (sat : Bool) : Nat :=
  match y with
  | .fin n k e =>
    if k = 0 || n then 255
    else
      let ex : Int := (k.log2 : Int) + e
      let f := roundMag m false k (-(k.log2 : Int))
      let ex := ex + (f : Int) - 1
      if ex < -127 then 0 else if ex ≤ 127 then (ex + 127).toNat else if sat then 254 else 255
  | _ => 255

/-- The source of FCVT as an exact value (R187): modifiers apply to a floating-point source. DEDUCED (log 19): from E8M0 (FN 13), of which the manual gives no conversion of an immediate of index 2 or 3, the immediate's low byte is the source as it stands. -/
def State.cvtSrc (s : State) (st : Strand) (w : Ins) : Val :=
  let src := w.fn.toNat
  if src < 8 then ofInt (s.srcInt st w src w.a)
  else if src = 13 then widenE8 (s.src st w w.a).toNat
  else w.modA (widenF (fmtOf src) (s.srcFp st w src w.a))

/-- FCVT (R187): integers and E8M0 saturate under SAT = 1 only, and take SAT 2 and 3 as none (log 32). -/
def execFcvt (w : Ins) (s : State) : Host.Outcome State Fault Refusal :=
  let ty := w.ty.toNat
  .next (s.alu 0x53 w (tyWords w) (ruleOf 0x53 w) fun s st =>
    let y := s.cvtSrc st w
    if ty < 8 then intWords ty (toInt ty (y.scale w.kexp) w.mode (w.sat = 1))
    else if ty = 13 then [BitVec.ofNat 32 (toE8 (y.scale w.kexp) w.mode (w.sat = 1))]
    else [BitVec.ofNat 32 (w.finish (fmtOf ty) y)])

/-- The elements of an FDOT source (R188): four bytes, or the four halves of a pair. -/
def State.dotElems (s : State) (st : Strand) (w : Ins) (ty : Nat) (o : Operand) : List Val :=
  if ty = 9 ∨ ty = 10 then (List.range 4).map fun i => widenF (fmtOf ty) (fieldN (s.src64 st w o).toNat (16 * i) 16)
  else (List.range 4).map fun i => widenF (fmtOf ty) (fieldN (s.src st w o).toNat (8 * i) 8)

/-- FDOT (R138, R188). -/
def execFdot (w : Ins) (s : State) : Host.Outcome State Fault Refusal :=
  let ty := w.ty.toNat
  .next (s.alu 0x54 w 1 (ruleOf 0x54 w) fun s st =>
    let a := (s.dotElems st w ty w.a).map w.modA
    let b := (s.dotElems st w (if w.fn = 1 then 23 - ty else ty) w.b).map w.modB
    let c := w.modC (widenF fp32 (s.src st w w.d).toNat)
    [BitVec.ofNat 32 (w.finishQ fp32 (roundTo fp32 (dot4 a b c) .rne))])

/-- FLDX (R189): exponents past ±2,000 round as ±2,000 does. -/
def execFldx (w : Ins) (s : State) : Host.Outcome State Fault Refusal :=
  .next (s.alu 0x55 w 1 (ruleOf 0x55 w) fun s st =>
    let n := (s.src st w w.b).toInt
    [BitVec.ofNat 32 (w.finish (fmtOf w.ty.toNat) ((s.fpA st w).scale (if n > 2000 then 2000 else if n < -2000 then -2000 else n)))])

end Sys2Proof.Machine
end

