-- ==== Sys2Proof/Machine/Isolation.lean ====
section
/-! DEFINITION. System registers (13 R315..R317), invalidation (R311), and firmware's answers to page faults (11 R255; 13 R305; 14 R321, R325). -/

namespace Sys2Proof.Machine

-- SYSR, SYSW (R315, R317)

/-- Words of a system register. -/
def sysWords (n : Nat) : Nat := if n = 2 ∨ n = 4 ∨ n = 6 then 2 else 1

/-- A system register of the executing strand, its item or its context; in a remote frame the per-strand ones read 0, and SAVEPTR 0 once the caller's item is gone (DEDUCED, log 27). -/
def State.sysReg (s : State) (st : Strand) (n : Nat) : Nat :=
  let tr := if st.isFrame then ({} : TrapRegs) else st.tr
  match n with
  | 0 => tr.tcode.toNat
  | 1 => tr.tinfo.toNat
  | 2 => tr.trpc.toNat
  | 3 => tr.tret.toNat
  | 4 => tr.faultva.toNat
  | 5 => tr.faultrs.toNat
  | 6 => (s.it st.uid).savebase.toNat
  | 7 => (s.ctx (s.ctxOf st)).rcto.toNat
  | _ => (s.ctx (s.ctxOf st)).pdead.toNat

/-- SYSR (R317). -/
def execSysr (w : Ins) (s : State) : Host.Outcome State Fault Refusal :=
  let n := w.imm.toNat % 256
  .next (s.alu 0xC2 w (sysWords n) (if n ≥ 6 then uniformOf else generalOf) fun s st => (pairWords (s.sysReg st n)).take (sysWords n))

/-- Whether SYSW may write a register of a context at all (R315, R317). -/
def State.sysWritable (s : State) (st : Strand) (n : Nat) : Bool := [1, 2, 7, 8].contains n && (s.ctx (s.ctxOf st)).syswen.getLsbD n

/-- The refusal of a SYSW: PROT with reason 9. -/
def syswTrap : Trap := ⟨5, 0, 0, reasonWord 0 0 false false 0 9⟩

/-- SYSW (R317): ignored at an NMU for the per-strand registers. -/
def execSysw (w : Ins) (s : State) : Host.Outcome State Fault Refusal :=
  .next (s.each 0xC3 w fun s st =>
    let n := w.imm.toNat % 256
    let a := s.src st w w.a
    if st.isFrame && decide (n < 6) then (s, .next)
    else if !s.sysWritable st n then (s, .trap syswTrap)
    else if n ≥ 7 ∧ (a = 0 ∨ a.toNat > 1000000) then (s, .trap ⟨8, 16, 0, 0⟩)
    else match n with
      | 7 => (s.setCtx (s.ctxOf st) fun c => { c with rcto := a }, .next)
      | 8 => (s.setCtx (s.ctxOf st) fun c => { c with pdead := a }, .next)
      | 1 => (s.setSt st.sid fun x => { x with tr := { x.tr with tinfo := a } }, .next)
      | _ => (s.setSt st.sid fun x => { x with tr := { x.tr with trpc := s.src64 st w w.a }, heldPc := none }, .next))

-- invalidation (R311)

/-- Whether bytes from a virtual address on meet the range a command names. -/
def inRange (range : Option (Nat × Nat)) (va n : Nat) : Bool :=
  match range with
  | none => true
  | some (lo, hi) => bytesMeet (va % 2 ^ 56) n lo (hi - lo)

/-- The virtual range that a TLB entry's page covers (R303, R306). -/
def TlbEntry.covers (e : TlbEntry) : Nat × Nat :=
  (e.vpn * 2 ^ e.bits, (e.vpn + 1) * 2 ^ e.bits)

/-- Whether a TLB entry is one that a command names: its page meets the range (R311). -/
def TlbEntry.named (e : TlbEntry) (c : Nat) (range : Option (Nat × Nat)) : Bool := e.ctx == c && inRange range e.covers.1 (e.covers.2 - e.covers.1)

/-- Whether an access that an entry a command names translated has still to perform (R311): a pending access to the range or to a page of such an entry, a tile being read or written, a TORD (whose descriptor was translated at issue), a block at a Grinder, a command at a drive. -/
def State.translatedBusy (s : State) (c : Nat) (range : Option (Nat × Nat)) : Bool :=
  let pages := (s.tlb.filter fun e => e.named c range).map TlbEntry.covers
  s.pend.any (fun a => a.ctx == c && a.loc != 4 && a.known && !(a.performedAt 1)
      && (inRange range a.va.toNat a.width || pages.any fun p => inRange (some p) a.va.toNat a.width))
    || s.tileOps.any (fun o => o.ctx == c && (!o.hold.isEmpty || o.op == 0x85)) || s.copies.any (fun k => k.ctx == c && decide (k.busy > 0))
    || s.grinders.any (fun g => g.queue.any (fun b => b.ctx == c) || match g.running with
      | some (b, _, _) => b.ctx == c
      | none => false)
    || s.nvqs.any fun q => q.ctx == c && !q.cmds.isEmpty

/-- TLB_INVALIDATE (R311): the command completes once no access translated by an entry it names is still to perform; no TLB then holds such an entry. -/
def execTlbInvalidate (ctx : Nat) (range : Option (Nat × Nat)) (s : State) : Host.Outcome State Fault Refusal :=
  .next (if s.translatedBusy ctx range then s
    else { s with tlb := s.tlb.filter fun e => !(e.named ctx range) })

-- page service (R255, R305)

/-- PAGE_SERVICE_COMPLETE (R305): firmware stores an entry; the strands that wait at their words for service try again. Log entries, tile operations and copies go on by their own events. -/
def execPageServiceComplete (pa : Nat) (entry : BitVec 64) (s : State) : Host.Outcome State Fault Refusal :=
  .next (if pa % 8 ≠ 0 ∨ pa + 8 > Config.memTop then s
    else
      let s := s.writeHome 0 0 pa (leBytes 8 entry.toNat)
      { s with strands := s.strands.map fun st => match st.park with
        | .page _ _ _ | .tile _ _ => { st with park := .none }
        | _ => st })

/-- The PROT of a page that firmware declines to resolve (R305, R321): reason 2, at the level whose entry is missing. -/
def State.declined (s : State) (ctx : Nat) (va : Addr) (wr fetch : Bool) : Option Trap :=
  match walkFrom s.mem (va.toNat % 2 ^ 56) 3 (s.ctx ctx).root with
  | .missing level => some ⟨5, 0, va, reasonWord 0 (fieldN va.toNat 56 4) wr fetch level 2⟩
  | _ => none

/-- PAGE_DECLINE (R255, R277, R284, R305, R321, R325). -/
def execPageDecline (what : DeclineTarget) (s : State) : Host.Outcome State Fault Refusal :=
  .next <|
    match what with
    | .word sid =>
      let st := s.st sid
      match st.park with
      | .page va wr fetch => match s.declined (s.ctxOf st) va wr fetch with
        | some t => (s.setPark sid .none).trap sid t
        | none => s
      | .tile va wr => match s.declined (s.ctxOf st) va wr false with
        | some t => (s.setPark sid .none).setSt sid fun x => { x with refused := some (x.seq, t) }
        | none => s
      | _ => s
    | .entry sid id =>
      match (s.st sid).log.find? fun e => e.acc.id == id && e.trap.cls == 4 with
      | some e => match s.declined e.acc.ctx e.acc.va e.acc.need.wr false with
        | some t => s.setEntryTrap sid id t
        | none => s
      | none => s
    | .tile id =>
      match s.tileOps.find? fun o => o.id == id with
      | some o =>
        match o.want.bind fun x => s.declined o.ctx x.1 x.2 false with
        | some t => s.tileFault o t
        | none => s
      | none => s
    | .copy id =>
      match s.copies.find? fun c => c.id == id with
      | some c => if c.faulted then s.endCopy c 3 else s
      | none => s

end Sys2Proof.Machine
end

