-- ==== Sys2Proof/Machine/Recovery.lean ====
section
/-! DEFINITION. Recovery (14 R321..R348): TRAP and BPT, deferred delivery, ERET, REPLAY, pre-emption, resumption of a strand, and containment. -/

namespace Sys2Proof.Machine

-- TRAP, BPT (R328)

/-- TRAP (R328). -/
def execTrap (w : Ins) (s : State) : Host.Outcome State Fault Refusal :=
  .next (s.each 0xC0 w fun s _ => (s, .trap ⟨0x11, w.imm.toNat % 256, 0, 0⟩))

/-- BPT (R328): firmware sees it first; the strand waits at the word for its decision. -/
def execBpt (w : Ins) (s : State) : Host.Outcome State Fault Refusal :=
  .next (s.each 0xC1 w fun s st =>
    let n := w.imm.toNat % 256
    (s, if st.isFrame then .trap ⟨0x10, n, 0, 0⟩ else .park (.bpt n)))

/-- BPT_RESOLVE (R328): with a debugger attached firmware may resume the strand after the BPT; otherwise the trap goes to its handler. -/
def execBptResolve (sid : Nat) (resume : Bool) (s : State) : Host.Outcome State Fault Refusal :=
  .next <|
    let st := s.st sid
    match st.park with
    | .bpt n =>
      if !resume then (s.setPark sid .none).trap sid ⟨0x10, n, 0, 0⟩
      else if (s.ctx (s.ctxOf st)).debugger then (s.setPark sid .none).jump sid (st.pc + 12)
      else s
    | _ => s

-- deferred delivery (R325)

/-- A log entry as a fault. -/
def LogEntry.fault (e : LogEntry) : Pending := ⟨e.acc.seq, e.acc.pc, e.trap, e.exempt, e.tret⟩

/-- Every fault of a strand, oldest first. -/
def Strand.allFaults (st : Strand) : List Pending := sortBy (·.seq) (st.entries.map LogEntry.fault ++ st.faults)

/-- Whether a log entry is in firmware service. -/
def Strand.inService (st : Strand) : Bool := st.log.any fun e => e.trap.cls == 4

/-- A fault that is no log entry leaves once it is delivered. -/
def State.dropFault (s : State) (sid seq : Nat) : State :=
  s.setSt sid fun st => { st with faults := st.faults.filter fun f => f.seq != seq }

/-- The TRET of a fault (R325). -/
def Strand.tretOf (st : Strand) (f : Pending) : Nat := f.tret.getD (st.tretFor f.seq)

/-- Deliver a fault deferred (R322, R325). One that ends a pre-empt handler stays for the resumption (R331). -/
def State.deliverFault (s : State) (sid : Nat) (f : Pending) : State :=
  (if (s.st sid).phase = .preempt then s else s.dropFault sid f.seq).deliver sid f.trap f.pc true ((s.st sid).tretOf f)

/-- ERET delivers an entry's trap again (R326): an entry to the trap handler, not a new trap raised in one. In a resume handler the saved PC is kept meanwhile: the strand goes on there after that handler (log 65). -/
def State.redeliver (s : State) (sid : Nat) (f : Pending) : State :=
  let tret := (s.st sid).tretOf f
  ((s.dropFault sid f.seq).setSt sid fun x =>
    { x with tr := f.trap.regs f.pc true tret, heldPc := if x.phase = .resume then some x.resumePc else none }).enterTrap sid

/-- Whether a pending access can go on now. -/
def State.canProgress (s : State) (a : Acc) : Bool :=
  match a.kind with
  | .store | .tagStore =>
    if a.stage = 0 ∧ !a.homeOnly then s.mayReachCore a else s.mayReachHome a
  | .atomic => a.stage == 2 || s.mayExecute a
  | _ => a.stage == 0 && s.mayRead a

/-- Whether an access of a strand has completed (R325): a store to device memory once its core holds it (DEDUCED, log 118), any other when it is pending no more. Of what the log holds back (R232) only accesses that issued before the entry they wait for are still pending: they go on after it (log 105). -/
def State.completedFor (s : State) (sid : Nat) (a : Acc) : Bool :=
  (a.kind == .store && a.loc == 0 && decide (a.stage ≥ 1)) || ((s.stuck sid).any fun b => b.id == a.id) && !(s.canProgress a)

/-- Whether everything the strand issued has completed, is in the log out of firmware service, has signed, or stays behind the log (R325 step 2, and the worked run after R347). -/
def State.quiet (s : State) (st : Strand) : Bool :=
  st.log.all (fun e => e.exempt || e.trap.cls != 4)
    && s.pend.all (fun a => !(a.owns st.sid) || s.completedFor st.sid a)
    && s.tileOps.all (fun o => o.sid != st.sid || s.tileStuck o)
    && s.lats.all (fun l => l.sid != st.sid && !l.group.contains st.sid)
    && s.calls.all (fun c => c.sid != st.sid || c.dead)
    && match st.park with
      | .waita _ _ _ _ => false
      | .sleep _ => false
      | .bpt _ => false
      | _ => true

/-- Whether an item's strands take part in recovery: resident, or in their pre-empt handlers. -/
def State.active (s : State) (uid : Nat) : Bool :=
  (s.item? uid).isSome && match (s.it uid).status with
    | .resident => true
    | .preempting _ forced => !forced
    | .broken => true
    | _ => false

/-- A strand resumed without a handler goes on as ERET in the resume handler would (R326, R339). -/
def State.eretGo (s : State) (sid : Nat) : State :=
  let st := s.st sid
  if !st.eretw || st.inService then s
  else match st.allFaults with
    | f :: _ => s.redeliver sid f
    | [] => s.setSt sid fun x => { x with eretw := false }

/-- DEFERRED_TRAP_DELIVER (R325): delivery begins, and the oldest fault that will be delivered is delivered once everything else the strand issued has settled. When the device knows of the fault is free, so the strand may have run on. -/
def execDeferredTrapDeliver (sid : Nat) (s : State) : Host.Outcome State Fault Refusal :=
  .next <|
    let st := s.st sid
    if (s.strand? sid).isNone || st.isFrame || st.exited || !s.active st.uid then s
    else if st.eretw then s.eretGo sid
    else match st.allFaults.filter fun f => !f.exempt && f.trap.cls != 4 with
      | f :: _ => if s.quiet st then s.deliverFault sid f else s.setSt sid fun x => { x with dooming := true }
      | [] =>
        if !st.doomed || !s.quiet st || st.inService then s
        else match st.allFaults with
          | f :: _ => s.deliverFault sid f
          | [] => s

/-- LOG_ENTRY_REEXECUTE (R324): firmware has resolved the page; the entry runs again from the log. -/
def execLogEntryReexecute (sid entry : Nat) (s : State) : Host.Outcome State Fault Refusal :=
  .next <|
    let st := s.st sid
    if st.isFrame || !s.active st.uid then s
    else match st.log.find? fun e => e.acc.id == entry && e.trap.cls == 4 with
      | some e => ((s.reexecute sid e).1.setSt sid Strand.admitted).eretGo sid
      | none => s

-- ERET (R326)

/-- Restore registers, drawing storage (R67): none when it is short. -/
def State.restoreRegs (s : State) (st : Strand) (regs : List Nat) : Option State :=
  s.grow st.uid st.prank fun s => regs.foldl (fun s i => s.restoreReg st i) s

/-- A park recorded in PARK that still holds (R326, R330): a round that has completed meanwhile holds no one. -/
def State.parkStands (s : State) (st : Strand) (p : Park) : Bool :=
  let it := s.it st.uid
  let signed := fun (r : Round) => r.signers.any fun g => g.sid == st.sid
  match p with
  | .signW c => match it.crew st.crew with
    | some k => signed (k.rounds.getD c {})
    | none => false
  | .collective => match it.crew st.crew with
    | some k => signed k.coll
    | none => false
  | .freeze => it.child.isSome || match it.crew 0 with
    | some k => signed (k.rounds.getD 15 {})
    | none => false
  | _ => true

/-- The record is needed no longer once every strand has left its resume handler. -/
def State.dropSaved (s : State) (uid : Nat) : State :=
  if s.strands.any fun x => x.uid == uid && !x.isFrame && x.phase == .resume then s else s.setIt uid fun it => { it with saved := [] }

/-- The parks that a pre-emption records (R330, R335). -/
def Park.recorded : Park → Park
  | .signW c => .signW c
  | .collective => .collective
  | .freeze => .freeze
  | .sleep t => .sleep t
  | _ => .none

/-- A strand takes PREEMPT and enters the pre-empt handler (R330). -/
def State.enterPreempt (s : State) (sid : Nat) : State :=
  let s := s.waitaReturn sid
  let st := s.st sid
  let k := (s.it st.uid).kernel
  s.setSt sid fun x =>
    let x := (x.freeze).behindLog (s.stuck sid)
    { x with
      savedTr := x.tr, savedTraph := x.traph, savedPark := x.park.recorded
      tr := { tcode := 0x12, trpc := x.pc }
      traph := false, phase := .preempt, park := .none, csaved := [], redc := none, replay := none, eretw := false, dooming := false, due := false
      pc := k.code + BitVec.ofNat 64 k.preemptofs }

/-- A strand leaves its resume handler (R326): trap registers, TRAPH and park come back, the PC is TRPC as the handler left it. -/
def State.leaveResume (s : State) (sid : Nat) : State :=
  let st := s.st sid
  let p := if s.parkStands st st.savedPark then st.savedPark else .none
  let s := s.setSt sid fun x =>
    { x with pc := x.resumePc, heldPc := none, tr := x.savedTr, traph := x.savedTraph, park := p, phase := .run, savedPark := .none, handlerWrote := [], seq := x.seq + 1 }
  s.dropSaved st.uid

/-- The registers that a resume handler has neither restored nor written (R326). -/
def State.unrestored (s : State) (st : Strand) : List Nat := (List.range (s.it st.uid).kernel.regs).filter fun i => !st.handlerWrote.contains i

/-- ERET in a resume handler. -/
def State.eretResume (s : State) (st : Strand) : State × Flow :=
  match s.restoreRegs st (s.unrestored st) with
  | none => (s, .park .storage)
  | some s => (s.leaveResume st.sid, .done)

/-- The address after n units from an address (R326): a MODW opens a unit of two words. -/
def State.afterUnits (s : State) (st : Strand) (pc : Addr) : Nat → Addr
  | 0 => pc
  | n + 1 =>
    let wide := match (s.fetchElems st.sid (s.coreOf st) (s.ctxOf st) pc 3).2 with
      | .ok bs => isModw (codeOf bs)
      | .error _ => false
    State.afterUnits s st (pc + (if wide then 24 else 12)) n

/-- Where ERET continues a strand from its trap handler (R326). -/
def State.eretPc (s : State) (st : Strand) (skip : Bool) : Addr :=
  if st.tr.tcode.getLsbD 8 then s.afterUnits st st.tr.trpc (((List.range 32).filter st.tr.tret.getLsbD).length + 1)
  else s.afterUnits st st.tr.trpc (if skip then 1 else 0)

/-- ERET for one strand (R326). -/
def State.eret (s : State) (st : Strand) (skip : Bool) : State × Flow :=
  if !st.traph && st.phase ≠ .resume then (s, .trap ⟨0x0F, 7, 0, 0⟩)
  else if st.inService then (s, .stay)
  else match st.allFaults with
    | f :: _ => (s.redeliver st.sid f, .done)
    | [] =>
      if st.phase = .resume then s.eretResume st
      else (s.setSt st.sid fun x => { x with traph := false }, .goto (s.eretPc st skip))

/-- ERET (R326). -/
def execEret (w : Ins) (s : State) : Host.Outcome State Fault Refusal := .next (s.each 0xC7 w fun s st => s.eret st false)

/-- ERET.skip (R326). -/
def execEretSkip (w : Ins) (s : State) : Host.Outcome State Fault Refusal := .next (s.each 0xC7 w fun s st => s.eret st true)

-- REPLAY (R327)

/-- Whether an entry of a strand's log is held back by others that stay there (R232): re-executed, it could not perform before them. -/
def State.entryHeld (s : State) (sid : Nat) (e : LogEntry) : Bool :=
  let a := match e.acc.known || e.acc.loc == 4, s.vaToPa e.acc.ctx e.acc.va.toNat with
    | false, some x => { e.acc with loc := x.1, pa := x.2, known := true }
    | _, _ => e.acc
  ((s.st sid).log.map (·.acc) ++ s.stuck sid).any (s.accWaits a)

/-- A fault met again: the first that is no page fault is kept. -/
def Replay.again (r : Replay) (t : Trap) : Replay := if r.first.isNone && t.cls != 4 then { r with first := some t } else r

/-- Re-execute entries of a strand's log in order, until one has to be waited for: how far it has come, and whether it is done. -/
def State.replayRun (s : State) (sid : Nat) (r : Replay) : List Nat → State × Replay × Bool
  | [] => (s, { r with cur := none, todo := [] }, true)
  | id :: rest =>
    match (s.st sid).log.find? fun e => e.acc.id == id with
    | none => State.replayRun s sid r rest
    | some e =>
      if s.entryHeld sid e then State.replayRun s sid r rest
      else match s.reexecute sid e with
        | (s, some t) => State.replayRun s sid (r.again t) rest
        | (s, none) =>
          if (s.st sid).log.any fun x => x.acc.id == id then (s, { r with cur := none, todo := id :: rest }, false)
          else (s, { r with cur := some (id, e.acc.count), todo := rest }, false)

/-- What a strand's REPLAY has before it: what is under way, or its whole log, oldest first. -/
def Strand.replaying (st : Strand) : Replay :=
  match st.replay with
  | some r => if r.seq = st.seq then r else { seq := st.seq, todo := st.entries.map (·.acc.id) }
  | none => { seq := st.seq, todo := st.entries.map (·.acc.id) }

/-- The end of a strand's replay: entries left are exempt from the run-ahead limits (R324); the first fault met again goes to the trap registers. -/
def State.replayEnd (s : State) (sid : Nat) (r : Replay) : State :=
  s.setSt sid fun st =>
    let st := st.freeze.admitted
    { st with
      replay := none
      log := st.log.map fun e => { e with exempt := true }
      tr := match r.first with
        | some t => t.regs st.tr.trpc true st.tr.tret.toNat
        | none => st.tr }

/-- One strand's replay goes on, and whether it is done: it waits for the entry that performs, which leaves the log for good or fails again. -/
def State.replayOne (s : State) (sid : Nat) : State × Bool :=
  let st := s.st sid
  let r := st.replaying
  let mine := fun (id : Nat) => r.cur.any fun c => decide (c.1 ≤ id) && decide (id < c.1 + c.2)
  if s.pend.any fun a => a.owns sid && mine a.id then (s, false)
  else
    let r := match st.log.find? fun e => mine e.acc.id with
      | some e => r.again e.trap
      | none => r
    match s.replayRun sid r r.todo with
    | (s, r, true) => (s.replayEnd sid r, true)
    | (s, r, false) => (s.setSt sid fun x => { x with replay := some r }, false)

/-- What the executing strands' logs come to, then D, for the strands that are done: the entries still there. The others stay at the word. -/
def State.replayWord (s : State) (w : Ins) (act : State → List Nat → State × List Nat) : State :=
  let gs := s.bundle.filter fun sid => decide (s.verdict 0xC8 w (s.st sid) = .go)
  let r := act s gs
  let wait := gs.filter fun sid => !r.2.contains sid
  let t := ({ r.1 with bundle := s.bundle.filter fun sid => !wait.contains sid } : State).alu 0xC8 w 1 generalOf
    fun s st => [BitVec.ofNat 32 (s.st st.sid).entries.length]
  wait.foldl (fun t sid => t.flow sid w .stay) t

/-- REPLAY (R327). -/
def execReplay (w : Ins) (s : State) : Host.Outcome State Fault Refusal :=
  .next (s.replayWord w fun s gs => gs.foldl (fun x sid => let y := x.1.replayOne sid; (y.1, if y.2 then sid :: x.2 else x.2)) (s, []))

/-- The registers that a log entry still has to fill. -/
def LogEntry.destAll (e : LogEntry) : List Nat :=
  match e.part with
  | none => e.acc.destAll
  | some k => (e.acc.elem k).destAll

/-- A strand's log without its entries: faults that waited for room enter it (R324, R327). -/
def Strand.emptied (st : Strand) : Strand := ({ st with log := st.log.filter (·.late) } : Strand).admitted

/-- Every entry leaves unexecuted; each destination register becomes 0 and full, uniform where the strands of the row that drop it cover the row (R167, R327). A row for which the core has no storage parks on it with its log as it was (R67); the strands that are done are the others. -/
def State.dropLogs (s : State) (gs : List Nat) : State × List Nat :=
  let plan := gs.map fun sid => (s.st sid, (s.st sid).entries.flatMap LogEntry.destAll)
  plan.foldl (fun r x =>
    let mine := plan.filter fun y => sameRow y.1 x.1
    if (mine.head?.map fun y => y.1.sid) ≠ some x.1.sid then r
    else
      let regs := (List.range 256).filter fun i => mine.any fun y => y.2.contains i
      let write := fun (s : State) => regs.foldl (fun (s : State) i =>
        s.writeV x.1 i ((mine.filter fun y => y.2.contains i).map fun y => (y.1, [0])) (fun _ => some (.uniform 0)) 1) s
      match (if x.1.isFrame then some (write r.1) else r.1.grow x.1.uid x.1.prank write) with
      | some s => (mine.foldl (fun (s : State) y => s.setSt y.1.sid Strand.emptied) s, r.2 ++ mine.map fun y => y.1.sid)
      | none => (mine.foldl (fun (s : State) y => s.setPark y.1.sid .storage) r.1, r.2)) (s, [])

/-- REPLAY.drop (R327). -/
def execReplayDrop (w : Ins) (s : State) : Host.Outcome State Fault Refusal := .next (s.replayWord w fun s gs => s.dropLogs gs)

-- the pre-emption handlers' words (R331, R339)

/-- The registers a mask of CSAVE and CREST names (R329). -/
def maskRegs (w : Ins) : List Nat :=
  let base := (w.a.vregs 1).headD 0
  (List.range 32).filterMap fun i => if w.imm.getLsbD i then some (base + i) else none

/-- CSAVE (R331, R341): an empty register is copied as empty, a poisoned one with its poison. -/
def execCsave (w : Ins) (s : State) : Host.Outcome State Fault Refusal :=
  .next (s.each 0xC4 w fun s st =>
    if st.phase ≠ .preempt then (s, .trap ⟨0x0F, 8, 0, 0⟩)
    else
      let regs := maskRegs w
      (s.setSt st.sid fun x => { x with
        csaved := (regs.map fun i => (i, s.vreg st i, s.isEmpty st i, s.isPoisoned st i)) ++ x.csaved.filter fun y => !regs.contains y.1 }, .next))

/-- CREST (R339): a register not in the record restores as 0. -/
def execCrest (w : Ins) (s : State) : Host.Outcome State Fault Refusal :=
  .next (s.each 0xC5 w fun s st =>
    if st.phase ≠ .resume then (s, .trap ⟨0x0F, 9, 0, 0⟩)
    else match s.restoreRegs st (maskRegs w) with
      | none => (s, .park .storage)
      | some s => (s.setSt st.sid fun x => { x with handlerWrote := maskRegs w ++ x.handlerWrote }, .next))

/-- PDONE (R331): the strand parks until the save. -/
def execPdone (w : Ins) (s : State) : Host.Outcome State Fault Refusal :=
  let s1 := s.each 0xC6 w fun s st => if st.phase ≠ .preempt then (s, .trap ⟨0x0F, 6, 0, 0⟩) else (s, .park .pdone)
  .next (s.bundle.foldl (fun t sid => t.trySave (s.st sid).uid) s1)

-- pre-emption (R330..R332)

/-- The live member strands and finishing strands of an item. -/
def State.livesOf (s : State) (uid : Nat) : List Nat :=
  (s.strands.filter fun st => st.uid == uid && !st.isFrame && !st.exited).map (·.sid)

/-- A pre-emption without handlers: every strand stops where it is, and the save is due (R330, R332). -/
def State.forceSave (s : State) (uid forced : Nat) : State :=
  let s := s.setIt uid fun it => { it with status := .preempting (s.nstime) true, pforced := forced }
  let s := (s.livesOf uid).foldl (fun (s : State) (sid : Nat) =>
    (s.waitaReturn sid).setSt sid fun x => { x.freeze with park := if x.phase = .run then x.park.recorded else x.park, redc := none, replay := none }) s
  s.trySave uid

/-- A pre-emption takes a strand in its resume handler (R330): it leaves that handler as by ERET, with the registers that it has not restored or written, and takes PREEMPT; where storage is short it waits for it (R67, log 63). -/
def State.preemptResume (s : State) (sid : Nat) : State :=
  let s := s.waitaReturn sid
  match s.restoreRegs (s.st sid) (s.unrestored (s.st sid)) with
  | some s => (s.leaveResume sid).enterPreempt sid
  | none => s.setSt sid fun x => { x with due := true, park := .storage }

/-- STORAGE_RETRY (R67): a strand parked on storage goes back to its word; one that still owes results has those written for which there is storage now; one that a pre-emption has met in its resume handler leaves that handler. -/
def execStorageRetry (sid : Nat) (s : State) : Host.Outcome State Fault Refusal :=
  .next (if !(s.st sid).owed.isEmpty then s.payOwed false sid
    else if (s.st sid).park ≠ .storage then s
    else if (s.st sid).due then s.preemptResume sid
    else s.setPark sid .none)

/-- Pre-empt one item (R330): its strands take PREEMPT at once. -/
def State.preempt (s : State) (uid : Nat) : State :=
  let it := s.it uid
  if (s.item? uid).isNone || it.status ≠ .resident then s
  else if it.kernel.preemptofs = 0 then s.forceSave uid 1
  else
    let dl := s.nstime + (s.ctx it.ctx).pdead.toNat * 1000
    let s := s.setIt uid fun it => { it with status := .preempting dl false, pforced := 0 }
    ((s.livesOf uid).filter fun sid => !(s.st sid).isFinishing).foldl (fun s sid =>
      if (s.st sid).phase = .resume then s.preemptResume sid else s.enterPreempt sid) s

/-- PREEMPT_REQUEST (R330): firmware pre-empts an item, or every item of a context. -/
def execPreemptRequest (what : PreemptTarget) (s : State) : Host.Outcome State Fault Refusal :=
  .next (match what with
    | .item uid => s.preempt uid
    | .ctx c => (s.items.filter fun it => it.ctx == c).foldl (fun s it => s.preempt it.uid) s)

/-- PREEMPT_DEADLINE (R332): the deadline passes before every strand has executed PDONE. -/
def execPreemptDeadline (uid : Nat) (s : State) : Host.Outcome State Fault Refusal :=
  .next (match (s.it uid).status with
    | .preempting d false => if s.saveDue uid || s.nstime < d then s
      else (s.setIt uid fun it => { it with status := .preempting d true, pforced := 1 }).trySave uid
    | _ => s)

-- containment (R343..R347)

/-- CONTEXT_KILL (R344): its items stop at once, without saves, reports or done counts; what has reached its home stays, and the core keeps no line with a store that has not (R344). A Grinder's block under way runs to its end (R363), and a tile being rewritten at its home is finished (R159). -/
def execContextKill (ctx : Nat) (s : State) : Host.Outcome State Fault Refusal :=
  .next <|
    let uids := (s.items.filter fun it => it.ctx == ctx).map (·.uid)
    let lids := (s.launches.filter fun l => l.ctx == ctx).map (·.lid)
    let calls := (s.calls.filter fun c => c.ctx == ctx).map (·.id)
    let mine := fun (st : Strand) => (match st.kind with
      | .frame c => calls.contains c
      | _ => uids.contains st.uid)
    let sids := (s.strands.filter mine).map (·.sid)
    let lost := s.pend.filter fun a => a.ctx == ctx && a.kind == .store && a.stage == 1
    { s with
      l1 := s.l1.filter fun l => !lost.any fun a => a.core == l.core && a.loc == l.loc && a.pa / 128 == l.line
      strands := s.strands.filter fun st => !mine st
      items := s.items.filter fun it => !uids.contains it.uid
      calls := s.calls.filter fun c => !calls.contains c.id
      templates := s.templates.filter fun t => !lids.contains t.launch
      launches := s.launches.filter fun l => !lids.contains l.lid
      queues := s.queues.map fun q => match q.head with
        | .selected l => if lids.contains l then q.pop else q
        | _ => q
      pend := s.pend.filter fun a => a.ctx != ctx
      lats := s.lats.filter fun l => !sids.contains l.sid
      tileOps := s.tileOps.filter fun o => o.ctx != ctx || decide (o.busy > 0)
      copies := s.copies.filter fun c => c.ctx != ctx || decide (c.busy > 0)
      mcasts := s.mcasts.filter fun m => !uids.contains m.uid
      grinders := s.grinders.map fun g => { g with queue := g.queue.filter fun b => b.ctx != ctx }
      nvqs := s.nvqs.map fun q => if q.ctx = ctx then { q with live := false } else q : State }.setCtx ctx fun c => { c with live := false }

/-- A fault report that firmware writes for an item a cluster reset ended (R345): the sections of its record hold any values. -/
def State.resetReport (s : State) (it : Item) : State :=
  let f := s.nextId
  let s : State := { s with nextId := f + 1 }
  let secs := s.sections it
  let len := secs.flatten.length
  let head := it.headerImage 3 (128 + len) (offsets 128 secs) 0xFFFFFFFF
  let body := (List.range len).map fun i => (Config.freeByte f i, false)
  let bs := head ++ body
  let s := s.putLines it.ctx (it.recordVa (s.la it.launch)) (pieces (bs.length / 64 + 1) bs)
  let rp := it.savebase.toNat + 0x14
  s.putVa it.ctx rp (leBytes 4 (s.numVa it.ctx rp 4 + 1))

/-- Accesses that never perform leave; packets merged into one of them that stay go on by themselves (R241). -/
def State.cutAccs (s : State) (p : Acc → Bool) : State :=
  let gone := s.pend.filter p
  { s with pend := (s.pend.filter fun a => !p a).map fun b => if gone.any fun h => h.merged.contains b.id then { b with stage := 0 } else b }

/-- The pending accesses that a reset cuts off: each write performs zero times or once, and once only where its order lets it, after the writes before it that perform (R228, R345). -/
def State.zeroOrOnce (s : State) (p : Acc → Bool) : State :=
  ((s.pend.filter fun a => p a && a.writes).foldl (fun s a =>
    let may := match a.kind with
      | .atomic => a.stage == 0 && s.mayExecute a
      | _ => s.mayReachHome a
    if may && (Config.freeByte s.tick a.id).getLsbD 0 then s.settle a else s) s).cutAccs p

/-- Outstanding calls of some strands go with them: kept states are dropped, replies will be discarded (R323, R345). -/
def State.dropCalls (s : State) (mine : Call → Bool) : State :=
  { s with calls := (s.calls.filter fun c => !(mine c && c.phase.atCaller)).map fun c => if mine c then { c with dead := true } else c }

/-- An item with a rank on a reset cluster ends, with a report that firmware writes (R345). -/
def State.resetItem (s : State) (it : Item) : State :=
  let mine := fun (sid : Nat) => s.strands.any fun st => st.sid == sid && st.uid == it.uid && !st.isFrame
  let s := s.zeroOrOnce fun a => mine a.sid
  let s := if it.reported then s else s.resetReport it
  let s : State := { s with
    copies := s.copies.filter fun c => c.uid != it.uid || decide (c.busy > 0)
    mcasts := s.mcasts.filter fun m => m.uid != it.uid }
  ((s.dropCalls fun c => c.uid == it.uid).removeItem it.uid).itemGone it

/-- The storage of a rank after a reset of its core: it holds any values. -/
def Rank.blank (r : Rank) (f : Nat) : Rank :=
  { r with
    ops := []
    slots := r.slots.zipIdx.map fun x => { x.1 with state := .ready, pay := Block.undef (f + 2 * x.2), side := Block.undef (f + 2 * x.2 + 1), poison := [] }
    accs := r.accs.zipIdx.map fun x => { x.1 with data := Block.undef (f + 2 * r.slots.length + x.2), poison := [] } }

/-- A reset takes the ranks of an item that lie on a cluster: their strands issue nothing more, what runs on the item's other cores goes on until firmware ends the item (R345). -/
def State.breakItem (s : State) (cluster : Nat) (it : Item) : State :=
  let hit := fun (p : Nat) => clusterOf (s.rank it.uid p).core == cluster
  let lost := (s.strands.filter fun st => st.uid == it.uid && !st.isFrame && hit st.prank).map (·.sid)
  let f := s.nextId
  let s := s.dropCalls fun c => lost.contains c.sid
  let s : State := { s with
    nextId := f + 4096 * it.ranks.length
    lats := s.lats.filter fun l => !lost.contains l.sid
    tileOps := s.tileOps.filter fun o => !lost.contains o.sid || decide (o.busy > 0)
    copies := s.copies.filter fun c => !(c.uid == it.uid && hit c.prank) || decide (c.busy > 0)
    mcasts := s.mcasts.filter fun m => !(m.uid == it.uid && hit m.prank)
    strands := s.strands.map fun st => if lost.contains st.sid then { st with disabled := true, park := .none } else st }
  s.setIt it.uid fun x => { x with status := .broken, ranks := x.ranks.zipIdx.map fun r => if hit r.2 then r.1.blank (f + 4096 * r.2) else r.1 }

/-- CLUSTER_RESET (R345): the cluster's cores, walker, TLB and watch table, whose waits end; items with a rank on it end. One with ranks on other clusters too, unless it is ending, ends when firmware comes to it: requests of its strands to the reset cores are answered "cluster down". -/
def execClusterReset (cluster : Nat) (s : State) : Host.Outcome State Fault Refusal :=
  .next (if cluster ≥ Config.clusters then s
    else
      let on := fun (core : Nat) => clusterOf core == cluster
      let s : State := { s with
        clusters := s.clusters.modify cluster fun c => { c with down := true }
        tlb := s.tlb.filter fun e => e.cluster != cluster
        l1 := s.l1.filter fun l => !on l.core
        strands := s.strands.map fun st => match st.park with
          | .waita line t _ e => if s.clusterFor st = cluster then { st with park := .waita line t true e } else st
          | _ => st }
      let hit := s.items.filter fun it => it.status != .saved && it.ranks.any fun r => on r.core
      let s := s.zeroOrOnce fun a => on a.core && (s.it a.uid).status != .saved
      hit.foldl (fun s it =>
        if (it.ranks.all fun r => on r.core) || !(it.status == .resident || it.status == .broken || s.active it.uid) then s.resetItem it
        else s.breakItem cluster it) s)

/-- CLUSTER_RETURN (R345): firmware returns the cluster to service. -/
def execClusterReturn (cluster : Nat) (s : State) : Host.Outcome State Fault Refusal :=
  .next { s with clusters := s.clusters.modify cluster fun c => { c with down := false } }

/-- Whether an address behind LOC 1 is a peer's (R308). -/
def peerOf (pa : Nat) : Nat := pa / 2 ^ 48

/-- What a tile-view operation has at a peer, its descriptor, header or payload: the address, and the level of its leaf. -/
def TileOp.atPeer (o : TileOp) (peer : Nat) : Option (Addr × Nat) :=
  let at_ := fun (loc pa : Nat) => loc == 1 && peerOf pa == peer
  if o.op = 0x85 ∧ at_ o.hdrLoc o.descPa then some (o.desc, o.hdrLevel)
  else if o.op ≠ 0x85 ∧ at_ o.hdrLoc o.hdrPa then some (o.hdrVa o.doneTiles, o.hdrLevel)
  else if at_ o.payLoc o.payPa then some (o.payVa o.doneTiles, o.payLevel) else none

/-- The memory that a copy has still to read or write. -/
def Copy.spans (c : Copy) : List (Addr × Nat) :=
  let r := CpyRec.of c.words
  let d := Desc.ofBytes c.desc
  let rows := fun (e : Nat) => ((List.range r.rows).filter fun i => r.trans && r.kind == 0 || decide (i / 8 ≥ c.chunk)).map fun i =>
    (r.va + BitVec.ofNat 64 (i * r.w3), r.cols * e)
  match r.kind with
  | 0 => if r.sf = 14 then [(r.va + BitVec.ofNat 64 (256 * c.chunk), 1024 - 256 * c.chunk)] else rows (fmtBytes r.sf)
  | 1 => if r.sf = 14 then [(r.va + BitVec.ofNat 64 (256 * c.chunk), 1024 - 256 * c.chunk)] else rows (fmtBytes r.df)
  | 2 =>
    let lo := if c.chunk = 0 then r.dst else (r.dst / 4096 + c.chunk) * 4096
    [(BitVec.ofNat 64 (r.src + (lo - r.dst)), r.dst + r.len - lo), (BitVec.ofNat 64 lo, r.dst + r.len - lo)]
  | k => ((r.tiles d).drop (if k = 3 then c.fetched else c.chunk)).flatMap fun t =>
      [(d.hdrbase + BitVec.ofNat 64 (32 * t), 32), (d.paybase + BitVec.ofNat 64 (t * tileBytesOf d.fmt), tileBytesOf d.fmt)]

/-- Whether a copy has still to reach a peer. -/
def State.copyAtPeer (s : State) (c : Copy) (peer : Nat) : Bool :=
  (c.spans.flatMap fun x => bytesParts (x.2 / 4096 + 2) x.1 x.2).any fun x => match s.vaToPa c.ctx x.1.toNat with
    | some (1, pa) => peerOf pa == peer
    | _ => false

/-- A peer becomes unreachable (R83, R346, R354): accesses to it trap RPEER 1, calls complete PEERDOWN, copies end with STATUS 3, translations go; it stays so until firmware has restored it. -/
def State.losePeer (s : State) (peer : Nat) : State :=
  let s : State := { s with peersDown := peer :: s.peersDown.filter fun p => p != peer }
  let s := (s.calls.filter fun c => c.loc == 1 && c.peer == peer).foldl (fun s c => s.abandonCall c.id 4) s
  let s := (s.pend.filter fun a => a.loc == 1 && peerOf a.pa == peer).foldl (fun (s : State) (a : Acc) =>
    s.lateFault a (peerTrap a) (a.kind == .atomic && a.stage == 2)) s
  let s := s.tileOps.foldl (fun (s : State) (o : TileOp) => match o.atPeer peer with
    | some (va, level) => s.tileFault o ⟨0x0B, 1, va, reasonWord 0 (fieldN va.toNat 56 4) o.writes false level 11⟩
    | none => s) s
  let s := (s.copies.filter fun c => s.copyAtPeer c peer).foldl (fun (s : State) (c : Copy) => s.endCopy c 3) s
  { s with tlb := s.tlb.filter fun e => !(fieldN e.pte.toNat 8 2 == 1 && fieldN e.pte.toNat 52 12 == peer) }

/-- PEER_DOWN (R346). -/
def execPeerDown (peer : Nat) (s : State) : Host.Outcome State Fault Refusal := .next (s.losePeer peer)

/-- LINK_UP (R354): a link to a peer is up again; accesses succeed once firmware has rebuilt the translations of a peer that was lost. -/
def execLinkUp (port peer : Nat) (s : State) : Host.Outcome State Fault Refusal :=
  .next (if port ≥ 64 ∨ peer ≥ 4096 then s else { s with links := s.links.set port (some peer) })

/-- An access without a response goes into the log (R347): it has performed zero times or once, and once only where its order lets it. A packet merged into another performs with that one. -/
def State.timeoutAcc (s : State) (a : Acc) : State :=
  if a.kind = .atomic ∧ a.stage = 1 then s
  else
    let may := if a.kind = .atomic then s.mayExecute a else if a.writes then s.mayReachHome a else s.mayRead a
    let once := may && (Config.freeByte s.tick 0).getLsbD 0
    let old := s.homeNum a.loc a.pa a.width
    let done := a.writes && (once || a.stage == 2)
    let s := if a.writes && once && a.stage != 2 then s.settle a
      else if a.loc = 3 && once && !a.writes then { s with ioLog := s.ioLog ++ [⟨a.pa / 2 ^ 47, a.pa % 2 ^ 47, a.width, none⟩] } else s
    let a := if a.kind = .atomic ∧ a.stage ≠ 2 then { a with old := old } else a
    s.lateFault a ⟨0x0A, 0, 0, 0⟩ done

/-- RTIMEOUT (R347): the response of an access to peer, host or I/O space has not arrived within RCTO of its issue. -/
def execRtimeout (id : Nat) (s : State) : Host.Outcome State Fault Refusal :=
  .next (s.onAcc id fun s a =>
    if (a.loc = 1 ∨ a.loc = 2 ∨ a.loc = 3) ∧ s.now ≥ a.issued + (s.ctx a.ctx).rcto.toNat * 1000 * Config.perNs then s.timeoutAcc a else s)

-- errors (R341)

/-- Add poison to bytes of a slot. -/
def Slot.poisonWord (x : Slot) (o : Nat) : Slot := { x with poison := (List.range 4).map (o + ·) ++ x.poison }

/-- An uncorrectable error marks the data poisoned (R341): a uniform or affine register for every lane (R342). -/
def State.poisonSite (s : State) (site : ErrorSite) : State :=
  match site with
  | .vreg sid r =>
    let st := s.st sid
    s.setRow st fun row =>
      let v := row.reg r
      row.setReg r { v with poison := match v.shape with
        | .general _ => v.poison ||| BitVec.ofNat 32 (2 ^ st.lane)
        | _ => 0xFFFFFFFF }
  | .sreg uid r => s.setIt uid fun it => { it with sregs := it.sregs.modify r fun x => { x with poison := true } }
  | .slot uid p x w => s.setSlot uid p x fun y => y.poisonWord (4 * (w % 256))
  | .sidecar uid p x w => s.setSlot uid p x fun y => y.poisonWord (1024 + 4 * (w % 8))
  | .acc uid p a e => s.setAccum uid p a fun x => { x with poison := e % 1024 :: x.poison }
  | .tileTable uid p x => s.setSlot uid p x fun y => { y with poison := entryPoison :: y.poison }
  | .l1 core loc line w => { s with l1 := s.l1.map fun l => if l.core = core ∧ l.loc = loc ∧ l.line = line then
      { l with poison := (List.range 4).map (4 * (w % 32) + ·) ++ l.poison } else l }
  | .mem pa => if pa < Config.memTop ∧ !s.poison.contains (pa / 64) then { s with poison := pa / 64 :: s.poison } else s
  | .foreign id => s.onAcc id fun s a => if (a.loc = 1 ∨ a.loc = 2) ∧ a.reads ∧ a.stage ≠ 1 then s.lateFault a ⟨0x0C, 6, 0, 0⟩ (a.kind == .atomic && a.stage == 2) else s

/-- The core of a site, whose counter a corrected error increments: of a word of device memory, the core whose home slice holds it (R11). -/
def State.siteCore (s : State) (site : ErrorSite) : Nat :=
  match site with
  | .vreg sid _ => s.coreOf (s.st sid)
  | .sreg uid _ => (s.rank uid 0).core
  | .slot uid p _ _ | .sidecar uid p _ _ | .acc uid p _ _ | .tileTable uid p _ => (s.rank uid p).core
  | .l1 core _ _ _ => core
  | .mem pa => channelOf pa
  | .foreign id => ((s.pend.find? fun a => a.id == id).map (·.core)).getD 0

/-- MEMORY_ERROR (R341). -/
def execMemoryError (site : ErrorSite) (corrected : Bool) (s : State) : Host.Outcome State Fault Refusal :=
  .next (if !corrected then s.poisonSite site
    else
      let c := s.siteCore site
      let n := ((s.corrected.find? fun x => x.1 == c).map (·.2)).getD 0
      { s with corrected := (c, n + 1) :: s.corrected.filter fun x => x.1 != c })

end Sys2Proof.Machine
end

