-- ==== Sys2Proof/Machine/Ready.lean ====
section
/-! DEFINITION. Which strands are ready (04 R52), in what order the bundler serves their PCs (04 R75), and fetching for an issue (03 R45..R47, 14 R324). -/

namespace Sys2Proof.Machine

/-- What a word does whose own description lets it wait (R52); none for every other. -/
def waitingWord (i : Instr) (s : State) : Option (Host.Outcome State Fault Refusal) :=
  match i with
  | .exit w => some (execExit w s)
  | .sign w => some (execSign w s)
  | .signW w => some (execSignW w s)
  | .cwait w => some (execCwait w s)
  | .shfl w => some (execShfl w s)
  | .cred w => some (execCred w s)
  | .voteAll w => some (execVoteAll w s)
  | .voteAny w => some (execVoteAny w s)
  | .voteCount w => some (execVoteCount w s)
  | .voteRowmask w => some (execVoteRowmask w s)
  | .freeze w => some (execFreeze w s)
  | .launch w => some (execLaunch w s)
  | .evsig w => some (execEvsig w s)
  | .evwait w => some (execEvwait w s)
  | .rcall w => some (execRcall w s)
  | .rret w => some (execRret w s)
  | .rjoin w => some (execRjoin w s)
  | .mma w => some (execMma w s)
  | .mmas w => some (execMmas w s)
  | .mmag w => some (execMmag w s)
  | .aclr w => some (execAclr w s)
  | .aclrAll w => some (execAclrAll w s)
  | .ast w => some (execAst w s)
  | .ald w => some (execAld w s)
  | .aget w => some (execAget w s)
  | .mwait w => some (execMwait w s)
  | .qnt w => some (execQnt w s)
  | .qntCol w => some (execQntCol w s)
  | .bpk w => some (execBpk w s)
  | .bunp w => some (execBunp w s)
  | .scw w => some (execScw w s)
  | .scr w => some (execScr w s)
  | .mstat w => some (execMstat w s)
  | .mstatClr w => some (execMstatClr w s)
  | .tscl w => some (execTscl w s)
  | .tofs w => some (execTofs w s)
  | .tclp w => some (execTclp w s)
  | .tclpImm w => some (execTclpImm w s)
  | .tfil w => some (execTfil w s)
  | .tmap w => some (execTmap w s)
  | .tord w => some (execTord w s)
  | .tmat w => some (execTmat w s)
  | .tmatAll w => some (execTmatAll w s)
  | .thdr w => some (execThdr w s)
  | .tlde w => some (execTlde w s)
  | .tste w => some (execTste w s)
  | .ld w => some (execLd w s)
  | .st w => some (execSt w s)
  | .lds w => some (execLds w s)
  | .sts w => some (execSts w s)
  | .ldlk w => some (execLdlk w s)
  | .stul w => some (execStul w s)
  | .unlk w => some (execUnlk w s)
  | .aadd w => some (execAadd w s)
  | .amin w => some (execAmin w s)
  | .amax w => some (execAmax w s)
  | .aand w => some (execAand w s)
  | .aor w => some (execAor w s)
  | .axor w => some (execAxor w s)
  | .axch w => some (execAxch w s)
  | .acas w => some (execAcas w s)
  | .afadd w => some (execAfadd w s)
  | .fenceAcq w => some (execFenceAcq w s)
  | .fenceRel w => some (execFenceRel w s)
  | .fenceAr w => some (execFenceAr w s)
  | .waita w => some (execWaita w s)
  | .wake w => some (execWake w s)
  | .tagld w => some (execTagld w s)
  | .tagst w => some (execTagst w s)
  | .cpy w => some (execCpy w s)
  | .mcast w => some (execMcast w s)
  | .mcastSame w => some (execMcastSame w s)
  | .xfree w => some (execXfree w s)
  | .redc w => some (execRedc w s)
  | .nvsq w => some (execNvsq w s)
  | .eret w => some (execEret w s)
  | .eretSkip w => some (execEretSkip w s)
  | .replay w => some (execReplay w s)
  | .replayDrop w => some (execReplayDrop w s)
  | _ => none

/-- Whether an act has moved a strand from where it stood: it has gone on, trapped, parked, shipped or ended, or its item has. -/
def State.moved (s t : State) (st : Strand) : Bool :=
  match t.strand? st.sid with
  | none => true
  | some x => x.seq != st.seq || x.pc != st.pc || x.park != st.park || x.traph != st.traph || x.phase != st.phase || x.exited != st.exited
      || x.disabled != st.disabled || x.dooming != st.dooming || (t.it st.uid).status != (s.it st.uid).status

/-- Whether the word at a strand's PC would keep it there (R52): a full queue, a slot, a lock, an open round, a release, a log that is full, any other wait its description states. The word is tried for this strand alone; nothing of the trial remains. -/
def State.holds (s : State) (i : Instr) (st : Strand) : Bool :=
  match waitingWord i { s with bundle := [st.sid] } with
  | some (.next t) => !(s.moved t st)
  | _ => false

/-- The opcode of the word that a ready strand stands at; none for a strand that is not ready (R52). -/
def State.readyOp (s : State) (st : Strand) : Option Nat :=
  if !s.canIssue st then none
  else match (s.fetchUnit st).2 with
    | .error _ => none
    | .ok bs => match decodeWith (s.limitsOf st) bs with
      | some (i, _) => match i.word? with
        | some (op, w) => if s.verdict op.toNat w st = .wait || s.holds i st then none else some op.toNat
        | none => some (unitOp bs)
      | none => if s.held st (unitOp bs) then none else some (unitOp bs)

/-- Whether another PC of the core goes ahead of a strand's on the pipe of its word (R75): a strand ready there is ahead of every one ready at this PC. Of two PCs whose oldest strands are equally old either may go first (log 74). -/
def State.behind (s : State) (hd : Strand) (op : Nat) : Bool :=
  let near := s.strands.filter fun x => !x.isFrame && !x.exited && s.coreOf x == s.coreOf hd && (x.satAt.isSome || decide (x.age > 0))
  let rivals := near.filter fun x => !(s.samePlace x hd)
  if hd.isFrame || rivals.isEmpty then false
  else
    let ready := fun (x : Strand) => (s.readyOp x).any fun o => pipeOf o == pipeOf op
    let mine := (s.strands.filter fun x => s.samePlace x hd && s.coreOf x == s.coreOf hd && !x.isFrame && !x.exited).filter ready
    !mine.isEmpty && rivals.any fun x => mine.all (fun y => ahead x.turn y.turn) && ready x

/-- What a fetch answers: no strand can issue; the strands waited or trapped; an instruction that the bundle executes. -/
inductive Fetched where
  | none
  | done (s : State)
  | run (i : Instr) (s : State)
  deriving DecidableEq, Repr

/-- The walk that a bundle's fetch took acquires for all its strands (R305, R310). -/
def State.shareWalk (s : State) (hd : Nat) (tl : List Nat) : State :=
  if (s.st hd).syncAt = s.tick then tl.foldl (fun (s : State) sid => s.acquire sid 1) s else s

/-- Fetch for an issue: a PC behind another does not issue (R75), unless all who stand there only wait; then the run-ahead limits (R324), then the encoding check under each strand's own limits (R46), then the bundle of the strands that pass. -/
def State.fetch (s : State) (sids : List Nat) : Fetched :=
  match s.bundleOf sids with
  | [] => .none
  | hd :: tl =>
    let s0 := s
    match s.fetchUnit (s.st hd) with
    | (s, .error t) => .done ((hd :: tl).foldl (fun s sid => s.fetchFault t sid) s)
    | (s, .ok bs) =>
      let s := s.shareWalk hd tl
      let op := unitOp bs
      if s0.behind (s0.st hd) op then .done s0 else
      let free := (hd :: tl).filter fun sid => !(s.held (s.st sid) op)
      let bad := fun (sid : Nat) => illegalOf (s.limitsOf (s.st sid)) bs
      let good := free.filter fun sid => (bad sid).isNone
      let s := free.foldl (fun s sid => match bad sid with
        | some c => if (s.st sid).isFrame then s.ship (s.st sid) else s.trap sid ⟨1, c, 0, 0⟩
        | none => s) s
      match good with
      | [] => .done s
      | g :: _ =>
        match decodeWith (s.limitsOf (s.st g)) bs with
        | some (i, _) => .run i { s with bundle := good }
        | none => .done s

end Sys2Proof.Machine
end

