-- ==== Sys2Proof/Machine/Launch.lean ====
section
/-! DEFINITION. The launch unit (04 R54..R75): queues and ports, the head check, waits, selection and the loader, admission and re-admission (14 R333, R339), regrouping, eviction. -/

namespace Sys2Proof.Machine

-- ports and queues (R54..R57)

/-- A little-endian field of a packet or header, in bits. -/
def fieldOf (bs : List Byte) (lo len : Nat) : Nat := fieldN (ofLeBytes bs) lo len

/-- The queue status word (R56). -/
def Queue.status (q : Queue) : Word :=
  BitVec.ofNat 32 (q.reject.toNat * 2 ^ 24 + b01 q.rejected * 2 ^ 23 + b01 q.overrun * 2 ^ 22 + b01 q.malformed * 2 ^ 21 + q.packets.length)

/-- Writing 1 clears REJECTED, OVERRUN and MALFORMED (R56). -/
def Queue.clear (q : Queue) (w : Word) : Queue :=
  { q with rejected := q.rejected && !w.getLsbD 23, overrun := q.overrun && !w.getLsbD 22, malformed := q.malformed && !w.getLsbD 21 }

/-- QUEUE_STATUS_WRITE (R56). -/
def execQueueStatusWrite (q : Nat) (w : Word) (s : State) : Host.Outcome State Fault Refusal := .next (s.setQueue q fun x => x.clear w)

/-- A write to a launch port (R55). -/
def State.portWrite (s : State) (q off : Nat) (bytes : List Byte) : State :=
  if bytes.isEmpty then s
  else if off < 0x80 then
    s.setQueue q fun x =>
      if off ≠ 0 ∨ bytes.length ≠ 128 then { x with malformed := true }
      else if x.packets.length ≥ 32 then { x with overrun := true }
      else { x with packets := x.packets ++ [{ bytes := bytes }] }
  else
    let w := (List.range 4).map fun i => if off ≤ 0x80 + i then bytes.getD (0x80 + i - off) 0 else 0
    s.setQueue q fun x => x.clear (BitVec.ofNat 32 (ofLeBytes w))

/-- A write to the launch-port page (R350): one that spans ports is no packet's to any of them (R55). -/
def State.pageWrite (s : State) (off : Nat) (bytes : List Byte) : State :=
  if off % 256 + bytes.length ≤ 256 then s.portWrite (off / 256) (off % 256) bytes
  else (List.range 64).foldl (fun s q =>
    let lo := max off (256 * q)
    let n := min (off + bytes.length) (256 * q + 256) - lo
    if n = 0 then s
    else if lo % 256 < 0x80 then s.setQueue q fun x => { x with malformed := true }
    else s.portWrite q (lo % 256) ((bytes.drop (lo - off)).take n)) s

/-- LAUNCH_PORT_WRITE (R55). -/
def execLaunchPortWrite (q off : Nat) (bytes : List Byte) (s : State) : Host.Outcome State Fault Refusal := .next (s.portWrite q off bytes)

/-- The bytes a read of a launch port returns (R55). -/
def State.portRead (s : State) (q off len : Nat) : List Byte :=
  let st := leBytes 4 (s.queues.getD q {}).status.toNat
  (List.range len).map fun i => if 0x80 ≤ off + i ∧ off + i < 0x84 then st.getD (off + i - 0x80) 0 else 0

-- what a host reaches through a port (R349..R351)

/-- Whether a host's accesses arrive on a port (R349): it is set as endpoint and its link is up. -/
def State.hostMay (s : State) (port : Nat) : Bool :=
  let p := s.ports.getD port {}
  decide (port < 2) && p.endpoint && p.up

/-- Whether a host's accesses arrive at all: on one of the two ports. -/
def State.hostUp (s : State) : Bool := s.hostMay 0 || s.hostMay 1

/-- The counter of a doorbell (R351). -/
def State.doorbellAt (s : State) (n : Nat) : Option Nat := (s.doorbells.find? fun x => x.1 == n).map (·.2)

/-- A write to a doorbell (R351): 8 bytes add to its counter at its home, as an EVSIG does (R107). -/
def State.ring (s : State) (n : Nat) (bytes : List Byte) : State :=
  match s.doorbellAt n with
  | some pa => if bytes.length = 8 then s.rmwHome 0 0 pa (leBytes 8 ((s.homeNum 0 pa 8 + ofLeBytes bytes) % 2 ^ 64)) else s
  | none => s

/-- What a read of `len` bytes at an offset in a doorbell returns (R351): an 8-byte read of it the counter, any read zero where there is none; what another read returns is not stated (log 6). -/
def State.doorbellBytes (s : State) (n o len : Nat) : List Byte :=
  match s.doorbellAt n with
  | some pa => if o = 0 ∧ len = 8 then s.homeBytes 0 pa 8 else (List.range len).map (Config.freeByte s.tick)
  | none => List.replicate len 0

/-- A byte of the launch-port page (R350): port q at q x 256. -/
def State.pageByte (s : State) (off : Nat) : Byte := (s.portRead (off / 256) (off % 256) 1).headD 0

/-- What a read of BAR0 returns (R55, R350, R351). -/
def State.barBytes (s : State) (off len : Nat) : List Byte :=
  if 0x4000 ≤ off ∧ off < 0x5000 ∧ off % 8 = 0 ∧ len = 8 then s.doorbellBytes ((off - 0x4000) / 8) 0 8
  else (List.range len).map fun i =>
    let o := off + i
    if o < 0x4000 then s.pageByte o
    else if o < 0x5000 ∧ (s.doorbellAt ((o - 0x4000) / 8)).isSome then Config.freeByte s.tick i
    else 0

/-- The fields of a packet (R57). -/
structure Pkt where
  prio : Nat
  prologue : Bool
  detred : Bool
  strands : Nat
  items : Nat
  argw : Nat
  kernel : Nat
  args : Nat
  w0addr : Nat
  w0val : Nat
  w1addr : Nat
  w1val : Nat
  doneaddr : Nat
  doneinc : Nat
  savebase : Nat
  clmask : Nat
  ctx : Nat
  reserved : Bool
  deriving DecidableEq, Repr

def Packet.fields (p : Packet) : Pkt :=
  let f := fieldOf p.bytes
  { prio := f 0 3, prologue := f 3 1 = 1, detred := f 4 1 = 1, strands := f 32 32, items := f 64 32, argw := f 96 32
    kernel := f 128 64, args := f 192 64, w0addr := f 256 64, w0val := f 320 64, w1addr := f 384 64, w1val := f 448 64
    doneaddr := f 512 64, doneinc := f 576 64, savebase := f 640 64, clmask := f 704 50, ctx := f 768 8
    reserved := f 5 27 ≠ 0 ∨ f 754 14 ≠ 0 ∨ f 776 248 ≠ 0 }

def Queue.headPacket (q : Queue) : Option Packet := q.packets.head?

/-- A packet is rejected (R56, R62): its code is recorded and the next packet becomes head. -/
def State.reject (s : State) (q code : Nat) : State :=
  s.setQueue q fun x => { x.pop with reject := BitVec.ofNat 8 code, rejected := true }

-- translation for the launch unit

/-- What the launch unit finds at an address. -/
inductive LuAddr where
  | ok (loc pa : Nat)
  /-- firmware services the page -/
  | wait
  | bad
  deriving DecidableEq, Repr

/-- Translate for the launch unit; firmware may decline a page fault, which is free (R54, R62). -/
def State.luAt (s : State) (c va : Nat) (need : Need) : State × LuAddr :=
  match s.translate launchUnit c (BitVec.ofNat 64 va) need with
  | (s, .ok x) => (s, .ok x.loc x.pa)
  | (s, .bad t) => (s, if t.cls = 4 && (Config.freeByte s.tick 0).getLsbD 0 then .wait else .bad)

/-- The worse of two findings: a failure, then a wait. -/
def LuAddr.join (a b : LuAddr) : LuAddr :=
  match a, b with
  | .bad, _ => .bad
  | _, .bad => .bad
  | .wait, _ => .wait
  | _, b => b

/-- Every page of a range. -/
def State.luRange (s : State) (c va len : Nat) (need : Need) : State × LuAddr :=
  if len = 0 then (s, .ok 0 0)
  else (List.range ((va + len - 1) / 4096 - va / 4096 + 1)).foldl (fun (x : State × LuAddr) (i : Nat) =>
    let r := x.1.luAt c (if i = 0 then va else (va / 4096 + i) * 4096) need
    (r.1, x.2.join r.2)) (s, .ok 0 0)

-- the head check (R54, R62 code 0x10)

/-- Every event address of a packet: aligned, translated, in device, host or peer memory. -/
def State.headCheck (s : State) (p : Pkt) : State × LuAddr :=
  let one := fun (x : State × LuAddr) (a : Nat × Bool) =>
    if a.1 = 0 then x
    else if a.1 % 8 ≠ 0 then (x.1, .bad)
    else
      let r := x.1.luAt p.ctx a.1 { rd := true, wr := a.2, locs := [0, 1, 2] }
      (r.1, x.2.join r.2)
  [(p.w0addr, false), (p.w1addr, false), (p.doneaddr, true)].foldl one (s, .ok 0 0)

/-- Whether a packet has event addresses in a context that is not live (R299). -/
def State.headDead (s : State) (p : Pkt) : Bool := (p.w0addr != 0 || p.w1addr != 0 || p.doneaddr != 0) && !(s.ctx p.ctx).live

/-- QUEUE_HEAD_CHECK (R54): a context that is not live gives code 0x0E (R299). -/
def execQueueHeadCheck (q : Nat) (s : State) : Host.Outcome State Fault Refusal :=
  .next <|
    let x := s.queues.getD q {}
    match x.headPacket, x.head with
    | some p, .unchecked => if s.headDead p.fields then s.reject q 0x0E else match s.headCheck p.fields with
      | (s, .bad) => s.reject q 0x10
      | (s, .wait) => s
      | (s, .ok _ _) => s.setQueue q fun x => { x with head := .checked }
    | _, _ => s

/-- Whether a wait pair is satisfied (R58): a counter that cannot be reached stays unsatisfied (R346). -/
def State.waitOk (s : State) (c addr val : Nat) : Bool :=
  addr == 0 || match s.vaToPa c addr with
    | some (loc, pa) => !(loc == 1 && s.peerDown (pa / 2 ^ 48)) && decide (s.homeNum loc pa 8 ≥ val)
    | none => false

/-- WAIT_SATISFIED (R54, R58): both waits hold, and the head becomes eligible. -/
def execWaitSatisfied (q : Nat) (s : State) : Host.Outcome State Fault Refusal :=
  .next <|
    let x := s.queues.getD q {}
    match x.headPacket, x.head with
    | some p, .checked =>
      let f := p.fields
      if s.waitOk f.ctx f.w0addr f.w0val && s.waitOk f.ctx f.w1addr f.w1val then s.setQueue q fun x => { x with head := .eligible s.now, aged := 0 } else s
    | _, _ => s

-- selection (R73)

/-- 64 microseconds in units of `now`. -/
def agePeriod : Nat := 64000 * Config.perNs

/-- The whole periods a head has been eligible and unselected. -/
def State.waited (s : State) (q : Queue) : Nat :=
  match q.head with
  | .eligible t => max q.aged ((s.now - t) / agePeriod)
  | _ => 0

/-- PRIORITY_AGE (R73): one more period has passed. -/
def execPriorityAge (q : Nat) (s : State) : Host.Outcome State Fault Refusal :=
  .next (s.setQueue q fun x => match x.head with
    | .eligible t => if (s.now - t) / agePeriod > x.aged then { x with aged := x.aged + 1 } else x
    | _ => x)

/-- The effective priority of an eligible head (R73). -/
def State.effPrio (s : State) (q : Queue) : Nat := min 7 (((q.headPacket.map fun p => p.fields.prio).getD 0) + s.waited q)

/-- The queues with an eligible head, best first: by effective priority, then round-robin from the queue after the last one selected. -/
def State.candidates (s : State) : List Nat :=
  let qs := (List.range 64).map fun i => (s.lastQueue + 1 + i) % 64
  let el := qs.filter fun q => match (s.queues.getD q {}).head with
    | .eligible _ => true
    | _ => false
  sortBy (fun q => 7 - s.effPrio (s.queues.getD q {})) el

-- the loader (R60..R62)

/-- What the loader decides on a packet. -/
inductive Loaded where
  | wait
  | bad (code : Nat)
  | ok (k : Kernel) (args : List Word) (rowsOf : List Nat)
  deriving DecidableEq, Repr

/-- The kernel header's fields (R60). -/
def headerKernel (addr : Nat) (h : List Byte) : Kernel :=
  let f := fieldOf h
  { addr := BitVec.ofNat 64 addr, regs := f 32 9, calldepth := f 48 8, accum := f 56 4, proreq := f 60 1 = 1, scratch := f 64 10, tslots := f 80 10
    privmin := f 96 32, strandsmax := f 128 32, code := BitVec.ofNat 64 (f 192 64), entry := f 256 32, preemptofs := f 288 32
    resumeofs := f 320 32, trapofs := f 352 32, codelen := f 448 32 }

/-- Whether a reserved field of the header is not zero. -/
def headerReserved (h : List Byte) : Bool :=
  [(41, 7), (61, 3), (74, 6), (90, 6), (160, 32), (425, 23), (480, 32)].any fun x => fieldOf h x.1 x.2 != 0

/-- An entry of the remote function table (R61). -/
def remoteFnOf (e : List Byte) : RemoteFn := ⟨fieldOf e 0 32, fieldOf e 32 8, fieldOf e 40 4, fieldOf e 44 3⟩

/-- The rows of each of P peer ranks (R65). -/
def shareRows (rows p : Nat) : List Nat := (List.range p).map fun k => rows / p + (if k < rows % p then 1 else 0)

/-- The smallest P for which a rank's share of the private image fits one core (R65). -/
def ranksFor (k : Kernel) (rows : Nat) : Option Nat :=
  (List.range 16).map (· + 1) |>.find? fun p =>
    let r := ceilDiv rows p
    decide (p ≤ rows) && decide (r ≤ Config.rows) && decide (r * k.regs * 32 ≤ Config.regWords) && decide (k.scratch ≤ Config.slots) && decide (k.accum ≤ Config.accs)

/-- The failed checks of R62 by code, but for the codes 0x01 and those of the head check. -/
def State.failures (s : State) (p : Pkt) (k : Kernel) (h : List Byte) (tab : List (List Byte)) (mis : Bool) : List (Nat × Bool) :=
  let rfc := fieldOf h 416 9
  let ofsBad := fun (o : Nat) => o % 12 != 0 || decide (o ≥ k.codelen)
  let handlers := [k.trapofs, k.resumeofs, k.preemptofs].filter (· != 0)
  let c := s.ctx p.ctx
  [ (0x02, k.regs = 0 || k.regs > 256), (0x03, k.calldepth = 0 || k.calldepth > 16), (0x04, k.scratch > 512 || k.tslots > k.scratch),
    (0x05, k.accum > 8), (0x06, p.strands = 0 || p.strands > 6144 || p.strands > k.strandsmax), (0x07, (ranksFor k (ceilDiv p.strands 32)).isNone),
    (0x08, k.rfs.any fun f => f.fregs = 0 || f.fregs > 64 || f.args > 8 || f.rets > 4 || f.args + 2 > f.fregs),
    (0x09, headerReserved h || p.reserved || tab.any fun e => fieldOf e 47 17 ≠ 0), (0x0A, p.prologue != k.proreq),
    (0x0B, p.items = 0xFFFFFFFF || (p.items = 0) != p.prologue), (0x0C, p.argw > 256), (0x0D, p.clmask &&& c.part.toNat = 0), (0x0E, mis),
    (0x0F, k.code.toNat % 192 ≠ 0 || ofsBad k.entry || handlers.any ofsBad || k.rfs.any (fun f => ofsBad f.ofs) || fieldOf h 384 32 % 8 ≠ 0),
    (0x10, p.savebase = 0 || p.savebase % 4096 ≠ 0), (0x11, k.privmin > 262144), (0x12, k.strandsmax = 0 || k.strandsmax > 6144), (0x13, rfc > 256) ]

/-- The loader (R62): the lowest code of the failed checks; a context that is not live is code 0x0E at once (R299). -/
def State.load (s : State) (pk : Packet) : State × Loaded :=
  let p := pk.fields
  let rd : Need := { rd := true, locs := [0, 1, 2] }
  if !(s.ctx p.ctx).live then (s, .bad 0x0E)
  else if p.kernel % 64 ≠ 0 then (s, .bad 1)
  else match s.luRange p.ctx p.kernel 64 rd with
    | (s, .bad) => (s, .bad 1)
    | (s, .wait) => (s, .wait)
    | (s, .ok _ _) =>
      let h := (s.getVa p.ctx p.kernel 64).getD []
      if fieldOf h 0 32 ≠ 0x594C5331 then (s, .bad 1)
      else
        let rfc := min 256 (fieldOf h 416 9)
        let tabVa := p.kernel + fieldOf h 384 32
        let k0 := headerKernel p.kernel h
        let argn := if p.argw > 256 then 0 else p.argw
        let (s, a) := s.luRange p.ctx tabVa (8 * rfc) rd
        let (s, b) := s.luRange p.ctx k0.code.toNat k0.codelen { fetch := true, locs := [0] }
        let (s, d) := s.luRange p.ctx p.args (4 * argn) rd
        match (a.join b).join d with
        | .bad => (s, .bad 1)
        | .wait => (s, .wait)
        | .ok _ _ =>
          let tab := (List.range rfc).map fun i => (s.getVa p.ctx (tabVa + 8 * i) 8).getD []
          let k := { k0 with rfs := tab.map remoteFnOf }
          let mis := match pk.issuer with
            | some c => p.ctx != c
            | none => false
          match (s.failures p k h tab mis).find? fun x => x.2 with
          | some x => (s, .bad x.1)
          | none =>
            let rows := ceilDiv p.strands 32
            let args := (List.range argn).map fun i => BitVec.ofNat 32 (s.numVa p.ctx (p.args + 4 * i) 4)
            (s, .ok k args (shareRows rows ((ranksFor k rows).getD 1)))

/-- A head is selected as a launch. -/
def State.addLaunch (s : State) (q : Nat) (p : Pkt) (k : Kernel) (args : List Word) (rowsOf : List Nat) : State :=
  let (lid, s) := s.fresh
  let la : Launch := { lid := lid, queue := q, ctx := p.ctx, prio := p.prio, prologue := p.prologue, detred := p.detred, strands := p.strands, items := p.items
                       args := args, doneaddr := BitVec.ofNat 64 p.doneaddr, doneinc := BitVec.ofNat 64 p.doneinc, savebase := BitVec.ofNat 64 p.savebase
                       clmask := BitVec.ofNat 50 p.clmask, kernel := k, rowsOf := rowsOf, selected := lid }
  ({ s with launches := s.launches ++ [la], lastQueue := q } : State).setQueue q fun x => { x with head := .selected lid, aged := 0 }

/-- The first candidate whose loader need not wait is selected, and loaded or rejected (R62, R73). -/
def State.select (s : State) : List Nat → State
  | [] => s
  | q :: qs =>
    match (s.queues.getD q {}).headPacket with
    | none => State.select s qs
    | some pk => match s.load pk with
      | (s, .wait) => State.select s qs
      | (s, .bad code) => ({ s with lastQueue := q } : State).reject q code
      | (s, .ok k args rowsOf) => s.addLaunch q pk.fields k args rowsOf

/-- LAUNCH_SELECT (R62, R73). -/
def execLaunchSelect (s : State) : Host.Outcome State Fault Refusal := .next (s.select s.candidates)

-- the save area of a launch (R333)

/-- RECSZ (R333): a record with everything uncompressed. -/
def Launch.recBytes (la : Launch) : Nat :=
  let k := la.kernel
  let p := la.rowsOf.length
  let rows := la.rowsOf.sum
  alignUp 4096 (128 + alignUp 64 (512 * la.strands) + alignUp 64 (rows * (4 * ceilDiv k.regs 16 + 132 * k.regs)) + alignUp 64 (64 + 4 * 512)
    + alignUp 64 (p * k.scratch * (8 + 1024 + 32)) + alignUp 64 (p * (8 + 4096 * k.accum)) + alignUp 64 (16 * 288))

/-- The first admission computes RECSZ and NREC (R333), and the code lines of the kernel are invalidated (R47). -/
def State.prepare (s : State) (la : Launch) : State :=
  let base := la.savebase.toNat
  let recsz := la.recBytes
  let limit := s.numVa la.ctx base 8
  let nrec := min 522240 ((limit - 65536) / recsz)
  let s := s.putVa la.ctx (base + 8) (leBytes 8 recsz ++ leBytes 4 nrec)
  let code := la.kernel.code.toNat
  let pages := (List.range ((code + la.kernel.codelen) / 4096 - code / 4096 + 1)).filterMap fun i =>
    (s.vaToPa la.ctx ((code / 4096 + i) * 4096)).map fun x => (x.2, (code / 4096 + i) * 4096)
  let inCode := fun (pa : Nat) => pages.any fun x => decide (x.1 ≤ pa ∧ pa < x.1 + 4096) &&
    (let va := x.2 + (pa - x.1)
     decide (code ≤ va ∧ va < code + la.kernel.codelen))
  let s : State := { s with oldCode := s.oldCode.filter fun x => !inCode x.1 }
  s.setLa la.lid fun x => { x with recsz := recsz, nrec := nrec, prepared := true }

/-- The lowest free record (R333). -/
def State.freeRecord (s : State) (la : Launch) : Option Nat :=
  firstIdx la.nrec fun h => !bitN (s.numVa la.ctx (la.savebase.toNat + 0x100 + h / 8) 1) (h % 8)

-- admission (R64..R66, R69, R74)

/-- What a launch admits next. -/
inductive Cand where
  | again (uid : Nat)
  | stamp (tid : Nat)
  | fresh
  deriving DecidableEq, Repr

/-- Whether a saved item may be re-admitted (R72, R85, R339): its calls have completed or been kept, and its sub-items are gone. -/
def State.mayResume (s : State) (it : Item) : Bool :=
  it.status == .saved && s.calls.all (fun c => c.uid != it.uid || c.dead || c.phase.atCaller) && (it.child.isNone || it.childDone)

/-- Saved items come first, then stamped ones, then the launch's own (R73, R74). DEDUCED (log 73): of several saved items the one admitted first, as they stand in State.items. -/
def State.nextItem (s : State) (la : Launch) : Option Cand :=
  match s.items.find? fun it => it.launch == la.lid && s.mayResume it with
  | some it => some (.again it.uid)
  | none =>
    if la.nrec = 0 then none
    else match s.templates.find? fun t => t.launch == la.lid && decide (t.next < t.n) with
      | some t => some (.stamp t.tid)
      | none => if la.next < (if la.prologue then 1 else la.items) then some .fresh else none

/-- The strands of a new item in rank order: peer rank, row, lane (R11, R65). -/
def placeOf (rowsOf : List Nat) (rank : Nat) : Nat × Nat × Nat :=
  let row := rank / 32
  let p := (firstIdx rowsOf.length fun k => decide (row < (rowsOf.take (k + 1)).sum)).getD 0
  (p, row - (rowsOf.take p).sum, rank % 32)

/-- No core yet. -/
def noCore : Nat := 1000000

/-- A fresh item (R66). -/
def Launch.freshItem (la : Launch) (uid : Nat) : Item :=
  let k := la.kernel
  { uid := uid, launch := la.lid, ctx := la.ctx, kernel := k
    number := if la.prologue then 0xFFFFFFFF else BitVec.ofNat 32 la.next
    nitem := if la.prologue then 0 else BitVec.ofNat 32 la.items
    prologue := la.prologue, strandsN := la.strands, savebase := la.savebase
    sregs := (List.range 512).map fun i => { val := la.args.getD i 0 }
    ranks := la.rowsOf.map fun n =>
      { core := noCore, rows := List.replicate n { regs := List.replicate k.regs {} }, slots := List.replicate k.scratch {}, accs := List.replicate k.accum {} } }

/-- A stamped item (R69, R70): everything it can reference is the template's. -/
def Template.item (t : Template) (la : Launch) (uid : Nat) : Item :=
  let k := la.kernel
  { la.freshItem uid with
    number := BitVec.ofNat 32 t.next, nitem := BitVec.ofNat 32 t.n, pitem := t.parentNumber, tlev := t.level, prologue := false
    template := some t.tid, parent := t.parent
    sregs := t.sregs.map fun x => { val := x, own := false }
    ranks := la.rowsOf.zipIdx.map fun np =>
      { core := noCore
        rows := ((t.rows.drop (la.rowsOf.take np.2).sum).take np.1).map fun r => { regs := r.map fun v => { v with tref := true } }
        slots := (t.slots.getD np.2 []) ++ List.replicate (k.scratch - k.tslots) {}
        accs := List.replicate k.accum {} } }

/-- An item as it is re-admitted (R339): with a resume handler every register reads uniform 0; otherwise the registers are restored, from the device's own copy (log 114). -/
def Item.again (it : Item) : Item :=
  let saved := if it.childDone then it.saved.map fun rows => rows.map fun w => w.setReg it.childDest { shape := .uniform 1 } else it.saved
  { it with
    status := .resident, saved := saved
    child := if it.childDone then none else it.child, childDone := false
    ranks := it.ranks.zipIdx.map fun rp =>
      { rp.1 with
        core := noCore
        rows := rp.1.rows.zipIdx.map fun wi =>
          { wi.1 with regs := if it.kernel.resumeofs ≠ 0 then List.replicate it.kernel.regs {} else (((saved.getD rp.2 []).getD wi.2 {}).regs.map fun v => { v with raw := false }) } } }

/-- Free rows of a core for n rows: the lowest run of consecutive ones, since strand rank r lies in row base + floor(r/32) (R11, R64). -/
def State.freeRows (s : State) (core n : Nat) : Option (List Nat) :=
  let used := (s.ranksOn core).flatMap fun x => (x.2.2.rows.filter fun w => !(w.fin && w.regs.isEmpty)).map (·.phys)
  let free := (List.range Config.rows).filter fun p => !used.contains p
  (free.find? fun b => (List.range n).all fun i => free.contains (b + i)).map fun b => (List.range n).map (b + ·)

/-- An item with one rank on a core, in given rows. -/
def Item.onCore (it : Item) (p core : Nat) (rows : List Nat) : Item :=
  { it with ranks := it.ranks.modify p fun r =>
      { r with core := core, rows := r.rows.zipIdx.map fun wi => { wi.1 with phys := rows.getD wi.2 0 } } }

/-- Put an item in the place of the one with its number, or at the end. -/
def State.putItem (s : State) (it : Item) : State := { s with items := (s.items.filter fun x => x.uid != it.uid) ++ [it] }

/-- Whether a core takes a rank (R64): its rows and pools hold it. -/
def State.rankFits (s : State) (it : Item) (p core : Nat) : Option Item :=
  match s.freeRows core ((it.ranks.getD p {}).rows.length) with
  | none => none
  | some rows =>
    let it := it.onCore p core rows
    if ((s.putItem it).useOn core).within then some it else none

/-- Whether a cluster may host items of a launch (R74, R300, R345, R356). -/
def State.clusterOpen (s : State) (la : Launch) (k : Nat) : Bool :=
  let c := s.clusters.getD k {}
  la.clmask.getLsbD k && (s.ctx la.ctx).part.getLsbD k && c.released.isSome && !c.down

/-- Cores for the ranks from p on, taken in order from a list (R65): none unless all are found. -/
def State.coresFor (s : State) (la : Launch) (it : Item) : Nat → Nat → List Nat → Option (Item × List Nat)
  | _, 0, _ => some (it, [])
  | _, _, [] => none
  | p, n + 1, core :: rest =>
    if !s.clusterOpen la (clusterOf core) then State.coresFor s la it p (n + 1) rest
    else match s.rankFits it p core with
      | none => State.coresFor s la it p (n + 1) rest
      | some it => (State.coresFor s la it (p + 1) n rest).map fun x => (x.1, core :: x.2)

/-- The strands of an admitted item. -/
def State.startStrands (s : State) (it : Item) (la : Launch) (of : Nat → Strand) : State :=
  (List.range la.strands).foldl (fun (s : State) (rank : Nat) =>
    let (sid, s) := s.fresh
    let x := placeOf la.rowsOf rank
    { s with strands := s.strands ++ [{ (of rank) with sid := sid, uid := it.uid, rank := rank, prank := x.1, row := x.2.1, lane := x.2.2, acqAt := s.tick }] }) s

/-- The launch whose last own item has been admitted leaves the head of its queue (R54). -/
def State.headDone (s : State) (la : Launch) : State :=
  let done := if la.prologue then s.templates.any fun t => t.launch == la.lid && t.parent.isNone && decide (t.next ≥ t.n) else decide (la.next ≥ la.items)
  if done then s.setQueue la.queue fun q => if q.head = .selected la.lid then q.pop else q else s

/-- A new item takes a record, whose header reads STATE 1, and starts (R66, R69, R333). -/
def State.startNew (s : State) (la : Launch) (it : Item) (h : Nat) (of : Nat → Strand) : State :=
  let it := { it with record := h, order := s.nextId }
  let s := (s.setInuse la.ctx la.savebase.toNat h true).putVa la.ctx (it.recordVa la) (leBytes 4 0x53415631 ++ leBytes 4 1)
  (s.putItem it).startStrands it la of

/-- A strand resumes (R339): in the resume handler, or as its ERET would continue it. -/
def State.resumeStrand (s : State) (it : Item) (st : Strand) : Strand :=
  let k := it.kernel
  let park := if s.parkStands st st.park then st.park else .none
  if st.exited then st
  else if k.resumeofs = 0 then { st with park := park, acqAt := s.tick, early := [], eretw := !st.allFaults.isEmpty }
  else
    let st := (st.freeze).behindLog (s.stuck st.sid)
    { st with
      savedTr := st.tr, savedTraph := st.traph, savedPark := park
      tr := { tcode := 0x12, tinfo := 1, trpc := st.pc }
      traph := false, phase := .resume, park := .none, handlerWrote := [], acqAt := s.tick, early := []
      pc := k.code + BitVec.ofNat 64 k.resumeofs
      log := st.log.map fun e => { e with exempt := true }
      faults := st.faults.map fun f => { f with exempt := true } }

/-- A saved item resumes on its new cores (R339): its record returns to STATE 1. -/
def State.startAgain (s : State) (la : Launch) (it : Item) : State :=
  let it := { it with order := s.nextId }
  let s := s.putVa la.ctx (it.recordVa la + 4) (leBytes 4 1)
  let s := (({ s with nextId := s.nextId + 1 } : State)).putItem it
  let s : State := { s with strands := s.strands.map fun st => if st.uid = it.uid ∧ !st.isFrame then s.resumeStrand it st else st }
  let s := s.rehome it.uid
  if it.kernel.resumeofs = 0 then s.setIt it.uid fun x => { x with saved := [] } else s

/-- A strand of a fresh item. -/
def Launch.freshStrand (la : Launch) : Strand := { pc := la.kernel.code + BitVec.ofNat 64 la.kernel.entry }

/-- A strand of a stamped item (R69). -/
def Template.strand (t : Template) (rank : Nat) : Strand :=
  let x := t.strands.getD rank ⟨0, 0, [], true⟩
  { pc := x.pc, preds := x.preds, rstk := x.rstk, exited := x.exited }

/-- Admit a launch's next item with its first rank on the first of the given cores (R64, R65, R74): the cores taken, or none. -/
def State.admitItem (s : State) (la : Launch) (c : Cand) (cores : List Nat) : Option (State × List Nat) :=
  let first := cores.headD noCore
  let place := fun (it : Item) => match s.coresFor la it 0 it.ranks.length cores with
    | some (it, cs) => if cs.head? = some first then some (it, cs) else none
    | none => none
  match c with
  | .again uid => (place (s.it uid).again).map fun x => (s.startAgain la x.1, x.2)
  | .stamp tid =>
    match s.template? tid, s.freeRecord la with
    | some t, some h => (place (t.item la s.nextId)).map fun x =>
        let s := ({ s with nextId := s.nextId + 1 } : State).startNew la x.1 h t.strand
        ((s.setTemplate tid fun t => { t with next := t.next + 1 }).headDone la, x.2)
    | _, _ => none
  | .fresh =>
    match s.freeRecord la with
    | some h => (place (la.freshItem s.nextId)).map fun x =>
        let s := ({ s with nextId := s.nextId + 1 } : State).startNew la x.1 h fun _ => la.freshStrand
        let s := s.setLa la.lid fun l => { l with next := l.next + 1 }
        (s.headDone (s.la la.lid), x.2)
    | none => none

/-- At one core the first launch in order that has an item that fits is served (R74). -/
def State.admitAt (s : State) (cores : List Nat) : List Nat → Option (State × List Nat)
  | [] => none
  | lid :: rest =>
    let la := s.la lid
    match (if s.clusterOpen la (clusterOf (cores.headD noCore)) then s.nextItem la else none) with
    | none => State.admitAt s cores rest
    | some c => match s.admitItem la c cores with
      | some r => some r
      | none => State.admitAt s cores rest

/-- The sweep over the cores in order: at most one item starts on each (R74). -/
def State.sweep (s : State) (lids : List Nat) : List Nat → List Nat → State
  | _, [] => s
  | used, core :: rest =>
    if used.contains core then State.sweep s lids used rest
    else match s.admitAt (core :: rest.filter fun c => !used.contains c) lids with
      | some (s, cs) => State.sweep { s with lastCluster := clusterOf (cs.getLastD core) } lids (cs ++ used) rest
      | none => State.sweep s lids used rest

/-- The clusters of a sweep in rotation, and their cores in ascending order (R74). -/
def State.sweepCores (s : State) : List Nat :=
  ((List.range Config.clusters).map fun i => (s.lastCluster + 1 + i) % Config.clusters).flatMap fun k => (List.range 20).map (20 * k + ·)

/-- Selected launches, highest priority first (R74); of equal priority the one selected first: the model's choice (log 73). -/
def State.launchOrder (s : State) : List Launch := sortBy (fun la => (7 - la.prio) * 2 ^ 64 + la.selected) s.launches

/-- ADMISSION_SWEEP (R74): one sweep, 100 ns or more after the last. -/
def execAdmissionSweep (s : State) : Host.Outcome State Fault Refusal :=
  .next <|
    let due := match s.lastSweep with
      | some t => decide (s.now ≥ t + 100 * Config.perNs)
      | none => true
    if !due then s
    else
      let s := s.launchOrder.foldl (fun (s : State) (la : Launch) => if la.prepared then s else s.prepare la) s
      let s : State := { s with lastSweep := some s.now }
      s.sweep (s.launchOrder.map (·.lid)) [] s.sweepCores

-- regrouping and eviction

/-- What a regroup period does to a strand of the core (R75, R93). DESIGN CHOICE (log 74): a strand does not age while its yield lasts. -/
def State.regroupStrand (s : State) (st : Strand) : Strand :=
  if st.yieldFor > 0 then { st with yieldFor := st.yieldFor - 1 }
  else if (s.readyOp st).isSome then { st with age := min 1024 (st.age + 1), satAt := if st.age + 1 = 1024 then some s.now else st.satAt }
  else st

/-- REGROUP (R75, R93): one regroup period of a core passes: strands that are ready (R52) age, up to 1,024, and yields run out. -/
def execRegroup (core : Nat) (s : State) : Host.Outcome State Fault Refusal :=
  .next { s with strands := s.strands.map fun st => if s.coreOf st = core then s.regroupStrand st else st }

/-- STORAGE_EVICT (R68): when every item on a core is resident and has a strand parked on storage, the one admitted last is evicted, unless it is alone there. One that ends or is saved frees its storage by that. -/
def execStorageEvict (core : Nat) (s : State) : Host.Outcome State Fault Refusal :=
  .next <|
    let uids := (s.ranksOn core).foldl (fun (l : List Nat) (x : Item × Nat × Rank) => if l.contains x.1.uid then l else l ++ [x.1.uid]) []
    let stuck := uids.all fun u => (s.it u).status == .resident && s.strands.any fun st => st.uid == u && !st.isFrame && (st.park == .storage || !st.owed.isEmpty)
    if uids.length < 2 || !stuck then s
    else
      let young := (sortBy (fun u => (s.it u).order) uids).getLastD 0
      s.forceSave young 2

end Sys2Proof.Machine
end

