-- ==== Sys2Proof/Machine/Shake.lean ====
section
/-! DEFINITION. SHAKE256 and SHA3-512 (13 R318..R320), as FIPS 202 defines them (log 11): Keccak-f[1600] on 25 lanes of 64 bits, lane x + 5 * y, with rates of 136 and 72 bytes. -/

namespace Sys2Proof.Machine

/-- The rotation offset of each lane. -/
def keccakRot : List Nat :=
  [0, 1, 62, 28, 27, 36, 44, 6, 55, 20, 3, 10, 43, 25, 39, 41, 45, 15, 21, 8, 18, 2, 61, 56, 14]

/-- The constants of the 24 rounds. -/
def keccakRc : List (BitVec 64) :=
  [0x0000000000000001, 0x0000000000008082, 0x800000000000808A, 0x8000000080008000, 0x000000000000808B, 0x0000000080000001,
   0x8000000080008081, 0x8000000000008009, 0x000000000000008A, 0x0000000000000088, 0x0000000080008009, 0x000000008000000A]
  ++ [0x000000008000808B, 0x800000000000008B, 0x8000000000008089, 0x8000000000008003, 0x8000000000008002, 0x8000000000000080,
   0x000000000000800A, 0x800000008000000A, 0x8000000080008081, 0x8000000000008080, 0x0000000080000001, 0x8000000080008008]

/-- One round: theta, rho, pi, chi, iota. -/
def keccakRound (a : List (BitVec 64)) (rc : BitVec 64) : List (BitVec 64) :=
  let at_ := fun (l : List (BitVec 64)) (x y : Nat) => l.getD (x % 5 + 5 * (y % 5)) 0
  let c := (List.range 5).map fun x => (List.range 5).foldl (fun v y => v ^^^ at_ a x y) 0
  let d := (List.range 5).map fun x => c.getD ((x + 4) % 5) 0 ^^^ (c.getD ((x + 1) % 5) 0).rotateLeft 1
  let t := a.zipIdx.map fun p => (p.1 ^^^ d.getD (p.2 % 5) 0).rotateLeft (keccakRot.getD p.2 0)
  let b := (List.range 25).map fun i => at_ t (i % 5 + 3 * (i / 5)) (i % 5)
  ((List.range 25).map fun i => at_ b i (i / 5) ^^^ (~~~ (at_ b (i % 5 + 1) (i / 5)) &&& at_ b (i % 5 + 2) (i / 5))).zipIdx.map
    fun p => if p.2 = 0 then p.1 ^^^ rc else p.1

/-- Absorb blocks of a rate, with fuel: the last block is padded, `suffix` marking the function. -/
def keccakAbsorb (rate : Nat) (suffix : BitVec 8) : Nat → List (BitVec 64) → List (BitVec 8) → List (BitVec 64)
  | 0, lanes, _ => lanes
  | n + 1, lanes, bs =>
    let last := bs.length < rate
    let block := if bs.length + 1 = rate then bs ++ [suffix ||| 0x80]
      else if last then bs ++ suffix :: List.replicate (rate - bs.length - 2) 0 ++ [0x80] else bs.take rate
    let mixed := lanes.zipIdx.map fun l => l.1 ^^^ BitVec.ofNat 64 (ofLeBytes ((block.drop (8 * l.2)).take 8))
    let out := keccakRc.foldl keccakRound mixed
    if last then out else keccakAbsorb rate suffix n out (bs.drop rate)

/-- The first 64 bytes that a function of the family gives for a message. -/
def keccak64 (rate : Nat) (suffix : BitVec 8) (bs : List (BitVec 8)) : List (BitVec 8) :=
  ((keccakAbsorb rate suffix (bs.length / rate + 1) (List.replicate 25 0) bs).take 8).flatMap fun l => leBytes 8 l.toNat

/-- The first 64 bytes of SHAKE256 of the 128 bytes of two 512-bit values, the first byte of each in its bits 7:0. -/
def shake256 (x y : BitVec 512) : BitVec 512 := BitVec.ofNat 512 (ofLeBytes (keccak64 136 0x1F (leBytes 64 x.toNat ++ leBytes 64 y.toNat)))

/-- SHA3-512 of a message. -/
def sha3 (bs : List (BitVec 8)) : List (BitVec 8) := keccak64 72 0x06 bs

end Sys2Proof.Machine
end

