-- ==== Sys2Proof/Machine/Outside.lean ====
section
/-! DEFINITION. The device's surroundings (15 R349..R359): PCIe, doorbells, Twigan, the power alarm and thermal levels, boot, the release of clusters, attestation (13 R318..R320), and resets (14 R343). -/

namespace Sys2Proof.Machine

-- PCIe (R247, R349..R352): a port carries host accesses as endpoint, while its link is up

/-- HOST_BAR_WRITE (R247, R350): a posted write through BAR2 performs at its home; bytes at 500 GiB and above are discarded. -/
def execHostBarWrite (off : Nat) (bytes : List Byte) (s : State) : Host.Outcome State Fault Refusal :=
  .next (if s.hostUp && decide (off < Config.memTop) then s.writeHome 0 0 off (bytes.take (Config.memTop - off)) else s)

/-- HOST_BAR_READ (R247, R350): what has performed at the home; at 500 GiB and above the read is an Unsupported Request and brings nothing. -/
def execHostBarRead (off len : Nat) (s : State) : Host.Outcome State Fault Refusal :=
  .next (if s.hostUp then { s with hostRead := if off + len ≤ Config.memTop then s.homeBytes 0 off len else [] } else s)

/-- DOORBELL_WRITE (R351). -/
def execDoorbellWrite (n : Nat) (bytes : List Byte) (s : State) : Host.Outcome State Fault Refusal :=
  .next (if s.hostUp then s.ring n bytes else s)

/-- DOORBELL_READ (R351). -/
def execDoorbellRead (n len : Nat) (s : State) : Host.Outcome State Fault Refusal :=
  .next (if s.hostUp then { s with hostRead := s.doorbellBytes n 0 len } else s)

/-- REGISTER_WRITE (R350): a write to BAR0; the launch ports and doorbells have their behaviour, every other location discards it. -/
def execRegisterWrite (off : Nat) (bytes : List Byte) (s : State) : Host.Outcome State Fault Refusal :=
  .next (if !(s.hostUp) then s
    else if off < 0x4000 then s.pageWrite off bytes
    else if off < 0x5000 ∧ off % 8 = 0 then s.ring ((off - 0x4000) / 8) bytes
    else s)

/-- PCIE_LINK_RESET (R352): only partly received packets are lost, and the model's packets are received whole or not at all. -/
def execPcieLinkReset (_port : Nat) (s : State) : Host.Outcome State Fault Refusal := .next s

/-- PCIE_LINK_STATE_CHANGE (R308): the port's link comes up or goes down. -/
def execPcieLinkStateChange (port : Nat) (up : Bool) (s : State) : Host.Outcome State Fault Refusal :=
  .next { s with ports := s.ports.modify port fun p => { p with up := up } }

-- Twigan (R354)

/-- A link goes down; with a peer's last link the peer is unreachable. -/
def State.dropLink (s : State) (port : Nat) : State :=
  match s.links.getD port none with
  | none => s
  | some peer =>
    let s : State := { s with links := s.links.set port none }
    if s.links.contains (some peer) then s else s.losePeer peer

/-- TWIGAN_LINK_DOWN (R354). -/
def execTwiganLinkDown (port : Nat) (s : State) : Host.Outcome State Fault Refusal := .next (s.dropLink port)

-- narrowed mode and thermal levels (R205, R357, R358)

/-- A change of mode: an operation under way on an engine it concerns keeps what it has done, and the remainder runs at the new rate (R205). -/
def State.modeChange (s0 s : State) : State :=
  let mark := fun (r : Rank) => if s0.narrowOn r.core = s.narrowOn r.core then r
    else { r with ops := r.ops.map fun o => o.account s0.now ((MatWord.of (Raw.ofCode o.word)).cycles r o.gather) (s0.narrowOn r.core) }
  { s with items := s.items.map fun it => { it with ranks := it.ranks.map mark } }

/-- PALERT_ASSERT (R357). -/
def execPalertAssert (s : State) : Host.Outcome State Fault Refusal := .next (s.modeChange { s with palert := some none })

/-- NARROW_EXIT (R357): the alarm has been deasserted for 100 µs. -/
def execNarrowExit (s : State) : Host.Outcome State Fault Refusal :=
  .next (match s.palert with
    | some (some t) => if s.now ≥ t + 100000 * Config.perNs then s.modeChange { s with palert := none } else s
    | _ => s)

/-- FIRMWARE_NARROW_HOLD (R357). -/
def execFirmwareNarrowHold (hold : Bool) (s : State) : Host.Outcome State Fault Refusal := .next (s.modeChange { s with hold := hold })

/-- The threshold of a thermal level (R358). -/
def thermalThreshold (level : Nat) : Nat := 85 + 10 * level

/-- The level at a temperature, from the level before (R358): it falls only once the temperature is 5 °C below the level's threshold. -/
def thermalLevel (before celsius : Nat) : Nat :=
  let up := (List.range 4).foldl (fun l k => if k = 0 ∨ celsius ≥ thermalThreshold k then k else l) 0
  let keep := (List.range (before + 1)).foldl (fun l k => if k = 0 ∨ celsius + 5 > thermalThreshold k then k else l) 0
  max up keep

-- resets (R343, R353, R356, R359)

/-- What a reset of the device leaves: what lies outside it, its inputs and sensors, what it has sent, and the model's own numbering. -/
def State.resetTo (s : State) : State :=
  { State.reset with
    tick := s.tick, nextId := s.nextId, agenda := s.agenda
    host := s.host, peer := s.peer, spdm := s.spdm, spdmVia := s.spdmVia, ioLog := s.ioLog
    palert := s.palert.map fun t => t.map fun _ => 0, thermal := s.thermal
    ports := s.ports.map fun p => { sent := p.sent, thermalCause := p.thermalCause } }

/-- Before a reset at thermal level 3 each endpoint port sends vector 63 with the cause flag (R358). -/
def State.thermalAlarm (s : State) : State :=
  { s with ports := s.ports.map fun p => if !p.endpoint then p else { p with sent := p.sent ++ [63], thermalCause := true } }

/-- THERMAL_LEVEL_CHANGE (R358, R359): levels 1 and 2 narrow the die's engines; at level 3 firmware resets the device. -/
def execThermalLevelChange (die celsius : Nat) (s : State) : Host.Outcome State Fault Refusal :=
  .next <|
    let old := s.thermal.getD die 0
    let new := thermalLevel old celsius
    if die ≥ 7 ∨ new = old then s
    else
      let s1 := s.modeChange { s with thermal := s.thermal.set die new }
      if new = 3 then s1.thermalAlarm.resetTo else s1

/-- An item lost with its die (R343): nothing of it is saved or reported, and it does not count as ended. -/
def State.loseItem (s : State) (it : Item) : State :=
  let mine := fun (sid : Nat) => s.strands.any fun st => st.sid == sid && st.uid == it.uid && !st.isFrame
  let s := s.zeroOrOnce fun a => mine a.sid
  let s : State := { s with
    copies := s.copies.filter fun c => c.uid != it.uid
    mcasts := s.mcasts.filter fun m => m.uid != it.uid }
  (s.dropCalls fun c => c.uid == it.uid).removeItem it.uid

/-- A compute die is reset (R343): its cores, NMUs, Grinders and channels. Calls whose frames ran or waited there have no reply (R83). -/
def State.resetCompute (s : State) (d : Nat) : State :=
  let onDie := fun (c : Call) => decide (c.loc = 0 ∧ c.nmu / 50 = d)
  let lost := (s.strands.filter fun st => st.isFrame && match st.call.bind s.call? with
    | some c => onDie c
    | none => false).map (·.sid)
  let s := (s.items.filter fun it => it.status != .saved && it.ranks.any fun r => dieOf r.core == d).foldl (fun s it => s.loseItem it) s
  let s : State := { s with strands := s.strands.filter fun st => !lost.contains st.sid }
  let cut := fun (c : Call) => onDie c && match c.phase with
    | .waiting => true
    | .running sid => (s.strand? sid).isNone
    | _ => false
  { s with
    calls := (s.calls.filter fun c => !(cut c && c.dead)).map fun c => if cut c then { c with phase := .running 0 } else c
    pend := s.pend.filter fun a => !lost.contains a.sid
    tlb := s.tlb.filter fun e => e.cluster / 10 != d
    l1 := s.l1.filter fun l => dieOf l.core != d
    grinders := s.grinders.zipIdx.map fun g => if g.2 / 5 = d then {} else g.1
    channels := s.channels.filter fun c => c.c / 200 != d }

/-- An I/O die is reset (R9, R343): the reservations of its Barista cores go, its port, which keeps its role until the next device reset (R349), with the storage queues behind it, its links, and on the first the launch unit. -/
def State.resetIo (s : State) (i : Nat) : State :=
  let qs := s.nvqs.filter fun q => q.live && q.port == i
  let s := qs.foldl (fun (s : State) (q : NvQueue) => q.cmds.foldl (fun (s : State) (c : NvCmd) => s.nvToken c 3 0) s) s
  let s : State := { s with
    reserved := s.reserved.filter fun r => r.1 / 8 != i
    nvqs := s.nvqs.filter fun q => q.port != i
    ports := s.ports.modify i fun p => { root := p.root, set := p.set, sent := p.sent, thermalCause := p.thermalCause } }
  let s := (List.range 32).foldl (fun s k => s.dropLink (32 * i + k)) s
  if i = 0 then { s with queues := State.reset.queues, launches := [], templates := [], lastQueue := 63, lastCluster := 49, lastSweep := none } else s

/-- DEVICE_RESET (R343): the device, or one die: 0..4 the compute dies, 5 and 6 the I/O dies. -/
def execDeviceReset (die : Option Nat) (s : State) : Host.Outcome State Fault Refusal :=
  .next (match die with
    | none => s.resetTo
    | some d => if d < 5 then s.resetCompute d else if d < 7 then s.resetIo (d - 5) else s)

/-- POWER_LOSS (R253): everything on the device is lost; what a drive has made durable lies outside it. -/
def execPowerLoss (s : State) : Host.Outcome State Fault Refusal := .next s.resetTo

-- boot and the release of clusters (R318, R319, R356)

/-- One attempt of the ROM on a port (R318, R319): a verified image is measured and started; a bad one is fetched again; with none the other port is tried, every 10 s once both have been. -/
def State.bootFetch (s : State) (port : Nat) (first : Bool) : State :=
  match Config.fetchImage s.tick with
  | none => { s with boot := .retry (1 - port) (if first then s.now else s.now + 10 ^ 10 * Config.perNs) }
  | some (digest, ok) =>
    if ok then { s with boot := .started, attest := shake256 s.attest digest, measures := s.measures ++ [digest] }
    else { s with boot := .retry port s.now }

/-- BOOT_ROM_START (R318). -/
def execBootRomStart (s : State) : Host.Outcome State Fault Refusal := .next (if s.boot = .off then s.bootFetch 0 true else s)

/-- BOOT_FETCH_RETRY (R318). -/
def execBootFetchRetry (s : State) : Host.Outcome State Fault Refusal :=
  .next (match s.boot with
    | .retry port due => if s.now ≥ due then s.bootFetch port false else s
    | _ => s)

/-- The cluster released at step n of the staggered start (R356). -/
def releaseOrder (n : Nat) : Nat := 10 * (n % 5) + n / 5

/-- When the cluster of step n is released (R356): step 0 when firmware starts it, the others 4 µs after the step before. -/
def State.releaseAt (s : State) (n : Nat) : Option Nat :=
  match n with
  | 0 => some s.now
  | m + 1 => (s.clusters.getD (releaseOrder m) {}).released.map fun t => t + 4000 * Config.perNs

/-- CLUSTER_RELEASE (R356): the next cluster in order, at its step's time; its CLOCK starts there. The act that the model takes for it may come later than that time, never earlier (log 94). -/
def execClusterRelease (s : State) : Host.Outcome State Fault Refusal :=
  .next <|
    let n := (s.clusters.filter fun c => c.released.isSome).length
    match s.releaseAt n with
    | some t => if s.boot ≠ .started ∨ n ≥ Config.clusters ∨ s.now < t then s
      else { s with clusters := s.clusters.modify (releaseOrder n) fun c => { c with released := some t } }
    | none => s

-- attestation (R319, R320); the layout of SPDM messages is that of the DMTF specification (log 11)

/-- Whether SPDM requests arrive on a transport (R320): TCP on the two management Ethernet ports, DOE on a port set as endpoint. -/
def State.carries (s : State) (via : Transport) : Bool :=
  match via with
  | .tcp port => decide (port < 2)
  | .doe port => s.hostMay port

/-- An SPDM answer goes out where its request came, once the image runs. -/
def State.answerSpdm (s : State) (bytes : List Byte) : State :=
  if s.boot = .started ∧ s.carries s.spdmVia then { s with spdm := s.spdm ++ [(s.spdmVia, bytes)] } else s

/-- Version 1.2. -/
def spdmVersion : Byte := 0x12

/-- GET_VERSION (R320): one version, 1.2. -/
def execGetVersion (s : State) : Host.Outcome State Fault Refusal := .next (s.answerSpdm [0x10, 0x04, 0, 0, 0, 1, 0, spdmVersion])

/-- GET_CAPABILITIES (R320). -/
def execGetCapabilities (s : State) : Host.Outcome State Fault Refusal :=
  .next (s.answerSpdm ([spdmVersion, 0x61, 0, 0] ++ Config.spdmBytes 0 0))

/-- NEGOTIATE_ALGORITHMS (R320): Ed448 is bit 11 of the signing algorithms, SHA3-512 bit 5 of the hashes and bit 6 of the measurement hashes; no other is offered. -/
def execNegotiateAlgorithms (s : State) : Host.Outcome State Fault Refusal :=
  .next (s.answerSpdm ([spdmVersion, 0x63, 0, 0, 36, 0, 1, 0] ++ leBytes 4 (2 ^ 6) ++ leBytes 4 (2 ^ 11) ++ leBytes 4 (2 ^ 5) ++ List.replicate 16 0))

/-- GET_DIGESTS (R320): the SHA3-512 digest of the certificate chain in slot 0. -/
def execGetDigests (s : State) : Host.Outcome State Fault Refusal :=
  .next (s.answerSpdm ([spdmVersion, 0x01, 0, 1] ++ sha3 Config.certChain))

/-- GET_CERTIFICATE (R320): the whole chain of slot 0. -/
def execGetCertificate (s : State) : Host.Outcome State Fault Refusal :=
  .next (s.answerSpdm ([spdmVersion, 0x02, 0, 0] ++ leBytes 2 Config.certChain.length ++ [0, 0] ++ Config.certChain))

/-- CHALLENGE (R320): the digest of the chain, the device's nonce, and an Ed448 signature of 114 bytes, which covers the request's nonce; nonce and signature are free. -/
def execChallenge (_nonce : List Byte) (s : State) : Host.Outcome State Fault Refusal :=
  .next (s.answerSpdm ([spdmVersion, 0x03, 0, 1] ++ sha3 Config.certChain ++ (Config.spdmBytes 1 s.tick).take 32
    ++ (Config.spdmBytes 2 s.tick).take 114))

/-- A measurement block: its index and its 64 bytes. -/
def measureBlock (index : Nat) (m : BitVec 512) : List Byte := BitVec.ofNat 8 index :: leBytes 64 m.toNat

/-- GET_MEASUREMENTS (R319, R320): index 1 is the log value, the measurements follow in their order. -/
def execGetMeasurements (s : State) : Host.Outcome State Fault Refusal :=
  .next (s.answerSpdm ([spdmVersion, 0x60, 0, 0, BitVec.ofNat 8 (s.measures.length + 1)]
    ++ (s.attest :: s.measures).zipIdx.flatMap (fun x => measureBlock (x.2 + 1) x.1) ++ (Config.spdmBytes 1 s.tick).take 32
    ++ (Config.spdmBytes 2 s.tick).take 114))

end Sys2Proof.Machine
end

