-- ==== Sys2Proof/Machine/Dispatch.lean ====
section
/-! DEFINITION. One arm per constructor of Instr: its meaning, or its refusal by name. -/

namespace Sys2Proof.Machine

def exec (i : Instr) (s : State) : Host.Outcome State Fault Refusal :=
  match i with
  | .bra w => Sys2Proof.Machine.execBra w s
  | .brx w => Sys2Proof.Machine.execBrx w s
  | .call w => Sys2Proof.Machine.execCall w s
  | .callx w => Sys2Proof.Machine.execCallx w s
  | .ret w => Sys2Proof.Machine.execRet w s
  | .exit w => Sys2Proof.Machine.execExit w s
  | .nop w => Sys2Proof.Machine.execNop w s
  | .yield w => Sys2Proof.Machine.execYield w s
  | .sleep w => Sys2Proof.Machine.execSleep w s
  | .dbnz w => Sys2Proof.Machine.execDbnz w s
  | .join w => Sys2Proof.Machine.execJoin w s
  | .leave w => Sys2Proof.Machine.execLeave w s
  | .cnew w => Sys2Proof.Machine.execCnew w s
  | .cfree w => Sys2Proof.Machine.execCfree w s
  | .sign w => Sys2Proof.Machine.execSign w s
  | .signW w => Sys2Proof.Machine.execSignW w s
  | .cwait w => Sys2Proof.Machine.execCwait w s
  | .shfl w => Sys2Proof.Machine.execShfl w s
  | .cred w => Sys2Proof.Machine.execCred w s
  | .voteAll w => Sys2Proof.Machine.execVoteAll w s
  | .voteAny w => Sys2Proof.Machine.execVoteAny w s
  | .voteCount w => Sys2Proof.Machine.execVoteCount w s
  | .voteRowmask w => Sys2Proof.Machine.execVoteRowmask w s
  | .freeze w => Sys2Proof.Machine.execFreeze w s
  | .freezeComplete uid => Sys2Proof.Machine.execFreezeComplete uid s
  | .launch w => Sys2Proof.Machine.execLaunch w s
  | .evsig w => Sys2Proof.Machine.execEvsig w s
  | .evwait w => Sys2Proof.Machine.execEvwait w s
  | .evwaitWake sid => Sys2Proof.Machine.execEvwaitWake sid s
  | .rcall w => Sys2Proof.Machine.execRcall w s
  | .rret w => Sys2Proof.Machine.execRret w s
  | .rjoin w => Sys2Proof.Machine.execRjoin w s
  | .remoteFrameStart call => Sys2Proof.Machine.execRemoteFrameStart call s
  | .finishingStrandStart call => Sys2Proof.Machine.execFinishingStrandStart call s
  | .rcallReply call => Sys2Proof.Machine.execRcallReply call s
  | .rcallTimeout call => Sys2Proof.Machine.execRcallTimeout call s
  | .iadd w => Sys2Proof.Machine.execIadd w s
  | .isub w => Sys2Proof.Machine.execIsub w s
  | .imul w => Sys2Proof.Machine.execImul w s
  | .imulh w => Sys2Proof.Machine.execImulh w s
  | .imad w => Sys2Proof.Machine.execImad w s
  | .idiv w => Sys2Proof.Machine.execIdiv w s
  | .irem w => Sys2Proof.Machine.execIrem w s
  | .imin w => Sys2Proof.Machine.execImin w s
  | .imax w => Sys2Proof.Machine.execImax w s
  | .and w => Sys2Proof.Machine.execAnd w s
  | .or w => Sys2Proof.Machine.execOr w s
  | .xor w => Sys2Proof.Machine.execXor w s
  | .andn w => Sys2Proof.Machine.execAndn w s
  | .shl w => Sys2Proof.Machine.execShl w s
  | .shr w => Sys2Proof.Machine.execShr w s
  | .sar w => Sys2Proof.Machine.execSar w s
  | .popc w => Sys2Proof.Machine.execPopc w s
  | .clz w => Sys2Proof.Machine.execClz w s
  | .brev w => Sys2Proof.Machine.execBrev w s
  | .bfx w => Sys2Proof.Machine.execBfx w s
  | .bfi w => Sys2Proof.Machine.execBfi w s
  | .iset w => Sys2Proof.Machine.execIset w s
  | .sel w => Sys2Proof.Machine.execSel w s
  | .lea w => Sys2Proof.Machine.execLea w s
  | .mov w => Sys2Proof.Machine.execMov w s
  | .pack w => Sys2Proof.Machine.execPack w s
  | .unpk w => Sys2Proof.Machine.execUnpk w s
  | .crc32c w => Sys2Proof.Machine.execCrc32c w s
  | .fadd w => Sys2Proof.Machine.execFadd w s
  | .fsub w => Sys2Proof.Machine.execFsub w s
  | .fmul w => Sys2Proof.Machine.execFmul w s
  | .ffma w => Sys2Proof.Machine.execFfma w s
  | .fmin w => Sys2Proof.Machine.execFmin w s
  | .fmax w => Sys2Proof.Machine.execFmax w s
  | .fset w => Sys2Proof.Machine.execFset w s
  | .fdiv w => Sys2Proof.Machine.execFdiv w s
  | .fsqrt w => Sys2Proof.Machine.execFsqrt w s
  | .frcp w => Sys2Proof.Machine.execFrcp w s
  | .frsq w => Sys2Proof.Machine.execFrsq w s
  | .fexp2 w => Sys2Proof.Machine.execFexp2 w s
  | .flog2 w => Sys2Proof.Machine.execFlog2 w s
  | .ftanh w => Sys2Proof.Machine.execFtanh w s
  | .frnd w => Sys2Proof.Machine.execFrnd w s
  | .fcls w => Sys2Proof.Machine.execFcls w s
  | .fclsTest w => Sys2Proof.Machine.execFclsTest w s
  | .hadd2 w => Sys2Proof.Machine.execHadd2 w s
  | .hmul2 w => Sys2Proof.Machine.execHmul2 w s
  | .hfma2 w => Sys2Proof.Machine.execHfma2 w s
  | .fcvt w => Sys2Proof.Machine.execFcvt w s
  | .fdot w => Sys2Proof.Machine.execFdot w s
  | .fldx w => Sys2Proof.Machine.execFldx w s
  | .srd w => Sys2Proof.Machine.execSrd w s
  | .plog w => Sys2Proof.Machine.execPlog w s
  | .pmovNz w => Sys2Proof.Machine.execPmovNz w s
  | .pmovVal w => Sys2Proof.Machine.execPmovVal w s
  | .pmovSave w => Sys2Proof.Machine.execPmovSave w s
  | .pmovLoad w => Sys2Proof.Machine.execPmovLoad w s
  | .shape w => Sys2Proof.Machine.execShape w s
  | .gen w => Sys2Proof.Machine.execGen w s
  | .femkTest w => Sys2Proof.Machine.execFemkTest w s
  | .femkMask w => Sys2Proof.Machine.execFemkMask w s
  | .longLatencyComplete id => Sys2Proof.Machine.execLongLatencyComplete id s
  | .storageRetry sid => Sys2Proof.Machine.execStorageRetry sid s
  | .storageEvict core => Sys2Proof.Machine.execStorageEvict core s
  | .mma w => Sys2Proof.Machine.execMma w s
  | .mmas w => Sys2Proof.Machine.execMmas w s
  | .mmag w => Sys2Proof.Machine.execMmag w s
  | .matrixOpFinish uid prank => Sys2Proof.Machine.execMatrixOpFinish uid prank s
  | .aclr w => Sys2Proof.Machine.execAclr w s
  | .aclrAll w => Sys2Proof.Machine.execAclrAll w s
  | .ast w => Sys2Proof.Machine.execAst w s
  | .ald w => Sys2Proof.Machine.execAld w s
  | .aget w => Sys2Proof.Machine.execAget w s
  | .mwait w => Sys2Proof.Machine.execMwait w s
  | .qnt w => Sys2Proof.Machine.execQnt w s
  | .qntCol w => Sys2Proof.Machine.execQntCol w s
  | .bpk w => Sys2Proof.Machine.execBpk w s
  | .bunp w => Sys2Proof.Machine.execBunp w s
  | .scw w => Sys2Proof.Machine.execScw w s
  | .scr w => Sys2Proof.Machine.execScr w s
  | .mstat w => Sys2Proof.Machine.execMstat w s
  | .mstatClr w => Sys2Proof.Machine.execMstatClr w s
  | .tscl w => Sys2Proof.Machine.execTscl w s
  | .tofs w => Sys2Proof.Machine.execTofs w s
  | .tclp w => Sys2Proof.Machine.execTclp w s
  | .tclpImm w => Sys2Proof.Machine.execTclpImm w s
  | .tfil w => Sys2Proof.Machine.execTfil w s
  | .tmap w => Sys2Proof.Machine.execTmap w s
  | .tord w => Sys2Proof.Machine.execTord w s
  | .tmat w => Sys2Proof.Machine.execTmat w s
  | .tmatAll w => Sys2Proof.Machine.execTmatAll w s
  | .thdr w => Sys2Proof.Machine.execThdr w s
  | .tlde w => Sys2Proof.Machine.execTlde w s
  | .tste w => Sys2Proof.Machine.execTste w s
  | .tileViewOp id => Sys2Proof.Machine.execTileViewOp id s
  | .ld w => Sys2Proof.Machine.execLd w s
  | .st w => Sys2Proof.Machine.execSt w s
  | .lds w => Sys2Proof.Machine.execLds w s
  | .sts w => Sys2Proof.Machine.execSts w s
  | .ldlk w => Sys2Proof.Machine.execLdlk w s
  | .stul w => Sys2Proof.Machine.execStul w s
  | .unlk w => Sys2Proof.Machine.execUnlk w s
  | .aadd w => Sys2Proof.Machine.execAadd w s
  | .amin w => Sys2Proof.Machine.execAmin w s
  | .amax w => Sys2Proof.Machine.execAmax w s
  | .aand w => Sys2Proof.Machine.execAand w s
  | .aor w => Sys2Proof.Machine.execAor w s
  | .axor w => Sys2Proof.Machine.execAxor w s
  | .axch w => Sys2Proof.Machine.execAxch w s
  | .acas w => Sys2Proof.Machine.execAcas w s
  | .afadd w => Sys2Proof.Machine.execAfadd w s
  | .atomicExecute id merge => Sys2Proof.Machine.execAtomicExecute id merge s
  | .loadComplete id => Sys2Proof.Machine.execLoadComplete id s
  | .storePerform id => Sys2Proof.Machine.execStorePerform id s
  | .fenceAcq w => Sys2Proof.Machine.execFenceAcq w s
  | .fenceRel w => Sys2Proof.Machine.execFenceRel w s
  | .fenceAr w => Sys2Proof.Machine.execFenceAr w s
  | .waita w => Sys2Proof.Machine.execWaita w s
  | .watchWake sid => Sys2Proof.Machine.execWatchWake sid s
  | .waitaTimeout sid => Sys2Proof.Machine.execWaitaTimeout sid s
  | .waitaSpurious sid => Sys2Proof.Machine.execWaitaSpurious sid s
  | .wake w => Sys2Proof.Machine.execWake w s
  | .tagld w => Sys2Proof.Machine.execTagld w s
  | .tagst w => Sys2Proof.Machine.execTagst w s
  | .cpy w => Sys2Proof.Machine.execCpy w s
  | .copyChunkWrite id => Sys2Proof.Machine.execCopyChunkWrite id s
  | .copyFaultResume id => Sys2Proof.Machine.execCopyFaultResume id s
  | .mcast w => Sys2Proof.Machine.execMcast w s
  | .mcastSame w => Sys2Proof.Machine.execMcastSame w s
  | .mcastDelivery id rank => Sys2Proof.Machine.execMcastDelivery id rank s
  | .tktst w => Sys2Proof.Machine.execTktst w s
  | .xarm w => Sys2Proof.Machine.execXarm w s
  | .xstatToken w => Sys2Proof.Machine.execXstatToken w s
  | .xstatSlot w => Sys2Proof.Machine.execXstatSlot w s
  | .xfree w => Sys2Proof.Machine.execXfree w s
  | .redc w => Sys2Proof.Machine.execRedc w s
  | .grinderBlockStart stack => Sys2Proof.Machine.execGrinderBlockStart stack s
  | .computeSliceEnd stack upto => Sys2Proof.Machine.execComputeSliceEnd stack upto s
  | .activationAlert channel => Sys2Proof.Machine.execActivationAlert channel s
  | .grinderBlockDone stack => Sys2Proof.Machine.execGrinderBlockDone stack s
  | .nvsq w => Sys2Proof.Machine.execNvsq w s
  | .nvmeCompletion q cid status data => Sys2Proof.Machine.execNvmeCompletion q cid status data s
  | .trap w => Sys2Proof.Machine.execTrap w s
  | .bpt w => Sys2Proof.Machine.execBpt w s
  | .bptResolve sid resume => Sys2Proof.Machine.execBptResolve sid resume s
  | .sysr w => Sys2Proof.Machine.execSysr w s
  | .sysw w => Sys2Proof.Machine.execSysw w s
  | .csave w => Sys2Proof.Machine.execCsave w s
  | .crest w => Sys2Proof.Machine.execCrest w s
  | .pdone w => Sys2Proof.Machine.execPdone w s
  | .eret w => Sys2Proof.Machine.execEret w s
  | .eretSkip w => Sys2Proof.Machine.execEretSkip w s
  | .replay w => Sys2Proof.Machine.execReplay w s
  | .replayDrop w => Sys2Proof.Machine.execReplayDrop w s
  | .deferredTrapDeliver sid => Sys2Proof.Machine.execDeferredTrapDeliver sid s
  | .logEntryReexecute sid entry => Sys2Proof.Machine.execLogEntryReexecute sid entry s
  | .pageDecline what => Sys2Proof.Machine.execPageDecline what s
  | .preemptRequest what => Sys2Proof.Machine.execPreemptRequest what s
  | .preemptDeadline uid => Sys2Proof.Machine.execPreemptDeadline uid s
  | .contextKill ctx => Sys2Proof.Machine.execContextKill ctx s
  | .clusterReset cluster => Sys2Proof.Machine.execClusterReset cluster s
  | .clusterReturn cluster => Sys2Proof.Machine.execClusterReturn cluster s
  | .peerDown peer => Sys2Proof.Machine.execPeerDown peer s
  | .linkUp port peer => Sys2Proof.Machine.execLinkUp port peer s
  | .rtimeout id => Sys2Proof.Machine.execRtimeout id s
  | .tlbInvalidate ctx range => Sys2Proof.Machine.execTlbInvalidate ctx range s
  | .memoryError site corrected => Sys2Proof.Machine.execMemoryError site corrected s
  | .launchPortWrite q off bytes => Sys2Proof.Machine.execLaunchPortWrite q off bytes s
  | .queueStatusWrite q w => Sys2Proof.Machine.execQueueStatusWrite q w s
  | .queueHeadCheck q => Sys2Proof.Machine.execQueueHeadCheck q s
  | .waitSatisfied q => Sys2Proof.Machine.execWaitSatisfied q s
  | .priorityAge q => Sys2Proof.Machine.execPriorityAge q s
  | .launchSelect => Sys2Proof.Machine.execLaunchSelect s
  | .admissionSweep => Sys2Proof.Machine.execAdmissionSweep s
  | .regroup core => Sys2Proof.Machine.execRegroup core s
  | .sleepWake sid => Sys2Proof.Machine.execSleepWake sid s
  | .hostBarWrite off bytes => Sys2Proof.Machine.execHostBarWrite off bytes s
  | .hostBarRead off len => Sys2Proof.Machine.execHostBarRead off len s
  | .doorbellWrite n bytes => Sys2Proof.Machine.execDoorbellWrite n bytes s
  | .doorbellRead n len => Sys2Proof.Machine.execDoorbellRead n len s
  | .registerWrite off bytes => Sys2Proof.Machine.execRegisterWrite off bytes s
  | .pcieLinkReset port => Sys2Proof.Machine.execPcieLinkReset port s
  | .palertAssert => Sys2Proof.Machine.execPalertAssert s
  | .narrowExit => Sys2Proof.Machine.execNarrowExit s
  | .thermalLevelChange die celsius => Sys2Proof.Machine.execThermalLevelChange die celsius s
  | .bootRomStart => Sys2Proof.Machine.execBootRomStart s
  | .bootFetchRetry => Sys2Proof.Machine.execBootFetchRetry s
  | .clusterRelease => Sys2Proof.Machine.execClusterRelease s
  | .getVersion => Sys2Proof.Machine.execGetVersion s
  | .getCapabilities => Sys2Proof.Machine.execGetCapabilities s
  | .negotiateAlgorithms => Sys2Proof.Machine.execNegotiateAlgorithms s
  | .getDigests => Sys2Proof.Machine.execGetDigests s
  | .getCertificate => Sys2Proof.Machine.execGetCertificate s
  | .challenge nonce => Sys2Proof.Machine.execChallenge nonce s
  | .getMeasurements => Sys2Proof.Machine.execGetMeasurements s
  | .pageServiceComplete pa entry => Sys2Proof.Machine.execPageServiceComplete pa entry s
  | .refreshDue channel => Sys2Proof.Machine.execRefreshDue channel s
  | .deviceReset die => Sys2Proof.Machine.execDeviceReset die s
  | .powerLoss => Sys2Proof.Machine.execPowerLoss s
  | .twiganLinkDown port => Sys2Proof.Machine.execTwiganLinkDown port s
  | .pcieLinkStateChange port up => Sys2Proof.Machine.execPcieLinkStateChange port up s
  | .firmwareNarrowHold hold => Sys2Proof.Machine.execFirmwareNarrowHold hold s
  | .nvmeQueueAbort q => Sys2Proof.Machine.execNvmeQueueAbort q s

end Sys2Proof.Machine
end

