-- ==== Sys2Proof/Machine/Firmware.lean ====
section
/-! DEFINITION. What firmware, the host and peers do outside the instruction table: stores to memory (10 R244..R247), descriptors, roles and measurements (12 R291, 13 R299, R319, 15 R349..R353). -/

namespace Sys2Proof.Machine

/-- Whether some bytes lie in the launch-port page as Barista cores reach it (R350): at which offset. -/
def State.pageAt (s : State) (pa n : Nat) : Option Nat :=
  s.portPage.bind fun b => if b ≤ pa ∧ pa + n ≤ b + 0x4000 then some (pa - b) else none

/-- An act of a Barista core, one of the 16 (R9, R244): each acts at the home or the cluster atomic engine, one after another, so that FENCE and the .aq and .rl forms have nothing to wait for. An SC writes 0 when its reservation stands, else it stores nothing and writes 1, as RISC-V has it. -/
def State.baristaAct (s : State) (b : Barista) : State :=
  match b with
  | .load pa n => { s with baristaRead := match s.pageAt pa n with
      | some o => ofLeBytes ((List.range n).map fun i => s.pageByte (o + i))
      | none => s.homeNum 0 pa n }
  | .lr core pa n => if core ≥ 16 then s else { s with baristaRead := s.homeNum 0 pa n, reserved := (core, pa, n) :: s.reserved.filter fun r => r.1 != core }
  | .sc core pa n v =>
    if core ≥ 16 then s else
    let holds := s.reserved.contains (core, pa, n)
    let s : State := { s with baristaRead := if holds then 0 else 1, reserved := s.reserved.filter fun r => r.1 != core }
    if holds then s.writeHome 0 0 pa (leBytes n v) else s
  | .amo op ty pa v =>
    let n := if wideTy ty then 8 else 4
    if 0x97 ≤ op ∧ op ≤ 0x9D ∧ pa + n ≤ Config.memTop ∧ pa % n = 0 then
      let old := s.homeNum 0 pa n
      { (s.rmwHome 0 0 pa (leBytes n (atomicNew op ty old v 0))) with baristaRead := old }
    else s
  | .fence => s

/-- Whether bytes are an aligned element that a unit may read early now (R231, R250): of memory, of a peer only while it can be reached (R346, R354). -/
def State.readsEarly (s : State) (loc pa n : Nat) : Bool := [1, 2, 4, 8].contains n && pa % n == 0 && (loc == 0 || loc == 2 || loc == 1 && !s.peerDown (pa / 2 ^ 48))

/-- An engine reads an aligned element of memory early (R250, R251): what it uses later is what it holds now. A copy engine reads as its core does (R227). -/
def State.engineRead (s : State) (job : EngineJob) (loc pa n : Nat) : State :=
  let keep := fun (bytes : List (Byte × Bool)) (es : List Early) => ({ loc := loc, pa := pa, bytes := bytes, stamp := s.tick } : Early) :: es
  let home := s.poisonBytes loc pa n
  if !s.readsEarly loc pa n then s else
  match job with
  | .copy id => { s with copies := s.copies.map fun c =>
      if c.id = id then { c with early := keep (s.coreBytes (s.copyCore c) loc pa n) c.early } else c }
  | .block stack 0 => s.setGrinder stack fun g => { g with running := g.running.map fun r => ({ r.1 with early := keep home r.1.early }, r.2) }
  | .block stack (k + 1) => s.setGrinder stack fun g => { g with queue := g.queue.modify k fun b => { b with early := keep home b.early } }
  | .nvme q cid => s.setNvq q fun x => { x with cmds := x.cmds.map fun c => if c.cid = cid then { c with early := keep home c.early } else c }

/-- A read of strands of one core performs early (R231): an aligned element, as their core sees it now; one read for several strands (R259) is one. The scratchpad's is that of their item. Strands of a saved item read nothing: they are on no core until they resume (R235). -/
def State.strandRead (s : State) (sids : List Nat) (loc pa n : Nat) : State :=
  match sids.filterMap s.strand? with
  | [] => s
  | st :: rest =>
    let core := s.coreOf st
    let fits := loc = 4 && [1, 2, 4, 8].contains n && pa % n == 0 || s.readsEarly loc pa n
    if !fits || (st :: rest).any (fun x => !x.isFrame && (s.it x.uid).status == .saved) || rest.any fun x => s.coreOf x != core || x.uid != st.uid && loc == 4 then s
    else
      let bytes := if loc = 4 then (List.range n).map fun i => (s.scratchByte st.uid (pa + i), s.spadPoison st.uid (pa / 2 ^ 19) (pa % 2 ^ 19 + i) 1) else s.coreBytes core loc pa n
      let e : Early := { loc := loc, pa := pa, bytes := bytes, stamp := s.tick, acq := s.passedOn core st.uid loc pa n, rels := s.relsOf core st.uid loc pa n }
      (st :: rest).foldl (fun s x => s.setSt x.sid fun y => { y with early := e :: earlyWithout y.early loc pa n }) s

/-- Firmware declines the trap that it sees first in a strand (R323): that of a page its word waits for, or of a log entry in its service; a BPT it resumes or passes on (R328). The strand's record holds it, and the item ends with a report. -/
def State.declineTrap (s : State) (sid : Nat) : State :=
  let st := s.st sid
  let ctx := s.ctxOf st
  let regs := match st.park with
    | .page va wr fetch => (s.declined ctx va wr fetch).map fun t => t.regs st.pc false 0
    | .tile va wr => (s.declined ctx va wr false).map fun t => t.regs st.pc false 0
    | _ => (st.log.find? fun e => e.trap.cls == 4).bind fun e => (s.declined e.acc.ctx e.acc.va e.acc.need.wr false).map fun t =>
        t.regs e.acc.pc true (st.tretOf e.fault)
  match (if st.isFrame || !s.active st.uid then none else regs) with
  | some r => (s.setSt sid fun x => { x with tr := r, phase := .run }).trapEnds sid
  | none => s

/-- An act from outside. Context 0 is never live for launches (R299); device memory ends at 500 GiB (R224). -/
def State.doEnv (s : State) (e : Env) : State :=
  match e with
  | .store pa bs => match s.pageAt pa bs.length with
    | some o => s.pageWrite o bs
    | none => if pa + bs.length ≤ Config.memTop then s.writeHome 0 0 pa bs else s
  | .hostStore pa bs => (s.homeStore 2 pa bs).rouse 2 pa bs.length
  | .peerStore key bs => (s.homeStore 1 key bs).rouse 1 key bs.length
  | .ctxTable pa => if pa + 64 * 256 ≤ Config.memTop then { s with ctxTable := pa } else s
  | .context c d => s.writeHome 0 0 (s.ctxTable + 64 * c) { d with live := d.live && c != 0 : Ctx }.bytes
  | .debugger c on => { s with debuggers := if on then c :: s.debuggers else s.debuggers.filter fun x => x != c }
  | .barista b => s.baristaAct b
  | .earlyRead core loc line stream => if core < Config.cores ∧ loc < 3 ∧ (loc ≠ 1 ∨ !s.peerDown (line * 128 / 2 ^ 48)) then s.l1Take core loc line stream else s
  | .strandRead sids loc pa n => s.strandRead sids loc pa n
  | .engineRead job loc pa n => s.engineRead job loc pa n
  | .nvQueue d => { s with nvqs := d :: s.nvqs.filter fun x => x.q != d.q }
  | .doorbell n pa =>
    let rest := s.doorbells.filter fun x => x.1 != n
    match pa with
    | some a => if a % 8 = 0 ∧ a + 8 ≤ Config.memTop then { s with doorbells := (n, a) :: rest } else s
    | none => { s with doorbells := rest }
  | .spdmVia t => { s with spdmVia := t }
  | .barRead off len => if s.hostUp then { s with hostRead := s.barBytes off len } else s
  | .peerRestored peer => if s.links.contains (some peer) then { s with peersDown := s.peersDown.filter fun p => p != peer } else s
  | .portRole p root => { s with ports := s.ports.modify p fun x => if x.set then x else { x with root := root, set := true } }
  | .portPage base => { s with portPage := base }
  | .msix p en => { s with ports := s.ports.modify p fun x => { x with msix := en } }
  | .deviceId id => { s with devId := id }
  | .itemReset uid => if (s.it uid).status = .broken then s.resetItem (s.it uid) else s
  | .declineTrap sid => s.declineTrap sid
  | .palertRelease => { s with palert := s.palert.map fun t => some (t.getD s.now) }
  | .measure m => { s with attest := shake256 s.attest m, measures := s.measures ++ [m] }

end Sys2Proof.Machine
end

