-- ==== Sys2Proof/Machine/Issue.lean ====
section
/-! DEFINITION. What one step does with the act it takes: a bundle issues, an event happens (log 1); and the item and memory with which a given word is placed to run next (log 17). -/

namespace Sys2Proof.Machine

/-- The state in which a step performs its act: the act is taken off the agenda, the step is counted, and a free time passes (log 3). -/
def State.begin (s : State) : State :=
  { s with agenda := s.agenda.tail, tick := s.tick + 1, now := s.now + Config.elapsed s.tick, bundle := [] }

/-- The act a step performs. -/
def State.nextAct (s : State) : Action := s.agenda.headD (Config.nextAction s.tick)

/-- A bundle issues (R75): the fetched instruction is executed for the strands that passed the checks. -/
def issue (s : State) (sids : List Nat) : Host.Outcome State Fault Refusal :=
  match s.fetch sids with
  | .none => .fault .noSuchStrand
  | .done s => .next s
  | .run i s => exec i s

/-- An event of the opcode table happens; a word is no event. -/
def happen (s : State) (i : Instr) : Host.Outcome State Fault Refusal :=
  match i.word? with
  | some _ => .fault .noSuchStrand
  | none => exec i s

/-- The kernel of a one-strand load: every register, slot and accumulator the encoding can name. -/
def loadedKernel : Kernel :=
  { code := 0x3000, codelen := 96, entry := 0, trapofs := 48, strandsmax := 1, scratch := 512, accum := 8, calldepth := 16, regs := 256 }

/-- The item of a one-strand load, on core 0. -/
def loadedItem : Item :=
  { uid := 1, launch := 1, kernel := loadedKernel, nitem := 1, number := 0
    ranks := [{ rows := [{ regs := List.replicate 256 {} }], slots := List.replicate 512 {}, accs := List.replicate 8 {} }] }

/-- The context's descriptor, the page tables and the code page of the load: VA 0x3000 is readable and executable. -/
def loadedMem (m : Memory) (table nbits w : Nat) : Memory :=
  let m := m.store (table + 64) ({ root := 0x4000, part := 1, live := true } : Ctx).bytes
  let m := m.put 0x4000 8 (0x8 * 2 ^ 16 + 1)
  let m := m.put 0x8000 8 (0xC * 2 ^ 16 + 1)
  let m := m.put 0xC000 8 (0x10 * 2 ^ 16 + 1)
  let m := m.put 0x10018 8 (0x20 * 2 ^ 16 + 0x17)
  m.store 0x20000 (tableBytes nbits w)

end Sys2Proof.Machine
end

