-- ==== Sys2Proof/Machine/Step.lean ====
section
/-! DEFINITION. One step of the machine: the next act of the agenda, or a free one when the agenda is empty (log 1); and the state in which a given word is the next instruction. -/

namespace Sys2Proof.Machine

/-- One step of the machine. -/
def step (s : State) : Host.Outcome State Fault Refusal :=
  match s.nextAct with
  | .issue sids => issue s.begin sids
  | .event i => happen s.begin i
  | .env e => .next (s.begin.doEnv e)

/-- The state with an instruction loaded as the next one to run: one item of one strand, resident on core 0 with the instruction at its PC, in a live context whose tables map it, and the strand's issue on the agenda. -/
def State.withFetchWord (s : State) (nbits w : Nat) : State :=
  { s with
    agenda := [.issue [1]]
    nextId := max s.nextId 2
    items := [loadedItem]
    strands := [{ sid := 1, uid := 1, pc := 0x3000 }]
    launches := [{ lid := 1, items := 1, clmask := 1, kernel := loadedKernel, next := 1 }]
    clusters := s.clusters.set 0 { released := some 0 }
    tlb := []
    oldCode := []
    poison := []
    mem := loadedMem s.mem s.ctxTable nbits w }

end Sys2Proof.Machine
end

