-- ==== Sys2Proof/Safety.lean ====
section
/-! DEFINITION. What counts as a safe run, and the terms in which claims speak of one strand issuing alone: where it stands, when it goes at a word, when its core has storage for a result, and what its destination holds. -/

namespace Sys2Proof.Safety

open Sys2Proof.Machine

/-- A step is safe when it answers a next state. -/
def StepSafe (s : Machine.State) : Prop := ∃ t, Machine.step s = .next t

/-- A run of n steps is safe when each of its steps is. -/
def RunSafe : Nat → Machine.State → Prop
  | 0, _ => True
  | n + 1, s => ∃ t, Machine.step s = .next t ∧ RunSafe n t

/-- Strand `sid` stands somewhere: it exists, its lane is one of the 32 of a row (R11), its item exists, and it has a row of registers: a remote frame's own, or one of its item's (R12, R80). -/
structure Placed (s : State) (sid : Nat) : Prop where
  strand : (s.strand? sid).isSome
  lane : (s.st sid).lane < 32
  item : (s.item? (s.st sid).uid).isSome
  row : (s.st sid).isFrame = true ∨
    ((s.st sid).prank < (s.it (s.st sid).uid).ranks.length ∧ (s.st sid).row < (s.rank (s.st sid).uid (s.st sid).prank).rows.length)

/-- The strand issues a word alone, and goes at it: its guard holds and steps 3 and 4 of R255 find nothing against it. -/
structure Goes (op : Nat) (w : Ins) (s : State) (sid : Nat) : Prop where
  bundle : s.bundle = [sid]
  verdict : s.verdict op w (s.st sid) = .go
  placed : Placed s sid

/-- The strand's core has the storage that writing `n` words to a destination takes (R67). -/
def Room (s : State) (sid : Nat) (d : Operand) (vals : List Word) (hint : Nat → Option Shape) (n : Nat) : Prop :=
  match d with
  | .v i => (s.putV (s.st sid) i.toNat [(s.st sid, vals)] hint n).isSome
  | .s i => (s.putS (s.st sid) i.toNat vals n).isSome
  | _ => True

/-- The strand reads `n` words in a destination: consecutive v or s registers, or a predicate, which holds whether the word is not 0; p7 reads true (R163, R35). -/
def Holds (t : State) (sid : Nat) (d : Operand) (vals : List Word) (n : Nat) : Prop :=
  match d with
  | .v i => ∀ j < n, t.vreg (t.st sid) (i.toNat + j) = vals.getD j 0
  | .s i => ∀ j < n, t.sreg (t.st sid) (i.toNat + j) = vals.getD j 0
  | .p i => (t.st sid).pred i.toNat = (decide (i = 7) || vals.headD 0 != 0)
  | _ => True

/-- The strand has gone on after a word: its pc is past it (R45), and one more unit has issued. -/
def WentOn (s t : State) (sid : Nat) (w : Ins) : Prop :=
  (t.st sid).pc = nextPc w (s.st sid).pc ∧ (t.st sid).seq = (s.st sid).seq + 1

/-- An instruction completes: the machine answers a next state of which something holds. -/
def Completes (i : Instr) (s : State) (P : State → Prop) : Prop := ∃ t, exec i s = .next t ∧ P t

/-- The strand has gone on at an address: one more unit has issued. -/
def Lands (s t : State) (sid : Nat) (pc : Addr) : Prop := (t.st sid).pc = pc ∧ (t.st sid).seq = (s.st sid).seq + 1

/-- The strand takes a trap at its word (R322): the machine answers the state in which it has taken it, once it has waited for the word's tokens. -/
def Traps (i : Instr) (s : State) (sid : Nat) (w : Ins) (t : Trap) : Prop := exec i s = .next ((s.onWait w sid).trap sid t)

/-- The machine answers a state `u` in which the strand then goes on after the word. -/
def GoesOnFrom (i : Instr) (s u : State) (sid : Nat) (w : Ins) : Prop := exec i s = .next (u.retire sid w)

/-- A word completes with a result: the machine answers a next state in which the strand has gone on and its destination holds the words. -/
def Results (i : Instr) (s : State) (sid : Nat) (w : Ins) (vals : List Word) (n : Nat) : Prop :=
  ∃ t, exec i s = .next t ∧ Holds t sid w.d vals n ∧ WentOn s t sid w

/-- Whether a shape gives every lane its own value (R163). -/
def isGeneral : Shape → Bool
  | .general _ => true
  | _ => false

/-- The storage a result of a given shape takes is there once the strand has waited for the word's tokens (R67, R166). -/
def Fits (shape : State → Strand → List Word → Nat → Option Shape) (w : Ins) (s : State) (sid : Nat) (vals : List Word) (n : Nat) : Prop :=
  Room (s.onWait w sid) sid w.d vals (shape s (s.st sid) vals) n

/-- A word computes `n` registers of result from the strand's operands: whenever a strand goes at it alone and its core has the storage, the machine answers a next state in which the destination holds the words and the strand has gone on. -/
def Computes (shape : Ins → State → Strand → List Word → Nat → Option Shape) (i : Ins → Instr) (op : Nat) (n : Ins → Nat)
    (f : State → Strand → Ins → List Word) : Prop :=
  ∀ w s sid, Goes op w s sid → Fits (shape w) w s sid (f s (s.st sid) w) (n w) → Results (i w) s sid w (f s (s.st sid) w) (n w)

/-- The same for a word whose result has the shape of the table of R166. -/
def ComputesRule (i : Ins → Instr) (op : Nat) (n : Ins → Nat) (f : State → Strand → Ins → List Word) : Prop :=
  Computes (ruleOf op) i op n f

/-- Every byte store of the machine is in canonical form (R224, R244): device memory, its tags, host and peer memory. -/
structure Canonical (s : State) : Prop where
  mem : s.mem.wf = true
  tags : s.tags.wf = true
  host : s.host.wf = true
  peer : s.peer.wf = true

/-- An item without its registers, and with its slots whoever holds their storage (R71). -/
def bare (it : Item) : Item :=
  { it with sregs := [], ranks := it.ranks.map fun r => { r with rows := [], slots := r.slots.map fun x => { x with tref := false } } }

/-- A strand without what a word that computes may change: its pc, the state of issue and acquiring, its predicates, the registers of a frame, and what a handler notes of the registers that are written in it (R326, R331). -/
def restOf (st : Strand) : Strand :=
  { st with
    pc := 0, seq := 0, age := 0, satAt := none, park := .none, syncAt := 0, acqAt := 0, early := [], preds := 0, frame := {}
    handlerWrote := [], csaved := [] }

/-- What a word that only computes leaves alone: the whole machine but its items, its strands and the L1s, where copies may only go; of every item all but registers, every accumulator, slot with its sidecar, crew and operation; every other strand; and of the strand's own state its return stack, trap registers, tokens, lock, crew, RSTAT and all else but what `restOf` names. -/
structure OnlyComputes (s t : State) (sid : Nat) : Prop where
  machine : t = { s with items := t.items, strands := t.strands, l1 := t.l1 }
  copies : ∀ l ∈ t.l1, l ∈ s.l1
  items : ∀ u, bare (t.it u) = bare (s.it u)
  others : ∀ x, x ≠ sid → t.st x = s.st x
  own : restOf (t.st sid) = restOf (s.st sid)

/-- Every register but the `n` that an operand names is unchanged: those of the strand, its predicates, the s registers of its item and of every other, and the registers of every other live strand. -/
structure OtherRegs (s t : State) (sid : Nat) (d : Operand) (n : Nat) : Prop where
  vector : ∀ r, (∀ i, d = .v i → r < i.toNat ∨ i.toNat + n ≤ r) → t.vreg (t.st sid) r = s.vreg (s.st sid) r
  scalar : ∀ r, (∀ i, d = .s i → r < i.toNat ∨ i.toNat + n ≤ r) → t.sreg (t.st sid) r = s.sreg (s.st sid) r
  items : ∀ u r, u ≠ (s.st sid).uid → ((t.it u).sregs.getD r {}).val = ((s.it u).sregs.getD r {}).val
  pred : ∀ r : BitVec 3, d ≠ .p r → (t.st sid).pred r.toNat = (s.st sid).pred r.toNat
  others : ∀ x r, x ≠ sid → (s.strand? x).isSome → (s.st x).exited = false → (s.st x).lane < 32 →
    (sameRow (s.st x) (s.st sid) = true → (s.st x).lane ≠ (s.st sid).lane) → t.vreg (t.st x) r = s.vreg (s.st x) r

end Sys2Proof.Safety
end

