-- ==== Sys2Proof/Certificates/Slice0/Obligations.lean ====
section
/-! DEFINITION. The statements for the provers. Each docstring names the rule it formalises; the terms are those of Sys2Proof/Safety.lean. -/

open Sys2Proof Sys2Proof.Machine Sys2Proof.Safety

-- results of words that compute

/-- R170: the arithmetic words compute an exact t and write sat_int(ty, t) if MODW SAT = 1, else wrap(ty, t). -/
def Obligations.ArithmeticResults : Prop :=
  (∀ c ∈ [(Instr.iadd, 0x20, fun _ a b => a + b), (.isub, 0x21, fun _ a b => a - b), (.imul, 0x22, fun _ a b => a * b),
      (.imulh, 0x23, fun ty a b => a * b / (2 ^ intWidth ty : Int)), (.imin, 0x27, fun _ a b => min a b), (.imax, 0x28, fun _ a b => max a b)],
    ComputesRule c.1 c.2.1 tyWords fun s st w =>
      let t : Int := c.2.2 w.ty.toNat (s.srcInt st w w.ty.toNat w.a) (s.srcInt st w w.ty.toNat w.b)
      intWords w.ty.toNat (if w.sat = 1 then satInt w.ty.toNat t else wrapInt w.ty.toNat t)) ∧
  ComputesRule .imad 0x24 tyWords (fun s st w =>
    let t := s.srcInt st w w.ty.toNat w.a * s.srcInt st w w.ty.toNat w.b + s.srcInt st w w.ty.toNat w.third
    intWords w.ty.toNat (if w.sat = 1 then satInt w.ty.toNat t else wrapInt w.ty.toNat t))

/-- R170: the logic words write the bitwise result on the w-bit patterns of A and B, wrapped to the type. -/
def Obligations.LogicResults : Prop :=
  ∀ c ∈ [(Instr.and, 0x29, fun _ a b => a &&& b), (.or, 0x2A, fun _ a b => a ||| b), (.xor, 0x2B, fun _ a b => a ^^^ b),
      (.andn, 0x2C, fun n a b => a &&& (b ^^^ (2 ^ n - 1)))],
    ComputesRule c.1 c.2.1 tyWords fun s st w =>
      let n := intWidth w.ty.toNat
      intWords w.ty.toNat (wrapInt w.ty.toNat (c.2.2 n (s.srcTy st w w.ty.toNat w.a % 2 ^ n) (s.srcTy st w w.ty.toNat w.b % 2 ^ n) : Nat))

/-- R130, R171: the shifts take the count as B modulo the operation width W. SHL and SHR shift the zero-extended w-bit pattern of A within W bits, SAR shifts it sign-extended from bit w - 1; the result is wrapped to the type. -/
def Obligations.ShiftResults : Prop :=
  ∀ c ∈ [(Instr.shl, 0x2D, fun W n a k => ((a % 2 ^ n * 2 ^ k % 2 ^ W : Nat) : Int)), (.shr, 0x2E, fun _ n a k => ((a % 2 ^ n / 2 ^ k : Nat) : Int)),
      (.sar, 0x2F, fun _ n a k => signedN n a / 2 ^ k)],
    ComputesRule c.1 c.2.1 tyWords fun s st w =>
      let W : Nat := if intWidth w.ty.toNat = 64 then 64 else 32
      intWords w.ty.toNat (wrapInt w.ty.toNat
        (c.2.2 W (intWidth w.ty.toNat) (s.srcTy st w w.ty.toNat w.a) (s.srcInt st w w.ty.toNat w.b % W).toNat))

/-- R172: POPC writes the number of set bits of the w-bit pattern of A, CLZ the number of zero bits above its highest set bit (w for 0), both as N32 in one register; BREV writes the reversed pattern. -/
def Obligations.BitCountResults : Prop :=
  ComputesRule .popc 0x30 (fun _ => 1) (fun s st w =>
    [BitVec.ofNat 32 ((List.range (intWidth w.ty.toNat)).countP fun i => (s.srcTy st w w.ty.toNat w.a).testBit i)]) ∧
  ComputesRule .clz 0x31 (fun _ => 1) (fun s st w =>
    let n := intWidth w.ty.toNat
    [BitVec.ofNat 32 (((List.range n).takeWhile fun i => !(s.srcTy st w w.ty.toNat w.a).testBit (n - 1 - i)).length)]) ∧
  ComputesRule .brev 0x32 tyWords (fun s st w =>
    let n := intWidth w.ty.toNat
    intWords w.ty.toNat (readInt w.ty.toNat (((List.range n).map fun i => if (s.srcTy st w w.ty.toNat w.a).testBit (n - 1 - i) then 2 ^ i else 0).sum)))

/-- R173: BFX takes bits pos + len - 1 .. pos of A, extended by the type's signedness, and BFI puts the low len bits of A there in the old D; pos is B bits 7:0 modulo W, len the lesser of B bits 15:8 and W - pos. -/
def Obligations.BitFieldResults : Prop :=
  let pos := fun (w : Ins) (b : Word) => b.toNat % 256 % (if intWidth w.ty.toNat = 64 then 64 else 32)
  let len := fun (w : Ins) (b : Word) => min (b.toNat / 256 % 256) ((if intWidth w.ty.toNat = 64 then 64 else 32) - pos w b)
  ComputesRule .bfx 0x33 tyWords (fun s st w =>
    let b := s.src st w w.b
    let f := s.srcTy st w w.ty.toNat w.a / 2 ^ pos w b % 2 ^ len w b
    intWords w.ty.toNat (if intSigned w.ty.toNat then signedN (len w b) f else (f : Int))) ∧
  ComputesRule .bfi 0x34 tyWords (fun s st w =>
    let b := s.src st w w.b
    let old := s.srcTy st w w.ty.toNat w.d
    let f := s.srcTy st w w.ty.toNat w.a % 2 ^ len w b
    intWords w.ty.toNat ((old % 2 ^ pos w b + 2 ^ pos w b * f + 2 ^ (pos w b + len w b) * (old / 2 ^ (pos w b + len w b)) : Nat) : Int))

/-- R174, R175, R176: ISET writes whether A and B compare so by the type's signedness; SEL writes A to a strand whose predicate, after the optional negation, reads true and B to the others; MOV writes A; LEA writes A + (x << sh) modulo 2^64, x being B sign-extended with TY 0 and zero-extended with TY 1. -/
def Obligations.MoveResults : Prop :=
  ComputesRule .iset 0x35 tyWords (fun s st w =>
    let a := s.srcInt st w w.ty.toNat w.a
    let b := s.srcInt st w w.ty.toNat w.b
    let c := match w.fn.toNat with
      | 0 => decide (a = b)
      | 1 => decide (a ≠ b)
      | 2 => decide (a < b)
      | 3 => decide (a ≤ b)
      | 4 => decide (b < a)
      | _ => decide (b ≤ a)
    intWords w.ty.toNat (if c then 1 else 0)) ∧
  ComputesRule .sel 0x36 tyWords (fun s st w =>
    let o := if st.pred (w.fn.toNat % 8) = (w.fn.toNat / 8 % 2 == 1) then w.b else w.a
    s.srcMove st w o) ∧
  ComputesRule .mov 0x38 tyWords (fun s st w => s.srcMove st w w.a) ∧
  ComputesRule .lea 0x37 (fun _ => 2) (fun s st w =>
    let b := s.src st w w.b
    let x : Nat := (s.src64 st w w.a).toNat + (if w.ty = 0 then (BitVec.signExtend 64 b).toNat else b.toNat) * 2 ^ (w.imm.toNat % 64)
    [BitVec.ofNat 32 x, BitVec.ofNat 32 (x / 2 ^ 32)])

/-- R177, R178: PACK narrows the parts of two words by wrapping, or saturating with SAT 1; UNPK extends the halves or bytes of one; CRC32C advances a running checksum over the low w bits of B, bit 0 first. -/
def Obligations.PackResults : Prop :=
  ComputesRule .pack 0x39 (fun _ => 1) (fun s st w => [packWord w.ty.toNat (w.sat = 1) (s.src st w w.a) (s.src st w w.b)]) ∧
  ComputesRule .unpk 0x3A (fun _ => 1) (fun s st w => [unpkWord w.ty.toNat (w.fn = 1) (s.src st w w.a)]) ∧
  ComputesRule .crc32c 0x3B (fun _ => 1) (fun s st w =>
    let b := (s.src st w w.b).toNat
    [(List.range (intWidth w.ty.toNat)).foldl (fun (c : Word) i =>
      let c := c ^^^ (if b.testBit i then 1 else 0)
      if c.getLsbD 0 then (c >>> 1) ^^^ 0x82F63B78 else c >>> 1) (s.src st w w.a)])

/-- R180, R182, R183, R186: FADD, FSUB, FMUL and FFMA compute the exact y of their sources after the modifiers and write the sequence of R44; FMIN and FMAX select, FSET compares; HADD2, HMUL2 and HFMA2 do so on each half. -/
def Obligations.FloatResults : Prop :=
  (∀ c ∈ [(Instr.fadd, 0x40, fun (m : Mode) (a b _ : Val) => a.add m b), (.fsub, 0x41, fun m a b _ => a.add m b.neg),
      (.fmul, 0x42, fun _ a b _ => a.mul b), (.ffma, 0x43, fun m a b x => (a.mul b).add m x)],
    ComputesRule c.1 c.2.1 (fun _ => 1) fun s st w =>
      [BitVec.ofNat 32 (w.finish (fmtOf w.ty.toNat) (c.2.2 w.mode (s.fpA st w) (s.fpB st w) (s.fpC st w)))]) ∧
  (∀ c ∈ [(Instr.fmin, 0x44, false), (.fmax, 0x45, true)],
    ComputesRule c.1 c.2.1 (fun _ => 1) fun s st w =>
      let f := fmtOf w.ty.toNat
      let m := w.modw.getD ⟨0, 0, 0, false, false, false, false, false, false, 0⟩
      [BitVec.ofNat 32 (fminmax f c.2.2 (modPat f m.nega m.absa (s.srcFp st w w.ty.toNat w.a)) (modPat f m.negb m.absb (s.srcFp st w w.ty.toNat w.b)))]) ∧
  ComputesRule .fset 0x46 (fun _ => 1) (fun s st w => [if cmpFp w.fn.toNat (s.fpA st w) (s.fpB st w) then 1 else 0]) ∧
  (∀ c ∈ [(Instr.hadd2, 0x50, fun (m : Mode) (a b _ : Val) => a.add m b), (.hmul2, 0x51, fun _ a b _ => a.mul b),
      (.hfma2, 0x52, fun m a b x => (a.mul b).add m x)],
    ComputesRule c.1 c.2.1 (fun _ => 1) fun s st w =>
      let f := fmtOf w.ty.toNat
      let half := fun (k : Nat × Nat → Nat) => w.finish f (c.2.2 w.mode (w.modA (widenF f (k (s.srcHalf st w w.ty.toNat w.a))))
        (w.modB (widenF f (k (s.srcHalf st w w.ty.toNat w.b)))) (w.modC (widenF f (k (s.srcHalf st w w.ty.toNat w.third)))))
      [BitVec.ofNat 32 (half (·.2) * 65536 + half (·.1))])

/-- R184, R185, R187, R188, R189: FRND, FCLS with and without a mask, FCVT, FDOT and FLDX write what their rules give. -/
def Obligations.ConversionResults : Prop :=
  ComputesRule .frnd 0x4E (fun _ => 1) (fun s st w => [BitVec.ofNat 32 (rnd (fmtOf w.ty.toNat) ((s.fpA st w).integral w.mode))]) ∧
  ComputesRule .fcls 0x4F (fun _ => 1) (fun s st w => [BitVec.ofNat 32 (s.fpClass st w)]) ∧
  ComputesRule .fclsTest 0x4F (fun _ => 1) (fun s st w => [if s.fpClass st w &&& w.imm.toNat % 512 = 0 then 0 else 1]) ∧
  ComputesRule .fcvt 0x53 tyWords (fun s st w =>
    let y := s.cvtSrc st w
    if w.ty.toNat < 8 then intWords w.ty.toNat (toInt w.ty.toNat (y.scale w.kexp) w.mode (w.sat = 1))
    else if w.ty.toNat = 13 then [BitVec.ofNat 32 (toE8 (y.scale w.kexp) w.mode (w.sat = 1))]
    else [BitVec.ofNat 32 (w.finish (fmtOf w.ty.toNat) y)]) ∧
  ComputesRule .fdot 0x54 (fun _ => 1) (fun s st w =>
    let a := (s.dotElems st w w.ty.toNat w.a).map w.modA
    let b := (s.dotElems st w (if w.fn = 1 then 23 - w.ty.toNat else w.ty.toNat) w.b).map w.modB
    [BitVec.ofNat 32 (w.finishQ fp32 (roundTo fp32 (dot4 a b (w.modC (widenF fp32 (s.src st w w.d).toNat))) .rne))]) ∧
  ComputesRule .fldx 0x55 (fun _ => 1) (fun s st w =>
    [BitVec.ofNat 32 (w.finish (fmtOf w.ty.toNat) ((s.fpA st w).scale (max (-2000) (min 2000 (s.src st w w.b).toInt))))])

/-- R191 to R196: SRD writes the value of the named special register where the core has the storage that its shape takes, and a read of RSTAT clears ANYABN (R84); PLOG writes bit 2a + b of FN; PMOV moves between predicates and registers; SHAPE reads a field of a register's shape; FEMK tells which registers are full; TKTST tests a token (R269). -/
def Obligations.LaneResults : Prop :=
  (∀ w s sid, Goes 0x60 w s sid →
    Fits (fun s st vals j => specialShape s (srOf w.a) st vals j) w s sid (s.special (s.st sid) (srOf w.a)) (if srOf w.a = .clock ∨ srOf w.a = .nstime then 2 else 1) →
    ∃ t, exec (.srd w) s = .next t ∧ WentOn s t sid w ∧
      Holds t sid w.d (s.special (s.st sid) (srOf w.a)) (if srOf w.a = .clock ∨ srOf w.a = .nstime then 2 else 1) ∧
      (t.st sid).rstat = if srOf w.a = .rstat then (s.st sid).rstat &&& 0xFFFFFFEF else (s.st sid).rstat) ∧
  Computes (fun _ => generalOf) .plog 0x61 (fun _ => 1) (fun s st w =>
    [if w.fn.getLsbD (2 * (if s.src st w w.a = 0 then 0 else 1) + (if s.src st w w.b = 0 then 0 else 1)) then 1 else 0]) ∧
  Computes (fun _ => generalOf) .pmovNz 0x62 (fun _ => 1) (fun s st w => [if s.src st w w.a = 0 then 0 else 1]) ∧
  Computes (fun _ => pmovShape) .pmovVal 0x62 (fun _ => 1) (fun s st w => [s.src st w w.a]) ∧
  Computes (fun _ => pmovShape) .pmovSave 0x62 (fun _ => 1) (fun _ st _ => [0#24 ++ 1#1 ++ st.preds]) ∧
  (∀ w s sid, Goes 0x62 w s sid → ∃ t, exec (.pmovLoad w) s = .next t ∧ WentOn s t sid w ∧
    (t.st sid).preds = (s.src (s.st sid) w w.a).setWidth 7) ∧
  Computes (fun _ => generalOf) .femkTest 0x65 (fun _ => 1) (fun s st w => [if (w.a.vregs 1).any (s.isEmpty st) then 0 else 1]) ∧
  Computes (fun _ => generalOf) .femkMask 0x65 (fun _ => 1) (fun s st w =>
    [((List.range 32).map fun i => if s.isEmpty st (vOf w.a / 32 * 32 + i) then (0 : Word) else 1 <<< i).sum]) ∧
  Computes (fun _ => generalOf) .tktst 0xB2 (fun _ => 1) (fun _ st w =>
    let t := st.toks.getD (tkOf w.a) {}
    [if t.busy || t.err then 0 else 1]) ∧
  Computes (fun w s st vals _ => if w.fn = 1 ∧ isGeneral ((s.rowOf st).reg (vOf w.a)).shape then none else some (.uniform (vals.headD 0))) .shape 0x63
    (fun _ => 1) (fun s st w =>
      let v := (s.rowOf st).reg (vOf w.a)
      [match w.fn.toNat, v.shape with
        | 0, .uniform _ => if v.tref then 4 else 0
        | 0, .affine _ _ _ => if v.tref then 5 else 1
        | 0, .general _ => if v.tref then 6 else 2
        | 1, .uniform x => x
        | 1, .affine b _ _ => b
        | 1, .general ws => ws.getD st.lane 0
        | 2, .affine _ l _ => l
        | 2, _ => 0
        | _, .affine _ _ t => t
        | _, _ => 0])

-- control

/-- R88, R89, R45: BRA and CALL go to the word after them plus 12 times IMM, BRX and CALLX to the pair A, which is a multiple of 12; CALL and CALLX push the address after them, RET pops the address it goes to. -/
def Obligations.BranchesLand : Prop := ∀ w s sid,
  let next := nextPc w (s.st sid).pc
  let rel := next + 12 * w.imm.signExtend 64
  let abs := s.src64 (s.st sid) w w.a
  (Goes 0x01 w s sid → Completes (.bra w) s fun t => Lands s t sid rel ∧ (t.st sid).rstk = (s.st sid).rstk) ∧
  (Goes 0x02 w s sid → abs.toNat % 12 = 0 → Completes (.brx w) s fun t => Lands s t sid abs ∧ (t.st sid).rstk = (s.st sid).rstk) ∧
  (Goes 0x03 w s sid → (s.st sid).rstk.length < s.depthOf (s.st sid) →
    Completes (.call w) s fun t => Lands s t sid rel ∧ (t.st sid).rstk = next :: (s.st sid).rstk) ∧
  (Goes 0x04 w s sid → abs.toNat % 12 = 0 → (s.st sid).rstk.length < s.depthOf (s.st sid) →
    Completes (.callx w) s fun t => Lands s t sid abs ∧ (t.st sid).rstk = next :: (s.st sid).rstk) ∧
  (∀ pc rest, Goes 0x05 w s sid → (s.st sid).rstk = pc :: rest → Completes (.ret w) s fun t => Lands s t sid pc ∧ (t.st sid).rstk = rest)

/-- R88, R89, R45: CALL and CALLX at CALLDEPTH trap STACK 2, RET with an empty stack traps STACK 3, BRX and CALLX to an address that is no multiple of 12 trap ALIGN. -/
def Obligations.BranchesTrap : Prop := ∀ w s sid,
  let abs := s.src64 (s.st sid) w w.a
  (Goes 0x02 w s sid → abs.toNat % 12 ≠ 0 → Traps (.brx w) s sid w ⟨3, 0, 0, 0⟩) ∧
  (Goes 0x03 w s sid → s.depthOf (s.st sid) ≤ (s.st sid).rstk.length → Traps (.call w) s sid w ⟨0x0F, 2, 0, 0⟩) ∧
  (Goes 0x04 w s sid → abs.toNat % 12 ≠ 0 → Traps (.callx w) s sid w ⟨3, 0, 0, 0⟩) ∧
  (Goes 0x04 w s sid → abs.toNat % 12 = 0 → s.depthOf (s.st sid) ≤ (s.st sid).rstk.length → Traps (.callx w) s sid w ⟨0x0F, 2, 0, 0⟩) ∧
  (Goes 0x05 w s sid → (s.st sid).rstk = [] → Traps (.ret w) s sid w ⟨0x0F, 3, 0, 0⟩)

/-- R90, R92, R93, R94: NOP goes on; YIELD goes on and is no candidate in this regroup period and the next; SLEEP goes on asleep until NSTIME + A, and SLEEP 0 acts as YIELD; DBNZ writes D - 1 and branches unless that is 0. -/
def Obligations.PacingWords : Prop := ∀ w s sid,
  let a := s.src (s.st sid) w w.a
  let d := s.src (s.st sid) w w.d - 1
  (Goes 0x07 w s sid → Completes (.nop w) s fun t => WentOn s t sid w ∧ (t.st sid).park = (s.st sid).park) ∧
  (Goes 0x08 w s sid → Completes (.yield w) s fun t => WentOn s t sid w ∧ (t.st sid).yieldFor = 2) ∧
  (Goes 0x09 w s sid → a = 0 → Completes (.sleep w) s fun t => WentOn s t sid w ∧ (t.st sid).yieldFor = 2) ∧
  (Goes 0x09 w s sid → a ≠ 0 → Completes (.sleep w) s fun t => WentOn s t sid w ∧ (t.st sid).park = .sleep (s.nstime + a.toNat)) ∧
  (Goes 0x0A w s sid → Fits (ruleOf 0x0A w) w s sid [d] 1 →
    Completes (.dbnz w) s fun t => Holds t sid w.d [d] 1 ∧
      Lands s t sid (if d = 0 then nextPc w (s.st sid).pc else nextPc w (s.st sid).pc + 12 * w.imm.signExtend 64))

/-- R91, R95, R97, R99: EXIT of a strand with nothing outstanding ends it; JOIN moves it to the live crew A, LEAVE to crew 0, and out of the pending sets of the crew it was in; CFREE moves every member of a live crew other than 0 to crew 0, frees its id and leaves its calls counted nowhere; CWAIT goes on once the strand's signature stands in no open round of the register. That a member of crew 0 leaves the pending sets of crew 0 by LEAVE and stays its member is the model's choice (log 109). -/
def Obligations.CrewWords : Prop := ∀ w s sid,
  let s1 := s.onWait w sid
  let st := s1.st sid
  let a := s1.src st w w.a
  (Goes 0x06 w s sid → s1.strandIdle st = true → st.call = none → exec (.exit w) s = .next (s1.endStrand sid)) ∧
  (Goes 0x06 w s sid → s1.strandIdle st = true → st.call.isSome → s1.released sid (s1.returnScope st) = true →
    exec (.exit w) s = .next (s1.returnCall st [])) ∧
  (Goes 0x10 w s sid → s1.liveCrew st a = true → exec (.join w) s = .next ((s1.moveTo sid a.toNat).retire sid w)) ∧
  (Goes 0x11 w s sid → exec (.leave w) s = .next ((s1.leave sid).retire sid w)) ∧
  (Goes 0x13 w s sid → a ≠ 0 → s1.liveCrew st a = true → Completes (.cfree w) s fun t =>
    ∃ u : State, u = (s1.members st.uid a.toNat).foldl (fun v x => v.moveTo x 0) s1 ∧
      t = (({ u with calls := u.calls.map fun c => if c.uid = st.uid ∧ c.crew = some a.toNat then { c with crew := none } else c } : State).setIt st.uid fun it => { it with crews := it.crews.filter fun k => k.id != a.toNat }).retire sid w) ∧
  (Goes 0x15 w s sid → (∀ k, (s1.it st.uid).crew st.crew = some k → ∀ g ∈ (k.rounds.getD (cOf w.a) {}).signers, g.sid ≠ sid) →
    exec (.cwait w) s = .next (s1.retire sid w))

/-- R96: CNEW gives the strand the lowest free crew id of 1 to 15 and makes that crew live, or writes 0xFFFFFFFF when none is free. -/
def Obligations.CnewGivesLowestFreeId : Prop := ∀ w s sid,
  let it := s.it (s.st sid).uid
  let v : Word := match (List.range 16).find? fun i => decide (1 ≤ i) && (it.crew i).isNone with
    | some i => BitVec.ofNat 32 i
    | none => 0xFFFFFFFF
  Goes 0x12 w s sid → Fits (fun _ _ vals _ => some (.uniform (vals.headD 0))) w s sid [v] 1 →
    Completes (.cnew w) s fun t => Holds t sid w.d [v] 1 ∧ WentOn s t sid w ∧ (v ≠ 0xFFFFFFFF → ((t.it (s.st sid).uid).crew v.toNat).isSome)

/-- R77, R78, R98: SIGN and SIGN.w of a live register sign its round: the strand leaves the round's pending members, which are the crew's live members when the round begins, and joins its signers with the word's bits; SIGN goes on, SIGN.w parks after the word; a round with nothing pending then completes. That a strand which joined after the round began waits is the model's choice (log 21). -/
def Obligations.SignWords : Prop := ∀ w s sid k,
  let s1 := s.onWait w sid
  let st := s1.st sid
  let c := cOf w.a
  let rd := k.rounds.getD c {}
  let word := Ins.code 0x14 w
  let signed := s1.setRound st.uid st.crew c fun r =>
    { r with
      first := some (rd.first.getD word), pending := (if rd.first.isSome then rd.pending else s1.members st.uid st.crew).filter fun x => x != sid
      signers := rd.signers ++ [{ sid := sid, seq := st.seq, pc := st.pc, acq := st.acqAt }] }
  Goes 0x14 w s sid → (s1.it st.uid).crew st.crew = some k → sid ∉ rd.broken → (rd.first.isSome → sid ∈ rd.pending) →
  s1.released sid (s1.roundScope st.uid st.crew rd) = true →
  sigBits (rd.first.getD word) = sigBits word →
    exec (.sign w) s = .next ((signed.retire sid w).completeRound st.uid st.crew c) ∧
    exec (.signW w) s = .next (((signed.retire sid w).setPark sid (.signW c)).completeRound st.uid st.crew c)

/-- R197, R198, R201: a signing word of the matrix group whose operands pass the checks of R201 signs its convergence register and goes on; the last signature makes the round complete and the operation issue. -/
def Obligations.MatrixWordsSign : Prop := ∀ w s sid k, ∀ x ∈ [(Instr.mma, 0x70), (.mmas, 0x71), (.mmag, 0x72), (.qnt, 0x78), (.qntCol, 0x78), (.bpk, 0x79), (.bunp, 0x7A)],
  let s1 := s.onWait w sid
  let st := s1.st sid
  let c := (MatWord.of (Ins.raw x.2 w)).creg
  let rd := k.rounds.getD c {}
  let word := Ins.code x.2 w
  let signed := s1.setRound st.uid st.crew c fun r =>
    { r with
      first := some (rd.first.getD word), pending := (if rd.first.isSome then rd.pending else s1.members st.uid st.crew).filter fun y => y != sid
      signers := rd.signers ++ [{ sid := sid, seq := st.seq, pc := st.pc, acq := st.acqAt }] }
  Goes x.2 w s sid → (s1.it st.uid).crew st.crew = some k → sid ∉ rd.broken → (rd.first.isSome → sid ∈ rd.pending) →
  s1.released sid (s1.roundScope st.uid st.crew rd) = true →
  sigBits (rd.first.getD word) = sigBits word → signCheck x.2 w s1 st = none →
    exec (x.1 w) s = .next ((signed.retire sid w).completeRound st.uid st.crew c)

/-- R100 to R103: a collective word contributes the strand's value (SHFL's with the lane it asks for) and parks after the word; when no member is pending the round completes and every participant receives its result. -/
def Obligations.CollectiveWords : Prop := ∀ w s sid k, ∀ x ∈ [(Instr.shfl, 0x16), (.cred, 0x17), (.voteAll, 0x18), (.voteAny, 0x18), (.voteCount, 0x18), (.voteRowmask, 0x18)],
  let s1 := s.onWait w sid
  let st := s1.st sid
  let rd := k.coll
  let word := Ins.code x.2 w
  let joined := s1.setColl st.uid st.crew fun r =>
    { r.signedOff sid with
      first := some (rd.first.getD word), pending := (if rd.first.isSome then rd.pending else s1.members st.uid st.crew).filter fun y => y != sid
      signers := rd.signers ++ [{ sid := sid, seq := st.seq, pc := st.pc, val := s1.src st w w.a
                                  aux := if x.2 = 0x16 then shflLane w.fn.toNat st.lane (s1.src st w w.b) else 0, acq := st.acqAt }] }
  Goes x.2 w s sid → (s1.it st.uid).crew st.crew = some k → sid ∉ rd.broken → (rd.first.isSome → sid ∈ rd.pending) →
  s1.released sid (s1.roundScope st.uid st.crew rd) = true → sigBits (rd.first.getD word) = sigBits word →
    exec (x.1 w) s = .next (((joined.retire sid w).setPark sid .collective).completeColl st.uid st.crew)

/-- R69, R72, R104: FREEZE below TLEV 3 in a member strand moves it to crew 0, signs c15 and parks after the word; FREEZE_COMPLETE completes a round that is ready. That finishing strands are no members is the model's choice (log 23). -/
def Obligations.FreezeWords : Prop :=
  (∀ w s sid k,
    let s1 := s.onWait w sid
    let s2 := s1.leave sid
    let st := s2.st sid
    let rd := k.rounds.getD 15 {}
    let word := Ins.code 0x19 w
    Goes 0x19 w s sid → (s1.st sid).isFinishing = false → (s1.it (s1.st sid).uid).tlev ≠ 3 → (s2.it st.uid).crew 0 = some k →
    sid ∉ rd.broken → sigBits (rd.first.getD word) = sigBits word →
      exec (.freeze w) s = .next (((s2.setRound st.uid 0 15 fun r =>
        { r with
          first := some (rd.first.getD word), pending := (if rd.first.isSome then rd.pending else s2.liveOf st.uid).filter fun x => x != sid
          signers := rd.signers ++ [{ sid := sid, seq := st.seq, pc := st.pc, acq := st.acqAt }] }).retire sid w).setPark sid .freeze)) ∧
  (∀ s uid, s.freezeReady uid = true → exec (.freezeComplete uid) s = .next (s.completeFreeze uid))

/-- R106 to R108: LAUNCH copies the 128 bytes at A to the tail of queue B, the issuer's context standing in byte 0x60 when it is 0; EVSIG posts an atomic addition of B to the counter at A that releases; EVWAIT goes on, acquiring, when the counter has reached B and parks otherwise; a write of the counter that makes the condition true wakes it, and it then completes, whatever the counter reads by that time. The order of LAUNCH's checks and the rights EVSIG needs are the model's choices (log 36, 35). -/
def Obligations.EventWords : Prop :=
  (∀ w s sid s2 x,
    let s1 := s.onWait w sid
    let st := s1.st sid
    let va := s1.src64 st w w.a
    let q := (s1.src st w w.b).toNat
    let bs := s2.mem.bytes x.pa 128
    Goes 0x1A w s sid → va.toNat % 128 = 0 → s1.ctlAccess st va { rd := true, locs := [0] } 128 = (s2, .ok x) → q ≤ 63 →
    s2.released sid 1 = true → s2.ownClear st va 0 x.pa 128 = true → s2.poisonedAt x.pa 128 = false → (s2.queues.getD q {}).packets.length < 32 →
      GoesOnFrom (.launch w) s (s2.setQueue q fun y =>
        { y with packets := y.packets ++ [{ bytes := if bs.getD 0x60 0 = 0 then bs.set 0x60 (BitVec.ofNat 8 (s2.ctxOf st)) else bs, issuer := some (s2.ctxOf st) }] }) sid w) ∧
  (∀ w s sid s2 x,
    let s1 := s.onWait w sid
    let st := s1.st sid
    let va := s1.src64 st w w.a
    let scope := if w.fn = 1 ∨ x.loc ≠ 0 ∨ st.nextRel = some 2 then 2 else 1
    Goes 0x1B w s sid → va.toNat % 8 = 0 → s1.ctlAccess st va { rd := true, wr := true, locs := [0, 1, 2] } = (s2, .ok x) → s2.released sid scope = true →
      GoesOnFrom (.evsig w) s { s2.setSt sid fun y => { y with nextRel := none } with
        nextId := s2.nextId + 1
        pend := s2.pend ++ [{ id := s2.nextId, sid := sid, uid := st.uid, core := s2.coreOf st, ctx := s2.ctxOf st, seq := st.seq, pc := st.pc, kind := .atomic, op := 0x1B, ty := 3, known := true
                              va := va, width := 8, loc := x.loc, pa := x.pa, pol := x.pol, data := (s2.src st w w.b).toNat, rel := some scope, issued := s2.now, relAcq := (s2.st sid).acqAt }] } sid w) ∧
  (∀ w s sid s2 x,
    let s1 := s.onWait w sid
    let st := s1.st sid
    let va := s1.src64 st w w.a
    let bound := s2.src64 st w w.b
    Goes 0x1C w s sid → st.wokenScope = none → va.toNat % 8 = 0 → s1.ctlAccess st va { rd := true, locs := [0, 1, 2] } = (s2, .ok x) →
    s2.ownClear st va x.loc x.pa 8 = true → s2.poisonedIn x.loc x.pa 8 = false →
      if bound.toNat ≤ s2.homeNum x.loc x.pa 8 then GoesOnFrom (.evwait w) s (s2.acquire sid (if x.loc = 0 then 1 else 2)) sid w
      else exec (.evwait w) s = .next (s2.setPark sid (.evwait va bound x.loc x.pa false))) ∧
  (∀ (s : State) uid sid loc pa (bs : List Byte) va (bound : Addr) p hit, (s.st sid).park = .evwait va bound loc p hit → loc < 3 → pa < p + 8 → p < pa + bs.length →
    bound.toNat ≤ (s.writeHome uid loc pa bs).homeNum loc p 8 → ((s.writeHome uid loc pa bs).st sid).park = .evwait va bound loc p true) ∧
  (∀ s sid va bound loc pa, (s.st sid).park = .evwait va bound loc pa true → exec (.evwaitWake sid) s =
    .next (s.setSt sid fun x => { x with park := .none, woken := some (x.seq, if loc = 0 then 1 else 2) })) ∧
  (∀ w s sid sc, Goes 0x1C w s sid → ((s.onWait w sid).st sid).wokenScope = some sc →
    GoesOnFrom (.evwait w) s (((s.onWait w sid).setSt sid fun x => { x with woken := none }).acquire sid sc) sid w)

/-- R79, R82, R109, R111, R112: RCALL of a function the kernel has, whose registers lie within the limits, empties the result registers, counts the call on its register and puts it outstanding with the next sequence number; RRET returns RETS words from A; RJOIN goes on once its count has read 0, whatever is issued after, acquiring what the calls acquired. The context of a call, its name, its storage at issue and the 0 of a register beyond a frame's are the model's choices (log 27, 2, 15, 88). -/
def Obligations.RemoteCallWords : Prop :=
  (∀ w s sid s2 s3 x,
    let s1 := s.onWait w sid
    let st := s1.st sid
    let it := s1.it st.uid
    let f := s1.rfOf st w
    let d := (w.d.vregs 1).headD 0
    let b := (w.b.vregs 1).headD 0
    let creg := w.imm.toNat / 256 % 16
    let c : Call := { id := s3.nextId, sid := sid, uid := st.uid, crew := some st.crew, creg := creg, fn := f, fpc := it.kernel.code + BitVec.ofNat 64 f.ofs, ctx := it.ctx
                      depth := it.kernel.calldepth, detred := (s3.la it.launch).detred, target := s1.src64 st w w.a, loc := x.loc, peer := if x.loc = 1 then x.pa / 2 ^ 48 else 0, nmu := nmuOf (x.pa % 2 ^ 48)
                      args := (List.range f.args).map fun i => s2.vreg st (b + i), dest := d, seq := st.nseq + 1
                      deadline := s3.now + (s3.ctx it.ctx).rcto.toNat * 1000 * Config.perNs }
    let s4 : State := { s3 with nextId := s3.nextId + 1 }
    let c : Call := if x.loc = 2 then { c with phase := .shipped (s4.newFrame c 0) } else c
    let s5 := (s4.setSt sid fun y => { y with nseq := st.nseq + 1 }).setIt st.uid fun it => it.setCrew st.crew fun k => { k with counts := k.counts.modify creg (· + 1) }
    Goes 0x1D w s sid → w.imm.toNat % 256 < it.kernel.rfs.length → d + f.rets ≤ (s1.limitsOf st).regs → b + f.args ≤ (s1.limitsOf st).regs →
    s1.ctlAccess st (s1.src64 st w w.a) { rd := true, rcx := true, locs := [0, 1, 2] } = (s2, .ok x) → s2.released sid (if x.loc = 1 then 2 else 1) = true →
    s2.prepDest st ((List.range f.rets).map (d + ·)) = some s3 →
      GoesOnFrom (.rcall w) s { s5 with calls := s5.calls ++ [c] } sid w) ∧
  (∀ w s sid c,
    let s1 := s.onWait w sid
    let st := s1.st sid
    Goes 0x1E w s sid → st.call.bind s1.call? = some c → s1.released sid (s1.returnScope st) = true →
      exec (.rret w) s = .next (s1.returnCall st ((List.range c.fn.rets).map fun i =>
        if (w.a.vregs 1).headD 0 + i < c.fn.fregs then s1.vreg st ((w.a.vregs 1).headD 0 + i) else 0))) ∧
  (∀ w s sid k,
    let s1 := s.onWait w sid
    let st := s1.st sid
    let u := s1.setSt sid fun x => { x with rjoin := none }
    Goes 0x1F w s sid → st.isFrame = false → (s1.it st.uid).crew st.crew = some k → k.counts.getD (cOf w.a) 0 = 0 ∨ st.rjoin = some (st.seq, cOf w.a, true) →
      GoesOnFrom (.rjoin w) s (if k.acqs.getD (cOf w.a) 0 = 0 then u else u.acquire sid (k.acqs.getD (cOf w.a) 0)) sid w)

/-- R80, R81, R83, R85, R110, R365, R367: a call that has arrived at an NMU starts as a strand while fewer than 64 frames stand there and waits otherwise; a shipped frame starts as a finishing strand of its resident item; a reply that arrives within the timeout completes its call, one that arrives later finds it abandoned, and the call is gone; a call past its deadline is abandoned with TIMEOUT. The row a finishing strand takes is the model's choice (log 28). -/
def Obligations.RemoteCallEvents : Prop := ∀ s n c, s.call? n = some c →
  (c.phase = .transit ∨ c.phase = .waiting → c.loc = 0 ∨ c.loc = 1 →
    if s.framesAt c < 64 then Completes (.remoteFrameStart n) s fun t =>
      t.strands = s.strands ++ [s.newFrame c s.nextId] ∧ t.nextId = s.nextId + 1 ∧ t.call? n = some { c with phase := .running s.nextId }
    else Completes (.remoteFrameStart n) s fun t => t.strands = s.strands ∧ t.call? n = some { c with phase := .waiting }) ∧
  (∀ f t, c.phase = .shipped f → (s.item? c.uid).isSome → (s.it c.uid).status = .resident → s.startFinishing c f = some t → exec (.finishingStrandStart n) s = .next t) ∧
  (∀ vals status, c.phase = .replying vals status → Completes (.rcallReply n) s fun t =>
    t = (if c.deadline < s.now then s.abandonCall n 3 else s.completeCall n vals status).dropCall n ∧ t.call? n = none) ∧
  (c.deadline ≤ s.now → exec (.rcallTimeout n) s = .next (s.abandonCall n 3))

/-- R165: a long-latency word empties its destination in the strand's lane and its words, those of the sources at issue, stay on their way; when they arrive, the destination holds them. Drawing the destination's storage at issue and the dyadics that stand for irrational values are the model's choices (log 15, 12). -/
def Obligations.LongLatencyWords : Prop :=
  let later := fun (i : Ins → Instr) (op : Nat) (n : Ins → Nat) (f : State → Strand → Ins → List Word) =>
    ∀ w s sid d,
      let st := s.st sid
      let regs := (List.range (n w)).map (d.toNat + ·)
      Goes op w s sid → w.d = .v d →
      (if s.rowUniform op w [(st, f s st w)] && regs.all (fun r => !((s.rowOf st).reg r).generalTref) then ((s.onWait w sid).prepUniform st [st] d.toNat (f s st w)).isSome
        else ((s.onWait w sid).prepDest st regs).isSome) →
      Completes (i w) s fun t => WentOn s t sid w ∧ (∀ j < n w, t.isEmpty (t.st sid) (d.toNat + j) = true) ∧
        ∃ l, t.lats = s.lats ++ [l] ∧ l.id = s.nextId ∧ l.sid = sid ∧ l.dest = d.toNat ∧ l.vals = f s (s.st sid) w
  let fp := fun (w : Ins) => fmtOf w.ty.toNat
  later .idiv 0x25 tyWords (fun s st w => intWords w.ty.toNat (wrapInt w.ty.toNat (divInt (s.srcInt st w w.ty.toNat w.a) (s.srcInt st w w.ty.toNat w.b)))) ∧
  later .irem 0x26 tyWords (fun s st w => intWords w.ty.toNat (wrapInt w.ty.toNat (remInt (s.srcInt st w w.ty.toNat w.a) (s.srcInt st w w.ty.toNat w.b)))) ∧
  later .fdiv 0x47 (fun _ => 1) (fun s st w => [BitVec.ofNat 32 (w.finish (fp w) ((s.fpA st w).div (s.fpB st w)))]) ∧
  later .fsqrt 0x48 (fun _ => 1) (fun s st w => [BitVec.ofNat 32 (w.finish (fp w) (s.fpA st w).sqrt)]) ∧
  (∀ c ∈ [(Instr.frcp, 0x49), (.frsq, 0x4A), (.fexp2, 0x4B), (.flog2, 0x4C), (.ftanh, 0x4D)],
    later c.1 c.2 (fun _ => 1) fun s st w => [BitVec.ofNat 32 (w.finishQ (fp w) (approxRd c.2 (fp w) (s.fpA st w)))]) ∧
  (∀ s l, s.lats.find? (fun x => x.id == l.id) = some l → Placed s l.sid → (s.it (s.st l.sid).uid).status = .resident → (s.st l.sid).phase ≠ .resume → l.group = [] ∨ l.group = [l.sid] →
    Completes (.longLatencyComplete l.id) s fun t => t.lats = s.lats.filter (fun x => x.id != l.id) ∧
      ∀ j < l.vals.length, t.vreg (t.st l.sid) (l.dest + j) = l.vals.getD j 0 ∧ t.isEmpty (t.st l.sid) (l.dest + j) = false)

-- memory

/-- R255, R258, R262, R263, R268: a store, an atomic or TAGST whose access is accepted posts it, numbered in program order, a FENCE.rel before it turning it into a release; an atomic that names a destination first empties it. Names in program order are the model's own (log 2), and drawing a destination's storage at issue its choice (log 15). -/
def Obligations.WritesArePosted : Prop :=
  let posts := fun (i : Ins → Instr) (op : Nat) (mk : State → Strand → Ins → Acc × List Nat) =>
    ∀ w s sid s2 a s3,
      let s1 := s.onWait w sid
      let st := s1.st sid
      Goes op w s sid → s1.accept (mk s1 st w).1 = (s2, .ok a) → s2.await st (mk s1 st w).2 = some s3 →
        let r := ({ s3 with nextId := s3.nextId + a.count } : State).takeRel { a with id := s3.nextId }
        GoesOnFrom (i w) s { r.2 with pend := r.2.pend ++ r.1.elements } sid w
  posts .st 0x91 (fun s st w =>
    ({ (s.newAcc st .store 0x91 w (s.ea st 0x91 w) (if w.fn = 1 then 16 else tyBytes w.ty.toNat)) with data := s.storeData st w, rel := relOf w.fn.toNat }, [])) ∧
  posts .tagst 0xA4 (fun s st w => ({ (s.newAcc st .tagStore 0xA4 w (s.ea st 0xA4 w) 1) with data := (s.src st w w.d).toNat % 16 }, [])) ∧
  (∀ c ∈ [(Instr.aadd, 0x97), (.amin, 0x98), (.amax, 0x99), (.aand, 0x9A), (.aor, 0x9B), (.axor, 0x9C), (.axch, 0x9D), (.acas, 0x9E), (.afadd, 0x9F)],
    posts c.1 c.2 fun s st w =>
      let n := if wideTy w.ty.toNat then 8 else 4
      let d := (w.d.vregs 1).headD 0
      ({ (s.newAcc st .atomic c.2 w (s.ea st c.2 w) n) with
          data := s.srcTy st w w.ty.toNat w.b % 2 ^ (8 * n), data2 := (if c.2 = 0x9E then s.srcTy st w w.ty.toNat w.third else 0) % 2 ^ (8 * n)
          acq := acqOf w.fn.toNat, rel := relOf w.fn.toNat, dest := if Ins.hasDest c.2 w then some d else none },
        if Ins.hasDest c.2 w then (List.range (n / 4)).map (d + ·) else []))

/-- R255, R258, R259, R268: LD and TAGLD whose access is accepted empty their destination and post it; where the row's addresses are uniform and covered, one read serves every strand of the row. Drawing a destination's storage at issue is the model's choice (log 15). -/
def Obligations.LoadsArePosted : Prop := ∀ w s sid s2 a,
  let s1 := s.onWait w sid
  let st := s1.st sid
  let d := (w.d.vregs 1).headD 0
  let n := if w.fn = 1 then 4 else if wideTy w.ty.toNat then 2 else 1
  let acc := { (s1.newAcc st .load 0x90 w (s1.ea st 0x90 w) (if w.fn = 1 then 16 else tyBytes w.ty.toNat)) with acq := acqOf w.fn.toNat, dest := some d }
  let tag := { (s1.newAcc st .tagLoad 0xA3 w (s1.ea st 0xA3 w) 1) with dest := some d }
  (∀ s3, Goes 0x90 w s sid → w.fn = 1 ∨ s.oneRead 0x90 w st = false → s1.accept acc = (s2, .ok a) → s2.prepDest st ((List.range n).map (d + ·)) = some s3 →
    let r := ({ s3 with nextId := s3.nextId + a.count } : State).takeRel { a with id := s3.nextId }
    GoesOnFrom (.ld w) s { r.2 with pend := r.2.pend ++ r.1.elements } sid w) ∧
  (∀ u, Goes 0x90 w s sid → w.fn ≠ 1 → s.oneRead 0x90 w st = true → s1.accept acc = (s2, .ok a) → s2.prepShared st [s2.st sid] ((List.range n).map (d + ·)) = some u →
    let g := ((List.range n).map (d + ·)).filter fun r => ((s2.rowOf st).reg r).generalTref
    GoesOnFrom (.ld w) s { u with
      nextId := u.nextId + a.count, pend := u.pend ++ ({ a with id := u.nextId, group := [sid], bundle := s2.bundle, gens := g } : Acc).elements } sid w) ∧
  (∀ s3, Goes 0xA3 w s sid → s1.accept tag = (s2, .ok a) → s2.prepDest st [d] = some s3 →
    let r := ({ s3 with nextId := s3.nextId + a.count } : State).takeRel { a with id := s3.nextId }
    GoesOnFrom (.tagld w) s { r.2 with pend := r.2.pend ++ r.1.elements } sid w)

/-- R260, R261: LDS and LDLK of an element within the allocation, in a slot that is READY, empty their destination and post the read, LDLK taking the free lock of the element; STS posts its store; STUL and UNLK of the lock the strand holds, once its earlier accesses have performed, give the lock back, STUL after storing. That STUL stores at once is the model's choice (log 45). -/
def Obligations.ScratchpadWords : Prop := ∀ w s sid s2 p o,
  let s1 := s.onWait w sid
  let st := s1.st sid
  let d := (w.d.vregs 1).headD 0
  let n := tyBytes w.ty.toNat
  let at_ := fun (u : State) (kind : AccKind) (op : Nat) => u.spadAcc st kind op w p o
  (∀ s3, Goes 0x92 w s sid → s.oneRead 0x92 w st = false → s1.spad st (s1.sea st 0x92 w) n = (s2, .ok (p, o)) → s2.spadPoison st.uid p o n = false →
    let a := { (at_ s2 .load 0x92) with acq := spadScope st p (acqOf w.fn.toNat), dest := some d }
    s2.heldByLog sid a = false → s2.prepDest st ((List.range (if wideTy w.ty.toNat then 2 else 1)).map (d + ·)) = some s3 →
    GoesOnFrom (.lds w) s { s3 with nextId := s3.nextId + a.count, pend := s3.pend ++ ({ a with id := s3.nextId } : Acc).elements } sid w) ∧
  (∀ u, Goes 0x92 w s sid → s.oneRead 0x92 w st = true → s1.spad st (s1.sea st 0x92 w) n = (s2, .ok (p, o)) → s2.spadPoison st.uid p o n = false →
    s2.heldByLog sid { (at_ s2 .load 0x92) with acq := spadScope st p (acqOf w.fn.toNat), dest := some d } = false → s2.prepShared st [s2.st sid] ((List.range (if wideTy w.ty.toNat then 2 else 1)).map (d + ·)) = some u →
    let a := { (at_ s2 .load 0x92) with
      id := u.nextId, acq := spadScope st p (acqOf w.fn.toNat), dest := some d, group := [sid], bundle := s2.bundle
      gens := ((List.range (if wideTy w.ty.toNat then 2 else 1)).map (d + ·)).filter fun r => ((s2.rowOf st).reg r).generalTref }
    GoesOnFrom (.lds w) s { u with nextId := u.nextId + a.count, pend := u.pend ++ a.elements } sid w) ∧
  (∀ s3, Goes 0x93 w s sid → s1.spad st (s1.sea st 0x93 w) n = (s2, .ok (p, o)) → s2.ownSlot st.uid p (o / 1024) = some s3 →
    let a := { (at_ s3 .store 0x93) with data := s3.storeData st { w with fn := 0 }, rel := spadScope st p (relOf w.fn.toNat) }
    let r := ({ s3 with nextId := s3.nextId + a.count } : State).takeRel { a with id := s3.nextId }
    GoesOnFrom (.sts w) s { r.2 with pend := r.2.pend ++ r.1.elements } sid w) ∧
  (∀ s3, Goes 0x94 w s sid → s1.spad st (s1.sea st 0x94 w) n = (s2, .ok (p, o)) → s2.spadPoison st.uid p o n = false →
    st.lock = none ∨ st.lock = some (lockOf p o) → s2.lockTaken st (lockOf p o) = false → s2.rankDown st.uid p = false →
    (st.lock = none → s2.lockRival st (lockOf p o) = false) → s2.await st ((List.range (Ins.loadRegs w)).map (d + ·)) = some s3 →
    let a := { (at_ s3 .load 0x94) with acq := spadScope st p (some 1), dest := some d }
    GoesOnFrom (.ldlk w) s ((({ s3 with nextId := s3.nextId + a.count, pend := s3.pend ++ ({ a with id := s3.nextId } : Acc).elements } : State).setSt sid
      fun x => { x with lock := some (lockOf p o) }).acquireCore sid ((((s3.it st.uid).lockAcqs.find? fun k => k.1 == lockOf p o).map fun k => k.2).getD 0)) sid w) ∧
  (∀ s3, Goes 0x95 w s sid → s1.spad st (s1.sea st 0x95 w) n = (s2, .ok (p, o)) → st.lock = some (lockOf p o) →
    s2.released sid (stulScope st p) = true → s2.rankDown st.uid p = false → s2.ownSlot st.uid p (o / 1024) = some s3 →
    let a := { (at_ s3 .store 0x95) with id := s3.nextId, rel := some (stulScope st p) }
    let u := ({ s3 with nextId := s3.nextId + a.count } : State).writeHome st.uid 4 (p * 2 ^ 19 + o) (leBytes n (s3.storeData st { w with fn := 0 }))
    GoesOnFrom (.stul w) s (((u.wroteAtOnce a).freeLock st (lockOf p o)).setSt sid fun x => { x with nextRel := none }) sid w) ∧
  (Goes 0x96 w s sid → s1.spad st (s1.sea st 0x96 w) 1 = (s2, .ok (p, o)) → st.lock = some (lockOf p o) → s2.released sid (lockScope st p) = true →
    GoesOnFrom (.unlk w) s (s2.freeLock st (lockOf p o)) sid w)

/-- R228, R249, R265: FENCE.acq with no log entry, no earlier read outstanding, those of I/O space aside unless its scope is system, and no tile read outstanding acquires by the previous read; FENCE.rel with an empty log leaves its scope for the next write, widened by one left before; FENCE.ar acquires once everything earlier has performed at its scope. That FENCE.acq waits for the reads before it is the model's choice (log 45). -/
def Obligations.FenceWords : Prop := ∀ w s sid,
  let s1 := s.onWait w sid
  let st := s1.st sid
  let sc := fenceScope st w
  (Goes 0xA0 w s sid → st.log = [] → (∀ a ∈ s1.pend, a.owns sid = true → a.reads = true → a.stage < 2 → a.loc ≠ 3 ∨ sc = 2 → a.id ≤ st.lastId) →
    (∀ o ∈ s1.tileOps, o.sid = sid → o.op = 0x87 ∨ o.op = 0x88 → o.id ≤ st.lastId) → GoesOnFrom (.fenceAcq w) s (s1.acquirePrev sid sc) sid w) ∧
  (Goes 0xA0 w s sid → st.log = [] → Completes (.fenceRel w) s fun t => WentOn s t sid w ∧
    (t.st sid).nextRel = some (match (s.st sid).nextRel with | some y => widerScope y sc | none => sc) ∧ t.pend = s.pend ∧ t.mem = s.mem) ∧
  (Goes 0xA0 w s sid → s1.released sid sc = true → GoesOnFrom (.fenceAr w) s (s1.acquireAll sid sc) sid w)

/-- R266, R267: WAITA reads its element at the home and parks when it holds B and the cluster's watch table has room, going on otherwise; a parked WAITA returns when its line has been written or woken, at its timeout, or at any time; WAKE marks every strand parked on its line. -/
def Obligations.WatchWords : Prop :=
  (∀ w s sid s2 a,
    let s1 := s.onWait w sid
    let st := s1.st sid
    let n := tyBytes w.ty.toNat
    let r := ({ s2 with nextId := s2.nextId + a.count } : State).watch { a with id := s2.nextId } false
    Goes 0xA1 w s sid → s1.accept { (s1.newAcc st .waita 0xA1 w (s1.ea st 0xA1 w) n) with
        data := s1.srcTy st w w.ty.toNat w.b % 2 ^ (8 * n), timeout := (s1.src st w w.d).toNat } = (s2, .ok a) →
    ({ s2 with nextId := s2.nextId + a.count } : State).mayRead { a with id := s2.nextId } = true → s2.poisonedIn a.loc a.pa a.width = false →
      exec (.waita w) s = .next (match r.2 with
        | some p => (r.1.retire sid w).setPark sid p
        | none => r.1.retire sid w)) ∧
  (∀ w s sid s2 a,
    let s1 := s.onWait w sid
    let st := s1.st sid
    Goes 0xA2 w s sid → s1.accept (s1.newAcc st .wake 0xA2 w (s1.ea st 0xA2 w) 1) = (s2, .ok a) → GoesOnFrom (.wake w) s (s2.wakeLine a) sid w) ∧
  (∀ s sid line t hit e, (s.st sid).park = .waita line t hit e → (s.strand? sid).isSome →
    let back := fun (i : Instr) => Completes i s fun u => (u.st sid).park = .none ∧ (u.st sid).pc = (s.st sid).pc
    (hit = true → back (.watchWake sid)) ∧ (∀ ns, t = some ns → ns ≤ s.nstime → back (.waitaTimeout sid)) ∧ back (.waitaSpurious sid))

/-- R228, R240, R241, R259, R369: a store that has issued performs at its core's L1 when it may, and then at its home; a read of device, host or peer memory that may perform returns; an atomic that may execute does so at its home, and its old value arrives; two packets that may merge do. Core and home as the two places of a store, one act each, are the model's choice (log 81). -/
def Obligations.AccessEvents : Prop := ∀ s a, s.pend.find? (fun x => x.id == a.id) = some a →
  (a.kind = .store → a.stage = 0 → a.homeOnly = false → s.mayReachCore a = true → exec (.storePerform a.id) s = .next (s.toCore a)) ∧
  (a.kind = .store ∨ a.kind = .tagStore → a.stage ≠ 0 ∨ a.homeOnly = true → s.mayReachHome a = true → s.peerGone a = false → s.portRefuses a = false → s.coreGone a = false →
    exec (.storePerform a.id) s = .next ((s.toHome a).settled (s.st a.sid).uid)) ∧
  (a.kind = .load ∨ a.kind = .tagLoad → a.stage = 0 → s.mayRead a = true → s.peerGone a = false → s.portRefuses a = false → s.readsPoison a = false →
    exec (.loadComplete a.id) s = .next (s.finishLoad a)) ∧
  (a.kind = .atomic → a.stage = 2 → exec (.loadComplete a.id) s = .next (((s.dropAcc a.id).answer a (loadWords a.ty a.old) false).settled (s.st a.sid).uid)) ∧
  (s.mayExecute a = true → s.peerGone a = false → s.poisonedIn a.loc a.pa a.width = false → a.loc ≠ 2 → s.portRefuses a = false →
    exec (.atomicExecute a.id none) s = .next (((s.execAtomic a a.data).dropMerged a).settled (s.st a.sid).uid)) ∧
  (∀ b, s.pend.find? (fun x => x.id == b.id) = some b → mergeable a b = true → s.mayExecute a = true → s.mayExecute b = true →
    exec (.atomicExecute a.id (some b.id)) s = .next (s.mergeAtomics a b))

-- the matrix group

/-- R206 to R209: ACLR zeroes the strand's row of an accumulator and sets its tag, ACLR.all the whole of it; AST posts the stores of the strand's row, ALD its loads; AGET empties its destination and sends it the element B mod 1,024; MWAIT goes on, acquiring at core scope, once no round holds the strand's signature for the accumulator and no operation writes it. Operations in flight that use a cleared or loaded accumulator are spoilt (R199). -/
def Obligations.AccumulatorWords : Prop := ∀ w s sid,
  let s1 := s.onWait w sid
  let st := s1.st sid
  let acc := aOf w.d
  let clear := fun (all : Bool) => (s1.setAccum st.uid st.prank acc fun a =>
    { a with
      data := if all then {} else ((List.range 32).map (32 * st.lane + ·)).foldl (fun b e => b.put (4 * e) 4 0) a.data
      int := w.ty == 0
      poison := a.poison.filter fun i => !(if all then List.range 1024 else (List.range 32).map (32 * st.lane + ·)).contains i }).spoilAcc st.uid st.prank acc
  (Goes 0x73 w s sid → s1.accSettled sid (· == acc) = true → GoesOnFrom (.aclr w) s (clear false) sid w ∧ GoesOnFrom (.aclrAll w) s (clear true) sid w) ∧
  (∀ u, Goes 0x74 w s sid → s1.accSettled sid (· == acc) = true → (s1.rank st.uid st.prank).accBusy acc = false →
    (∀ e < 32, 32 * st.lane + e ∉ (s1.accum st.uid st.prank acc).poison) →
    s1.issueParts st ((pageParts (s1.ea st 0x74 w)).map fun p =>
      { (s1.newAcc st .store 0x74 w (s1.ea st 0x74 w + BitVec.ofNat 64 p.1) p.2) with
        data := ofLeBytes (((List.range (p.2 / 4)).map fun e => (s1.accum st.uid st.prank acc).data.num (4 * (32 * st.lane + (p.1 / 4 + e))) 4).flatMap (leBytes 4)) }) = (u, .next) →
    GoesOnFrom (.ast w) s u sid w) ∧
  (∀ u, Goes 0x75 w s sid → s1.issueParts st ((pageParts (s1.ea st 0x75 w)).map fun p =>
      s1.newAcc st (.accLoad acc (32 * st.lane + p.1 / 4) (w.ty == 0)) 0x75 w (s1.ea st 0x75 w + BitVec.ofNat 64 p.1) p.2) = (u, .next) →
    GoesOnFrom (.ald w) s (u.spoilAcc st.uid st.prank acc) sid w) ∧
  (∀ s2,
    let e := (s1.src st w w.b).toNat % 1024
    let a := s1.accum st.uid st.prank (aOf w.a)
    Goes 0x76 w s sid → s1.accSettled sid (fun _ => true) = true → (s1.rank st.uid st.prank).accBusy (aOf w.a) = false → e ∉ a.poison →
    s1.prepDest st [vOf w.d] = some s2 →
    GoesOnFrom (.aget w) s { s2 with
      nextId := s2.nextId + 1
      lats := s2.lats ++ [{ id := s2.nextId, sid := sid, dest := vOf w.d, vals := [BitVec.ofNat 32 (a.data.num (4 * e) 4)] }] } sid w) ∧
  (Goes 0x77 w s sid → (∀ k ∈ (s1.it st.uid).crews, ∀ r ∈ k.rounds, r.signsFor sid (aOf w.a) = false) →
    (∀ o ∈ (s1.rank st.uid st.prank).ops, (MatWord.of (Raw.ofCode o.word)).isMma = true → o.usesAcc (aOf w.a) = false) →
    GoesOnFrom (.mwait w) s ((s1.setSt sid fun x => { x with mwait := none }).acquireCore sid (s1.rank st.uid st.prank).finAcq) sid w)

/-- R198, R199, R205: the head operation of a rank of an item that is not saved, once it is checked and its destination slot is taken, finishes: its result is written, the sticky bits and LASTCYC follow, it leaves the queue, a destination slot that turns READY is an acquire for the rank's strands, and what can start of the item's operations starts. -/
def Obligations.MatrixOpFinishes : Prop := ∀ s uid p o rest, (s.it uid).status ≠ .saved → (s.rank uid p).ops = o :: rest → o.checked = true →
  (∀ d, destSlot o.word = some d → (s.slot uid p d).state = SlotState.filling) →
    let acq := ((o.signers.filter fun g => (s.st g.sid).prank == p).map (·.acq)).foldl max 0
    let u := ({ s with nextId := s.nextId + 2 } : State).setRank uid p fun r =>
      { r.finishOp o s.nextId ((s.anyWord 1).getLsbD 0) (s.lastCyc (s.rank uid p).core o) with finAcq := max r.finAcq acq }
    exec (.matrixOpFinish uid p) s = .next (((if (destSlot o.word).any fun d => decide ((u.slot uid p d).state = .ready) then u.readyAcquire uid p acq else u).beginOps uid).settled uid)

/-- R212, R213, R274, R275, R317: SCR writes sidecar word B mod 8 of a READY slot, MSTAT the status of the strand's rank, which MSTAT.clr then clears of its sticky bits, XSTAT the word of a token or a slot, SYSR a system register; SCW stores a sidecar word. -/
def Obligations.StatusWords : Prop := ∀ w s sid,
  let s1 := s.onWait w sid
  let st := s.st sid
  let reads := fun (i : Ins → Instr) (op : Nat) (v : Word) =>
    Goes op w s sid → Room s1 sid w.d [v] (fun _ => none) 1 → Results (i w) s sid w [v] 1
  let k := (s.src st w w.b).toNat % 8
  let sl := s.slot st.uid st.prank (xOf w.a)
  (sl.state = .ready → s1.atOnce { s1.st sid with nextRel := none } = true → (∀ j ∈ sl.poison, ¬ (1024 + 4 * k ≤ j ∧ j < 1024 + 4 * k + 4)) →
    reads .scr 0x7C (BitVec.ofNat 32 (sl.side.num (4 * k) 4))) ∧
  reads .mstat 0x7D ((s.rank st.uid st.prank).mstat (s.narrowOn (s.coreOf st))) ∧
  (Goes 0x7D w s sid → Room s1 sid w.d [(s.rank st.uid st.prank).mstat (s.narrowOn (s.coreOf st))] (fun _ => none) 1 →
    Completes (.mstatClr w) s fun t => Holds t sid w.d [(s.rank st.uid st.prank).mstat (s.narrowOn (s.coreOf st))] 1 ∧ WentOn s t sid w ∧
      (t.rank st.uid st.prank).underscale = false ∧ (t.rank st.uid st.prank).sati = false) ∧
  reads .xstatToken 0xB4 (st.toks.getD (tkOf w.a) {}).word ∧
  (entryPoison ∉ sl.poison → reads .xstatSlot 0xB4 sl.word) ∧
  (∀ n, n = w.imm.toNat % 256 →
    Goes 0xC2 w s sid → Fits (if n ≥ 6 then uniformOf else generalOf) w s sid ((pairWords (s.sysReg st n)).take (sysWords n)) (sysWords n) →
      Results (.sysr w) s sid w ((pairWords (s.sysReg st n)).take (sysWords n)) (sysWords n)) ∧
  (∀ s2, sl.state = .ready → s1.atOnce (s1.st sid) = true → s1.ownSlot st.uid st.prank (xOf w.a) = some s2 → Goes 0x7B w s sid →
    let a := s2.sideAcc (s1.st sid) .store (xOf w.a) k
    let s3 : State := { s2 with nextId := s2.nextId + 1, relMarks := s2.relMarks.filter fun m => !(m.lies a.uid a.loc a.pa a.width) }
    GoesOnFrom (.scw w) s (((s3.setRank st.uid st.prank fun r =>
      { (r.spoil (xOf w.a)) with slots := r.slots.modify (xOf w.a) fun y =>
          { y with side := y.side.put (4 * k) 4 (s2.src (s1.st sid) w w.d).toNat, poison := y.poison.filter fun i => !(decide (1024 + 4 * k ≤ i ∧ i < 1024 + 4 * k + 4)) } }).wroteAtOnce a).setSt sid
        fun y => { y with nextRel := none }) sid w)

-- tile maps

/-- R142, R151, R153, R215 to R221: a word of the tile group whose descriptor is read and whose operands are accepted, and that nothing in its strand's operand log holds, posts its operation: TSCL, TOFS, TCLP, TFIL and TMAP the map they stand for, TORD the order B, TMAT the tile of a stored element or every tile, THDR, TLDE and TSTE an element, the last two once their header is checked; THDR and TLDE first empty their destination. What a read of the header at the word finds is kept for the operation: the model's choice (log 48). -/
def Obligations.TileWordsArePosted : Prop := ∀ w s sid s2 x d,
  let s1 := s.onWait w sid
  let st := s1.st sid
  let va := s1.src64 st w w.a
  let rc := s2.src64 st w w.b
  let edits := fun (i : Ins → Instr) (op : Nat) (m : ValMap) =>
    Goes op w s sid → s1.readDesc st va false = (s2, .ok (x, d)) → plainFmt d.fmt = false ∨ op = 0x83 →
      let o := { (s2.newTile st op w va x d) with mapA := BitVec.ofNat 32 m.a, mapB := BitVec.ofNat 32 m.b, mapLo := BitVec.ofNat 32 m.lo, mapHi := BitVec.ofNat 32 m.hi }
      s2.tileHeld o = false → GoesOnFrom (i w) s (s2.postTile o) sid w
  let one := s2.srcFp st w 8 w.b
  let lo := (s2.src st w w.b).toNat
  let hi := (s2.src st w w.third).toNat
  let lo16 := rnd fp32 (widenF fp16 (w.imm.toNat % 65536))
  let hi16 := rnd fp32 (widenF fp16 (w.imm.toNat / 65536))
  let q := fun (k : Nat) => (s2.src st w (w.b.plus k)).toNat
  (isFin32 one = true → edits .tscl 0x80 { ValMap.ident with a := one }) ∧
  (isFin32 one = true → edits .tofs 0x81 { ValMap.ident with b := one }) ∧
  (boundsOk lo hi = true → edits .tclp 0x82 { ValMap.ident with lo := lo, hi := hi }) ∧
  (boundsOk lo16 hi16 = true → edits .tclpImm 0x82 { ValMap.ident with lo := lo16, hi := hi16 }) ∧
  edits .tfil 0x83 { ValMap.ident with a := 0, b := one } ∧
  (isFin32 (q 0) = true → isFin32 (q 1) = true → boundsOk (q 2) (q 3) = true → edits .tmap 0x84 ⟨q 0, q 1, q 2, q 3⟩) ∧
  (Goes 0x85 w s sid → s1.readDesc st va true = (s2, .ok (x, d)) → lo ≤ 7 → s2.tileHeld { (s2.newTile st 0x85 w va x d) with data := s2.src st w w.b } = false →
    GoesOnFrom (.tord w) s (s2.postTile { (s2.newTile st 0x85 w va x d) with data := s2.src st w w.b }) sid w) ∧
  (∀ r c, Goes 0x86 w s sid → s1.readDesc st va false = (s2, .ok (x, d)) → d.stored (rc.toNat % 2 ^ 32) (rc.toNat / 2 ^ 32) = some (r, c) →
    s2.tileHeld { (s2.newTile st 0x86 w va x d) with row := r, col := c } = false →
    GoesOnFrom (.tmat w) s (s2.postTile { (s2.newTile st 0x86 w va x d) with row := r, col := c }) sid w) ∧
  (Goes 0x86 w s sid → s1.readDesc st va false = (s2, .ok (x, d)) → s2.tileHeld (s2.newTile st 0x86 w va x d) = false → GoesOnFrom (.tmatAll w) s (s2.postTile (s2.newTile st 0x86 w va x d)) sid w) ∧
  (∀ r c s3, Goes 0x87 w s sid → s1.readDesc st va false = (s2, .ok (x, d)) → d.stored (rc.toNat % 2 ^ 32) (rc.toNat / 2 ^ 32) = some (r, c) →
    let o := { (s2.newTile st 0x87 w va x d) with row := r, col := c, dest := vOf w.d, sat := Ins.sat w != 0 }
    s2.tileHeld o = false → s2.prepDest st [vOf w.d] = some s3 → GoesOnFrom (.thdr w) s (s3.postTile o) sid w) ∧
  (∀ r c s3 s4 p,
    let o := { (s2.newTile st 0x88 w va x d) with row := r, col := c, dest := vOf w.d, sat := Ins.sat w != 0, acq := if w.fn = 0 then none else some w.fn.toNat }
    Goes 0x88 w s sid → s1.readDesc st va false = (s2, .ok (x, d)) → d.stored (rc.toNat % 2 ^ 32) (rc.toNat / 2 ^ 32) = some (r, c) →
    s2.withHdr st o = (s4, .ok p) → s4.tileHeld p = false → s4.prepDest st [vOf w.d] = some s3 → GoesOnFrom (.tlde w) s (s3.postTile p) sid w) ∧
  (∀ r c s4 p,
    let o := { (s2.newTile st 0x89 w va x d) with row := r, col := c, data := s2.src st w w.d, rel := if w.fn = 0 then none else some w.fn.toNat }
    Goes 0x89 w s sid → s1.readDesc st va false = (s2, .ok (x, d)) → d.stored lo hi = some (r, c) → s2.withHdr st o = (s4, .ok p) → s4.tileHeld p = false →
    GoesOnFrom (.tste w) s (s4.postTile p) sid w) ∧
  (∀ o, s.tileOps.find? (fun y => y.id == o.id) = some o → exec (.tileViewOp o.id) s = .next (s.tileStep o))

-- the engines

/-- R270, R271, R281, R284: a CPY whose record passes every check, its slots owned and its writes released, is accepted: its token turns busy, its slots FILLING or DRAINING; the engine then goes through its chunks, and a chunk whose fault firmware has resolved is tried again. One act a chunk, and the order of what CPY looks at, are the model's choices (log 54, 55). -/
def Obligations.CopyWords : Prop :=
  (∀ w s sid s2 s3 s4 p o bs,
    let s1 := s.onWait w sid
    let st := s1.st sid
    let sl := s2.slot st.uid p (o / 1024)
    let ws : List Word := (List.range 8).map fun i => BitVec.ofNat 32 (sl.pay.num (o % 1024 + 4 * i) 4)
    let r := CpyRec.of ws
    let d := bs.map Desc.ofBytes
    let bad := r.tensor && (d.map fun d => r.unfit d).getD true
    let good := if bad then none else d
    let sys := s3.copySys (s3.ctxOf st) r good
    Goes 0xB0 w s sid → s1.spad st (s1.sea st 0xB0 w) 32 = (s2, .ok (p, o)) →
    s2.spadPoison st.uid p o 32 = false → s2.spadClear st p o 32 = true → s2.cpyChecks st r p = none → s2.copyDesc st r = (s3, .ok bs) →
    (∀ d, good = some d → r.permit = true ∨ ∀ x ∈ r.region, (r.stored d x.1 x.2).isSome) →
    (r.fromSlot = true → ∀ q < r.per, (s3.slot st.uid st.prank (r.slot + q)).state = .ready) → s3.released sid (if sys then 2 else 1) = true →
    s3.ownAll st.uid p (o / 1024 :: if r.toSlot then (List.range r.per).map (r.slot + ·) else []) = some s4 →
      GoesOnFrom (.cpy w) s (s4.acceptCopy st (tkOf w.d) o ws (bs.getD []) bad sys) sid w) ∧
  (∀ s c, s.copies.find? (fun x => x.id == c.id) = some c → exec (.copyChunkWrite c.id) s = .next (s.copyStep c)) ∧
  (∀ s c, s.copies.find? (fun x => x.id == c.id) = some c → c.faulted = true →
    exec (.copyFaultResume c.id) s = .next ((s.setCopy { c with faulted := false }).putStatus c 0))

/-- R272: MCAST and MCAST.same of a READY slot to ranks of the item other than the strand's own take the token and drain the slot; a mask of 0 only cycles the token; a delivery that finds its slot EMPTY turns it FILLING, one that finds it armed brings the source's contents, and the last one frees source and token. A delivery to a slot that refers to a template, and that deliveries to one slot come one after another, are the model's choices (log 57, 95). -/
def Obligations.MulticastWords : Prop :=
  (∀ w s sid, ∀ x ∈ [(Instr.mcast, w.b), (.mcastSame, w.a)],
    let s1 := s.onWait w sid
    let st := s1.st sid
    let tok := tkOf w.d
    let mask := w.imm.toNat % 65536
    Goes 0xB1 w s sid → bitN mask st.prank = false → mask < 2 ^ (s1.it st.uid).ranks.length →
      (mask = 0 → GoesOnFrom (x.1 w) s ((s1.takeToken sid tok 2 false).endToken sid tok 0 false 0) sid w) ∧
      (mask ≠ 0 → (s1.slot st.uid st.prank (xOf w.a)).state = .ready → s1.released sid 1 = true → ∃ u,
        u = (({ s1 with nextId := s1.nextId + 1 } : State).takeToken sid tok 2 false).setSlot st.uid st.prank (xOf w.a)
          (fun y => { y with state := .draining, owner := ({ s1 with nextId := s1.nextId + 1 } : State).ownerOf st }) ∧
        GoesOnFrom (x.1 w) s { u with mcasts := u.mcasts ++
          [{ id := s1.nextId, sid := sid, uid := st.uid, prank := st.prank, tok := tok, src := xOf w.a, dst := xOf x.2, todo := setBits 16 mask
             owner := ({ s1 with nextId := s1.nextId + 1 } : State).ownerOf st, acq := st.acqAt }] } sid w)) ∧
  (∀ s m r u, s.mcasts.find? (fun x => x.id == m.id) = some m → r ∈ m.todo → s.filledBy m r = false → s.rankDown m.uid r = false →
    (s.slot m.uid r m.dst).state = .empty → s.arriveAt m.uid r m.dst m.owner = some u →
      exec (.mcastDelivery m.id r) s = .next { u with mcasts := u.mcasts.map fun x => if x.id = m.id then { m with arrived := r :: m.arrived } else x }) ∧
  (∀ s m r, s.mcasts.find? (fun x => x.id == m.id) = some m → r ∈ m.todo → s.filledBy m r = false → s.rankDown m.uid r = false →
    (s.slot m.uid r m.dst).state ≠ .empty →
    let got := s.deliverTo m.uid r m.dst (s.slot m.uid m.prank m.src) (if r = m.prank then m.acq else 0)
    let u := got.1
    let lost := got.2
    let m' : Mcast := { m with todo := m.todo.filter fun k => k != r, arrived := m.arrived.filter fun k => k != r, dropped := m.dropped || lost }
    exec (.mcastDelivery m.id r) s = .next (if m'.todo.isEmpty then
        ((((({ u with mcasts := u.mcasts.filter fun x => x.id != m.id } : State).setSlot m.uid m.prank m.src fun x => { x with state := .ready, owner := 0x1FFF }).readyAcquire m.uid m.prank m.acq).endToken
          m.sid m.tok (if m'.dropped then 1 else 0) m'.dropped 0).settled m.uid)
      else { u with mcasts := u.mcasts.map fun x => if x.id = m.id then m' else x }))

/-- R273: XARM of an EMPTY slot with a count of 1 to 65,535 turns it FILLING with that EXPECT; a slot that is not EMPTY traps SLOT 4, a count of 0 or above 65,535 traps OOR 15. R276: XFREE of a READY slot, once the strand's own accesses to it have performed, turns it EMPTY with undefined contents. Undefined contents are free bytes (log 6); that XFREE waits for the strand's own accesses is the model's choice (log 51). -/
def Obligations.SlotWords : Prop := ∀ w s sid s2,
  let s1 := s.onWait w sid
  let st := s1.st sid
  let x := xOf w.a
  let n := (s1.src st w w.b).toNat
  (Goes 0xB3 w s sid → (s1.slot st.uid st.prank x).state = .empty → 1 ≤ n → n ≤ 65535 → s1.ownSlot st.uid st.prank x = some s2 →
    GoesOnFrom (.xarm w) s (s2.setSlot st.uid st.prank x fun y =>
      { y with state := .filling, expect := BitVec.ofNat 16 n, cerr := false, owner := s2.ownerOf st }) sid w) ∧
  (Goes 0xB3 w s sid → (s1.slot st.uid st.prank x).state ≠ .empty → Traps (.xarm w) s sid w ⟨7, 4, 0, 0⟩) ∧
  (Goes 0xB3 w s sid → (s1.slot st.uid st.prank x).state = .empty → n = 0 ∨ 65535 < n → Traps (.xarm w) s sid w ⟨8, 15, 0, 0⟩) ∧
  (Goes 0xB5 w s sid → (s1.slot st.uid st.prank x).state = .ready → s1.spadClear st st.prank (1024 * x) 1024 = true → s1.ownSlot st.uid st.prank x = some s2 →
    GoesOnFrom (.xfree w) s (s2.freeSlot st.uid st.prank x) sid w)

/-- R277, R286 to R290, R252: REDC of a block that passes its checks, whose buffers translate into one stack with room, queues it there; an idle Grinder takes its next block, whose channels enter compute mode; a slice works through elements; after the last one STATUS and the flag are written and the channels leave the mode; an activation alert counts; a refresh due in compute mode is postponed while fewer than four are, a fifth one waits until those four are made, and one due in normal mode is made with those postponed. The slices' lengths and what a page fault keeps are the model's choices (log 58, 59), as are the rows of every bank counting alike and when postponed refreshes are made (log 95). -/
def Obligations.GrinderWords : Prop :=
  (∀ w s sid s2 x s3 srcs s4 dst s5 fl,
    let s1 := s.onWait w sid
    let st := s1.st sid
    let va := s1.ea st 0xB6 w
    let bs := s2.mem.bytes x.pa 128
    let g := GrindRec.of bs
    let pages := dst ++ srcs.flatten
    let stack := stackOf ((pages.headD {}).pa)
    let q := s5.grinders.getD stack {}
    let b : GBlock := { op := g.op, n := g.n, count := g.count, srcs := srcs.map (·.map Xlat.page), dst := dst.map Xlat.page, srcOfs := g.srcs.map (· % 4096)
                        dstOfs := g.dst % 4096, flag := (fl.headD {}).pa, flagval := BitVec.ofNat 32 g.flagval, block := x.pa, ctx := s5.ctxOf st }
    Goes 0xB6 w s sid → va.toNat < 2 ^ 60 → va.toNat % 128 = 0 → s1.access sid (s1.coreOf st) (s1.ctxOf st) va { rd := true, locs := [0] } 128 = (s2, .ok x) →
    (∀ r, st.redc = some r → r.1 ≠ st.seq) → s2.released sid 1 = true → s2.ownClear st va 0 x.pa 128 = true → s2.poisonedAt x.pa 128 = false → g.refused = false →
    (s2.setSt sid fun y => { y with redc := some (st.seq, bs) }).grindAll st (g.count * grindBytes g.op) g.srcs = (s3, .ok srcs) →
    s3.grindPages st g.dst (4 * g.count) true = (s4, .ok dst) → s4.grindPages st g.flag 4 true = (s5, .ok fl) →
    (∀ y ∈ pages, y.loc = 0 ∧ stackOf y.pa = stack) → q.queue.length + (if q.running.isSome then 1 else 0) < Config.grinderBlocks →
      GoesOnFrom (.redc w) s { (s5.setSt sid fun y => { y with redc := none }) with grinders := s5.grinders.modify stack fun k => { k with queue := k.queue ++ [b] } } sid w) ∧
  (∀ s k b rest, (s.grinders.getD k {}).running = none → (s.grinders.getD k {}).queue = b :: rest →
    exec (.grinderBlockStart k) s = .next (b.channels.foldl (fun s c => s.setChannel c fun x => { x with compute := true })
      (s.setGrinder k fun _ => { queue := rest, running := some (b, 0, false) }))) ∧
  (∀ s k b done bad upto, (s.grinders.getD k {}).running = some (b, done, bad) → done < upto → upto ≤ b.count → Completes (.computeSliceEnd k upto) s fun t =>
    ∃ bad', t.grinders = s.grinders.modify k fun g => { g with running := some (b, upto, bad') }) ∧
  (∀ s k b done bad, (s.grinders.getD k {}).running = some (b, done, bad) → b.count ≤ done →
    exec (.grinderBlockDone k) s = .next (b.channels.foldl (fun s c => s.setChannel c fun x => { x with compute := false })
      (((s.writeHome 0 0 (b.block + 28) (leBytes 4 (if bad then 3 else 1))).writeHome 0 0 b.flag (leBytes 4 b.flagval.toNat)).setGrinder k fun g => { g with running := none }))) ∧
  (∀ s c x, c < 1000 → s.channels.find? (fun y => y.c == c) = some x → Completes (.activationAlert c) s fun t =>
    (t.channels.find? fun y => y.c == c) = some { x with alerts := x.alerts + 1 }) ∧
  (∀ s c x, c < 1000 → s.channels.find? (fun y => y.c == c) = some x → Completes (.refreshDue c) s fun t =>
    (t.channels.find? fun y => y.c == c) = some (if x.compute ∧ x.postponed < 4 then { x with postponed := x.postponed + 1 }
      else if x.compute then { x with postponed := 1, banks := x.banks.map fun b => { b with nextRow := (b.nextRow + x.postponed) % 8192 } }
      else { x with postponed := 0, banks := x.banks.map fun b => { b with nextRow := (b.nextRow + (x.postponed + 1)) % 8192 } }))

/-- R274, R278, R291, R292: NVSQ of an entry that is read, for a live queue of the strand's context with a free place, submits it and takes its token; a command refused at issue ends its token with CSTAT 1; a completion frees the command's place, and an abort ends every command of the queue with CSTAT 3. The layout of an entry is the NVMe base specification's, which the manual does not give (log 16). -/
def Obligations.StorageQueueWords : Prop :=
  (∀ w s sid d s2 x,
    let s1 := s.onWait w sid
    let st := s1.st sid
    let tok := tkOf w.d
    let q := (s1.src st w w.b).toNat
    let va := s1.ea st 0xB7 w
    let e := s2.mem.bytes x.pa 64
    Goes 0xB7 w s sid → q ≤ 4095 → s1.nvq q = some d → d.ctx = s1.ctxOf st → va.toNat < 2 ^ 60 → va.toNat % 64 = 0 →
    s1.ctlAccess st va { rd := true, locs := [0] } 64 = (s2, .ok x) → s2.ownClear st va x.loc x.pa 64 = true → s2.poisonedAt x.pa 64 = false →
    nvOp e ∈ [0, 1, 2, 8, 9] → s2.released sid 2 = true → d.cmds.length < d.depthm1 →
      (∀ u segs, s2.nvCheck st d e = (u, .ok segs) → GoesOnFrom (.nvsq w) s (u.nvSubmit st d tok e segs) sid w) ∧
      (∀ u c, s2.nvCheck st d e = (u, .bad c) → GoesOnFrom (.nvsq w) s ((u.takeToken sid tok 3 true).endToken sid tok 1 true c) sid w)) ∧
  (∀ s q d c status data, s.nvqs.find? (fun x => x.q == q) = some d → d.cmds.find? (fun x => x.cid == c.cid) = some c →
    data.length ≤ (if nvOp c.entry = 2 then nvLen c.entry d.lbash else 0) → (status = 0 → data.length = if nvOp c.entry = 2 then nvLen c.entry d.lbash else 0) →
    Completes (.nvmeCompletion q c.cid status data) s fun t =>
      ∃ d', t.nvqs.find? (fun x => x.q == q) = some d' ∧ d'.cmds = d.cmds.filter (fun x => x.cid != c.cid) ∧ d'.head = (d.head + 1) % (d.depthm1 + 1)) ∧
  (∀ s q d, s.nvq q = some d →
    exec (.nvmeQueueAbort q) s = .next (d.cmds.foldl (fun s c => s.nvToken c 3 0) (s.setNvq q fun x => { x with live := false, cmds := [] })))

-- system registers and pages

/-- R315, R317: SYSW of a register the context's SYSWEN allows writes it: TINFO or TRPC of the strand, or RCTO or PDEAD of its context when A lies in 1..1,000,000; at an NMU one to a register of a strand is ignored; R311: an invalidation whose translations are idle drops every TLB entry of the context whose page meets the range. When an invalidation counts as idle is the model's choice (log 61). -/
def Obligations.SystemWords : Prop :=
  (∀ w s sid,
    let s1 := s.onWait w sid
    let st := s1.st sid
    let n := w.imm.toNat % 256
    let a := s1.src st w w.a
    Goes 0xC3 w s sid → (n < 6 → st.isFrame = true → GoesOnFrom (.sysw w) s s1 sid w) ∧ (s1.sysWritable st n = true →
      (n = 1 → st.isFrame = false → Completes (.sysw w) s fun t => WentOn s t sid w ∧ (t.st sid).tr = { (s.st sid).tr with tinfo := a }) ∧
      (n = 2 → st.isFrame = false → Completes (.sysw w) s fun t => WentOn s t sid w ∧ (t.st sid).tr = { (s.st sid).tr with trpc := s1.src64 st w w.a }) ∧
      (n = 7 → 1 ≤ a.toNat → a.toNat ≤ 1000000 → GoesOnFrom (.sysw w) s (s1.setCtx (s1.ctxOf st) fun c => { c with rcto := a }) sid w) ∧
      (n = 8 → 1 ≤ a.toNat → a.toNat ≤ 1000000 → GoesOnFrom (.sysw w) s (s1.setCtx (s1.ctxOf st) fun c => { c with pdead := a }) sid w))) ∧
  (∀ s ctx range, s.translatedBusy ctx range = false → Completes (.tlbInvalidate ctx range) s fun t =>
    (∀ e ∈ t.tlb, e ∈ s.tlb) ∧ (∀ e ∈ s.tlb, e.ctx ≠ ctx → e ∈ t.tlb) ∧ ∀ e ∈ t.tlb, e.ctx = ctx → inRange range e.covers.1 (e.covers.2 - e.covers.1) = false)

/-- R305, R255, R325: firmware that services a page stores the entry, changing no other byte of memory, and lets every strand that waits at its word for a page try again there; one that declines a page still missing gives the waiting strand its PROT, at once or, for a word with a tile, as it issues again, or the log entry, tile operation or copy its fault. That only a page still missing is declined is the model's choice (log 62). -/
def Obligations.PageService : Prop :=
  (∀ s pa entry, pa % 8 = 0 → pa + 8 ≤ Config.memTop → Completes (.pageServiceComplete pa entry) s fun t =>
    (Canonical s → t.mem.num pa 8 = entry.toNat ∧ ∀ a, a < pa ∨ pa + 8 ≤ a → t.mem.get a = s.mem.get a) ∧
    (∀ sid va wr f, (s.st sid).park = .page va wr f ∨ (s.st sid).park = .tile va wr → t.st sid = { s.st sid with park := .none }) ∧
    ∀ st ∈ t.strands, ∀ va wr f, st.park ≠ .page va wr f ∧ st.park ≠ .tile va wr) ∧
  (∀ s sid va wr f t, (s.st sid).park = .page va wr f → s.declined (s.ctxOf (s.st sid)) va wr f = some t →
    exec (.pageDecline (.word sid)) s = .next ((s.setPark sid .none).trap sid t)) ∧
  (∀ s sid va wr t, (s.st sid).park = .tile va wr → s.declined (s.ctxOf (s.st sid)) va wr false = some t →
    exec (.pageDecline (.word sid)) s = .next ((s.setPark sid .none).setSt sid fun x => { x with refused := some (x.seq, t) })) ∧
  (∀ s sid id e t, (s.st sid).log.find? (fun e => e.acc.id == id && e.trap.cls == 4) = some e → s.declined e.acc.ctx e.acc.va e.acc.need.wr false = some t →
    exec (.pageDecline (.entry sid id)) s = .next (s.setEntryTrap sid id t)) ∧
  (∀ s o va wr t, s.tileOps.find? (fun x => x.id == o.id) = some o → o.want = some (va, wr) → s.declined o.ctx va wr false = some t →
    exec (.pageDecline (.tile o.id)) s = .next (s.tileFault o t)) ∧
  (∀ s c, s.copies.find? (fun x => x.id == c.id) = some c → c.faulted = true → exec (.pageDecline (.copy c.id)) s = .next (s.endCopy c 3))

-- recovery

/-- R322: delivering a precise trap to a strand that is in no handler, of a kernel with a trap handler, writes TCODE, TINFO, TRPC, TRET, FAULTVA and FAULTRS, and the strand is in its trap handler at CODE + TRAPOFS; its predicates, return stack and tokens, and every item with all its registers, are left as they stand. -/
def Obligations.TrapEntry : Prop := ∀ s sid tr,
  let st := s.st sid
  let k := (s.it st.uid).kernel
  Placed s sid → st.isFrame = false → st.traph = false → st.phase = .run → k.trapofs ≠ 0 →
    let t := s.trap sid tr
    (t.st sid).tr = { tcode := BitVec.ofNat 32 tr.cls, tinfo := BitVec.ofNat 32 tr.code, trpc := st.pc, tret := 0, faultva := tr.fva, faultrs := tr.frs } ∧
    (t.st sid).traph = true ∧ (t.st sid).pc = k.code + BitVec.ofNat 64 k.trapofs ∧
    (t.st sid).preds = st.preds ∧ (t.st sid).rstk = st.rstk ∧ (t.st sid).toks = st.toks ∧ t.items = s.items ∧ t.mem = s.mem

/-- R328, R331, R339: TRAP traps with class TRAP and its code. BPT waits for firmware, and an NMU's frame traps. CSAVE copies the registers of its mask as they stand; CREST restores them in the strand's lane; PDONE parks the strand until the save. Outside their handlers the last three trap STACK 8, 9 and 6. -/
def Obligations.HandlerWords : Prop := ∀ w s sid,
  let s1 := s.onWait w sid
  let st := s1.st sid
  let n := w.imm.toNat % 256
  (Goes 0xC0 w s sid → Traps (.trap w) s sid w ⟨0x11, n, 0, 0⟩) ∧
  (Goes 0xC1 w s sid → st.isFrame = true → Traps (.bpt w) s sid w ⟨0x10, n, 0, 0⟩) ∧
  (Goes 0xC1 w s sid → st.isFrame = false → exec (.bpt w) s = .next (s1.setPark sid (.bpt n))) ∧
  (Goes 0xC4 w s sid → st.phase = .preempt → Completes (.csave w) s fun t => WentOn s t sid w ∧
    ∀ i ∈ maskRegs w, (t.st sid).csaved.find? (fun x => x.1 == i) = some (i, s.vreg (s.st sid) i, s.isEmpty (s.st sid) i, s.isPoisoned (s.st sid) i)) ∧
  (Goes 0xC4 w s sid → st.phase ≠ .preempt → Traps (.csave w) s sid w ⟨0x0F, 8, 0, 0⟩) ∧
  (Goes 0xC5 w s sid → st.phase = .resume → (s1.restoreRegs st (maskRegs w)).isSome → Completes (.crest w) s fun t => WentOn s t sid w ∧
    ∀ i ∈ maskRegs w, ((t.rowOf (t.st sid)).reg i).laneOf (s.it (s.st sid).uid).number st.lane = (s.savedRegOf (s.st sid) i).laneOf (s.it (s.st sid).uid).number st.lane) ∧
  (Goes 0xC5 w s sid → st.phase ≠ .resume → Traps (.crest w) s sid w ⟨0x0F, 9, 0, 0⟩) ∧
  (Goes 0xC6 w s sid → st.phase = .preempt → exec (.pdone w) s = .next ((s1.setPark sid .pdone).trySave (s.st sid).uid)) ∧
  (Goes 0xC6 w s sid → st.phase ≠ .preempt → exec (.pdone w) s = .next ((s1.trap sid ⟨0x0F, 6, 0, 0⟩).trySave (s.st sid).uid))

/-- R326, R327: ERET and ERET.skip with an empty log leave the trap handler at TRPC, at the unit after TRPC, or, of a deferred trap, after the units that TRET counts; with an entry left they deliver its trap again; in the resume handler they restore the registers, the trap registers and the park; in neither handler they trap STACK 7. REPLAY, once the entries it runs again have performed or failed, and REPLAY.drop write the number of entries left, which after a drop is 0; until then REPLAY stays at its word, and a drop for whose registers there is no storage parks on it with the log as it was. The waits of REPLAY, that a drop parks so and the redelivery in the resume handler are the model's choices (log 65, 66, 101), as are faults that wait for room in a full log and enter it as entries leave (log 108). -/
def Obligations.HandlerReturns : Prop := ∀ w s sid,
  let s1 := s.onWait w sid
  let st := s1.st sid
  (∀ x ∈ [(Instr.eret, false), (.eretSkip, true)], Goes 0xC7 w s sid →
    (st.traph = true → st.phase ≠ .resume → st.allFaults = [] → Completes (x.1 w) s fun t => (t.st sid).traph = false ∧
      Lands s t sid (if st.tr.tcode.getLsbD 8 then s1.afterUnits st st.tr.trpc (((List.range 32).filter st.tr.tret.getLsbD).length + 1)
        else if x.2 then s1.afterUnits st st.tr.trpc 1 else st.tr.trpc)) ∧
    (∀ f rest, st.traph = true ∨ st.phase = .resume → st.inService = false → st.allFaults = f :: rest → exec (x.1 w) s = .next (s1.redeliver sid f)) ∧
    (∀ u, st.phase = .resume → st.allFaults = [] →
      s1.restoreRegs st ((List.range (s1.it st.uid).kernel.regs).filter fun i => !st.handlerWrote.contains i) = some u → exec (x.1 w) s = .next (u.leaveResume sid)) ∧
    (st.traph = false → st.phase ≠ .resume → Traps (x.1 w) s sid w ⟨0x0F, 7, 0, 0⟩)) ∧
  (∀ u v n, s.replayOne sid = (u, true) → v = { u with bundle := [sid] } → n = BitVec.ofNat 32 (u.st sid).entries.length → Goes 0xC8 w s sid → Goes 0xC8 w v sid →
    Fits generalOf w v sid [n] 1 → Completes (.replay w) s fun t => Holds t sid w.d [n] 1 ∧ WentOn v t sid w) ∧
  (∀ u, s.replayOne sid = (u, false) → Goes 0xC8 w s sid → exec (.replay w) s = .next (({ u with bundle := [] } : State).flow sid w .stay)) ∧
  (∀ u n, s.dropLogs [sid] = (u, [sid]) → n = BitVec.ofNat 32 (u.st sid).entries.length → Goes 0xC8 w s sid → Goes 0xC8 w u sid → Fits generalOf w u sid [n] 1 →
    Completes (.replayDrop w) s fun t => Holds t sid w.d [n] 1 ∧ WentOn u t sid w ∧ (∀ e ∈ (t.st sid).log, ∃ x ∈ (s.st sid).log, x.late = true ∧ x.acc = e.acc) ∧
      ((∀ e ∈ (s.st sid).log, e.late = false) → n = 0 ∧ (t.st sid).log = [])) ∧
  (∀ u, s.dropLogs [sid] = (u, []) → Goes 0xC8 w s sid → exec (.replayDrop w) s = .next ({ u with bundle := [] } : State) ∧ (u.st sid).park = .storage ∧ (u.st sid).log = (s.st sid).log)

/-- R328, R325, R324: firmware's decision on a BPT traps the strand or, with a debugger, lets it go on after the word; the oldest fault to deliver is delivered deferred once the strand is quiet; an entry whose page is resolved runs again from the log. When a delivery begins is the model's choice (log 64). -/
def Obligations.FaultService : Prop := ∀ s sid,
  let st := s.st sid
  (∀ n, st.park = .bpt n → exec (.bptResolve sid false) s = .next ((s.setPark sid .none).trap sid ⟨0x10, n, 0, 0⟩)) ∧
  (∀ n, st.park = .bpt n → (s.ctx (s.ctxOf st)).debugger = true → exec (.bptResolve sid true) s = .next ((s.setPark sid .none).jump sid (st.pc + 12))) ∧
  (∀ f rest, (s.strand? sid).isSome → st.isFrame = false → st.exited = false → s.active st.uid = true → st.eretw = false →
    st.allFaults.filter (fun f => !f.exempt && f.trap.cls != 4) = f :: rest →
      exec (.deferredTrapDeliver sid) s = .next (if s.quiet st then s.deliverFault sid f else s.setSt sid fun x => { x with dooming := true })) ∧
  (∀ e id, st.isFrame = false → s.active st.uid = true → st.log.find? (fun e => e.acc.id == id && e.trap.cls == 4) = some e →
    exec (.logEntryReexecute sid id) s = .next (((s.reexecute sid e).1.setSt sid Strand.admitted).eretGo sid))

/-- R330, R332, R68: a pre-empted item that has handlers gets a deadline PDEAD from the request, and its one strand enters the pre-empt handler with TCODE 0x12, TINFO 0 and TRPC the PC at which it is to continue, the interrupted trap's registers kept; one without handlers is saved at once; a deadline that passes forces the save; when every item of a core waits for storage, one is evicted. When a request has no effect is the model's choice (log 63). -/
def Obligations.Preemption : Prop :=
  (∀ s uid sid,
    let st := s.st sid
    let k := (s.it uid).kernel
    Placed s sid → st.uid = uid → s.livesOf uid = [sid] → st.isFinishing = false → st.phase = .run →
    (s.it uid).status = .resident → k.preemptofs ≠ 0 → Completes (.preemptRequest (.item uid)) s fun t =>
      (t.it uid).status = .preempting (s.nstime + (s.ctx (s.it uid).ctx).pdead.toNat * 1000) false ∧ (t.st sid).tr = { tcode := 0x12, trpc := st.pc } ∧
      (t.st sid).savedTr = st.tr ∧ (t.st sid).savedTraph = st.traph ∧ (t.st sid).traph = false ∧ (t.st sid).phase = .preempt ∧
      (t.st sid).pc = k.code + BitVec.ofNat 64 k.preemptofs) ∧
  (∀ s uid, (s.item? uid).isSome → (s.it uid).status = .resident → (s.it uid).kernel.preemptofs = 0 → exec (.preemptRequest (.item uid)) s = .next (s.forceSave uid 1)) ∧
  (∀ s uid d, (s.it uid).status = .preempting d false → s.saveDue uid = false → d ≤ s.nstime →
    exec (.preemptDeadline uid) s = .next ((s.setIt uid fun it => { it with status := .preempting d true, pforced := 1 }).trySave uid)) ∧
  (∀ s core x y, x ∈ s.ranksOn core → y ∈ s.ranksOn core → x.1.uid ≠ y.1.uid →
    (∀ z ∈ s.ranksOn core, (s.it z.1.uid).status = .resident ∧ (∃ st ∈ s.strands, st.uid = z.1.uid ∧ st.isFrame = false ∧ st.park = .storage) ∧
      (z.1.uid ≠ y.1.uid → (s.it z.1.uid).order < (s.it y.1.uid).order)) → exec (.storageEvict core) s = .next (s.forceSave y.1.uid 2))

/-- R341 to R347, R354: a killed context has no item, launch or pending access left and is not live in its table, the one place in memory that changes; a cluster that is reset is down, holds no translation, and every item resident on it has ended or, where it has ranks on other clusters, runs on them until firmware ends it, until it returns; a peer that is down is recorded and no translation leads to it, and a link that comes up is recorded; the last link of a peer takes it down; an access whose response is overdue times out; an error poisons its site, and a corrected one only counts. What becomes of accesses under way and of sections without a source is the model's choice (log 68, 69), as is that an item with ranks on other clusters runs there until firmware ends it (log 100). -/
def Obligations.Containment : Prop :=
  (∀ s c, Canonical s → Completes (.contextKill c) s fun t =>
    (∀ it ∈ t.items, it.ctx ≠ c) ∧ (∀ a ∈ t.pend, a.ctx ≠ c) ∧ (∀ l ∈ t.launches, l.ctx ≠ c) ∧ (t.ctx c).live = false ∧
    ∀ a, a < s.ctxTable + 64 * c ∨ s.ctxTable + 64 * c + 64 ≤ a → t.mem.get a = s.mem.get a) ∧
  (∀ s k, k < Config.clusters → k < s.clusters.length → Completes (.clusterReset k) s fun t =>
    (t.clusters.getD k {}).down = true ∧ (∀ e ∈ t.tlb, e.cluster ≠ k) ∧ (∀ it ∈ t.items, it.status ≠ .saved → it.status = .broken ∨ ∀ r ∈ it.ranks, clusterOf r.core ≠ k) ∧
    (s.items = [] → ∀ l ∈ t.l1, clusterOf l.core ≠ k)) ∧
  (∀ s k, Completes (.clusterReturn k) s fun t => (t.clusters.getD k {}).down = false) ∧
  (∀ s p, Completes (.peerDown p) s fun t => p ∈ t.peersDown ∧ ∀ e ∈ t.tlb, ¬ (fieldN e.pte.toNat 8 2 = 1 ∧ fieldN e.pte.toNat 52 12 = p)) ∧
  (∀ s port p, port < 64 → p < 4096 → Completes (.linkUp port p) s fun t => t = { s with links := s.links.set port (some p) }) ∧
  (∀ s port p, s.links.getD port none = some p →
    let s1 : State := { s with links := s.links.set port none }
    exec (.twiganLinkDown port) s = .next (if s1.links.contains (some p) then s1 else s1.losePeer p)) ∧
  (∀ s a, s.pend.find? (fun x => x.id == a.id) = some a → a.loc = 1 ∨ a.loc = 2 ∨ a.loc = 3 → a.issued + (s.ctx a.ctx).rcto.toNat * 1000 * Config.perNs ≤ s.now →
    exec (.rtimeout a.id) s = .next (s.timeoutAcc a)) ∧
  (∀ s pa, pa < Config.memTop → Completes (.memoryError (.mem pa) false) s fun t => pa / 64 ∈ t.poison ∧ t.mem = s.mem) ∧
  (∀ s site, Completes (.memoryError site true) s fun t => t.mem = s.mem ∧ t.poison = s.poison ∧ t.items = s.items ∧
    t.corrected.find? (fun x => x.1 == s.siteCore site) = some (s.siteCore site, ((s.corrected.find? fun x => x.1 == s.siteCore site).map (·.2)).getD 0 + 1))

/-- R67, R94, R195: GEN of a register that is not general yet, with storage for it, makes it general with its values as they stand, and of a general one only goes on; a word whose result finds no storage parks its strand with nothing written, and the strand's retry brings it back to the word; the retry of a strand that owes a result writes that result where there is storage for it by then, and else leaves everything as it is; one that a pre-emption has met in its resume handler leaves that handler as storage allows; a sleep whose time has come ends. That a result which finds no storage is owed, and how a pre-emption takes a strand in its resume handler, are the model's choices (log 30, 63). -/
def Obligations.StorageWords : Prop :=
  (∀ w s sid,
    let s1 := s.onWait w sid
    let st := s1.st sid
    let d := vOf w.d
    let v := (s1.rowOf st).reg d
    let gen := fun (u : State) => u.setRow st fun row =>
      row.setReg d { (row.reg d) with shape := .general ((List.range 32).map ((row.reg d).shape.at (s1.it st.uid).number)), tref := false }
    Goes 0x64 w s sid →
      (isGeneral v.shape = true → v.tref = false → GoesOnFrom (.gen w) s s1 sid w) ∧
      (isGeneral v.shape = false ∨ v.tref = true → st.isFrame = true ∨ (s1.grow st.uid st.prank gen).isSome → Completes (.gen w) s fun t =>
        WentOn s t sid w ∧ isGeneral ((t.rowOf (t.st sid)).reg d).shape = true ∧ t.vreg (t.st sid) d = s.vreg (s.st sid) d) ∧
      (isGeneral v.shape = false ∨ v.tref = true → st.isFrame = false → s1.grow st.uid st.prank gen = none → exec (.gen w) s = .next (s1.setPark sid .storage))) ∧
  (∀ c ∈ [(Instr.iadd, 0x20, fun a b => a + b), (.isub, 0x21, fun a b => a - b), (.imul, 0x22, fun a b => a * b)], ∀ w s sid d,
    let x : Int := c.2.2 (s.srcInt (s.st sid) w w.ty.toNat w.a) (s.srcInt (s.st sid) w w.ty.toNat w.b)
    let vals := intWords w.ty.toNat (if w.sat = 1 then satInt w.ty.toNat x else wrapInt w.ty.toNat x)
    Goes c.2.1 w s sid → w.d = .v d → ¬ Fits (ruleOf c.2.1 w) w s sid vals (tyWords w) → exec (c.1 w) s = .next ((s.onWait w sid).setPark sid .storage)) ∧
  (∀ s sid, (s.st sid).owed = [] → (s.st sid).park = .storage → exec (.storageRetry sid) s =
    .next (if (s.st sid).due then s.preemptResume sid else s.setPark sid .none)) ∧
  (∀ s sid o, (s.st sid).owed = [o] → (s.st sid).due = false → Placed s sid → o.scalar = false → (∀ x ∈ s.strands, sameRow x (s.st sid) = true → (∃ y ∈ x.owed, y.id = o.id) → x = s.st sid) →
    if (s.payOne false sid o).isSome then Completes (.storageRetry sid) s fun t =>
      (∀ j < o.vals.length, t.vreg (t.st sid) (o.dest + j) = o.vals.getD j 0) ∧ (t.st sid).owed = [] ∧ (t.st sid).pc = (s.st sid).pc ∧
      (t.st sid).park = (if (s.st sid).park = .storage then .none else (s.st sid).park)
    else exec (.storageRetry sid) s = .next s) ∧
  (∀ s sid until_, (s.st sid).park = .sleep until_ → until_ ≤ s.nstime → exec (.sleepWake sid) s = .next (s.setPark sid .none))

-- the launch unit

/-- R55, R56: a launch port takes a whole packet while its queue holds fewer than 32; a whole packet written to a full queue sets OVERRUN, any other write below offset 0x80 sets MALFORMED, and a 1 written to REJECTED, OVERRUN or MALFORMED at offset 0x80 clears it; the ports are the first 16 KiB of BAR0 and the doorbells the 4 KiB after them, which a host reaches, within one port, through a port set as endpoint (R349, R350). That host accesses arrive only while such a port's link is up is the model's choice (log 75). -/
def Obligations.LaunchPorts : Prop :=
  (∀ s q bytes, bytes.length = 128 → (s.queues.getD q {}).packets.length < 32 → Completes (.launchPortWrite q 0 bytes) s fun t =>
    t = { s with queues := s.queues.modify q fun x => { x with packets := x.packets ++ [{ bytes := bytes }] } }) ∧
  (∀ s q bytes, q < s.queues.length → bytes.length = 128 → 32 ≤ (s.queues.getD q {}).packets.length → Completes (.launchPortWrite q 0 bytes) s fun t =>
    t = { s with queues := s.queues.modify q fun x => { x with overrun := true } }) ∧
  (∀ s q off bytes, bytes ≠ [] → off < 0x80 → off ≠ 0 ∨ bytes.length ≠ 128 → Completes (.launchPortWrite q off bytes) s fun t =>
    t = { s with queues := s.queues.modify q fun x => { x with malformed := true } }) ∧
  (∀ s q (v : Word), Completes (.queueStatusWrite q v) s fun t =>
    t = { s with queues := s.queues.modify q fun x =>
      { x with rejected := x.rejected && !v.getLsbD 23, overrun := x.overrun && !v.getLsbD 22, malformed := x.malformed && !v.getLsbD 21 } }) ∧
  (∀ s q (v : Word), exec (.launchPortWrite q 0x80 (leBytes 4 v.toNat)) s = exec (.queueStatusWrite q v) s) ∧
  (∀ s off bytes, s.hostUp = true → off < 0x4000 → off % 256 + bytes.length ≤ 256 → exec (.registerWrite off bytes) s = exec (.launchPortWrite (off / 256) (off % 256) bytes) s) ∧
  (∀ s n bytes, s.hostUp = true → n < 512 → exec (.registerWrite (0x4000 + 8 * n) bytes) s = exec (.doorbellWrite n bytes) s) ∧
  (∀ s off bytes, s.hostUp = true → 0x5000 ≤ off → exec (.registerWrite off bytes) s = .next s) ∧
  (∀ s off bytes, s.hostUp = false → exec (.registerWrite off bytes) s = .next s)

/-- R54, R58, R62, R73, R74, R75: the head check passes a head or rejects it, with code 0x0E where its context is not live and a counter needs it, else with 0x10; a head whose waits hold becomes eligible; an eligible head ages by whole periods; selection loads the best head or rejects it with the loader's code; a sweep starts 100 ns or more after the last and offers the cores in order to the launches in order; a regroup period ages the ready strands of a core and counts down the yields. The free order of acts and the choices of the sweep are the model's (log 1, 72, 73), as is code 0x0E for a head whose context is not live (log 99). -/
def Obligations.LaunchUnit : Prop :=
  (∀ s q p rest, (s.queues.getD q {}).packets = p :: rest → (s.queues.getD q {}).head = .unchecked →
    (s.headDead p.fields = true → exec (.queueHeadCheck q) s = .next (s.reject q 0x0E)) ∧ (s.headDead p.fields = false →
    (∀ u l a, s.headCheck p.fields = (u, .ok l a) → exec (.queueHeadCheck q) s = .next (u.setQueue q fun x => { x with head := .checked })) ∧
    (∀ u, s.headCheck p.fields = (u, .bad) → exec (.queueHeadCheck q) s = .next (u.reject q 0x10)))) ∧
  (∀ s q p rest, (s.queues.getD q {}).packets = p :: rest → (s.queues.getD q {}).head = .checked →
    s.waitOk p.fields.ctx p.fields.w0addr p.fields.w0val = true → s.waitOk p.fields.ctx p.fields.w1addr p.fields.w1val = true →
      exec (.waitSatisfied q) s = .next (s.setQueue q fun x => { x with head := .eligible s.now, aged := 0 })) ∧
  (∀ s q since, (s.queues.getD q {}).head = .eligible since → (s.queues.getD q {}).aged < (s.now - since) / agePeriod → Completes (.priorityAge q) s fun t =>
    (t.queues.getD q {}).aged = (s.queues.getD q {}).aged + 1 ∧ (t.queues.getD q {}).head = .eligible since) ∧
  (∀ s q rest pk u, s.candidates = q :: rest → (s.queues.getD q {}).headPacket = some pk →
    (∀ k args rows, s.load pk = (u, .ok k args rows) → exec .launchSelect s = .next (u.addLaunch q pk.fields k args rows)) ∧
    (∀ code, s.load pk = (u, .bad code) → exec .launchSelect s = .next (({ u with lastQueue := q } : State).reject q code))) ∧
  (∀ s, (∀ x, s.lastSweep = some x → x + 100 * Config.perNs ≤ s.now) →
    (Completes .admissionSweep s fun t => t.lastSweep = some s.now) ∧
    ((∀ la ∈ s.launches, la.prepared = true) →
      ∃ u : State, u = { s with lastSweep := some s.now } ∧ exec .admissionSweep s = .next (u.sweep (u.launchOrder.map (·.lid)) [] u.sweepCores))) ∧
  (∀ s core, Completes (.regroup core) s fun t => t.strands = s.strands.map fun st =>
    if s.coreOf st ≠ core then st
    else if st.yieldFor > 0 then { st with yieldFor := st.yieldFor - 1 }
    else if (s.readyOp st).isSome then { st with age := min 1024 (st.age + 1), satAt := if st.age + 1 = 1024 then some s.now else st.satAt }
    else st)

-- the device's surroundings

/-- R247, R349, R350, R351, R352, R308: through a port set as endpoint a host write in BAR2 changes exactly its bytes below 500 GiB of device memory and a host read brings what stands there; at 500 GiB and above the one is discarded and the other brings nothing; a doorbell write adds to its counter and a read brings it; where no such port has its link up nothing happens; a PCIe link reset changes nothing, a link change is recorded. That doorbell writes of other sizes and a link reset have no effect is the model's choice (log 75). -/
def Obligations.HostAccesses : Prop :=
  (∀ s off n bytes, Canonical s → s.hostUp = true → off < Config.memTop → n = min bytes.length (Config.memTop - off) →
    Completes (.hostBarWrite off bytes) s fun t => t.mem.bytes off n = bytes.take n ∧ ∀ a, a < off ∨ off + n ≤ a → t.mem.get a = s.mem.get a) ∧
  (∀ s off bytes, Config.memTop ≤ off → exec (.hostBarWrite off bytes) s = .next s) ∧
  (∀ s off len, s.hostUp = true → Completes (.hostBarRead off len) s fun t =>
    t.mem = s.mem ∧ t.hostRead = if off + len ≤ Config.memTop then s.mem.bytes off len else []) ∧
  (∀ s n pa bytes, Canonical s → s.hostUp = true → s.doorbellAt n = some pa → bytes.length = 8 → Completes (.doorbellWrite n bytes) s fun t =>
    t.mem.num pa 8 = (s.mem.num pa 8 + ofLeBytes bytes) % 2 ^ 64 ∧ ∀ a, a < pa ∨ pa + 8 ≤ a → t.mem.get a = s.mem.get a) ∧
  (∀ s n bytes, s.doorbellAt n = none ∨ bytes.length ≠ 8 → exec (.doorbellWrite n bytes) s = .next s) ∧
  (∀ s n, s.hostUp = true → Completes (.doorbellRead n 8) s fun t => t.mem = s.mem ∧ t.hostRead = match s.doorbellAt n with
    | some pa => s.mem.bytes pa 8
    | none => List.replicate 8 0) ∧
  (∀ s, s.hostUp = false → ∀ i ∈ [Instr.hostBarWrite, .doorbellWrite], ∀ x bytes, exec (i x bytes) s = .next s) ∧
  (∀ s x len, s.hostUp = false → exec (.hostBarRead x len) s = .next s ∧ exec (.doorbellRead x len) s = .next s) ∧
  (∀ s p, exec (.pcieLinkReset p) s = .next s) ∧
  (∀ s p up, p < s.ports.length → Completes (.pcieLinkStateChange p up) s fun t => (t.ports.getD p {}).up = up)

/-- R343, R253, R357, R358: an asserted alarm or firmware's hold narrows every core; the alarm's mode ends 100 µs after it was deasserted; a die's thermal level is recorded, and level 3 resets the device; a reset or the loss of power leaves no item, launch, access or byte of device memory, and what lies outside as it is; a compute die's reset ends the items resident on it. Empty memory after a reset (log 5), what lies outside a reset (log 70, 71) and that an alarm narrows every core in the same act (log 94) are the model's choices. -/
def Obligations.NarrowingAndResets : Prop :=
  let emptied := fun (s t : State) => t.items = [] ∧ t.strands = [] ∧ t.launches = [] ∧ t.pend = [] ∧ t.mem = [] ∧ t.boot = .off ∧ t.host = s.host ∧ t.peer = s.peer
  (∀ s, Completes .palertAssert s fun t => t.palert = some none ∧ ∀ core, t.narrowOn core = true) ∧
  (∀ s since, s.palert = some (some since) → since + 100000 * Config.perNs ≤ s.now → Completes .narrowExit s fun t => t.palert = none ∧ t.hold = s.hold) ∧
  (∀ s h, Completes (.firmwareNarrowHold h) s fun t => t.hold = h ∧ t.palert = s.palert) ∧
  (∀ s die c, die < 7 → die < s.thermal.length → thermalLevel (s.thermal.getD die 0) c < 3 → Completes (.thermalLevelChange die c) s fun t =>
    t.thermal.getD die 0 = thermalLevel (s.thermal.getD die 0) c) ∧
  (∀ s die c, die < 7 → s.thermal.getD die 0 < 3 → 115 ≤ c → Completes (.thermalLevelChange die c) s (emptied s)) ∧
  (∀ s, Completes (.deviceReset none) s (emptied s)) ∧
  (∀ s, Completes .powerLoss s (emptied s)) ∧
  (∀ s d, d < 5 → Completes (.deviceReset (some d)) s fun t =>
    (∀ it ∈ t.items, it.status ≠ .saved → ∀ r ∈ it.ranks, dieOf r.core ≠ d) ∧ (∀ e ∈ t.tlb, e.cluster / 10 ≠ d) ∧ ∀ c ∈ t.channels, c.c / 200 ≠ d) ∧
  (∀ s, Completes (.deviceReset (some 5)) s fun t => t.launches = [] ∧ t.templates = [])

/-- R318, R319, R320, R356: the ROM starts an image that verifies and extends the attestation log with its digest, and otherwise tries again; clusters are released in order, 4 µs apart, once the image runs, and each one's CLOCK starts; a running image answers each SPDM request where it came, with the SHA3-512 digest of the certificate chain, the chain, or the measurements, the log value and then each measurement in order. The layout of answers is DMTF's (log 11), the times of retries and the moment of an act are the model's (log 11, 94). -/
def Obligations.BootAndAttestation : Prop :=
  let boots := fun (i : Instr) (s : State) (port wait : Nat) => Completes i s fun t => match Config.fetchImage s.tick with
    | some (d, true) => t.boot = .started ∧ t.attest = shake256 s.attest d ∧ t.measures = s.measures ++ [d]
    | some (_, false) => t.boot = .retry port s.now ∧ t.attest = s.attest
    | none => t.boot = .retry (1 - port) (s.now + wait) ∧ t.attest = s.attest
  (∀ s, s.boot = .off → boots .bootRomStart s 0 0) ∧
  (∀ s port due, s.boot = .retry port due → due ≤ s.now → boots .bootFetchRetry s port (10 ^ 10 * Config.perNs)) ∧
  (∀ s n at_, s.boot = .started → n = (s.clusters.filter fun c => c.released.isSome).length → n < Config.clusters → releaseOrder n < s.clusters.length →
    (n = 0 → at_ = s.now) → (∀ m, n = m + 1 → ∃ x, (s.clusters.getD (releaseOrder m) {}).released = some x ∧ at_ = x + 4000 * Config.perNs) → at_ ≤ s.now →
    Completes .clusterRelease s fun t =>
      (t.clusters.getD (releaseOrder n) {}).released = some at_ ∧ ∀ k, k ≠ releaseOrder n → t.clusters.getD k {} = s.clusters.getD k {}) ∧
  (∀ s via, s.boot = .started → s.spdmVia = via → s.carries via = true →
    (Completes .getVersion s fun t => t.spdm = s.spdm ++ [(via, [0x10, 0x04, 0, 0, 0, 1, 0, 0x12])]) ∧
    (Completes .negotiateAlgorithms s fun t => ∃ bs, t.spdm = s.spdm ++ [(via, bs)] ∧ ofLeBytes ((bs.drop 8).take 4) = 2 ^ 6 ∧ ofLeBytes ((bs.drop 12).take 4) = 2 ^ 11 ∧
      ofLeBytes ((bs.drop 16).take 4) = 2 ^ 5) ∧
    (Completes .getCapabilities s fun t => ∃ bs, t.spdm = s.spdm ++ [(via, 0x12 :: 0x61 :: bs)]) ∧
    (Completes .getDigests s fun t => t.spdm = s.spdm ++ [(via, [0x12, 0x01, 0, 1] ++ sha3 Config.certChain)]) ∧
    (Completes .getCertificate s fun t => ∃ bs, t.spdm = s.spdm ++ [(via, 0x12 :: 0x02 :: bs ++ Config.certChain)]) ∧
    (∀ nonce, Completes (.challenge nonce) s fun t => ∃ bs, t.spdm = s.spdm ++ [(via, [0x12, 0x03, 0, 1] ++ sha3 Config.certChain ++ bs)]) ∧
    (Completes .getMeasurements s fun t => ∃ bs, t.spdm = s.spdm ++ [(via, [0x12, 0x60, 0, 0, BitVec.ofNat 8 (s.measures.length + 1)] ++
      (s.attest :: s.measures).zipIdx.flatMap (fun x => BitVec.ofNat 8 (x.2 + 1) :: leBytes 64 x.1.toNat) ++ bs)]))

-- the machine as a whole

/-- R20, R31, R41, R52, R80, R165, R324, R341, R366: what a strand does with a word that has no fault against it: held by the run-ahead limits it waits; its guard false it passes, and the machine goes on after the word with no effect; after a TAGST in its log, or with an acquire still to perform, a word that checks tags waits; in a frame a word the NMU excludes ships it; a busy token that it waits on or names or an empty register makes it wait, or trap EMPTY under FE; poison traps; otherwise it goes. That the run-ahead limit comes before all else (log 80), and that a word that checks tags waits for an acquire that is still to perform (log 99), are the model's choices. -/
def Obligations.WordVerdicts : Prop :=
  (∀ (s : State) (op : Nat) (w : Ins) (st : Strand),
    let busy := (List.range 8).any fun i => (w.wait.getLsbD i || namesToken op && i == tkOf w.d) && (st.toks.getD i {}).busy
    let tagWaits := s.tagsWait st op
    let r := s.reads st op w
    (s.held st op = true → s.verdict op w st = .wait) ∧
    (s.held st op = false → st.guard w.guard = false → s.verdict op w st = .pass) ∧
    (s.held st op = false → st.guard w.guard = true → tagWaits = true → s.verdict op w st = .wait) ∧
    (s.held st op = false → st.guard w.guard = true → tagWaits = false → st.isFrame = true → nmuExcluded op = true → s.verdict op w st = .ship) ∧
    (s.held st op = false → st.guard w.guard = true → tagWaits = false → (st.isFrame && nmuExcluded op) = false →
      (busy = true → s.verdict op w st = .wait) ∧
      (busy = false → (∃ i ∈ r.1, s.isEmpty st i = true) → s.verdict op w st = if w.fe then .trap ⟨2, 0, 0, 0⟩ else .wait) ∧
      (busy = false → (∀ i ∈ r.1, s.isEmpty st i = false) → (∀ i ∈ s.writes st op w, s.isEmpty st i = false) →
        ((∃ i ∈ r.1, s.isPoisoned st i = true) → s.verdict op w st = .trap ⟨0x0C, 1, 0, 0⟩) ∧
        ((∀ i ∈ r.1, s.isPoisoned st i = false) → (∀ i ∈ r.2, ((s.it st.uid).sregs.getD i {}).poison = false) → s.verdict op w st = .go)))) ∧
  (∀ (s : State) op (st : Strand), st.doomed = false → st.eretw = false → s.unsettled st = [] → s.held st op = false) ∧
  (∀ c ∈ [(Instr.bra, 0x01), (.ret, 0x05), (.exit, 0x06), (.nop, 0x07), (.iadd, 0x20), (.mov, 0x38), (.fadd, 0x40), (.ld, 0x90), (.st, 0x91), (.aadd, 0x97), (.cpy, 0xB0),
      (.trap, 0xC0), (.eret, 0xC7)], ∀ w s sid, s.bundle = [sid] → s.verdict c.2 w (s.st sid) = .pass → exec (c.1 w) s = .next (s.retire sid w))

/-- R33, R43, R45, R46, R75: a step in which one strand that may issue fetches a unit that passes the encoding check, and which neither a run-ahead limit nor a PC of the core that the bundler serves first holds, executes the decoded instruction for that strand; a step in which an event happens executes the event. A step counts, takes its act off the agenda and lets a free time pass (the model's own, log 1 and 3). -/
def Obligations.StepRunsTheDecodedInstruction : Prop :=
  (∀ s sid u bs i rest, s.nextAct = .issue [sid] → (s.begin.strand? sid).isSome → s.begin.canIssue (s.begin.st sid) = true →
    s.begin.fetchUnit (s.begin.st sid) = (u, .ok bs) → decodeWith (u.limitsOf (u.st sid)) bs = some (i, rest) →
    s.begin.behind (s.begin.st sid) (unitOp bs) = false → u.held (u.st sid) (Raw.ofCode (codeOf (if isModw (codeOf bs) then bs.drop 12 else bs))).op.toNat = false →
      step s = exec i { u with bundle := [sid] }) ∧
  (∀ s i, s.nextAct = .event i → i.word? = none → step s = exec i s.begin) ∧
  (∀ s : State, s.begin.tick = s.tick + 1 ∧ s.now ≤ s.begin.now ∧ s.begin.items = s.items ∧ s.begin.strands = s.strands ∧ s.begin.mem = s.mem)

/-- R224, R244: a state right after reset has every byte store in canonical form, with nothing listed. That nothing is listed, and reads 0, is the model's choice (log 5). -/
def Obligations.ResetIsCanonical : Prop := Canonical State.reset ∧ State.reset.mem = [] ∧ State.reset.tags = [] ∧ State.reset.host = [] ∧ State.reset.peer = [] ∧ State.reset.items = [] ∧ State.reset.strands = []

/-- Every step that answers a next state keeps device memory, its tags, host and peer memory in canonical form, from any state that has them so. -/
def Obligations.StepKeepsMemoryCanonical : Prop := ∀ s t, Canonical s → step s = .next t → Canonical t

/-- R33 to R50: decoding the encoding of a well-formed instruction word or unit, whatever bytes follow, gives that instruction back and leaves those bytes. -/
def Obligations.DecodeOfEncode : Prop := ∀ lim i rest, i.word?.isSome → i.wfWith lim = true → decodeWith lim (encode i ++ rest) = some (i, rest)

/-- R33 to R45: words that the spec writes out, from several families, decode to the instructions they stand for, among them a unit of a MODW and its FFMA. -/
def Obligations.WordsOfTheSpecDecode : Prop :=
  decodeTableWord 96 0x20100C01A000000000000001 = some (.iadd { guard := ⟨false, 1⟩, d := .v 6, a := .v 6, b := .imm .zext, imm := 1 }) ∧
  decodeTableWord 96 0x1D70500200A0000000000300 = some (.rcall { d := .v 40, a := .v 8, b := .v 20, imm := 0x300 }) ∧
  decodeTableWord 96 0x147001444000800000000000 = some (.signW { a := .c 1, fn := 1 }) ∧
  decodeTableWord 96 0x707A01813040000000000083 = some (.mma { d := .a 0, a := .x 4, b := .x 8, imm := 0x83 }) ∧
  decodeTableWord 96 0x8870504000F0400000000000 = some (.tlde { d := .v 40, a := .s 0, b := .v 30, ty := 8 }) ∧
  decodeTableWord 96 0xC27008000000000000000007 = some (.sysr { d := .v 4, imm := 7 }) ∧
  decodeTableWord 96 0xC77000000000800000000000 = some (.eretSkip { fn := 1 }) ∧
  decodeTableWord 192 (0xFE7000000001084000000000 + 0x437014008018400000000004 * 2 ^ 96) =
    some (.ffma { d := .v 10, a := .v 2, b := .v 3, ty := 8, imm := 4, modw := some ⟨0, 2, 1, false, false, false, false, true, false, 0⟩ })

/-- R163 to R167, R255: the words named here, the integer, move and floating-point words that write their result at once, change, when their strand goes at them, only their destination registers, and of their own strand the pc and the state of issue and acquiring: every other register of every live strand and s register of every item, every byte of memory, every accumulator, slot with its sidecar, round, token and unit is unchanged. A strand that acquires may drop copies that its core's L1 holds (R245), and private storage may take the place of a template's with the same values (R71). -/
def Obligations.ComputingWordsFrame : Prop :=
  ∀ c ∈ [(Instr.iadd, 0x20, tyWords), (.isub, 0x21, tyWords), (.imul, 0x22, tyWords), (.imulh, 0x23, tyWords), (.imad, 0x24, tyWords), (.imin, 0x27, tyWords), (.imax, 0x28, tyWords),
      (.and, 0x29, tyWords), (.or, 0x2A, tyWords), (.xor, 0x2B, tyWords), (.andn, 0x2C, tyWords), (.shl, 0x2D, tyWords), (.shr, 0x2E, tyWords), (.sar, 0x2F, tyWords),
      (.fadd, 0x40, fun _ => 1), (.fsub, 0x41, fun _ => 1), (.fmul, 0x42, fun _ => 1), (.ffma, 0x43, fun _ => 1), (.fmin, 0x44, fun _ => 1), (.fmax, 0x45, fun _ => 1),
      (.popc, 0x30, fun _ => 1), (.clz, 0x31, fun _ => 1), (.brev, 0x32, tyWords), (.bfx, 0x33, tyWords), (.bfi, 0x34, tyWords), (.iset, 0x35, tyWords), (.sel, 0x36, tyWords),
      (.lea, 0x37, fun _ => 2), (.mov, 0x38, tyWords), (.pack, 0x39, fun _ => 1), (.unpk, 0x3A, fun _ => 1), (.crc32c, 0x3B, fun _ => 1), (.fset, 0x46, fun _ => 1),
      (.frnd, 0x4E, fun _ => 1), (.fcls, 0x4F, fun _ => 1), (.fclsTest, 0x4F, fun _ => 1), (.hadd2, 0x50, fun _ => 1), (.hmul2, 0x51, fun _ => 1), (.hfma2, 0x52, fun _ => 1),
      (.fcvt, 0x53, tyWords), (.fdot, 0x54, fun _ => 1), (.fldx, 0x55, fun _ => 1)],
    ∀ w s sid t, Goes c.2.1 w s sid → exec (c.1 w) s = .next t → OnlyComputes s t sid ∧ OtherRegs s t sid w.d (c.2.2 w)

/-- R226, R237, R240, R263: a store that performs at its home, and an atomic that executes, of a resident item's strand, write exactly the bytes at their address: those hold the store's data, or the atomic's result on the old ones, every other byte of device, host and peer memory is as before, and no tag and no register of any item changes. Host and peer memory as stores of bytes are the model's choice (log 10). -/
def Obligations.WritesFrame : Prop := ∀ s a t, Canonical s → s.pend.find? (fun x => x.id == a.id) = some a → a.loc ≤ 2 → (s.it (s.st a.sid).uid).status = .resident →
  let others := (∀ l x, l ≤ 2 → l ≠ a.loc ∨ x < a.pa ∨ a.pa + a.width ≤ x → t.homeBytes l x 1 = s.homeBytes l x 1) ∧ t.tags = s.tags ∧ t.items = s.items
  (a.kind = .store → a.stage ≠ 0 ∨ a.homeOnly = true → s.mayReachHome a = true → s.peerGone a = false → exec (.storePerform a.id) s = .next t →
    t.homeBytes a.loc a.pa a.width = leBytes a.width a.data ∧ others) ∧
  (s.mayExecute a = true → s.peerGone a = false → s.poisonedIn a.loc a.pa a.width = false → (a.loc = 2 → Config.accepts s.tick = true) →
    a.acq ≠ some 3 → (∀ b ∈ s.pend, b.id ∈ a.merged → b.acq ≠ some 3) → exec (.atomicExecute a.id none) s = .next t →
    t.homeBytes a.loc a.pa a.width = leBytes a.width (atomicNew a.op a.ty (s.homeNum a.loc a.pa a.width) a.data a.data2) ∧ others)
end

