-- ==== Sys2Proof/Laws/State.lean ====
section
/-! SUPPORT. Laws of the accessors of the state: what each update leaves in each field, and what a strand, an item, a rank and a register read after it. -/

namespace Sys2Proof.Laws

open Sys2Proof Sys2Proof.Machine

/-- Looking a key up after an update that keeps keys. -/
theorem find_update {α : Type} (key : α → Nat) (f : α → α) (hf : ∀ x, key (f x) = key x) (a b : Nat) (l : List α) :
    (l.map fun x => if key x = a then f x else x).find? (fun x => key x == b)
      = if a = b then (l.find? fun x => key x == b).map f else l.find? fun x => key x == b := by
  induction l with
  | nil => simp
  | cons x l ih =>
    rw [List.map_cons, List.find?_cons, List.find?_cons, ih]
    by_cases hx : key x = a
    · rw [if_pos hx, hf]
      by_cases hb : (key x == b) = true
      · have hab : a = b := hx.symm.trans (by simpa using hb)
        simp only [hb, if_pos hab, Option.map_some]
      · simp only [Bool.not_eq_true] at hb
        simp only [hb]
    · rw [if_neg hx]
      by_cases hb : (key x == b) = true
      · have hab : ¬ a = b := fun h => hx ((by simpa using hb : key x = b).trans h.symm)
        simp only [hb, if_neg hab]
      · simp only [Bool.not_eq_true] at hb
        simp only [hb]

section setSt
variable (s : State) (sid : Nat) (f : Strand → Strand)

@[simp] theorem setSt_tick : (s.setSt sid f).tick = s.tick := rfl
@[simp] theorem setSt_nextId : (s.setSt sid f).nextId = s.nextId := rfl
@[simp] theorem setSt_bundle : (s.setSt sid f).bundle = s.bundle := rfl
@[simp] theorem setSt_agenda : (s.setSt sid f).agenda = s.agenda := rfl
@[simp] theorem setSt_now : (s.setSt sid f).now = s.now := rfl
@[simp] theorem setSt_items : (s.setSt sid f).items = s.items := rfl
@[simp] theorem setSt_templates : (s.setSt sid f).templates = s.templates := rfl
@[simp] theorem setSt_launches : (s.setSt sid f).launches = s.launches := rfl
@[simp] theorem setSt_queues : (s.setSt sid f).queues = s.queues := rfl
@[simp] theorem setSt_calls : (s.setSt sid f).calls = s.calls := rfl
@[simp] theorem setSt_mem : (s.setSt sid f).mem = s.mem := rfl
@[simp] theorem setSt_tags : (s.setSt sid f).tags = s.tags := rfl
@[simp] theorem setSt_poison : (s.setSt sid f).poison = s.poison := rfl
@[simp] theorem setSt_host : (s.setSt sid f).host = s.host := rfl
@[simp] theorem setSt_peer : (s.setSt sid f).peer = s.peer := rfl
@[simp] theorem setSt_pend : (s.setSt sid f).pend = s.pend := rfl
@[simp] theorem setSt_l1 : (s.setSt sid f).l1 = s.l1 := rfl
@[simp] theorem setSt_lats : (s.setSt sid f).lats = s.lats := rfl
@[simp] theorem setSt_tlb : (s.setSt sid f).tlb = s.tlb := rfl
@[simp] theorem setSt_ctxTable : (s.setSt sid f).ctxTable = s.ctxTable := rfl
@[simp] theorem setSt_debuggers : (s.setSt sid f).debuggers = s.debuggers := rfl
@[simp] theorem setSt_exits : (s.setSt sid f).exits = s.exits := rfl
@[simp] theorem setSt_reserved : (s.setSt sid f).reserved = s.reserved := rfl
@[simp] theorem setSt_baristaRead : (s.setSt sid f).baristaRead = s.baristaRead := rfl
@[simp] theorem setSt_lastRel : (s.setSt sid f).lastRel = s.lastRel := rfl
@[simp] theorem setSt_oldCode : (s.setSt sid f).oldCode = s.oldCode := rfl
@[simp] theorem setSt_channels : (s.setSt sid f).channels = s.channels := rfl
@[simp] theorem setSt_palert : (s.setSt sid f).palert = s.palert := rfl
@[simp] theorem setSt_attest : (s.setSt sid f).attest = s.attest := rfl
@[simp] theorem setSt_doorbells : (s.setSt sid f).doorbells = s.doorbells := rfl
@[simp] theorem setSt_ports : (s.setSt sid f).ports = s.ports := rfl
@[simp] theorem setSt_relMarks : (s.setSt sid f).relMarks = s.relMarks := rfl
@[simp] theorem setSt_portPage : (s.setSt sid f).portPage = s.portPage := rfl
@[simp] theorem setSt_measures : (s.setSt sid f).measures = s.measures := rfl
@[simp] theorem setSt_boot : (s.setSt sid f).boot = s.boot := rfl
@[simp] theorem setSt_spdm : (s.setSt sid f).spdm = s.spdm := rfl
@[simp] theorem setSt_spdmVia : (s.setSt sid f).spdmVia = s.spdmVia := rfl
@[simp] theorem setSt_hostRead : (s.setSt sid f).hostRead = s.hostRead := rfl
@[simp] theorem setSt_ioLog : (s.setSt sid f).ioLog = s.ioLog := rfl
@[simp] theorem setSt_links : (s.setSt sid f).links = s.links := rfl
@[simp] theorem setSt_peersDown : (s.setSt sid f).peersDown = s.peersDown := rfl
@[simp] theorem setSt_hold : (s.setSt sid f).hold = s.hold := rfl
@[simp] theorem setSt_thermal : (s.setSt sid f).thermal = s.thermal := rfl
@[simp] theorem setSt_corrected : (s.setSt sid f).corrected = s.corrected := rfl
@[simp] theorem setSt_lastQueue : (s.setSt sid f).lastQueue = s.lastQueue := rfl
@[simp] theorem setSt_lastCluster : (s.setSt sid f).lastCluster = s.lastCluster := rfl
@[simp] theorem setSt_lastSweep : (s.setSt sid f).lastSweep = s.lastSweep := rfl
@[simp] theorem setSt_tileOps : (s.setSt sid f).tileOps = s.tileOps := rfl
@[simp] theorem setSt_copies : (s.setSt sid f).copies = s.copies := rfl
@[simp] theorem setSt_mcasts : (s.setSt sid f).mcasts = s.mcasts := rfl
@[simp] theorem setSt_grinders : (s.setSt sid f).grinders = s.grinders := rfl
@[simp] theorem setSt_nvqs : (s.setSt sid f).nvqs = s.nvqs := rfl
@[simp] theorem setSt_clusters : (s.setSt sid f).clusters = s.clusters := rfl
@[simp] theorem setSt_devId : (s.setSt sid f).devId = s.devId := rfl
@[simp] theorem setSt_item? (u : Nat) : (s.setSt sid f).item? u = s.item? u := rfl
@[simp] theorem setSt_it (u : Nat) : (s.setSt sid f).it u = s.it u := rfl
@[simp] theorem setSt_rank (u p : Nat) : (s.setSt sid f).rank u p = s.rank u p := rfl
@[simp] theorem setSt_slot (u p x : Nat) : (s.setSt sid f).slot u p x = s.slot u p x := rfl
@[simp] theorem setSt_accum (u p x : Nat) : (s.setSt sid f).accum u p x = s.accum u p x := rfl
@[simp] theorem setSt_call? (c : Nat) : (s.setSt sid f).call? c = s.call? c := rfl
@[simp] theorem setSt_rowOf (st : Strand) : (s.setSt sid f).rowOf st = s.rowOf st := rfl
@[simp] theorem setSt_vreg (st : Strand) (i : Nat) : (s.setSt sid f).vreg st i = s.vreg st i := rfl
@[simp] theorem setSt_sreg (st : Strand) (i : Nat) : (s.setSt sid f).sreg st i = s.sreg st i := rfl

theorem setSt_strand? (hf : ∀ x, (f x).sid = x.sid) (b : Nat) :
    (s.setSt sid f).strand? b = if sid = b then (s.strand? b).map f else s.strand? b :=
  find_update Strand.sid f hf sid b s.strands

theorem setSt_st_same (hf : ∀ x, (f x).sid = x.sid) (h : (s.strand? sid).isSome) : (s.setSt sid f).st sid = f (s.st sid) := by
  obtain ⟨x, hx⟩ := Option.isSome_iff_exists.mp h
  simp [State.st, setSt_strand? s sid f hf, hx]

theorem setSt_st_other (hf : ∀ x, (f x).sid = x.sid) (b : Nat) (h : sid ≠ b) : (s.setSt sid f).st b = s.st b := by
  simp [State.st, setSt_strand? s sid f hf, h]

end setSt

theorem st_sid {s : State} {sid : Nat} (h : (s.strand? sid).isSome) : (s.st sid).sid = sid := by
  obtain ⟨x, hx⟩ := Option.isSome_iff_exists.mp h
  have := List.find?_some hx
  simp_all [State.st]

section setIt
variable (s : State) (uid : Nat) (f : Item → Item)

@[simp] theorem setIt_tick : (s.setIt uid f).tick = s.tick := rfl
@[simp] theorem setIt_nextId : (s.setIt uid f).nextId = s.nextId := rfl
@[simp] theorem setIt_bundle : (s.setIt uid f).bundle = s.bundle := rfl
@[simp] theorem setIt_agenda : (s.setIt uid f).agenda = s.agenda := rfl
@[simp] theorem setIt_now : (s.setIt uid f).now = s.now := rfl
@[simp] theorem setIt_strands : (s.setIt uid f).strands = s.strands := rfl
@[simp] theorem setIt_templates : (s.setIt uid f).templates = s.templates := rfl
@[simp] theorem setIt_launches : (s.setIt uid f).launches = s.launches := rfl
@[simp] theorem setIt_queues : (s.setIt uid f).queues = s.queues := rfl
@[simp] theorem setIt_calls : (s.setIt uid f).calls = s.calls := rfl
@[simp] theorem setIt_mem : (s.setIt uid f).mem = s.mem := rfl
@[simp] theorem setIt_tags : (s.setIt uid f).tags = s.tags := rfl
@[simp] theorem setIt_poison : (s.setIt uid f).poison = s.poison := rfl
@[simp] theorem setIt_host : (s.setIt uid f).host = s.host := rfl
@[simp] theorem setIt_peer : (s.setIt uid f).peer = s.peer := rfl
@[simp] theorem setIt_pend : (s.setIt uid f).pend = s.pend := rfl
@[simp] theorem setIt_l1 : (s.setIt uid f).l1 = s.l1 := rfl
@[simp] theorem setIt_lats : (s.setIt uid f).lats = s.lats := rfl
@[simp] theorem setIt_tlb : (s.setIt uid f).tlb = s.tlb := rfl
@[simp] theorem setIt_ctxTable : (s.setIt uid f).ctxTable = s.ctxTable := rfl
@[simp] theorem setIt_debuggers : (s.setIt uid f).debuggers = s.debuggers := rfl
@[simp] theorem setIt_exits : (s.setIt uid f).exits = s.exits := rfl
@[simp] theorem setIt_reserved : (s.setIt uid f).reserved = s.reserved := rfl
@[simp] theorem setIt_baristaRead : (s.setIt uid f).baristaRead = s.baristaRead := rfl
@[simp] theorem setIt_lastRel : (s.setIt uid f).lastRel = s.lastRel := rfl
@[simp] theorem setIt_oldCode : (s.setIt uid f).oldCode = s.oldCode := rfl
@[simp] theorem setIt_channels : (s.setIt uid f).channels = s.channels := rfl
@[simp] theorem setIt_palert : (s.setIt uid f).palert = s.palert := rfl
@[simp] theorem setIt_attest : (s.setIt uid f).attest = s.attest := rfl
@[simp] theorem setIt_doorbells : (s.setIt uid f).doorbells = s.doorbells := rfl
@[simp] theorem setIt_ports : (s.setIt uid f).ports = s.ports := rfl
@[simp] theorem setIt_relMarks : (s.setIt uid f).relMarks = s.relMarks := rfl
@[simp] theorem setIt_portPage : (s.setIt uid f).portPage = s.portPage := rfl
@[simp] theorem setIt_measures : (s.setIt uid f).measures = s.measures := rfl
@[simp] theorem setIt_boot : (s.setIt uid f).boot = s.boot := rfl
@[simp] theorem setIt_spdm : (s.setIt uid f).spdm = s.spdm := rfl
@[simp] theorem setIt_spdmVia : (s.setIt uid f).spdmVia = s.spdmVia := rfl
@[simp] theorem setIt_hostRead : (s.setIt uid f).hostRead = s.hostRead := rfl
@[simp] theorem setIt_ioLog : (s.setIt uid f).ioLog = s.ioLog := rfl
@[simp] theorem setIt_links : (s.setIt uid f).links = s.links := rfl
@[simp] theorem setIt_peersDown : (s.setIt uid f).peersDown = s.peersDown := rfl
@[simp] theorem setIt_hold : (s.setIt uid f).hold = s.hold := rfl
@[simp] theorem setIt_thermal : (s.setIt uid f).thermal = s.thermal := rfl
@[simp] theorem setIt_corrected : (s.setIt uid f).corrected = s.corrected := rfl
@[simp] theorem setIt_lastQueue : (s.setIt uid f).lastQueue = s.lastQueue := rfl
@[simp] theorem setIt_lastCluster : (s.setIt uid f).lastCluster = s.lastCluster := rfl
@[simp] theorem setIt_lastSweep : (s.setIt uid f).lastSweep = s.lastSweep := rfl
@[simp] theorem setIt_strand? (b : Nat) : (s.setIt uid f).strand? b = s.strand? b := rfl
@[simp] theorem setIt_st (b : Nat) : (s.setIt uid f).st b = s.st b := rfl
@[simp] theorem setIt_call? (c : Nat) : (s.setIt uid f).call? c = s.call? c := rfl

theorem setIt_item? (hf : ∀ x, (f x).uid = x.uid) (b : Nat) :
    (s.setIt uid f).item? b = if uid = b then (s.item? b).map f else s.item? b :=
  find_update Item.uid f hf uid b s.items

theorem setIt_it_same (hf : ∀ x, (f x).uid = x.uid) (h : (s.item? uid).isSome) : (s.setIt uid f).it uid = f (s.it uid) := by
  obtain ⟨x, hx⟩ := Option.isSome_iff_exists.mp h
  show ((s.setIt uid f).item? uid).getD _ = f ((s.item? uid).getD _)
  rw [setIt_item? s uid f hf, if_pos rfl, hx]; rfl

theorem setIt_it_other (hf : ∀ x, (f x).uid = x.uid) (b : Nat) (h : uid ≠ b) : (s.setIt uid f).it b = s.it b := by
  show ((s.setIt uid f).item? b).getD _ = (s.item? b).getD _
  rw [setIt_item? s uid f hf, if_neg h]

end setIt

section cut
variable (s : State) (p : Acc → Bool) (uid : Nat)

@[simp] theorem cutAccs_mem : (s.cutAccs p).mem = s.mem := rfl
@[simp] theorem cutAccs_strands : (s.cutAccs p).strands = s.strands := rfl
@[simp] theorem cutAccs_items : (s.cutAccs p).items = s.items := rfl
@[simp] theorem rehome_mem : (s.rehome uid).mem = s.mem := rfl
@[simp] theorem rehome_strands : (s.rehome uid).strands = s.strands := rfl
@[simp] theorem rehome_items : (s.rehome uid).items = s.items := rfl

/-- An access that is cut off is pending no more. -/
theorem cutAccs_gone (a : Acc) (h : p a = true) (hs : ∀ b : Acc, p { b with stage := 0 } = p b) : a ∉ (s.cutAccs p).pend := by
  intro ha
  obtain ⟨b, hb, e⟩ := List.mem_map.mp ha
  have hn : p b = false := by simpa using (List.mem_filter.mp hb).2
  split at e
  · subst e; rw [hs b, hn] at h; exact absurd h (by decide)
  · subst e; rw [hn] at h; exact absurd h (by decide)

end cut

end Sys2Proof.Laws
end

