-- ==== Sys2Proof/Laws/Regs.lean ====
section
/-! SUPPORT. Laws of registers: what a row reads after a write, and what a strand reads after a write to its destination (08 R163..R167). -/

namespace Sys2Proof.Laws

open Sys2Proof Sys2Proof.Machine Sys2Proof.Safety

theorem setAt_getD {α : Type} (l : List α) (i k : Nat) (v d : α) : (setAt l i v d).getD k d = if k = i then v else l.getD k d := by
  unfold setAt
  simp only [List.getD_eq_getElem?_getD]
  split
  · rename_i h
    rw [List.getElem?_set]
    by_cases hk : k = i
    · subst hk; simp [h]
    · simp [hk, Ne.symm hk]
  · rename_i h
    rw [List.append_assoc, List.getElem?_append]
    split
    · rename_i hk
      have : k ≠ i := by omega
      simp [this]
    · rename_i hk
      rw [List.getElem?_append]
      have hl : l[k]? = none := by simp; omega
      by_cases hk2 : k = i
      · subst hk2; simp
      · simp only [List.length_replicate, hk2, if_false, hl, Option.getD_none]
        split
        · rename_i h3; rw [List.getElem?_replicate, if_pos h3]; rfl
        · rename_i h3
          have : (k - l.length - (i - l.length)) ≠ 0 := by omega
          obtain ⟨m, hm⟩ := Nat.exists_eq_succ_of_ne_zero this
          simp [hm]

theorem setReg_reg (r : Row) (i k : Nat) (v : VReg) : (r.setReg i v).reg k = if k = i then v else r.reg k :=
  setAt_getD r.regs i k v {}

/-- Consecutive registers written one after another. -/
theorem foldReg_reg (g : Nat → VReg → VReg) (d n : Nat) (r : Row) (k : Nat) :
    ((List.range n).foldl (fun row j => row.setReg (d + j) (g j (row.reg (d + j)))) r).reg k
      = if d ≤ k ∧ k < d + n then g (k - d) (r.reg k) else r.reg k := by
  induction n with
  | zero => rw [List.range_zero, List.foldl_nil, if_neg (by omega)]
  | succ n ih =>
    rw [List.range_succ, List.foldl_append, List.foldl_cons, List.foldl_nil, setReg_reg]
    by_cases hk : k = d + n
    · subst hk
      rw [if_pos rfl, if_pos (by omega), ih, if_neg (by omega)]
      simp
    · rw [if_neg hk, ih]
      by_cases h : d ≤ k ∧ k < d + n
      · rw [if_pos h, if_pos (by omega)]
      · rw [if_neg h, if_neg (by omega)]

/-- The lane a write names reads the word, whatever shape the register takes, when a covering shape agrees with it. -/
theorem write_at (v : VReg) (item : Word) (cov : Bool) (hint : Option Shape) (L : Nat) (x : Word) (hL : L < 32)
    (hh : ∀ sh, hint = some sh → sh.at item L = x) : (v.write item cov hint [(L, x)]).shape.at item L = x := by
  unfold VReg.write
  split
  · rename_i sh hs
    split at hs
    · exact hh sh hs
    · cases hs
  · have : ((List.range 32).map fun K => match [(L, x)].find? fun y => y.1 == K with
        | some y => y.2
        | none => v.shape.at item K).getD L 0 = x := by
      rw [List.getD_eq_getElem?_getD, List.getElem?_map, List.getElem?_range hL]
      simp
    exact this

/-- What a write to a row does to its item. -/
def rowUpdate (p r : Nat) (f : Row → Row) (it : Item) : Item :=
  { it with ranks := it.ranks.modify p fun k => { k with rows := k.rows.modify r f } }

/-- What a write to its row does to a frame. -/
def frameUpdate (f : Row → Row) (x : Strand) : Strand := { x with frame := f x.frame }

theorem setRow_frame (s : State) (st : Strand) (f : Row → Row) (h : st.isFrame = true) :
    s.setRow st f = s.setSt st.sid (frameUpdate f) := if_pos h

theorem setRow_item (s : State) (st : Strand) (f : Row → Row) (h : st.isFrame = false) :
    s.setRow st f = s.setIt st.uid (rowUpdate st.prank st.row f) := by
  unfold State.setRow
  rw [h]; rfl

theorem rowOf_frame (s : State) (st : Strand) (h : st.isFrame = true) : s.rowOf st = st.frame := if_pos h

theorem rowOf_item (s : State) (st : Strand) (h : st.isFrame = false) :
    s.rowOf st = ((s.it st.uid).ranks.getD st.prank {}).rows.getD st.row {} := by
  unfold State.rowOf State.rank
  rw [h]; rfl

theorem getD_modify {α : Type} (l : List α) (i : Nat) (f : α → α) (d : α) (h : i < l.length) :
    (l.modify i f).getD i d = f (l.getD i d) := by
  simp only [List.getD_eq_getElem?_getD, List.getElem?_modify_eq, List.getElem?_eq_getElem h]
  rfl

theorem getD_modify_ne {α : Type} (l : List α) (i k : Nat) (f : α → α) (d : α) (h : i ≠ k) : (l.modify i f).getD k d = l.getD k d := by
  simp [List.getD_eq_getElem?_getD, h]

/-- The registers a strand's row reads after a write to the row; the strand itself changes in its frame alone. -/
theorem setRow_row {s : State} {sid : Nat} (hP : Placed s sid) (f : Row → Row) :
    (s.setRow (s.st sid) f).rowOf ((s.setRow (s.st sid) f).st sid) = f (s.rowOf (s.st sid)) := by
  cases hf : (s.st sid).isFrame with
  | true =>
    rw [setRow_frame s _ f hf, st_sid hP.strand, setSt_st_same s sid (frameUpdate f) (fun _ => rfl) hP.strand, rowOf_frame s _ hf]
    exact rowOf_frame _ _ hf
  | false =>
    obtain ⟨hp, hr⟩ := hP.row.resolve_left (by simp [hf])
    rw [setRow_item s _ f hf, setIt_st, rowOf_item _ _ hf, rowOf_item _ _ hf, setIt_it_same s _ (rowUpdate (s.st sid).prank (s.st sid).row f) (fun _ => rfl) hP.item]
    have e : ((rowUpdate (s.st sid).prank (s.st sid).row f (s.it (s.st sid).uid)).ranks.getD (s.st sid).prank {}) =
        { (s.rank (s.st sid).uid (s.st sid).prank) with rows := (s.rank (s.st sid).uid (s.st sid).prank).rows.modify (s.st sid).row f } :=
      getD_modify _ _ _ _ hp
    rw [e]
    exact getD_modify _ _ _ _ hr

/-- A strand that a register write leaves as it was, but for a frame's own row and what its handler has written or copied. -/
def Kept (x y : Strand) : Prop := y = { x with frame := y.frame, handlerWrote := y.handlerWrote, csaved := y.csaved }

theorem Kept.refl (x : Strand) : Kept x x := rfl

theorem Kept.pc {x y : Strand} (h : Kept x y) : y.pc = x.pc := by rw [h]
theorem Kept.seq {x y : Strand} (h : Kept x y) : y.seq = x.seq := by rw [h]
theorem Kept.uid {x y : Strand} (h : Kept x y) : y.uid = x.uid := by rw [h]
theorem Kept.lane {x y : Strand} (h : Kept x y) : y.lane = x.lane := by rw [h]

theorem setRow_kept {s : State} {sid : Nat} (hP : Placed s sid) (f : Row → Row) :
    Kept (s.st sid) ((s.setRow (s.st sid) f).st sid) := by
  cases hf : (s.st sid).isFrame with
  | true =>
    rw [setRow_frame s _ f hf, st_sid hP.strand, setSt_st_same s sid (frameUpdate f) (fun _ => rfl) hP.strand]
    rfl
  | false => rw [setRow_item s _ f hf]; rfl

theorem setRow_strand {s : State} {sid : Nat} (hP : Placed s sid) (f : Row → Row) :
    ((s.setRow (s.st sid) f).strand? sid).isSome := by
  cases hf : (s.st sid).isFrame with
  | true =>
    rw [setRow_frame s _ f hf, st_sid hP.strand, setSt_strand? s sid (frameUpdate f) (fun _ => rfl), if_pos rfl]
    simpa using hP.strand
  | false => rw [setRow_item s _ f hf]; exact hP.strand

/-- An update of items that keeps their numbers leaves ITEM as it was (R191). -/
theorem setIt_number (s : State) (uid u : Nat) (f : Item → Item) (hf : ∀ x, (f x).uid = x.uid) (hn : ∀ x, (f x).number = x.number) :
    ((s.setIt uid f).it u).number = (s.it u).number := by
  show (((s.setIt uid f).item? u).getD _).number = ((s.item? u).getD _).number
  rw [setIt_item? s uid f hf]
  split
  · cases s.item? u with
    | none => rfl
    | some x => exact hn x
  · rfl

theorem setRow_number (s : State) (st : Strand) (f : Row → Row) (u : Nat) : ((s.setRow st f).it u).number = (s.it u).number := by
  cases hf : st.isFrame with
  | true => rw [setRow_frame s _ f hf]; rfl
  | false =>
    rw [setRow_item s _ f hf]
    exact setIt_number s st.uid u (rowUpdate st.prank st.row f) (fun _ => rfl) (fun _ => rfl)

/-- What one strand's write notes about its handler (R326, R331). -/
def noteWrite (d n : Nat) (vals : List Word) (st : Strand) (s : State) : State :=
  match st.phase with
  | .resume => s.setSt st.sid fun y => { y with handlerWrote := (List.range n).map (d + ·) ++ y.handlerWrote }
  | .preempt => s.setSt st.sid fun y => { y with csaved := fillCopies y.csaved d n vals }
  | .run => s

theorem noteWrite_rowOf (d n : Nat) (vals : List Word) (st x : Strand) (s : State) : (noteWrite d n vals st s).rowOf x = s.rowOf x := by
  unfold noteWrite; split <;> rfl

theorem noteWrite_it (d n : Nat) (vals : List Word) (st : Strand) (s : State) (u : Nat) : (noteWrite d n vals st s).it u = s.it u := by
  unfold noteWrite; split <;> rfl

theorem noteWrite_strand (d n : Nat) (vals : List Word) (st : Strand) (s : State) (h : (s.strand? st.sid).isSome) :
    ((noteWrite d n vals st s).strand? st.sid).isSome := by
  unfold noteWrite
  split
  · rw [setSt_strand? s st.sid (fun y => { y with handlerWrote := (List.range n).map (d + ·) ++ y.handlerWrote }) (fun _ => rfl), if_pos rfl]
    simpa using h
  · rw [setSt_strand? s st.sid (fun y => { y with csaved := fillCopies y.csaved d n vals }) (fun _ => rfl), if_pos rfl]
    simpa using h
  · exact h

theorem noteWrite_kept (d n : Nat) (vals : List Word) (st : Strand) (s : State) (h : (s.strand? st.sid).isSome) :
    Kept (s.st st.sid) ((noteWrite d n vals st s).st st.sid) ∧ ((noteWrite d n vals st s).st st.sid).frame = (s.st st.sid).frame := by
  unfold noteWrite
  split
  · rw [setSt_st_same s st.sid (fun y => { y with handlerWrote := (List.range n).map (d + ·) ++ y.handlerWrote }) (fun _ => rfl) h]
    exact ⟨rfl, rfl⟩
  · rw [setSt_st_same s st.sid (fun y => { y with csaved := fillCopies y.csaved d n vals }) (fun _ => rfl) h]
    exact ⟨rfl, rfl⟩
  · exact ⟨rfl, rfl⟩

theorem rowOf_kept (s : State) {x y : Strand} (h : Kept x y) (hf : y.frame = x.frame) : s.rowOf y = s.rowOf x := by
  rw [h]
  have : ∀ a b c, State.rowOf s { x with frame := a, handlerWrote := b, csaved := c } = if x.isFrame then a else s.rowOf x := by
    intro a b c
    unfold State.rowOf
    cases hx : x.isFrame with
    | true => rw [if_pos (show Strand.isFrame { x with frame := a, handlerWrote := b, csaved := c } = true from hx)]; rfl
    | false =>
      rw [if_neg (show ¬ Strand.isFrame { x with frame := a, handlerWrote := b, csaved := c } = true by rw [show Strand.isFrame { x with frame := a, handlerWrote := b, csaved := c } = false from hx]; simp)]
      simp
  rw [this, hf]
  cases hx : x.isFrame with
  | true => rw [rowOf_frame s x hx]; rfl
  | false => rfl

/-- One strand's write to consecutive registers (R71, R163, R167): they read the words in its lane, and the strand is otherwise as it was. -/
theorem writeV_spec {s : State} {sid : Nat} (hP : Placed s sid) (d n : Nat) (vals : List Word) (hint : Nat → Option Shape)
    (hh : ∀ j < n, ∀ sh, hint j = some sh →
      (sh.forFrame (s.st sid).isFrame (s.it (s.st sid).uid).number).at (s.it (s.st sid).uid).number (s.st sid).lane = vals.getD j 0) :
    let t := s.writeV (s.st sid) d [(s.st sid, vals)] hint n
    (∀ j < n, t.vreg (t.st sid) (d + j) = vals.getD j 0) ∧ Kept (s.st sid) (t.st sid) ∧ (t.strand? sid).isSome := by
  intro t
  have hsid := st_sid hP.strand
  let cov := s.covers (s.st sid) [(s.st sid).lane]
  let item := (s.it (s.st sid).uid).number
  let g : Nat → VReg → VReg := fun j v => v.write item cov ((hint j).map fun sh => sh.forFrame (s.st sid).isFrame item) [((s.st sid).lane, vals.getD j 0)]
  let F : Row → Row := fun row => (List.range n).foldl (fun row j => row.setReg (d + j) (g j (row.reg (d + j)))) row
  let t1 := s.setRow (s.st sid) F
  have ht : t = noteWrite d n vals (s.st sid) t1 := by
    show s.writeV (s.st sid) d [(s.st sid, vals)] hint n = _
    unfold State.writeV noteWrite
    simp only [List.foldl_cons, List.foldl_nil, List.map_cons, List.map_nil]
    rfl
  have h1 := setRow_kept hP F
  have hs1 : (t1.strand? (s.st sid).sid).isSome := by rw [hsid]; exact setRow_strand hP F
  have h2 := noteWrite_kept d n vals (s.st sid) t1 hs1
  rw [hsid, ← ht] at h2
  have hk : Kept (s.st sid) (t.st sid) := by
    unfold Kept at h1 h2 ⊢
    rw [h2.1, h1]
  refine ⟨fun j hj => ?_, hk, ?_⟩
  · have hr : t.rowOf (t.st sid) = F (s.rowOf (s.st sid)) := by
      rw [rowOf_kept t h2.1 h2.2, ht, noteWrite_rowOf]
      exact setRow_row hP F
    have hn : (t.it (t.st sid).uid).number = item := by
      rw [hk.uid, ht, noteWrite_it]
      exact setRow_number s (s.st sid) F _
    show ((t.rowOf (t.st sid)).reg (d + j)).shape.at (t.it (t.st sid).uid).number (t.st sid).lane = _
    rw [hr, hn, hk.lane, foldReg_reg g d n, if_pos (by omega)]
    have : d + j - d = j := by omega
    rw [this]
    apply write_at _ _ _ _ _ _ hP.lane
    intro sh hsh
    obtain ⟨sh0, h0, rfl⟩ := Option.map_eq_some_iff.mp hsh
    exact hh j hj sh0 h0
  · rw [ht]
    have := noteWrite_strand d n vals (s.st sid) t1 hs1
    rwa [hsid] at this

end Sys2Proof.Laws
end

