-- ==== Sys2Proof/Laws/Issue.lean ====
section
/-! SUPPORT. Laws of issue: what a strand that issues alone does with a word, for words that compute a result and for the others (08 R166, R167; 04 R67; 11 R255). -/

namespace Sys2Proof.Laws

open Sys2Proof Sys2Proof.Machine Sys2Proof.Safety

/-- A shape reads the same in a remote frame (R80). -/
theorem forFrame_at (fr : Bool) (sh : Shape) (item : Word) (L : Nat) (hL : L < 32) : (sh.forFrame fr item).at item L = sh.at item L := by
  unfold Shape.forFrame
  split
  · rename_i b l i
    show ((List.range 32).map fun K => (Shape.affine b l i).at item K).getD L 0 = _
    rw [List.getD_eq_getElem?_getD, List.getElem?_map, List.getElem?_range hL]
    rfl
  · rfl

/-- What an acquire writes in a strand: when it last acquired, at core scope and at device scope, and which early reads it keeps (R228, R231, R238). -/
def acqUpdate (y z : Nat) (q : List Early) (x : Strand) : Strand := { x with syncAt := y, acqAt := z, early := q }

theorem acqUpdate_none (x : Strand) : acqUpdate x.syncAt x.acqAt x.early x = x := rfl

/-- A change of a strand that only notes an acquire. -/
def OnlyAcquires (F : Strand → Strand) : Prop := ∀ x, ∃ y z q, F x = acqUpdate y z q x

theorem OnlyAcquires.sid {F : Strand → Strand} (h : OnlyAcquires F) (x : Strand) : (F x).sid = x.sid := by
  obtain ⟨y, z, q, e⟩ := h x
  rw [e]; rfl

/-- What an acquire can do to the strands and to the rest (R228). -/
theorem acquire_cases (s : State) (sid sc : Nat) :
    (∃ F, OnlyAcquires F ∧ (s.acquire sid sc).strands = (s.setSt sid F).strands) ∧
      ∃ l, s.acquire sid sc = { s with strands := (s.acquire sid sc).strands, l1 := l } := by
  unfold State.acquire State.acquireAt
  dsimp only
  split <;> exact ⟨⟨_, fun _ => ⟨_, _, _, rfl⟩, rfl⟩, _, rfl⟩

theorem onWait_cases (s : State) (w : Ins) (sid : Nat) :
    ((s.onWait w sid).strands = s.strands ∨ ∃ F, OnlyAcquires F ∧ (s.onWait w sid).strands = (s.setSt sid F).strands) ∧
      ∃ l, s.onWait w sid = { s with strands := (s.onWait w sid).strands, l1 := l } := by
  unfold State.onWait
  dsimp only
  split
  · exact ⟨.inl rfl, _, rfl⟩
  · exact ⟨.inr (acquire_cases s sid _).1, (acquire_cases s sid _).2⟩

theorem st_of_strands {s t : State} (h : t.strands = s.strands) (b : Nat) : t.st b = s.st b := by
  unfold State.st State.strand?; rw [h]

theorem strand?_of_strands {s t : State} (h : t.strands = s.strands) (b : Nat) : t.strand? b = s.strand? b := by
  unfold State.strand?; rw [h]

/-- What waiting on tokens does to a strand: when it last acquired. -/
theorem onWait_st (s : State) (w : Ins) (sid b : Nat) (h : (s.strand? b).isSome) :
    ∃ y z q, (s.onWait w sid).st b = acqUpdate y z q (s.st b) := by
  rcases (onWait_cases s w sid).1 with e | ⟨F, hF, e⟩
  · exact ⟨_, _, _, by rw [st_of_strands e]; exact (acqUpdate_none _).symm⟩
  · rw [st_of_strands e]
    by_cases hb : sid = b
    · subst hb
      obtain ⟨y, z, q, hx⟩ := hF (s.st sid)
      exact ⟨y, z, q, (setSt_st_same s sid F hF.sid h).trans hx⟩
    · exact ⟨_, _, _, (setSt_st_other s sid F hF.sid b hb).trans (acqUpdate_none _).symm⟩

theorem onWait_items (s : State) (w : Ins) (sid : Nat) : (s.onWait w sid).items = s.items := by
  obtain ⟨l, h⟩ := (onWait_cases s w sid).2
  rw [h]

theorem onWait_strand (s : State) (w : Ins) (sid b : Nat) (h : (s.strand? b).isSome) : ((s.onWait w sid).strand? b).isSome := by
  rcases (onWait_cases s w sid).1 with e | ⟨F, hF, e⟩
  · rw [strand?_of_strands e]; exact h
  · rw [strand?_of_strands e, setSt_strand? s sid F hF.sid]
    split <;> simpa using h

theorem it_of_items {s t : State} (h : t.items = s.items) (u : Nat) : t.it u = s.it u := by
  unfold State.it State.item?; rw [h]

/-- Acquiring leaves a strand where it stands. -/
theorem onWait_placed {s : State} {sid : Nat} (w : Ins) (hP : Placed s sid) : Placed (s.onWait w sid) sid := by
  obtain ⟨y, z, q, ha⟩ := onWait_st s w sid sid hP.strand
  have hi := onWait_items s w sid
  have hit := it_of_items hi
  constructor
  · exact onWait_strand s w sid sid hP.strand
  · rw [ha]; exact hP.lane
  · rw [ha]; unfold State.item?; rw [hi]; exact hP.item
  · rw [ha]
    rcases hP.row with h | h
    · exact .inl h
    · right
      unfold State.rank at h ⊢
      rw [hit]; exact h

theorem takeover_cases (s : State) (uid p : Nat) : s.takeover uid p = s ∨ ∃ a, s.takeover uid p = s.setIt uid fun it => it.taking a p := by
  unfold State.takeover
  dsimp only
  split
  · exact .inl rfl
  · exact .inr ⟨_, rfl⟩

theorem owned_rows (r : Rank) : (Rank.owned r).rows.length = r.rows.length := by simp [Rank.owned]

theorem taking_ranks (it : Item) (a : Bool) (p q : Nat) :
    (it.taking a p).ranks.length = it.ranks.length ∧ ((it.taking a p).ranks.getD q {} = it.ranks.getD q {} ∨
      (it.taking a p).ranks.getD q {} = Rank.owned (it.ranks.getD q {})) := by
  unfold Item.taking
  refine ⟨by simp, ?_⟩
  show (it.ranks.modify p Rank.owned).getD q {} = _ ∨ (it.ranks.modify p Rank.owned).getD q {} = _
  by_cases e : p = q
  · subst e
    by_cases hl : p < it.ranks.length
    · exact .inr (getD_modify it.ranks p Rank.owned {} hl)
    · left
      rw [List.getD_eq_getElem?_getD, List.getD_eq_getElem?_getD, List.getElem?_eq_none (by simpa using hl), List.getElem?_eq_none (by simpa using hl)]
  · exact .inl (getD_modify_ne _ _ _ _ _ e)

/-- A template that is taken over in place (R68) leaves a strand where it stands. -/
theorem takeover_placed {s : State} {sid : Nat} (uid p : Nat) (hP : Placed s sid) :
    Placed (s.takeover uid p) sid ∧ (s.takeover uid p).st sid = s.st sid ∧
      (∀ u, ((s.takeover uid p).it u).number = (s.it u).number) := by
  rcases takeover_cases s uid p with h | ⟨a, h⟩
  · rw [h]; exact ⟨hP, rfl, fun _ => rfl⟩
  · let F : Item → Item := fun it => it.taking a p
    rw [h]
    have hst : (s.setIt uid F).st sid = s.st sid := rfl
    refine ⟨⟨hP.strand, hP.lane, ?_, ?_⟩, rfl, fun u => setIt_number s uid u F (fun _ => rfl) (fun _ => rfl)⟩
    · rw [hst, setIt_item? s uid F (fun _ => rfl)]
      split
      · simpa using hP.item
      · exact hP.item
    · rw [hst]
      rcases hP.row with hr | ⟨hr1, hr2⟩
      · exact .inl hr
      · right
        unfold State.rank at hr2 ⊢
        by_cases e : uid = (s.st sid).uid
        · rw [← e] at hr1 hr2 ⊢
          have hi : (s.item? uid).isSome := by rw [e]; exact hP.item
          rw [setIt_it_same s uid F (fun _ => rfl) hi]
          obtain ⟨h1, h2⟩ := taking_ranks (s.it uid) a p (s.st sid).prank
          refine ⟨by rw [h1]; exact hr1, ?_⟩
          rcases h2 with h2 | h2
          · rw [h2]; exact hr2
          · rw [h2, owned_rows]; exact hr2
        · rw [setIt_it_other s uid F (fun _ => rfl) _ e]
          exact ⟨hr1, hr2⟩

/-- Two states whose strands, items and registers read the same. -/
structure SameReads (s t : State) : Prop where
  strands : t.strands = s.strands
  items : ∀ u, (t.item? u).isSome = (s.item? u).isSome
  vector : ∀ st i, t.vreg st i = s.vreg st i
  scalar : ∀ st i, t.sreg st i = s.sreg st i

theorem SameReads.refl (s : State) : SameReads s s := ⟨rfl, fun _ => rfl, fun _ _ => rfl, fun _ _ => rfl⟩

theorem SameReads.trans {s t u : State} (h1 : SameReads s t) (h2 : SameReads t u) : SameReads s u :=
  ⟨h2.strands.trans h1.strands, fun x => (h2.items x).trans (h1.items x), fun st i => (h2.vector st i).trans (h1.vector st i),
    fun st i => (h2.scalar st i).trans (h1.scalar st i)⟩

theorem getD_map {α β : Type} (l : List α) (f : α → β) (i : Nat) (d : α) : (l.map f).getD i (f d) = f (l.getD i d) := by
  simp only [List.getD_eq_getElem?_getD, List.getElem?_map]
  cases l[i]? <;> rfl

/-- A rank that owns its storage reads as before. -/
theorem owned_shape (r : Rank) (k i : Nat) : ((((Rank.owned r).rows.getD k {}).reg i).shape) = ((r.rows.getD k {}).reg i).shape := by
  let F : Row → Row := fun w => { w with regs := w.regs.map fun v => { v with tref := false } }
  have h1 : (Rank.owned r).rows.getD k {} = F (r.rows.getD k {}) := getD_map r.rows F k {}
  rw [h1]
  show (((r.rows.getD k {}).regs.map fun v : VReg => { v with tref := false }).getD i {}).shape = _
  have h2 := getD_map (r.rows.getD k {}).regs (fun v : VReg => { v with tref := false }) i {}
  exact (congrArg VReg.shape h2).trans rfl

theorem taking_shape (it : Item) (a : Bool) (p q k i : Nat) :
    (((((it.taking a p).ranks.getD q {}).rows.getD k {}).reg i).shape) = (((it.ranks.getD q {}).rows.getD k {}).reg i).shape := by
  rcases (taking_ranks it a p q).2 with h | h
  · rw [h]
  · rw [h]; exact owned_shape _ _ _

theorem taking_sreg (it : Item) (a : Bool) (p i : Nat) : ((it.taking a p).sregs.getD i {}).val = (it.sregs.getD i {}).val := by
  unfold Item.taking
  cases a
  · rfl
  · show ((List.map (fun x : Machine.SReg => { x with own := true }) it.sregs).getD i {}).val = _
    simp only [List.getD_eq_getElem?_getD, List.getElem?_map]
    cases it.sregs[i]? <;> rfl

/-- Taking a template's storage over changes nothing that a register reads (R68). -/
theorem takeover_reads (s : State) (uid p : Nat) : SameReads s (s.takeover uid p) := by
  rcases takeover_cases s uid p with h | ⟨a, h⟩
  · rw [h]; exact SameReads.refl s
  · rw [h]
    let F : Item → Item := fun it => it.taking a p
    have hit : ∀ u, (s.setIt uid F).it u = s.it u ∨ (s.setIt uid F).it u = F (s.it u) := by
      intro u
      by_cases e : uid = u
      · subst e
        by_cases hi : (s.item? uid).isSome
        · exact .inr (setIt_it_same s uid F (fun _ => rfl) hi)
        · left
          have hn : s.item? uid = none := by simpa using hi
          show ((s.setIt uid F).item? uid).getD _ = (s.item? uid).getD _
          rw [setIt_item? s uid F (fun _ => rfl), if_pos rfl, hn]; rfl
      · exact .inl (setIt_it_other s uid F (fun _ => rfl) u e)
    refine ⟨rfl, fun u => ?_, fun st i => ?_, fun st i => ?_⟩
    · show ((s.setIt uid F).item? u).isSome = _
      rw [setIt_item? s uid F (fun _ => rfl)]
      split <;> simp
    · show (s.setIt uid F).vreg st i = _
      unfold State.vreg State.rowOf State.rank
      rcases hit st.uid with e | e
      · rw [e]
      · rw [e]
        split
        · rfl
        · rw [taking_shape]; rfl
    · show (s.setIt uid F).sreg st i = _
      unfold State.sreg
      rcases hit st.uid with e | e
      · rw [e]
      · rw [e]
        exact taking_sreg _ _ _ _

theorem handover_reads (s : State) (core : Nat) (tm : Option Nat) : SameReads s (s.handover core tm) := by
  unfold State.handover
  split
  · exact SameReads.refl s
  · generalize List.filter _ _ = l
    induction l generalizing s with
    | nil => exact SameReads.refl s
    | cons x l ih => exact (takeover_reads s _ _).trans (ih _)

theorem handedOver_reads (b a : State) (uid p : Nat) : SameReads a (State.handedOver b a uid p) := by
  unfold State.handedOver
  split
  · exact handover_reads _ _ _
  · exact SameReads.refl a

/-- A change that draws storage happens, at most with a template taken over in place before it or after it (R67, R68): registers read as the change leaves them. -/
theorem grow_cases {s t : State} {uid p : Nat} {f : State → State} (h : s.grow uid p f = some t) :
    SameReads (f s) t ∨ t = f (s.takeover uid p) := by
  unfold State.grow at h
  dsimp only at h
  split at h
  · cases h
    exact .inl (handedOver_reads _ _ _ _)
  · split at h
    · exact .inr (by simpa using h.symm)
    · cases h

theorem SameReads.st {s t : State} (h : SameReads s t) (b : Nat) : t.st b = s.st b := st_of_strands h.strands b

theorem SameReads.strand? {s t : State} (h : SameReads s t) (b : Nat) : t.strand? b = s.strand? b := strand?_of_strands h.strands b

/-- What a v destination reads once it has been written (R67, R163). -/
theorem putV_spec {s t : State} {sid : Nat} (hP : Placed s sid) (d n : Nat) (vals : List Word) (hint : Nat → Option Shape)
    (hh : ∀ j < n, ∀ sh, hint j = some sh → sh.at (s.it (s.st sid).uid).number (s.st sid).lane = vals.getD j 0)
    (h : s.putV (s.st sid) d [(s.st sid, vals)] hint n = some t) :
    (∀ j < n, t.vreg (t.st sid) (d + j) = vals.getD j 0) ∧ Kept (s.st sid) (t.st sid) ∧ (t.strand? sid).isSome := by
  have hh' : ∀ (u : State), u.st sid = s.st sid → (u.it (u.st sid).uid).number = (s.it (s.st sid).uid).number → ∀ j < n, ∀ sh, hint j = some sh →
      (sh.forFrame (u.st sid).isFrame (u.it (u.st sid).uid).number).at (u.it (u.st sid).uid).number (u.st sid).lane = vals.getD j 0 := by
    intro u h1 h2 j hj sh hs
    rw [h2, h1, forFrame_at _ _ _ _ hP.lane]
    exact hh j hj sh hs
  unfold State.putV at h
  split at h
  · cases h
    exact writeV_spec hP d n vals hint (hh' s rfl rfl)
  · rcases grow_cases h with hr | rfl
    · obtain ⟨h1, h2, h3⟩ := writeV_spec hP d n vals hint (hh' s rfl rfl)
      rw [hr.st, hr.strand?]
      exact ⟨fun j hj => (hr.vector _ _).trans (h1 j hj), h2, h3⟩
    · obtain ⟨hP', hst, hnum⟩ := takeover_placed (s.st sid).uid (s.st sid).prank hP
      have := writeV_spec hP' d n vals hint (hh' _ hst (by rw [hst, hnum]))
      rw [hst] at this
      exact this

theorem foldS_spec (s : State) (uid d : Nat) (vals : List Word) (n : Nat) (hi : (s.item? uid).isSome) :
    let t := (List.range n).foldl (fun s j => s.writeS uid (d + j) (vals.getD j 0)) s
    (t.item? uid).isSome ∧ t.strands = s.strands ∧ ∀ j < n, ((t.it uid).sregs.getD (d + j) {}).val = vals.getD j 0 := by
  induction n with
  | zero => exact ⟨hi, rfl, fun j hj => absurd hj (by omega)⟩
  | succ n ih =>
    intro t
    obtain ⟨h1, h2, h3⟩ := ih
    have ht : t = ((List.range n).foldl (fun s j => s.writeS uid (d + j) (vals.getD j 0)) s).writeS uid (d + n) (vals.getD n 0) := by
      show (List.range (n + 1)).foldl _ s = _
      rw [List.range_succ, List.foldl_append]
      rfl
    rw [ht]
    let F : Item → Item := fun it => { it with sregs := setAt it.sregs (d + n) { val := vals.getD n 0 } {} }
    have hF : ∀ (u : State), u.writeS uid (d + n) (vals.getD n 0) = u.setIt uid F := fun _ => rfl
    rw [hF]
    refine ⟨?_, h2, fun j hj => ?_⟩
    · rw [setIt_item? _ uid F (fun _ => rfl), if_pos rfl]
      simpa using h1
    · rw [setIt_it_same _ uid F (fun _ => rfl) h1]
      show SReg.val (List.getD (setAt _ _ _ _) _ _) = _
      rw [setAt_getD]
      by_cases e : j = n
      · subst e; rw [if_pos rfl]
      · rw [if_neg (by omega)]; exact h3 j (by omega)

/-- What an s destination reads once it has been written (R67, R164). -/
theorem putS_spec {s t : State} {sid : Nat} (hP : Placed s sid) (d n : Nat) (vals : List Word)
    (h : s.putS (s.st sid) d vals n = some t) :
    (∀ j < n, t.sreg (t.st sid) (d + j) = vals.getD j 0) ∧ t.st sid = s.st sid ∧ (t.strand? sid).isSome := by
  unfold State.putS at h
  have key : ∀ (u : State), u.st sid = s.st sid → Placed u sid →
      let t := (List.range n).foldl (fun v j => v.writeS (s.st sid).uid (d + j) (vals.getD j 0)) u
      (∀ j < n, t.sreg (t.st sid) (d + j) = vals.getD j 0) ∧ t.st sid = s.st sid ∧ (t.strand? sid).isSome := by
    intro u hu hPu t
    have hi : (u.item? (s.st sid).uid).isSome := by rw [← hu]; exact hPu.item
    obtain ⟨-, h2, h3⟩ := foldS_spec u (s.st sid).uid d vals n hi
    have hst : t.st sid = s.st sid := by
      rw [← hu]; unfold State.st State.strand?; rw [show t.strands = u.strands from h2]
    refine ⟨fun j hj => ?_, hst, ?_⟩
    · show ((t.it (t.st sid).uid).sregs.getD (d + j) {}).val = _
      rw [hst]; exact h3 j hj
    · unfold State.strand?
      rw [show t.strands = u.strands from h2]
      exact hPu.strand
  rcases grow_cases h with hr | rfl
  · obtain ⟨h1, h2, h3⟩ := key s rfl hP
    rw [hr.st, hr.strand?]
    exact ⟨fun j hj => (hr.scalar _ _).trans (h1 j hj), h2, h3⟩
  · obtain ⟨hP', hst, -⟩ := takeover_placed (s.st sid).uid (s.st sid).prank hP
    exact key _ hst hP'

/-- The strands of a lone bundle that go at a word are the one (R166). -/
theorem goers_one {op : Nat} {w : Ins} {s : State} {sid : Nat} (hG : Goes op w s sid) (f : State → Strand → List Word) :
    s.goers op w f = [(s.st sid, f s (s.st sid))] := by
  unfold State.goers
  rw [hG.bundle]
  simp [hG.verdict]

theorem sameRow_self (st : Strand) : sameRow st st = true := by
  unfold sameRow
  split <;> simp

/-- A write does not ask when its strand last acquired. -/
theorem writeV_acq (s : State) (st : Strand) (y z : Nat) (q : List Early) (d : Nat) (vals : List Word) (hint : Nat → Option Shape) (n : Nat) :
    s.writeV st d [(st, vals)] hint n = s.writeV (acqUpdate y z q st) d [(acqUpdate y z q st, vals)] hint n := rfl

theorem putV_acq (s : State) (st : Strand) (y z : Nat) (q : List Early) (d : Nat) (vals : List Word) (hint : Nat → Option Shape) (n : Nat) :
    s.putV st d [(st, vals)] hint n = s.putV (acqUpdate y z q st) d [(acqUpdate y z q st, vals)] hint n := rfl

theorem putS_acq (s : State) (st : Strand) (y z : Nat) (q : List Early) (d : Nat) (vals : List Word) (n : Nat) :
    s.putS st d vals n = s.putS (acqUpdate y z q st) d vals n := rfl

theorem setPred_pred (st : Strand) (i : BitVec 3) (b : Bool) : (st.setPred i.toNat b).pred i.toNat = (decide (i = 7) || b) := by
  have h : i = 0 ∨ i = 1 ∨ i = 2 ∨ i = 3 ∨ i = 4 ∨ i = 5 ∨ i = 6 ∨ i = 7 := by
    revert i; decide
  have key : ∀ (p : BitVec 7), (if i.toNat ≥ 7 then true else (BitVec.ofNat 7 (maskOf 7 fun k => if k = i.toNat then b else p.getLsbD k)).getLsbD i.toNat)
      = (decide (i = 7) || b) := by
    intro p
    revert p b i
    decide +revert
  exact key st.preds

/-- A strand that goes on after a word (R45, R75). -/
theorem retire_st {t : State} {sid : Nat} (w : Ins) (h : (t.strand? sid).isSome) :
    (t.retire sid w).st sid = { (t.st sid) with pc := nextPc w (t.st sid).pc, seq := (t.st sid).seq + 1, age := 0, satAt := none } :=
  setSt_st_same t sid (fun st => { st with pc := nextPc w (t.st sid).pc, seq := st.seq + 1, age := 0, satAt := none }) (fun _ => rfl) h

/-- What a destination holds does not change as the strand goes on. -/
theorem holds_retire {t : State} {sid : Nat} (w : Ins) (d : Operand) (vals : List Word) (n : Nat) (h : (t.strand? sid).isSome)
    (hh : Holds t sid d vals n) : Holds (t.retire sid w) sid d vals n := by
  unfold Holds at *
  rw [retire_st w h]
  cases d <;> exact hh

/-- A lone strand computes a result (08 R166): its destination holds the words and it goes on by `go`. -/
theorem aluWith_spec {op : Nat} {w : Ins} {s : State} {sid : Nat} (n : Nat) (shape : State → Strand → List Word → Nat → Option Shape)
    (f : State → Strand → List Word) (go : State → Nat → List Word → State) (hG : Goes op w s sid)
    (hr : Room (s.onWait w sid) sid w.d (f s (s.st sid)) (shape s (s.st sid) (f s (s.st sid))) n)
    (hh : ∀ j < n, ∀ sh, shape s (s.st sid) (f s (s.st sid)) j = some sh →
      sh.at (s.it (s.st sid).uid).number (s.st sid).lane = (f s (s.st sid)).getD j 0) :
    ∃ t, s.aluWith op w n shape f go = go t sid (f s (s.st sid)) ∧ Holds t sid w.d (f s (s.st sid)) n ∧
      (t.st sid).pc = (s.st sid).pc ∧ (t.st sid).seq = (s.st sid).seq ∧ (t.strand? sid).isSome := by
  have hsid := st_sid hG.placed.strand
  have hP := onWait_placed w hG.placed
  obtain ⟨y, z, q, ha⟩ := onWait_st s w sid sid hG.placed.strand
  have hnum : ((s.onWait w sid).it ((s.onWait w sid).st sid).uid).number = (s.it (s.st sid).uid).number := by
    rw [ha, it_of_items (onWait_items s w sid)]; rfl
  unfold State.aluWith
  dsimp only
  rw [goers_one hG f, hG.bundle]
  simp only [List.foldl_cons, List.foldl_nil, hG.verdict]
  have hsame : List.filter (fun y : Strand × List Word => sameRow y.1 (s.st sid)) [(s.st sid, f s (s.st sid))] = [(s.st sid, f s (s.st sid))] := by
    simp [sameRow_self]
  have hrow : ∀ d : Operand, w.d = d → (∀ i, d ≠ .v i) →
      State.finishRow s (s.onWait w sid) w n shape go [(s.st sid, f s (s.st sid))] = go (s.onWait w sid) sid (f s (s.st sid)) := by
    intro d hd hv
    unfold State.finishRow
    rw [hd]
    cases d with
    | v i => exact absurd rfl (hv i)
    | _ => simp only [List.foldl_cons, List.foldl_nil, hsid]
  have hbase : (((s.onWait w sid).st sid).pc = (s.st sid).pc ∧ ((s.onWait w sid).st sid).seq = (s.st sid).seq ∧ ((s.onWait w sid).strand? sid).isSome) := by
    rw [ha]; exact ⟨rfl, rfl, hP.strand⟩
  have hother : ∀ d : Operand, w.d = d → (∀ i, d ≠ .v i) → (∀ i, d ≠ .s i) → (∀ i, d ≠ .p i) → Holds (s.onWait w sid) sid d (f s (s.st sid)) n := by
    intro d _ h1 h2 h3
    cases d with
    | v i => exact absurd rfl (h1 i)
    | s i => exact absurd rfl (h2 i)
    | p i => exact absurd rfl (h3 i)
    | _ => trivial
  cases hd : w.d with
  | v d =>
    unfold Room at hr
    rw [hd] at hr
    dsimp only at hr
    obtain ⟨t, ht⟩ := Option.isSome_iff_exists.mp hr
    have hspec := putV_spec hP d.toNat n _ _ (by
      intro j hj sh hsh
      rw [hnum, ha]
      exact hh j hj sh hsh) ht
    rw [hsame]
    refine ⟨t, ?_, hspec.1, ?_, ?_, hspec.2.2⟩
    · rw [ha, ← putV_acq] at ht
      unfold State.finishRow
      rw [hd]
      dsimp only [List.head?_cons, Option.map_some]
      simp only [↓reduceIte, ht, List.foldl_cons, List.foldl_nil, hsid]
    · rw [hspec.2.1.pc, ha]; rfl
    · rw [hspec.2.1.seq, ha]; rfl
  | s d =>
    unfold Room at hr
    rw [hd] at hr
    dsimp only at hr
    obtain ⟨t, ht⟩ := Option.isSome_iff_exists.mp hr
    have hspec := putS_spec hP d.toNat n _ ht
    refine ⟨t, ?_, hspec.1, ?_, ?_, hspec.2.2⟩
    · rw [ha, ← putS_acq] at ht
      dsimp only
      rw [ht, hsid]
    · rw [hspec.2.1, ha]; rfl
    · rw [hspec.2.1, ha]; rfl
  | p i =>
    let F : Strand → Strand := fun st => st.setPred i.toNat ((f s (s.st sid)).headD 0 != 0)
    have hst : ((s.onWait w sid).setSt sid F).st sid = F ((s.onWait w sid).st sid) := setSt_st_same _ sid F (fun _ => rfl) hP.strand
    refine ⟨(s.onWait w sid).setSt sid F, by dsimp only; rw [hsid], ?_, ?_, ?_, ?_⟩
    · unfold Holds; dsimp only; rw [hst]; exact setPred_pred _ i _
    · rw [hst]; exact hbase.1
    · rw [hst]; exact hbase.2.1
    · rw [setSt_strand? _ sid F (fun _ => rfl), if_pos rfl]; simpa using hP.strand
  | _ =>
    refine ⟨s.onWait w sid, ?_, ?_, hbase⟩
    · dsimp only
      rw [hsame]
      dsimp only [List.head?_cons, Option.map_some]
      simp only [↓reduceIte]
      exact hrow _ hd (by intro i h; cases h)
    · exact hother _ hd (by intro i h; cases h) (by intro i h; cases h) (by intro i h; cases h)

/-- A lone strand computes a result and goes on after the word. -/
theorem alu_spec {op : Nat} {w : Ins} {s : State} {sid : Nat} (n : Nat) (shape : State → Strand → List Word → Nat → Option Shape)
    (f : State → Strand → List Word) (hG : Goes op w s sid)
    (hr : Room (s.onWait w sid) sid w.d (f s (s.st sid)) (shape s (s.st sid) (f s (s.st sid))) n)
    (hh : ∀ j < n, ∀ sh, shape s (s.st sid) (f s (s.st sid)) j = some sh →
      sh.at (s.it (s.st sid).uid).number (s.st sid).lane = (f s (s.st sid)).getD j 0) :
    Holds (s.alu op w n shape f) sid w.d (f s (s.st sid)) n ∧ WentOn s (s.alu op w n shape f) sid w := by
  obtain ⟨t, ht, h1, h2, h3, h4⟩ := aluWith_spec n shape f (fun t sid _ => t.retire sid w) hG hr hh
  unfold State.alu
  rw [ht]
  refine ⟨holds_retire w _ _ _ h4 h1, ?_, ?_⟩
  · rw [retire_st w h4, h2]
  · rw [retire_st w h4, h3]

end Sys2Proof.Laws
end

