-- ==== Sys2Proof/Laws/Memory.lean ====
section
/-! SUPPORT. Laws of byte stores: what a read gives after a write, and that every write keeps the canonical form. -/

namespace Sys2Proof.Machine

/-- The canonical form of a list with a head: its byte is listed, it lies below every other address, and the rest is canonical. -/
theorem Memory.wf_cons (a : Nat) (b : Byte) (m : Memory) :
    Memory.wf ((a, b) :: m) = true ↔ b ≠ 0 ∧ (∀ c : Nat × Byte, List.Mem c m → a < c.1) ∧ Memory.wf m = true := by
  induction m generalizing a b with
  | nil => simp only [Memory.wf, bne_iff_ne, ne_eq, and_true, iff_self_and]; intro _ c h; cases h
  | cons d m ih =>
    obtain ⟨x, y⟩ := d
    have hh : Memory.wf ((a, b) :: (x, y) :: m) = true ↔ (b ≠ 0 ∧ a < x) ∧ Memory.wf ((x, y) :: m) = true := by
      simp only [Memory.wf, Bool.and_eq_true, bne_iff_ne, ne_eq, decide_eq_true_eq]
    rw [hh, and_assoc]
    refine and_congr_right fun _ => ⟨fun ⟨h1, h2⟩ => ⟨?_, h2⟩, fun ⟨h1, h2⟩ => ⟨h1 (x, y) (List.Mem.head _), h2⟩⟩
    intro c hc
    cases hc with
    | head => exact h1
    | tail _ hc => exact Nat.lt_trans h1 (((ih x y).mp h2).2.1 c hc)

/-- An address below every listed one reads as unlisted. -/
theorem Memory.get_low (m : Memory) (k : Nat) (h : ∀ c : Nat × Byte, List.Mem c m → k < c.1) : m.get k = 0 := by
  induction m with
  | nil => rfl
  | cons c m ih =>
    obtain ⟨x, y⟩ := c
    have := h (x, y) (List.Mem.head _)
    simp only [Memory.get]
    rw [if_neg (by simp only at this; omega)]
    exact ih fun c hc => h c (List.Mem.tail _ hc)

/-- A read after a write of one byte. -/
theorem Memory.get_set (m : Memory) (a x : Nat) (b : Byte) (h : m.wf = true) : (m.set a b).get x = if x = a then b else m.get x := by
  induction m with
  | nil =>
    simp only [Memory.set]
    split
    · rename_i hb; rw [hb]; simp only [Memory.get, ite_self]
    · simp only [Memory.get, eq_comm]
  | cons c m ih =>
    obtain ⟨y, z⟩ := c
    obtain ⟨hz, hy, hm⟩ := (Memory.wf_cons y z m).mp h
    simp only [Memory.set]
    split
    · rename_i hay
      have low : Memory.get ((y, z) :: m) a = 0 := Memory.get_low _ _ fun c hc => by
        cases hc with
        | head => exact hay
        | tail _ hc => exact Nat.lt_trans hay (hy c hc)
      split
      · rename_i hb
        split
        · rename_i hx; rw [hx, hb]; exact low
        · rfl
      · simp only [Memory.get, eq_comm]
    · split
      · rename_i _ hay
        subst hay
        have low : Memory.get m a = 0 := Memory.get_low _ _ hy
        split
        · rename_i hb
          split
          · rename_i hx; rw [hx, hb]; exact low
          · rename_i hx; simp only [Memory.get]; rw [if_neg (fun e => hx e.symm)]
        · simp only [Memory.get]
          by_cases hx : x = a
          · rw [if_pos hx.symm, if_pos hx]
          · rw [if_neg (fun e => hx e.symm), if_neg hx, if_neg (fun e => hx e.symm)]
      · rename_i hlt hne
        simp only [Memory.get]
        split
        · rename_i hyx; rw [if_neg (by omega)]
        · exact ih hm

/-- What is listed after a write: the address written, and what was listed. -/
theorem Memory.mem_set (m : Memory) (a : Nat) (b : Byte) (c : Nat × Byte) (h : List.Mem c (m.set a b)) : c = (a, b) ∨ List.Mem c m := by
  induction m with
  | nil =>
    simp only [Memory.set] at h
    split at h
    · cases h
    · cases h with
      | head => exact .inl rfl
      | tail _ h => cases h
  | cons d m ih =>
    obtain ⟨y, z⟩ := d
    simp only [Memory.set] at h
    split at h
    · split at h
      · exact .inr h
      · cases h with
        | head => exact .inl rfl
        | tail _ h => exact .inr h
    · split at h
      · split at h
        · exact .inr (.tail _ h)
        · cases h with
          | head => exact .inl rfl
          | tail _ h => exact .inr (.tail _ h)
      · cases h with
        | head => exact .inr (.head _)
        | tail _ h => exact (ih h).imp_right (.tail _)

/-- Writing one byte keeps the canonical form. -/
theorem Memory.set_wf (m : Memory) (a : Nat) (b : Byte) (h : m.wf = true) : (m.set a b).wf = true := by
  induction m with
  | nil =>
    simp only [Memory.set]
    split
    · rfl
    · rename_i hb; exact (Memory.wf_cons a b []).mpr ⟨hb, (fun _ hc => nomatch hc), rfl⟩
  | cons d m ih =>
    obtain ⟨y, z⟩ := d
    obtain ⟨hz, hy, hm⟩ := (Memory.wf_cons y z m).mp h
    simp only [Memory.set]
    split
    · rename_i hay
      split
      · exact h
      · rename_i hb
        refine (Memory.wf_cons a b _).mpr ⟨hb, fun c hc => ?_, h⟩
        cases hc with
        | head => exact hay
        | tail _ hc => exact Nat.lt_trans hay (hy c hc)
    · rename_i hlt
      split
      · rename_i hay
        split
        · exact hm
        · rename_i hb; exact (Memory.wf_cons a b m).mpr ⟨hb, fun c hc => hay ▸ hy c hc, hm⟩
      · rename_i hne
        refine (Memory.wf_cons y z _).mpr ⟨hz, fun c hc => ?_, ih hm⟩
        rcases Memory.mem_set m a b c hc with rfl | hc
        · exact Nat.lt_of_le_of_ne (Nat.not_lt.mp hlt) (fun e => hne e.symm)
        · exact hy c hc

/-- Storing bytes keeps the canonical form. -/
theorem Memory.store_wf (m : Memory) (a : Nat) (bs : List Byte) (h : m.wf = true) : (m.store a bs).wf = true := by
  induction bs generalizing m a with
  | nil => exact h
  | cons b bs ih => exact ih _ _ (Memory.set_wf m a b h)

theorem Memory.put_wf (m : Memory) (a n x : Nat) (h : m.wf = true) : (m.put a n x).wf = true := Memory.store_wf m a _ h

/-- A read after a store of bytes. -/
theorem Memory.get_store (m : Memory) (a x : Nat) (bs : List Byte) (h : m.wf = true) :
    (m.store a bs).get x = if a ≤ x ∧ x < a + bs.length then bs.getD (x - a) 0 else m.get x := by
  induction bs generalizing m a with
  | nil => simp [Memory.store]
  | cons b bs ih =>
    simp only [Memory.store, ih _ _ (Memory.set_wf m a b h), Memory.get_set m a x b h, List.length_cons]
    by_cases hx : x = a
    · subst hx
      rw [if_neg (by omega), if_pos rfl, if_pos (by omega)]; simp
    · by_cases hi : a + 1 ≤ x ∧ x < a + 1 + bs.length
      · rw [if_pos hi, if_pos (by omega), show x - a = (x - (a + 1)) + 1 by omega]; simp
      · rw [if_neg hi, if_neg hx, if_neg (by omega)]

/-- Bytes just stored read back. -/
theorem Memory.bytes_store (m : Memory) (a : Nat) (bs : List Byte) (h : m.wf = true) : (m.store a bs).bytes a bs.length = bs := by
  unfold Memory.bytes
  apply List.ext_getElem
  · simp
  · intro i h1 h2
    simp only [List.getElem_map, List.getElem_range, Memory.get_store m a _ bs h]
    rw [if_pos (by omega), show a + i - a = i by omega, List.getD_eq_getElem _ _ h2]

/-- Storing at a home keeps the canonical form of all three stores (R224, R244). -/
theorem homeStore_wf (s : State) (loc pa : Nat) (bs : List Byte) (h : s.mem.wf = true ∧ s.host.wf = true ∧ s.peer.wf = true) :
    (s.homeStore loc pa bs).mem.wf = true ∧ (s.homeStore loc pa bs).host.wf = true ∧ (s.homeStore loc pa bs).peer.wf = true := by
  obtain ⟨h1, h2, h3⟩ := h
  unfold State.homeStore
  split
  · exact ⟨Memory.store_wf _ _ _ h1, h2, h3⟩
  · exact ⟨h1, h2, Memory.store_wf _ _ _ h3⟩
  · exact ⟨h1, Memory.store_wf _ _ _ h2, h3⟩

/-- The memory after reset is canonical. -/
theorem reset_mem_wf : State.reset.mem.wf = true := rfl

end Sys2Proof.Machine
end

