-- ==== Sys2Proof/Laws/Shapes.lean ====
section
/-! SUPPORT. The shapes of results (08 R166) agree with their values: what a uniform or affine result reads in a strand's lane is the word the strand computed. -/

namespace Sys2Proof.Laws

open Sys2Proof Sys2Proof.Machine Sys2Proof.Safety

/-- Whether a word saturates, as the shape table asks (R166). -/
def satOf (w : Ins) : Bool :=
  match w.modw with
  | some m => m.sat != 0
  | none => false

/-- Whether every source of a word is uniform (R166). -/
def uniOf (s : State) (st : Strand) (op : Nat) (w : Ins) : Bool := (Ins.srcOps op w).all fun x => s.srcUniform st x.1 x.2

/-- A covering result is uniform, or its shape comes from the rows of the table for words that keep affine sources, or from SEL's. -/
theorem ruleShape_cases {s : State} {st : Strand} {op : Nat} {w : Ins} {vals : List Word} {j : Nat} {sh : Shape}
    (h : s.ruleShape st op w vals j = some sh) :
    sh = .uniform (vals.getD j 0) ∨ (wideTy w.ty.toNat = false ∧ (op = 0x0A ∨ op = 0x38 ∨ op = 0x20 ∨ op = 0x21 ∨ op = 0x22 ∨ op = 0x36) ∧
      (satOf w = false ∨ uniOf s st op w = true) ∧ (uniOf s st op w = false ∨ op = 0x36)) := by
  unfold State.ruleShape at h
  dsimp only at h
  change (if (satOf w && !uniOf s st op w) = true then none else _) = some sh at h
  by_cases h1 : (satOf w && !uniOf s st op w) = true
  · rw [if_pos h1] at h; cases h
  rw [if_neg h1] at h
  by_cases h2 : (wideTy w.ty.toNat || (decide (0x40 ≤ op) && decide (op ≤ 0x55))) = true
  · rw [if_pos h2] at h
    split at h
    · exact .inl (Option.some.inj h).symm
    · cases h
  rw [if_neg h2] at h
  by_cases h3 : (uniOf s st op w && decide (op ≠ 0x36) && decide (op ≠ 0x62)) = true
  · change (if (uniOf s st op w && decide (op ≠ 0x36) && decide (op ≠ 0x62)) = true then _ else _) = some sh at h
    rw [if_pos h3] at h
    exact .inl (Option.some.inj h).symm
  change (if (uniOf s st op w && decide (op ≠ 0x36) && decide (op ≠ 0x62)) = true then _ else _) = some sh at h
  rw [if_neg h3] at h
  right
  simp only [Bool.and_eq_true, Bool.or_eq_true, Bool.not_eq_true', not_and, not_or, Bool.not_eq_true, decide_eq_true_eq, Decidable.not_not] at h1 h2 h3
  have ho : op = 0x0A ∨ op = 0x38 ∨ op = 0x20 ∨ op = 0x21 ∨ op = 0x22 ∨ op = 0x36 := by
    clear h1 h2 h3
    split at h <;> first | simp | cases h
  refine ⟨h2.1, ho, ?_, ?_⟩
  · cases hs : satOf w
    · exact .inl rfl
    · cases hu : uniOf s st op w
      · exact absurd hu (h1 hs)
      · exact .inr rfl
  · cases hu : uniOf s st op w
    · exact .inl rfl
    · by_cases e : op = 0x36
      · exact .inr e
      · have := h3 ⟨hu, e⟩
        omega

/-- Words whose results are uniform or general, never affine (R166). -/
theorem ruleShape_uniform {s : State} {st : Strand} {op : Nat} {w : Ins} {vals : List Word} {j : Nat} {sh : Shape}
    (ho : op ≠ 0x0A ∧ op ≠ 0x38 ∧ op ≠ 0x20 ∧ op ≠ 0x21 ∧ op ≠ 0x22 ∧ op ≠ 0x36)
    (h : s.ruleShape st op w vals j = some sh) : sh = .uniform (vals.getD j 0) := by
  rcases ruleShape_cases h with h | ⟨-, h, -⟩
  · exact h
  · omega

theorem ruleOf_sound {s : State} {st : Strand} {op : Nat} {w : Ins} (vals : List Word) (n : Nat)
    (ho : op ≠ 0x0A ∧ op ≠ 0x38 ∧ op ≠ 0x20 ∧ op ≠ 0x21 ∧ op ≠ 0x22 ∧ op ≠ 0x36) :
    ∀ j < n, ∀ sh, ruleOf op w s st vals j = some sh → sh.at (s.it st.uid).number st.lane = vals.getD j 0 := by
  intro j _ sh h
  rw [ruleShape_uniform ho h]
  rfl

/-- An affine source reads base + lane and item terms (R166). -/
theorem srcAffine_src {s : State} {st : Strand} {w : Ins} {o : Operand} {x : Word × Word × Word} (h : s.srcAffine st o = some x) :
    s.src st w o = x.1 + BitVec.ofNat 32 st.lane * x.2.1 + (s.it st.uid).number * x.2.2 := by
  unfold State.srcAffine at h
  split at h
  · rename_i i
    split at h
    · rename_i b l t hs
      cases h
      show s.vreg st i.toNat = _
      unfold State.vreg
      rw [hs]; rfl
    · cases h
  · cases h

/-- A 32-bit result that does not saturate is the exact one modulo 2^32 (R124, R128). -/
theorem finishInt_wrap {w : Ins} {ty : Nat} (z : Int) (ht : ty ≤ 1) (hs : satOf w = false) : w.finishInt ty z = [BitVec.ofInt 32 z] := by
  have h1 : w.sat ≠ 1 := by
    unfold satOf at hs
    unfold Ins.sat
    cases hm : w.modw with
    | none => simp
    | some m =>
      rw [hm] at hs
      have : m.sat = 0 := by simpa using hs
      simp [this]
  have h2 : ∀ z : Int, BitVec.ofInt 32 (wrapInt ty z) = BitVec.ofInt 32 z := by
    intro z
    apply BitVec.eq_of_toInt_eq
    rw [BitVec.toInt_ofInt, BitVec.toInt_ofInt]
    have : wrapInt ty z % (2 ^ 32 : Nat) = z % (2 ^ 32 : Nat) := by
      have : ty = 0 ∨ ty = 1 := by omega
      rcases this with rfl | rfl <;> simp [wrapInt, readInt, intSigned, intWidth, wrapN, signedN] <;> omega
    rw [Int.bmod_def, Int.bmod_def, this]
  unfold Ins.finishInt
  rw [if_neg h1]
  unfold intWords wideTy
  have : (ty == 2 || ty == 3) = false := by
    have : ty = 0 ∨ ty = 1 := by omega
    rcases this with rfl | rfl <;> rfl
  rw [this]
  simp [h2]

/-- A 32-bit source as an integer is its word (R163). -/
theorem srcInt_word (s : State) (st : Strand) (w : Ins) {ty : Nat} (o : Operand) (ht : ty ≤ 1) :
    BitVec.ofInt 32 (s.srcInt st w ty o) = s.src st w o := by
  have hty : ty = 0 ∨ ty = 1 := by omega
  have hw : s.srcTy st w ty o = (s.src st w o).toNat := by
    unfold State.srcTy wideTy
    rcases hty with rfl | rfl <;> rfl
  unfold State.srcInt
  rw [hw]
  generalize s.src st w o = x
  apply BitVec.eq_of_toNat_eq
  rw [BitVec.toNat_ofInt]
  have hx := x.isLt
  rcases hty with rfl | rfl <;> simp [readInt, intSigned, intWidth, signedN] <;> omega

theorem tyWords_one {w : Ins} (h : wideTy w.ty.toNat = false) : tyWords w = 1 := by unfold tyWords; rw [h]; rfl

/-- The rows of the table for IADD, ISUB and IMUL, and what their affine results read. -/
theorem ruleShape_arith {s : State} {st : Strand} {op : Nat} {w : Ins} {vals : List Word} {sh : Shape} (f : Word → Word → Word)
    (ho : op = 0x20 ∧ f = (· + ·) ∨ op = 0x21 ∧ f = (· - ·) ∨ op = 0x22 ∧ f = (· * ·))
    (h : s.ruleShape st op w vals 0 = some sh) :
    sh = .uniform (vals.getD 0 0) ∨ (w.ty.toNat ≤ 1 ∧ satOf w = false ∧
      sh.at (s.it st.uid).number st.lane = f (s.src st w w.a) (s.src st w w.b)) := by
  rcases ruleShape_cases h with h1 | ⟨hw, -, hs, hu⟩
  · exact .inl h1
  have hu : uniOf s st op w = false := by rcases hu with hu | hu <;> [exact hu; omega]
  have hsat : satOf w = false := by
    rcases hs with hs | hs
    · exact hs
    · rw [hu] at hs; cases hs
  have hop : (decide (0x40 ≤ op) && decide (op ≤ 0x55)) = false := by
    rcases ho with ⟨rfl, -⟩ | ⟨rfl, -⟩ | ⟨rfl, -⟩ <;> rfl
  unfold State.ruleShape at h
  dsimp only at h
  change (if (satOf w && !uniOf s st op w) = true then none else if _ then _ else
    if (uniOf s st op w && decide (op ≠ 0x36) && decide (op ≠ 0x62)) = true then _ else _) = some sh at h
  rw [hu, hsat, hw, hop] at h
  simp only [Bool.false_and, Bool.false_eq_true, if_false, Bool.or_self] at h
  right
  rcases ho with ⟨rfl, rfl⟩ | ⟨rfl, rfl⟩ | ⟨rfl, rfl⟩ <;> simp only at h <;> split at h <;> first | (cases h) | skip
  all_goals
    rename_i hty
    refine ⟨by omega, hsat, ?_⟩
    split at h
    · rename_i x hx _
      split at h
      · cases h
        rw [srcAffine_src hx]
        simp only [Shape.at]
        ring
      · cases h
    · rename_i y _ hy
      split at h
      · cases h
        rw [srcAffine_src hy]
        simp only [Shape.at]
        ring
      · cases h
    · cases h

theorem srcAffine_v {s : State} {st : Strand} {o : Operand} {x : Word × Word × Word} (h : s.srcAffine st o = some x) : ∃ i, o = .v i := by
  unfold State.srcAffine at h
  split at h
  · exact ⟨_, rfl⟩
  · cases h

/-- The rows of the table for MOV, DBNZ and SEL. -/
theorem ruleShape_move {s : State} {st : Strand} {op : Nat} {w : Ins} {vals : List Word} {sh : Shape}
    (ho : op = 0x38 ∨ op = 0x0A ∨ op = 0x36) (h : s.ruleShape st op w vals 0 = some sh) :
    sh = .uniform (vals.getD 0 0) ∨ (wideTy w.ty.toNat = false ∧
      (op = 0x38 ∧ (∃ i, w.a = .v i) ∧ sh.at (s.it st.uid).number st.lane = s.src st w w.a ∨
       op = 0x0A ∧ sh.at (s.it st.uid).number st.lane = s.src st w w.d - 1 ∨
       op = 0x36 ∧ w.a = w.b ∧ (∃ i, w.a = .v i) ∧ sh.at (s.it st.uid).number st.lane = s.src st w w.a)) := by
  rcases ruleShape_cases h with h1 | ⟨hw, -, hs, hu⟩
  · exact .inl h1
  have hop : (decide (0x40 ≤ op) && decide (op ≤ 0x55)) = false := by
    rcases ho with rfl | rfl | rfl <;> rfl
  have hsat : (satOf w && !uniOf s st op w) = false := by
    rcases hs with hs | hs <;> simp [hs]
  have hu3 : (uniOf s st op w && decide (op ≠ 0x36) && decide (op ≠ 0x62)) = false := by
    rcases hu with hu | hu <;> simp [hu]
  unfold State.ruleShape at h
  dsimp only at h
  change (if (satOf w && !uniOf s st op w) = true then none else if _ then _ else
    if (uniOf s st op w && decide (op ≠ 0x36) && decide (op ≠ 0x62)) = true then _ else _) = some sh at h
  rw [hsat, hu3, hw, hop] at h
  simp only [Bool.false_eq_true, if_false, Bool.or_self] at h
  rcases ho with rfl | rfl | rfl
  · right
    simp only at h
    obtain ⟨x, hx, rfl⟩ := Option.map_eq_some_iff.mp h
    exact ⟨hw, .inl ⟨rfl, srcAffine_v hx, (srcAffine_src hx).symm⟩⟩
  · right
    simp only at h
    obtain ⟨x, hx, rfl⟩ := Option.map_eq_some_iff.mp h
    refine ⟨hw, .inr (.inl ⟨rfl, ?_⟩)⟩
    rw [srcAffine_src hx]
    simp only [Shape.at]
    ring
  · simp only at h
    split at h
    · rename_i hab
      split at h
      · exact .inl (Option.some.inj h).symm
      · right
        obtain ⟨x, hx, rfl⟩ := Option.map_eq_some_iff.mp h
        exact ⟨hw, .inr (.inr ⟨rfl, hab, srcAffine_v hx, (srcAffine_src hx).symm⟩)⟩
    · cases h

/-- A move of a source of 32 bits or fewer moves its word (R175). -/
theorem srcMove_word (s : State) (st : Strand) (w : Ins) {o : Operand} (hw : wideTy w.ty.toNat = false) (i : BitVec 8) (ho : o = .v i) :
    s.srcMove st w o = [s.src st w o] := by
  unfold State.srcMove
  rw [hw]
  simp only [Bool.false_eq_true, if_false]
  split
  · subst ho
    unfold State.srcFp
    simp only [fmtOf]
    have := (s.src st w (.v i)).isLt
    congr 1
    have h8 : w.ty.toNat = 8 := by assumption
    apply BitVec.eq_of_toNat_eq
    rw [BitVec.toNat_ofNat]
    show (s.src st w (.v i)).toNat % 2 ^ 32 % 2 ^ 32 = _
    omega
  · rfl

/-- What an affine or uniform result of IADD, ISUB or IMUL reads is the word computed (R166, R170). -/
theorem arith_sound {s : State} {st : Strand} {op : Nat} {w : Ins} (f : Word → Word → Word) (g : Int → Int → Int)
    (ho : op = 0x20 ∧ f = (· + ·) ∧ g = (· + ·) ∨ op = 0x21 ∧ f = (· - ·) ∧ g = (· - ·) ∨ op = 0x22 ∧ f = (· * ·) ∧ g = (· * ·)) :
    ∀ j < tyWords w, ∀ sh, ruleOf op w s st (w.finishInt w.ty.toNat (g (s.srcInt st w w.ty.toNat w.a) (s.srcInt st w w.ty.toNat w.b))) j = some sh →
      sh.at (s.it st.uid).number st.lane =
        (w.finishInt w.ty.toNat (g (s.srcInt st w w.ty.toNat w.a) (s.srcInt st w w.ty.toNat w.b))).getD j 0 := by
  intro j hj sh h
  by_cases hw : wideTy w.ty.toNat = true
  · rcases ruleShape_cases h with h1 | ⟨h1, -⟩
    · rw [h1]; rfl
    · rw [h1] at hw; cases hw
  · rw [tyWords_one (by simpa using hw)] at hj
    have : j = 0 := by omega
    subst this
    have ho' : op = 0x20 ∧ f = (· + ·) ∨ op = 0x21 ∧ f = (· - ·) ∨ op = 0x22 ∧ f = (· * ·) := by
      rcases ho with ⟨a, b, -⟩ | ⟨a, b, -⟩ | ⟨a, b, -⟩ <;> simp [a, b]
    rcases ruleShape_arith f ho' h with h1 | ⟨ht, hs, h1⟩
    · rw [h1]; rfl
    · rw [h1, finishInt_wrap _ ht hs, ← srcInt_word s st w w.a ht, ← srcInt_word s st w w.b ht]
      rcases ho with ⟨-, rfl, rfl⟩ | ⟨-, rfl, rfl⟩ | ⟨-, rfl, rfl⟩
      · exact (BitVec.ofInt_add _ _).symm
      · simp only [Int.sub_eq_add_neg, BitVec.ofInt_add, BitVec.ofInt_neg, BitVec.sub_eq_add_neg]; rfl
      · exact (BitVec.ofInt_mul _ _).symm

/-- The same for MOV (R175). -/
theorem mov_sound {s : State} {st : Strand} {w : Ins} :
    ∀ j < tyWords w, ∀ sh, ruleOf 0x38 w s st (s.srcMove st w w.a) j = some sh →
      sh.at (s.it st.uid).number st.lane = (s.srcMove st w w.a).getD j 0 := by
  intro j hj sh h
  by_cases hw : wideTy w.ty.toNat = true
  · rcases ruleShape_cases h with h1 | ⟨h1, -⟩
    · rw [h1]; rfl
    · rw [h1] at hw; cases hw
  · have hw : wideTy w.ty.toNat = false := by simpa using hw
    rw [tyWords_one hw] at hj
    have : j = 0 := by omega
    subst this
    rcases ruleShape_move (.inl rfl) h with h1 | ⟨-, ⟨-, ⟨i, hi⟩, h1⟩ | ⟨h1, -⟩ | ⟨h1, -⟩⟩
    · rw [h1]; rfl
    · rw [h1, srcMove_word s st w hw i hi]; rfl
    · cases h1
    · cases h1

/-- The same for SEL (R175). -/
theorem sel_sound {s : State} {st : Strand} {w : Ins} (c : Bool) :
    ∀ j < tyWords w, ∀ sh, ruleOf 0x36 w s st (s.srcMove st w (if c = true then w.a else w.b)) j = some sh →
      sh.at (s.it st.uid).number st.lane = (s.srcMove st w (if c = true then w.a else w.b)).getD j 0 := by
  intro j hj sh h
  by_cases hw : wideTy w.ty.toNat = true
  · rcases ruleShape_cases h with h1 | ⟨h1, -⟩
    · rw [h1]; rfl
    · rw [h1] at hw; cases hw
  · have hw : wideTy w.ty.toNat = false := by simpa using hw
    rw [tyWords_one hw] at hj
    have : j = 0 := by omega
    subst this
    rcases ruleShape_move (.inr (.inr rfl)) h with h1 | ⟨-, ⟨h1, -⟩ | ⟨h1, -⟩ | ⟨-, hab, ⟨i, hi⟩, h1⟩⟩
    · rw [h1]; rfl
    · cases h1
    · cases h1
    · rw [h1, ← hab, ite_self, srcMove_word s st w hw i hi]; rfl

/-- The same for DBNZ (R90). -/
theorem dbnz_sound {s : State} {st : Strand} {w : Ins} :
    ∀ j < 1, ∀ sh, ruleOf 0x0A w s st [s.src st w w.d - 1] j = some sh →
      sh.at (s.it st.uid).number st.lane = [s.src st w w.d - 1].getD j 0 := by
  intro j hj sh h
  have : j = 0 := by omega
  subst this
  rcases ruleShape_move (.inr (.inl rfl)) h with h1 | ⟨-, ⟨h1, -⟩ | ⟨-, h1⟩ | ⟨h1, -⟩⟩
  · rw [h1]; rfl
  · cases h1
  · rw [h1]; rfl
  · cases h1

/-- A word that is one alu operation, and whose shapes agree with its values, computes. -/
theorem computes_of_alu {shape : Ins → State → Strand → List Word → Nat → Option Shape} {i : Ins → Instr} {op : Nat} {n : Ins → Nat}
    {f : State → Strand → Ins → List Word}
    (he : ∀ w s, exec (i w) s = .next (s.alu op w (n w) (shape w) fun s st => f s st w))
    (hs : ∀ w s st, ∀ j < n w, ∀ sh, shape w s st (f s st w) j = some sh → sh.at (s.it st.uid).number st.lane = (f s st w).getD j 0) :
    Computes shape i op n f := by
  intro w s sid hG hF
  have := alu_spec (n w) (shape w) (fun s st => f s st w) hG hF (hs w s (s.st sid))
  exact ⟨_, he w s, this.1, this.2⟩

/-- The same for the shapes of the table, where no row of it keeps affine sources. -/
theorem computes_of_rule {i : Ins → Instr} {op : Nat} {n : Ins → Nat} {f : State → Strand → Ins → List Word}
    (ho : op ≠ 0x0A ∧ op ≠ 0x38 ∧ op ≠ 0x20 ∧ op ≠ 0x21 ∧ op ≠ 0x22 ∧ op ≠ 0x36)
    (he : ∀ w s, exec (i w) s = .next (s.alu op w (n w) (ruleOf op w) fun s st => f s st w)) : ComputesRule i op n f :=
  computes_of_alu he fun w _ _ => ruleOf_sound _ (n w) ho

/-- A word whose results are always general computes. -/
theorem computes_of_general {i : Ins → Instr} {op : Nat} {n : Ins → Nat} {f : State → Strand → Ins → List Word}
    (he : ∀ w s, exec (i w) s = .next (s.alu op w (n w) generalOf fun s st => f s st w)) : Computes (fun _ => generalOf) i op n f :=
  computes_of_alu he fun _ _ _ _ _ _ h => nomatch h

end Sys2Proof.Laws
end

