-- ==== Sys2Proof/Laws/Words.lean ====
section
/-! SUPPORT. How a word that one strand issues alone ends: one law for each verdict and each way of going on. -/

namespace Sys2Proof.Laws

open Sys2Proof.Machine Sys2Proof.Safety

/-- A lone strand that goes at a word: it waits for the word's tokens, does its part, and goes on as that says. -/
theorem each_go {op : Nat} {w : Ins} {s : State} {sid : Nat} (hG : Goes op w s sid) (body : State → Strand → State × Flow) :
    s.each op w body = (body (s.onWait w sid) ((s.onWait w sid).st sid)).1.flow sid w (body (s.onWait w sid) ((s.onWait w sid).st sid)).2 := by
  unfold State.each
  rw [hG.bundle]
  simp only [List.foldl_cons, List.foldl_nil]
  rw [hG.verdict]
  rfl

/-- A lone strand whose guard is false goes on after the word. -/
theorem each_pass {op : Nat} {w : Ins} {s : State} {sid : Nat} (hb : s.bundle = [sid]) (hv : s.verdict op w (s.st sid) = .pass)
    (body : State → Strand → State × Flow) : s.each op w body = s.retire sid w := by
  unfold State.each
  rw [hb]
  simp only [List.foldl_cons, List.foldl_nil]
  rw [hv]
  rfl

/-- A lone strand that must wait stays at the word. -/
theorem each_wait {op : Nat} {w : Ins} {s : State} {sid : Nat} (hb : s.bundle = [sid]) (hv : s.verdict op w (s.st sid) = .wait)
    (body : State → Strand → State × Flow) : s.each op w body = s := by
  unfold State.each
  rw [hb]
  simp only [List.foldl_cons, List.foldl_nil]
  rw [hv]
  rfl

/-- The strand's own number. -/
theorem goes_sid {op : Nat} {w : Ins} {s : State} {sid : Nat} (hG : Goes op w s sid) : ((s.onWait w sid).st sid).sid = sid :=
  st_sid (onWait_strand s w sid sid hG.placed.strand)

/-- What a strand reads of itself is the same after it has waited for the word's tokens, but for when it last acquired. -/
theorem goes_st {op : Nat} {w : Ins} {s : State} {sid : Nat} (hG : Goes op w s sid) :
    ∃ y z q, (s.onWait w sid).st sid = acqUpdate y z q (s.st sid) := onWait_st s w sid sid hG.placed.strand

/-- A word that computes, passed by a lone strand: the strand goes on after it. -/
theorem alu_pass {op : Nat} {w : Ins} {s : State} {sid : Nat} (hb : s.bundle = [sid]) (hv : s.verdict op w (s.st sid) = .pass) (n : Nat)
    (shape : State → Strand → List Word → Nat → Option Shape) (f : State → Strand → List Word) : s.alu op w n shape f = s.retire sid w := by
  unfold State.alu State.aluWith State.goers
  rw [hb]
  simp only [List.foldl_cons, List.foldl_nil, List.filter_cons, List.filter_nil, hv]
  have : (Verdict.pass = Verdict.go) = False := by simp
  simp only [this, decide_false, Bool.false_eq_true, ↓reduceIte, List.map_nil, List.foldl_nil]
  cases w.d <;> rfl

/-- Waiting for tokens leaves everything but the strands and the L1 as it stands. -/
theorem onWait_mem (s : State) (w : Ins) (sid : Nat) : (s.onWait w sid).mem = s.mem := by
  obtain ⟨l, h⟩ := (onWait_cases s w sid).2
  rw [h]

/-- A trap taken in no handler (R322): the registers it writes, the handler it enters, and nothing else of the strand. -/
theorem trap_entry {s : State} {sid : Nat} (tr : Trap) (hs : (s.strand? sid).isSome) (hf : (s.st sid).isFrame = false) (ht : (s.st sid).traph = false)
    (hp : (s.st sid).phase = .run) (hk : (s.it (s.st sid).uid).kernel.trapofs ≠ 0) :
    ∃ f, s.trap sid tr = s.setSt sid f ∧ (∀ x, (f x).sid = x.sid) ∧ (f (s.st sid)).traph = true ∧
      (f (s.st sid)).tr = ⟨BitVec.ofNat 32 tr.cls, BitVec.ofNat 32 tr.code, (s.st sid).pc, 0, tr.fva, tr.frs⟩ ∧
      (f (s.st sid)).pc = (s.it (s.st sid).uid).kernel.code + BitVec.ofNat 64 (s.it (s.st sid).uid).kernel.trapofs ∧
      (f (s.st sid)).preds = (s.st sid).preds ∧ (f (s.st sid)).rstk = (s.st sid).rstk ∧ (f (s.st sid)).toks = (s.st sid).toks := by
  let g : Strand → Strand := fun x => { x with tr := ⟨BitVec.ofNat 32 tr.cls, BitVec.ofNat 32 tr.code, (s.st sid).pc, 0, tr.fva, tr.frs⟩ }
  let k := (s.it (s.st sid).uid).kernel
  let e : Strand → Strand := fun x =>
    { x.freeze.behindLog ((s.setSt sid g).stuck sid) with
      traph := true, pc := k.code + BitVec.ofNat 64 k.trapofs, park := .none, eretw := false, dooming := false
      log := x.freeze.log.map fun e => { e with exempt := true }
      faults := x.freeze.faults.map fun f => { f with exempt := true } }
  have hg : (s.setSt sid g).st sid = g (s.st sid) := setSt_st_same s sid g (fun _ => rfl) hs
  refine ⟨fun x => e (g x), ?_, fun _ => rfl, rfl, rfl, rfl, rfl, rfl, rfl⟩
  have h1 : s.trap sid tr = (s.setSt sid g).enterTrap sid := by
    unfold State.trap State.deliver
    simp only [hf, hp, ht, Bool.false_eq_true, ↓reduceIte, reduceCtorEq, decide_false, Bool.or_self, g]
    rfl
  have h2 : (s.setSt sid g).enterTrap sid = (s.setSt sid g).setSt sid e := by
    unfold State.enterTrap
    simp only [hg, setSt_it]
    rw [if_neg (show ¬ (s.it (g (s.st sid)).uid).kernel.trapofs = 0 from hk)]
    rfl
  rw [h1, h2]
  unfold State.setSt
  simp only [List.map_map]
  congr 1
  apply List.map_congr_left
  intro x _
  simp only [Function.comp]
  by_cases hx : x.sid = sid
  · simp only [hx, ↓reduceIte]
    rw [if_pos (show (g x).sid = sid from hx)]
  · simp only [hx, ↓reduceIte]

end Sys2Proof.Laws
end

