-- ==== Sys2Proof/Tests/Slice0.lean ====
section
/-! SUPPORT. Tests: ill-formed terms for each check, words of the spec's encodings, one-step results worked out from the spec, and for each statement a state and operands that meet its hypotheses. -/

namespace Sys2Proof.Tests

open Sys2Proof Sys2Proof.Machine Sys2Proof.Safety

/-- A kernel with every handler, 32 registers, 8 slots and 2 accumulators. -/
def kern : Kernel := { code := 0x3000, codelen := 960, trapofs := 48, preemptofs := 60, resumeofs := 72, scratch := 8, accum := 2, calldepth := 2, regs := 32, strandsmax := 1
                       rfs := [⟨0, 8, 1, 1⟩] }

/-- v2:v3 and v4:v5 hold the address of a readable and writable page, v6 holds 3. -/
def regs0 : List VReg := (List.range 32).map fun i => { shape := .uniform (if i = 2 ∨ i = 4 then 0x5000 else if i = 6 then 3 else 0) }

def item1 : Item := { uid := 1, launch := 1, kernel := kern, nitem := 1, sregs := List.replicate 8 {}
                      ranks := [{ rows := [{ regs := regs0 }], slots := List.replicate 8 {}, accs := List.replicate 2 {} }] }

def strand1 : Strand := { sid := 1, uid := 1, pc := 0x3000 }

/-- Tables at 0x4000 that map VA 0x3000 to executable code and VA 0x5000 to data, and the descriptor of context 1: live, SYSWEN 0xFFFF, partition 1, ROOT 0x4000. -/
def tables : Memory :=
  let entry := fun (m : Memory) (x : Nat × Nat) => m.put x.1 8 x.2
  [(0x4000, 0x80001), (0x8000, 0xC0001), (0xC000, 0x100001), (0x10018, 0x200417), (0x10028, 0x304C1F), (Config.ctxTableHome + 64, 0xFFFF00000001),
    (Config.ctxTableHome + 80, 1), (Config.ctxTableHome + 88, 0x4000)].foldl entry []

/-- One strand alone at a word. -/
def one (st : Strand := strand1) (it : Item := item1) : State :=
  { nextId := 10, bundle := [1], strands := [st], items := [it], launches := [{ lid := 1, clmask := 1, kernel := kern, next := 1 }]
    clusters := { released := some 0 } :: List.replicate 49 {}, mem := tables }

/-- A strand goes at a word: what `Goes` asks, as one check. -/
def goesB (op : Nat) (w : Ins) (s : State) : Bool :=
  decide (s.bundle = [1]) && decide (s.verdict op w (s.st 1) = .go) && (s.strand? 1).isSome && decide ((s.st 1).lane < 32) && (s.item? (s.st 1).uid).isSome
    && ((s.st 1).isFrame || (decide ((s.st 1).prank < (s.it (s.st 1).uid).ranks.length) && decide ((s.st 1).row < (s.rank (s.st 1).uid (s.st 1).prank).rows.length)))

theorem goes {op : Nat} {w : Ins} {s : State} (h : goesB op w s = true) : Goes op w s 1 := by
  simp only [goesB, Bool.and_eq_true, Bool.or_eq_true, decide_eq_true_eq] at h
  exact ⟨h.1.1.1.1.1, h.1.1.1.1.2, ⟨h.1.1.1.2, h.1.1.2, h.1.2, h.2⟩⟩

/-- Storage for a result, as one check. -/
def fitsB (shape : State → Strand → List Word → Nat → Option Shape) (w : Ins) (s : State) (vals : List Word) (n : Nat) : Bool :=
  let s1 := s.onWait w 1
  match w.d with
  | .v i => (s1.putV (s1.st 1) i.toNat [(s1.st 1, vals)] (shape s (s.st 1) vals) n).isSome
  | .s i => (s1.putS (s1.st 1) i.toNat vals n).isSome
  | _ => true

theorem fits {shape : State → Strand → List Word → Nat → Option Shape} {w : Ins} {s : State} {vals : List Word} {n : Nat} (h : fitsB shape w s vals n = true) :
    Fits shape w s 1 vals n := by
  unfold Fits Room
  unfold fitsB at h
  split <;> simp_all

/-- A result that is an `ok`. -/
def okB {α ε : Type} (x : State × Except ε α) : Bool :=
  match x.2 with
  | .ok _ => true
  | .error _ => false

theorem ok_of {α ε : Type} {x : State × Except ε α} (h : okB x = true) : ∃ s a, x = (s, .ok a) := by
  obtain ⟨s, r⟩ := x
  cases r with
  | ok a => exact ⟨s, a, rfl⟩
  | error e => cases h

/-- The state after an instruction. -/
def after (i : Instr) (s : State) : State :=
  match exec i s with
  | .next t => t
  | .fault _ => s
  | .refused _ => s


set_option maxRecDepth 100000

-- ill-formed terms, one for each cause of R51, and terms of another mnemonic

/-- The ILLEGAL cause of a term. -/
def causeOf (lim : Limits) (i : Instr) : Option Nat :=
  match i.word? with
  | some (op, w) => illegalCause lim (w.modw.map Modw.toCode) (w.toRaw op)
  | none => none

theorem wf_well_formed : (Instr.iadd { d := .v 6, a := .v 6, b := .imm .zext, imm := 1 }).wf = true := by decide
theorem wf_cause1_unassigned_opcode : illegalCause Limits.max none (Raw.ofCode (0x0B7#12 ++ 0#84)) = some 1 := by decide
theorem wf_cause2_guard : causeOf Limits.max (.nop { guard := ⟨true, 7⟩ }) = some 2 ∧ (Instr.nop { guard := ⟨true, 7⟩ }).wf = false := by decide
theorem wf_cause3_modw : causeOf Limits.max (.nop { modw := some ⟨0, 0, 0, false, false, false, false, false, false, 0⟩ }) = some 3 := by decide
theorem wf_cause4_type : causeOf Limits.max (.iadd { ty := 14 }) = some 4 ∧ (Instr.iadd { ty := 14 }).wf = false := by decide
theorem wf_cause5_function : causeOf Limits.max (.iadd { fn := 1 }) = some 5 ∧ (Instr.iadd { fn := 1 }).wf = false := by decide
theorem wf_cause6_special_register : causeOf Limits.max (.iadd { a := .sr .lane }) = some 6 ∧ (Instr.iadd { a := .sr .lane }).wf = false := by decide
theorem wf_cause7_class : causeOf Limits.max (.iset { d := .p 7 }) = some 7 ∧ (Instr.iadd { a := .tk 0 }).wf = false := by decide
theorem wf_cause8_two_immediates : causeOf Limits.max (.iadd { a := .imm .zext, b := .imm .zext }) = some 8 := by decide
theorem wf_cause9_third_source : causeOf Limits.max (.imad { imm := 2048 }) = some 9 ∧ (Instr.imad { imm := 2048 }).wf = false := by decide
theorem wf_cause10_odd_pair : causeOf Limits.max (.iadd { ty := 2, d := .v 1 }) = some 10 ∧ (Instr.iadd { ty := 2, d := .v 1 }).wf = false := by decide
theorem wf_cause11_limits : causeOf { Limits.max with regs := 8 } (.iadd { d := .v 8 }) = some 11 ∧ causeOf { Limits.max with regs := 8 } (.iadd { d := .v 7 }) = none := by decide
theorem wf_cause12_hint : causeOf Limits.max (.iadd { a := .s 0, la := true }) = some 12 ∧ (Instr.iadd { a := .s 0, la := true }).wf = false := by decide
theorem wf_cause13_unused_field : causeOf Limits.max (.nop { imm := 1 }) = some 13 ∧ (Instr.nop { imm := 1 }).wf = false := by decide
theorem wf_other_mnemonic : (Instr.eret { fn := 1 }).wf = false ∧ (Instr.eretSkip { fn := 1 }).wf = true := by decide

-- words of the spec's own encodings (03 R20 example, 04 R86, 05, 09 R200, 11, 13 R316, 14 R329, 16, 20), bit for bit

theorem decode_iadd : decodeTableWord 96 0x20100C01A000000000000001 = some (.iadd { guard := ⟨false, 1⟩, d := .v 6, a := .v 6, b := .imm .zext, imm := 1 }) := by decide
theorem decode_rcall : decodeTableWord 96 0x1D70500200A0000000000300 = some (.rcall { d := .v 40, a := .v 8, b := .v 20, imm := 0x300 }) := by decide
theorem decode_freeze : decodeTableWord 96 0x19700040A8F8000000000000 = some (.freeze { a := .s 2, b := .c 15 }) := by decide
theorem decode_sign_w : decodeTableWord 96 0x147001444000800000000000 = some (.signW { a := .c 1, fn := 1 }) := by decide
theorem decode_mma : decodeTableWord 96 0x707A01813040000000000083 = some (.mma { d := .a 0, a := .x 4, b := .x 8, imm := 0x83 }) := by decide
theorem decode_tclp : decodeTableWord 96 0x82700042A018C00044000000 = some (.tclpImm { a := .s 10, b := .imm .fp16, fn := 1, ty := 8, imm := 0x44000000 }) := by decide
theorem decode_tlde : decodeTableWord 96 0x8870504000F0400000000000 = some (.tlde { d := .v 40, a := .s 0, b := .v 30, ty := 8 }) := by decide
theorem decode_sysr : decodeTableWord 96 0xC27008000000000000000007 = some (.sysr { d := .v 4, imm := 7 }) := by decide
theorem decode_sysw : decodeTableWord 96 0xC37000018000000000000007 = some (.sysw { a := .v 6, imm := 7 }) := by decide
theorem decode_csave : decodeTableWord 96 0xC470000800000000000000FF = some (.csave { a := .v 32, imm := 0xFF }) := by decide
theorem decode_eret_skip : decodeTableWord 96 0xC77000000000800000000000 = some (.eretSkip { fn := 1 }) := by decide
theorem decode_replay : decodeTableWord 96 0xC87018000000000000000000 = some (.replay { d := .v 12 }) := by decide
theorem decode_ffma_unit : decodeTableWord 192 (0xFE7000000001084000000000 + 0x437014008018400000000004 * 2 ^ 96) =
    some (.ffma { d := .v 10, a := .v 2, b := .v 3, ty := 8, imm := 4, modw := some ⟨0, 2, 1, false, false, false, false, true, false, 0⟩ }) := by decide
/-- LD.n32 v4, [v2] by R34, R40 and R257: OP 0x90, GUARD 7, D 0x004, A 0x002, TY 1. -/
theorem decode_ld : decodeTableWord 96 (0x90 * 2 ^ 88 + 7 * 2 ^ 84 + 4 * 2 ^ 73 + 2 * 2 ^ 62 + 1 * 2 ^ 43) = some (.ld { d := .v 4, a := .v 2, ty := 1 }) := by decide
/-- CPY tk1, [v6] by R34 and R269: OP 0xB0, GUARD 7, D class 5 index 0x21, A 0x006. -/
theorem decode_cpy : decodeTableWord 96 (0xB0 * 2 ^ 88 + 7 * 2 ^ 84 + 0x521 * 2 ^ 73 + 6 * 2 ^ 62) = some (.cpy { d := .tk 1, a := .v 6 }) := by decide
theorem decode_zero_word : decodeTableWord 96 0 = none := by decide

-- results of one step, worked out from the spec's rules: v6 holds 3, v0 holds 0

/-- A word on v6 and v6 into v8. -/
def w66 : Ins := { d := .v 8, a := .v 6, b := .v 6 }

/-- What v8 reads after an instruction. -/
def v8 (i : Instr) : Word := ((after i one).vreg ((after i one).st 1) 8)

theorem test_integer_results : v8 (.iadd w66) = 6 ∧ v8 (.isub w66) = 0 ∧ v8 (.imul w66) = 9 ∧ v8 (.imin w66) = 3 ∧ v8 (.andn w66) = 0 ∧ v8 (.shl w66) = 24 ∧ v8 (.popc w66) = 2
    ∧ v8 (.clz w66) = 30 ∧ v8 (.brev w66) = 0xC0000000 ∧ v8 (.iset w66) = 1 := by decide
/-- R171: SHR.i8 of the pattern 0x80 by 1 gives 0x40, and SAR.i8 of it gives 0xC0, written as 0xFFFF_FFC0. -/
theorem test_shift_example :
    (let s := one { strand1 with } { item1 with ranks := item1.ranks.map fun r => { r with rows := r.rows.map fun w => w.setReg 7 { shape := .uniform 0x80 } } }
     let w : Ins := { d := .v 8, a := .v 7, b := .imm .zext, imm := 1, ty := 4 }
     let read := fun (i : Instr) => (after i s).vreg ((after i s).st 1) 8
     intWidth 4 = 8 → read (.shr w) = 0x40 ∧ read (.sar w) = 0xFFFFFFC0) := by decide
/-- R120, R180: 1.0 + 3.0 = 4.0 and 1.0 * 3.0 = 3.0 in FP32. -/
theorem test_float_results :
    (let w : Ins := { d := .v 8, a := .v 7, b := .imm .fp32, imm := 0x40400000, ty := 8 }
     let s := one strand1 { item1 with ranks := item1.ranks.map fun r => { r with rows := r.rows.map fun w => w.setReg 7 { shape := .uniform 0x3F800000 } } }
     let read := fun (i : Instr) => (after i s).vreg ((after i s).st 1) 8
     read (.fadd w) = 0x40800000 ∧ read (.fmul w) = 0x40400000 ∧ read (.fmin w) = 0x3F800000) := by decide
theorem test_add_wraps :
    (let w : Ins := { d := .v 8, a := .v 6, b := .imm .zext, imm := 0xFFFFFFFF }
     (after (.iadd w) one).vreg ((after (.iadd w) one).st 1) 8) = 2 := by decide
theorem test_pc_advances : ((after (.iadd w66) one).st 1).pc = 0x300C ∧ ((after (.bra { imm := 1 }) one).st 1).pc = 0x3018 := by decide
theorem test_trap_enters_handler : ((after (.trap { imm := 7 }) one).st 1).pc = 0x3030 ∧ ((after (.trap { imm := 7 }) one).st 1).tr.tinfo = 7 := by decide
theorem test_st_then_home :
    (let t := after (.st { d := .v 6, a := .v 2, ty := 1 }) one
     let id := (t.pend.map (·.id)).headD 0
     ((after (.storePerform id) (after (.storePerform id) t)).mem.num 0x30000 4)) = 3 := by decide
theorem test_ld_reads_memory :
    (let s := { (one) with mem := tables.put 0x30000 4 77 }
     let t := after (.ld { d := .v 8, a := .v 2, ty := 1 }) s
     let id := (t.pend.map (·.id)).headD 0
     t.isEmpty (t.st 1) 8 = true ∧ (after (.loadComplete id) t).vreg ((after (.loadComplete id) t).st 1) 8 = 77) := by decide
/-- A fetched word is executed by a step. -/
theorem test_step_runs_word :
    (match step (State.reset.withFetchWord 96 (0x08 * 2 ^ 88 + 7 * 2 ^ 84)) with
     | .next t => (t.st 1).pc == 0x300C && (t.st 1).yieldFor == 2
     | _ => false) = true := by decide +kernel

-- for each statement, a state and operands that meet its hypotheses

theorem witness_ArithmeticResults : Goes 0x20 w66 one 1 ∧ Fits (ruleOf 0x20 w66) w66 one 1 [6] 1 ∧ Goes 0x24 w66 one 1 ∧ Fits (ruleOf 0x24 w66) w66 one 1 [9] 1 :=
  ⟨goes (by decide), fits (by decide), goes (by decide), fits (by decide)⟩
theorem witness_LogicResults : Goes 0x29 w66 one 1 ∧ Fits (ruleOf 0x29 w66) w66 one 1 [3] 1 := ⟨goes (by decide), fits (by decide)⟩
theorem witness_ShiftResults : Goes 0x2D w66 one 1 ∧ Fits (ruleOf 0x2D w66) w66 one 1 [24] 1 := ⟨goes (by decide), fits (by decide)⟩
theorem witness_BitCountResults : Goes 0x30 w66 one 1 ∧ Fits (ruleOf 0x30 w66) w66 one 1 [2] 1 := ⟨goes (by decide), fits (by decide)⟩
theorem witness_BitFieldResults : Goes 0x33 w66 one 1 ∧ Fits (ruleOf 0x33 w66) w66 one 1 [0] 1 ∧ Goes 0x34 w66 one 1 ∧ Fits (ruleOf 0x34 w66) w66 one 1 [0] 1 :=
  ⟨goes (by decide), fits (by decide), goes (by decide), fits (by decide)⟩
theorem witness_MoveResults : Goes 0x35 w66 one 1 ∧ Fits (ruleOf 0x35 w66) w66 one 1 [1] 1 ∧ Goes 0x38 w66 one 1 ∧ Fits (ruleOf 0x38 w66) w66 one 1 [3] 1 ∧
    Goes 0x37 { w66 with a := .v 2 } one 1 ∧ Fits (ruleOf 0x37 { w66 with a := .v 2 }) { w66 with a := .v 2 } one 1 [0x5003, 0] 2 :=
  ⟨goes (by decide), fits (by decide), goes (by decide), fits (by decide), goes (by decide), fits (by decide)⟩
theorem witness_PackResults : Goes 0x39 w66 one 1 ∧ Fits (ruleOf 0x39 w66) w66 one 1 [0x00030003] 1 ∧ Goes 0x3B w66 one 1 := ⟨goes (by decide), fits (by decide), goes (by decide)⟩
theorem witness_FloatResults : Goes 0x40 { w66 with ty := 8 } one 1 ∧ Fits (ruleOf 0x40 { w66 with ty := 8 }) { w66 with ty := 8 } one 1 [6] 1 := ⟨goes (by decide), fits (by decide)⟩
theorem witness_ConversionResults : Goes 0x4E { w66 with ty := 8 } one 1 ∧ Fits (ruleOf 0x4E { w66 with ty := 8 }) { w66 with ty := 8 } one 1 [0] 1 := ⟨goes (by decide), fits (by decide)⟩
theorem witness_LaneResults : Goes 0x60 { d := .v 8, a := .sr .lane } one 1 ∧ Fits (fun s st vals j => specialShape s .lane st vals j) { d := .v 8, a := .sr .lane } one 1 [0] 1 ∧
    Goes 0x61 w66 one 1 ∧ Fits generalOf w66 one 1 [0] 1 ∧ Goes 0x62 w66 one 1 ∧ Goes 0x65 w66 one 1 ∧ Goes 0xB2 { w66 with a := .tk 0 } one 1 :=
  ⟨goes (by decide), fits (by decide), goes (by decide), fits (by decide), goes (by decide), goes (by decide), goes (by decide)⟩

/-- A strand with one return address. -/
def called : State := one { strand1 with rstk := [0x3024] }

theorem witness_BranchesLand : Goes 0x01 {} one 1 ∧ Goes 0x02 { a := .v 0 } one 1 ∧ (one.src64 (one.st 1) {} (.v 0)).toNat % 12 = 0 ∧
    Goes 0x03 {} called 1 ∧ (called.st 1).rstk.length < called.depthOf (called.st 1) ∧ Goes 0x04 {} called 1 ∧ Goes 0x05 {} called 1 ∧ (called.st 1).rstk = [0x3024] :=
  ⟨goes (by decide), goes (by decide), by decide, goes (by decide), by decide, goes (by decide), goes (by decide), by decide⟩

/-- A full return stack (CALLDEPTH 2). -/
def deep : State := one { strand1 with rstk := [0x3024, 0x3030] }

theorem witness_BranchesTrap : Goes 0x02 { a := .v 2 } one 1 ∧ (one.src64 (one.st 1) {} (.v 2)).toNat % 12 ≠ 0 ∧ Goes 0x03 {} deep 1 ∧
    deep.depthOf (deep.st 1) ≤ (deep.st 1).rstk.length ∧ Goes 0x04 {} deep 1 ∧ Goes 0x04 { a := .v 2 } one 1 ∧ Goes 0x05 {} one 1 ∧ (one.st 1).rstk = [] :=
  ⟨goes (by decide), by decide, goes (by decide), by decide, goes (by decide), goes (by decide), goes (by decide), by decide⟩
theorem witness_PacingWords : Goes 0x07 {} one 1 ∧ Goes 0x08 {} one 1 ∧ Goes 0x09 { a := .v 0 } one 1 ∧ one.src (one.st 1) {} (.v 0) = 0 ∧ Goes 0x09 { a := .v 6 } one 1 ∧
    one.src (one.st 1) {} (.v 6) ≠ 0 ∧ Goes 0x0A { d := .v 6 } one 1 ∧ Fits (ruleOf 0x0A { d := .v 6 }) { d := .v 6 } one 1 [2] 1 :=
  ⟨goes (by decide), goes (by decide), goes (by decide), by decide, goes (by decide), by decide, goes (by decide), fits (by decide)⟩

/-- The state with crew 3 live beside crew 0. -/
def crewed : State := one strand1 { item1 with crews := [{ id := 0 }, { id := 3 }] }

/-- A remote frame, with its call, which has returned nothing yet. -/
def framed : State :=
  { (one { strand1 with kind := .frame 7, frame := { regs := regs0 }, rank := 5 }) with
    calls := [{ id := 7, sid := 2, uid := 1, fn := ⟨0, 8, 1, 1⟩, phase := .running 1 }] }

theorem witness_CrewWords : Goes 0x06 {} one 1 ∧ one.strandIdle (one.st 1) = true ∧ (one.st 1).call = none ∧
    Goes 0x06 {} framed 1 ∧ framed.strandIdle (framed.st 1) = true ∧ (framed.st 1).call.isSome ∧ framed.released 1 (framed.returnScope (framed.st 1)) = true ∧
    Goes 0x10 { a := .v 6 } crewed 1 ∧ crewed.liveCrew (crewed.st 1) 3 = true ∧ crewed.src (crewed.st 1) {} (.v 6) = 3 ∧ Goes 0x11 {} one 1 ∧
    Goes 0x13 { a := .v 6 } crewed 1 ∧ Goes 0x15 { a := .c 0 } one 1 ∧ (∀ k, (one.it 1).crew 0 = some k → ∀ g ∈ (k.rounds.getD 0 {}).signers, g.sid ≠ 1) :=
  ⟨goes (by decide), by decide, by decide, goes (by decide), by decide, by decide, by decide, goes (by decide), by decide, by decide, goes (by decide), goes (by decide),
    goes (by decide), by intro k h g hg; cases h; cases hg⟩
theorem witness_CnewGivesLowestFreeId : Goes 0x12 { d := .v 8 } crewed 1 ∧ Fits (fun _ _ vals _ => some (.uniform (vals.headD 0))) { d := .v 8 } crewed 1 [1] 1 :=
  ⟨goes (by decide), fits (by decide)⟩
theorem witness_SignWords : Goes 0x14 { a := .c 1 } one 1 ∧ (one.it 1).crew 0 = some { id := 0 } ∧ ({ id := 0 } : Crew).rounds.getD 1 {} = {} ∧ ({} : Round).broken = [] ∧
    one.released 1 (one.roundScope 1 0 {}) = true := ⟨goes (by decide), by decide, by decide, by decide, by decide⟩

/-- The state with a tile of a BNI format in slot 1. -/
def bni : State := one.setRank 1 0 fun r => { r with slots := r.slots.modify 1 fun x => { x with fmt := 14, planes := 8 } }

/-- Operands of the matrix words: an accumulator, slots of one tile position. -/
def matW : Ins := { d := .a 0, a := .x 0, b := .x 1 }

theorem witness_MatrixWordsSign : Goes 0x70 matW one 1 ∧ (one.it 1).crew 0 = some { id := 0 } ∧ one.released 1 (one.roundScope 1 0 {}) = true ∧ signCheck 0x70 matW one (one.st 1) = none ∧
    Goes 0x71 matW one 1 ∧ signCheck 0x71 matW one (one.st 1) = none ∧ Goes 0x72 matW one 1 ∧ signCheck 0x72 matW one (one.st 1) = none ∧
    Goes 0x78 { d := .x 0, a := .a 0, ty := 6 } one 1 ∧ signCheck 0x78 { d := .x 0, a := .a 0, ty := 6 } one (one.st 1) = none ∧
    Goes 0x79 { d := .x 0, a := .x 1 } one 1 ∧ signCheck 0x79 { d := .x 0, a := .x 1 } one (one.st 1) = none ∧
    Goes 0x7A { d := .x 0, a := .x 1 } bni 1 ∧ signCheck 0x7A { d := .x 0, a := .x 1 } bni (bni.st 1) = none :=
  ⟨goes (by decide), by decide, by decide, by decide, goes (by decide), by decide, goes (by decide), by decide, goes (by decide), by decide, goes (by decide), by decide,
    goes (by decide), by decide⟩
theorem witness_CollectiveWords : Goes 0x16 w66 one 1 ∧ Goes 0x17 w66 one 1 ∧ Goes 0x18 w66 one 1 ∧ (one.it 1).crew 0 = some { id := 0 } ∧
    one.released 1 (one.roundScope 1 0 {}) = true ∧ sigBits (Ins.code 0x16 w66) = sigBits (Ins.code 0x16 w66) :=
  ⟨goes (by decide), goes (by decide), goes (by decide), by decide, by decide, rfl⟩

/-- FREEZE v0, s2. -/
def frz : Ins := { d := .v 0, a := .s 2, b := .c 15 }

theorem witness_FreezeWords : Goes 0x19 frz one 1 ∧ (one.st 1).isFinishing = false ∧ (one.it 1).tlev ≠ 3 ∧ ((one.moveTo 1 0).it 1).crew 0 = some { id := 0 } ∧
    (after (.freeze frz) one).freezeReady 1 = true := ⟨goes (by decide), by decide, by decide, by decide, by decide⟩

/-- A result that is the expected `ok` is that pair. -/
theorem ok_is {α ε : Type} [DecidableEq α] {x : State × Except ε α} {a : α}
    (h : (match x.2 with | .ok b => decide (b = a) | .error _ => false) = true) : x = (x.1, .ok a) := by
  obtain ⟨s, r⟩ := x
  cases r with
  | ok b => simp only [decide_eq_true_eq] at h; rw [h]
  | error e => cases h

/-- An address in v2:v3, and v6 or v8 beside it. -/
def lw : Ins := { d := .v 8, a := .v 2, b := .v 6, ty := 1 }

/-- The same with no destination, and loads and stores of the page. -/
def sw8 : Ins := { d := .v 6, a := .v 2, ty := 1 }
def ldw : Ins := { d := .v 8, a := .v 2, ty := 1 }

/-- What the access of a control word gives. -/
def ctl (n : Need) (len : Nat := 1) : State × Except Flow Xlat := (one.onWait lw 1).ctlAccess (one.st 1) 0x5000 n len
def rd0 : Need := { rd := true, locs := [0] }
def rdAll : Need := { rd := true, locs := [0, 1, 2] }
def rdwr : Need := { rd := true, wr := true, locs := [0, 1, 2] }
def atPage : Xlat := { loc := 0, pa := 0x30000, pol := 0, tg := false, walked := true }

theorem witness_EventWords : Goes 0x1A lw one 1 ∧ ctl rd0 128 = ((ctl rd0 128).1, .ok atPage) ∧ ((one.onWait lw 1).src64 (one.st 1) lw lw.a).toNat % 128 = 0 ∧
    ((one.onWait lw 1).src (one.st 1) lw lw.b).toNat ≤ 63 ∧ (ctl rd0 128).1.released 1 1 = true ∧
    ((ctl rd0 128).1.ownClear (one.st 1) 0x5000 0 atPage.pa 128 = true ∧ (ctl rd0 128).1.poisonedAt atPage.pa 128 = false) ∧
    ((ctl rd0 128).1.queues.getD 3 {}).packets.length < 32 ∧
    Goes 0x1B lw one 1 ∧ ctl rdwr = ((ctl rdwr).1, .ok atPage) ∧ (ctl rdwr).1.released 1 1 = true ∧
    Goes 0x1C lw one 1 ∧ ctl rdAll = ((ctl rdAll).1, .ok atPage) ∧
    ((ctl rdAll).1.ownClear (one.st 1) 0x5000 atPage.loc atPage.pa 8 = true ∧ (ctl rdAll).1.poisonedIn atPage.loc atPage.pa 8 = false) ∧
    (one.st 1).wokenScope = none ∧
    (let p := one.setPark 1 (.evwait 0x5000 1 0 0x30000 false); (p.st 1).park = .evwait 0x5000 1 0 0x30000 false ∧ (1 : Addr).toNat ≤ (p.writeHome 0 0 0x30000 (leBytes 8 1)).homeNum 0 0x30000 8) ∧
    ((one.setPark 1 (.evwait 0x5000 1 0 0x30000 true)).st 1).park = .evwait 0x5000 1 0 0x30000 true ∧
    Goes 0x1C lw (one { strand1 with woken := some (0, 1) }) 1 ∧ (((one { strand1 with woken := some (0, 1) }).onWait lw 1).st 1).wokenScope = some 1 :=
  ⟨goes (by decide), ok_is (by decide), by decide, by decide, by decide, by decide, by decide, goes (by decide), ok_is (by decide), by decide, goes (by decide),
    ok_is (by decide), by decide, by decide, by decide, by decide, goes (by decide), by decide⟩
/-- Both branches of EVWAIT are met: the counter reads 0, and v0:v1 holds 0, v6:v7 holds 3. -/
theorem witness_EventWords_bounds : (one.src64 (one.st 1) {} (.v 0)).toNat ≤ one.homeNum 0 0x30000 8 ∧ ¬ (one.src64 (one.st 1) {} (.v 6)).toNat ≤ one.homeNum 0 0x30000 8 := by decide

/-- RCALL of function 0. -/
def rc : Ins := { d := .v 8, a := .v 2, b := .v 6, imm := 0x300 }

def rcNeed : Need := { rd := true, rcx := true, locs := [0, 1, 2] }

theorem witness_RemoteCallWords : Goes 0x1D rc one 1 ∧ rc.imm.toNat % 256 < (one.it 1).kernel.rfs.length ∧ 8 + ((one.onWait rc 1).rfOf (one.st 1) rc).rets ≤ (one.limitsOf (one.st 1)).regs ∧
    6 + ((one.onWait rc 1).rfOf (one.st 1) rc).args ≤ (one.limitsOf (one.st 1)).regs ∧ ctl rcNeed = ((ctl rcNeed).1, .ok atPage) ∧ (ctl rcNeed).1.released 1 1 = true ∧
    ((ctl rcNeed).1.prepDest (one.st 1) [8]).isSome ∧
    Goes 0x1E { a := .v 6 } framed 1 ∧ ((framed.onWait { a := .v 6 } 1).st 1).call.bind (framed.onWait { a := .v 6 } 1).call? = framed.call? 7 ∧ (framed.call? 7).isSome ∧
    (framed.onWait { a := .v 6 } 1).released 1 ((framed.onWait { a := .v 6 } 1).returnScope (framed.st 1)) = true ∧
    Goes 0x1F { a := .c 3 } one 1 ∧ (one.it 1).crew 0 = some { id := 0 } ∧ ({ id := 0 } : Crew).counts.getD 3 0 = 0 :=
  ⟨goes (by decide), by decide, by decide, by decide, ok_is (by decide), by decide, by decide, goes (by decide), by decide, by decide, by decide, goes (by decide), by decide, by decide⟩

/-- A state with one call of a phase. -/
def calling (p : CallPhase) : State := { (one) with calls := [{ id := 7, sid := 1, uid := 1, fn := ⟨0, 8, 1, 1⟩, args := [5], phase := p }] }

/-- The same with all 64 frames of the call's NMU standing. -/
def crowded : State :=
  { (calling .transit) with calls := (calling .transit).calls ++ (List.range 64).map fun i => { id := 100 + i, sid := 1, uid := 1, phase := .running 1 } }

theorem witness_RemoteCallEvents : ((calling .transit).call? 7).map (·.phase) = some .transit ∧ ((calling .transit).call? 7).map (·.loc) = some 0 ∧
    (calling .transit).framesAt { id := 7 } < 64 ∧ ¬ crowded.framesAt { id := 7 } < 64 ∧
    (((calling (.shipped strand1)).startFinishing { id := 7, sid := 1, uid := 1, fn := ⟨0, 8, 1, 1⟩ } strand1).isSome ∧ ((calling (.shipped strand1)).it 1).status = .resident) ∧
    ((calling (.replying [9] 0)).call? 7).map (·.phase) = some (.replying [9] 0) ∧ ((calling .transit).call? 7).map (·.deadline) = some 0 ∧ 0 ≤ (calling .transit).now := by decide

/-- A state whose v2:v3 is general: LD and LDS read for their strand alone. -/
def apart : State :=
  let general := fun (x : Word) => ({ shape := .general (List.replicate 32 x) } : VReg)
  one strand1 { item1 with ranks := item1.ranks.map fun r => { r with rows := r.rows.map fun w => (w.setReg 2 (general 0x5000)).setReg 9 (general 0) } }
theorem witness_LongLatencyWords : Goes 0x25 w66 one 1 ∧ ((one.onWait w66 1).prepDest (one.st 1) [8]).isSome ∧
    one.rowUniform 0x25 w66 [(one.st 1, [1])] = true ∧ ((one.onWait w66 1).prepUniform (one.st 1) [one.st 1] 8 [1]).isSome ∧
    apart.rowUniform 0x25 { w66 with a := .v 2 } [(apart.st 1, [1])] = false ∧ Goes 0x25 { w66 with a := .v 2 } apart 1 ∧ (apart.prepDest (apart.st 1) [8]).isSome ∧ Goes 0x47 { w66 with ty := 8 } one 1 ∧ Goes 0x4B { w66 with ty := 8 } one 1 ∧
    (let s := { (one) with lats := [{ id := 3, sid := 1, dest := 8, vals := [5] }] }
     Placed s 1 ∧ (s.it (s.st 1).uid).status = .resident ∧ (s.st 1).phase ≠ .resume) :=
  ⟨goes (by decide), by decide, by decide, by decide, by decide, goes (by decide), by decide, goes (by decide), goes (by decide), ⟨by decide, by decide, by decide, .inr ⟨by decide, by decide⟩⟩, by decide, by decide⟩

/-- What an access at the page gives. -/
def acc (op : Nat) (kind : AccKind) (w : Ins) (n : Nat) (f : Acc → Acc := id) : State × Accepted :=
  (one.onWait w 1).accept (f ((one.onWait w 1).newAcc (one.st 1) kind op w ((one.onWait w 1).ea (one.st 1) op w) n))

theorem accepted {x : State × Accepted} (h : (match x.2 with | .ok _ => true | _ => false) = true) : ∃ s a, x = (s, .ok a) := by
  obtain ⟨s, r⟩ := x
  cases r with
  | ok a => exact ⟨s, a, rfl⟩
  | log a t => cases h
  | trap t => cases h
  | held => cases h

theorem witness_WritesArePosted : Goes 0x91 sw8 one 1 ∧ Goes 0xA4 sw8 one 1 ∧ Goes 0x97 lw one 1 ∧ Goes 0x9E lw one 1 ∧
    (∃ s2 a, acc 0x91 .store sw8 (tyBytes 1) (fun a => { a with data := 3, rel := none }) = (s2, .ok a)) ∧
    (∃ s2 a, acc 0x97 .atomic lw 4 (fun a => { a with data := 3, dest := some 8 }) = (s2, .ok a)) ∧ (one.await (one.st 1) []).isSome ∧ (one.await (one.st 1) [8]).isSome :=
  ⟨goes (by decide), goes (by decide), goes (by decide), goes (by decide), accepted (by decide), accepted (by decide), by decide, by decide⟩
theorem witness_LoadsArePosted : Goes 0x90 ldw one 1 ∧ one.oneRead 0x90 ldw (one.st 1) = true ∧ (one.prepShared (one.st 1) [one.st 1] [8]).isSome ∧ (∃ s2 a, acc 0x90 .load ldw 4 (fun a => { a with dest := some 8 }) = (s2, .ok a)) ∧
    Goes 0x90 { ldw with fn := 1 } one 1 ∧ (one.prepDest (one.st 1) [8, 9, 10, 11]).isSome ∧ Goes 0xA3 ldw one 1 :=
  ⟨goes (by decide), by decide, by decide, accepted (by decide), goes (by decide), by decide, goes (by decide)⟩

theorem goes_all {ops : List Nat} {w : Ins} {s : State} (h : ops.all (fun op => goesB op w s) = true) : ∀ op ∈ ops, Goes op w s 1 :=
  fun op m => goes (List.all_eq_true.1 h op m)

/-- Scratchpad words at offset 0, and a strand that holds the lock there. -/
def sp : Ins := { d := .v 8, a := .v 0, ty := 1 }
def locked : State := one { strand1 with lock := some (lockOf 0 0) }

theorem witness_ScratchpadWords :
    (∀ op ∈ [0x92, 0x93, 0x94], Goes op sp one 1) ∧ (∀ op ∈ [0x92, 0x93, 0x94], (one.onWait sp 1).sea (one.st 1) op sp = 0) ∧
    (one.onWait sp 1).spad (one.st 1) 0 4 = (((one.onWait sp 1).spad (one.st 1) 0 4).1, .ok (0, 0)) ∧
    one.spadPoison 1 0 0 4 = false ∧ one.oneRead 0x92 sp (one.st 1) = true ∧ (one.prepShared (one.st 1) [one.st 1] [8]).isSome ∧ (one.ownSlot 1 0 0).isSome ∧ one.lockTaken (one.st 1) (lockOf 0 0) = false ∧ one.lockRival (one.st 1) (lockOf 0 0) = false ∧ one.heldByLog 1 (one.spadAcc (one.st 1) .load 0x92 sp 0 0) = false ∧ one.rankDown 1 0 = false ∧
    ((one.setSt 1 fun x => { x with lock := some (lockOf 0 0) }).prepDest (one.st 1) [8]).isSome ∧
    (∀ op ∈ [0x95, 0x96], Goes op sp locked 1) ∧ (locked.st 1).lock = some (lockOf 0 0) ∧ locked.released 1 (lockScope (locked.st 1) 0) = true ∧ locked.released 1 (stulScope (locked.st 1) 0) = true :=

  ⟨goes_all (by decide), by decide, ok_is (by decide), by decide, by decide, by decide, by decide, by decide, by decide, by decide, by decide, by decide, goes_all (by decide), by decide, by decide, by decide⟩
/-- The last offset of the allocation is inside it, the next is not. -/
theorem witness_ScratchpadWords_bounds : okB (one.spad (one.st 1) 8188 4) = true ∧ okB (one.spad (one.st 1) 8192 4) = false := by decide
theorem witness_reads_of_one_strand : apart.oneRead 0x90 ldw (apart.st 1) = false ∧ Goes 0x90 ldw apart 1 ∧ apart.oneRead 0x92 { sp with a := .v 9 } (apart.st 1) = false ∧
    Goes 0x92 { sp with a := .v 9 } apart 1 := ⟨by decide, goes (by decide), by decide, goes (by decide)⟩
theorem witness_FenceWords : Goes 0xA0 {} one 1 ∧ (one.st 1).log = [] ∧ one.pend = [] ∧ one.tileOps = [] ∧ one.released 1 (fenceScope (one.st 1) {}) = true :=
  ⟨goes (by decide), by decide, by decide, by decide, by decide⟩

/-- WAITA of the page: timeout v0, data v0. -/
def wt : Ins := { d := .v 0, a := .v 2, b := .v 0, ty := 1 }
/-- A strand parked on the line of the page. -/
def watching : State := one { strand1 with park := .waita 0x600 (some 0) true false }

theorem witness_WatchWords : Goes 0xA1 wt one 1 ∧ (∃ s2 a, acc 0xA1 .waita wt 4 = (s2, .ok a)) ∧
    (match acc 0xA1 .waita wt 4 with
      | (s2, .ok a) => ({ s2 with nextId := s2.nextId + a.count } : State).mayRead { a with id := s2.nextId } && !s2.poisonedIn a.loc a.pa a.width
      | _ => false) = true ∧
    Goes 0xA2 wt one 1 ∧ (∃ s2 a, acc 0xA2 .wake wt 1 = (s2, .ok a)) ∧ (watching.st 1).park = .waita 0x600 (some 0) true false ∧ 0 ≤ watching.nstime :=
  ⟨goes (by decide), accepted (by decide), by decide, goes (by decide), accepted (by decide), by decide, by decide⟩

/-- A store, a load and an atomic of strand 1 at the page. -/
def store1 : Acc := { id := 5, sid := 1, uid := 1, ctx := 1, kind := .store, loc := 0, pa := 0x30000, va := 0x5000, data := 7 }
def load1 : Acc := { store1 with kind := .load, dest := some 8 }
def atomic1 : Acc := { store1 with kind := .atomic, op := 0x97, ty := 1 }
def atomic2 : Acc := { atomic1 with id := 6, sid := 1 }
def pended (as : List Acc) : State := { (one) with pend := as }

theorem witness_AccessEvents :
    ((pended [store1]).pend.find? (fun x => x.id == 5) = some store1 ∧ ((pended [store1]).st 1).isFrame = false ∧ (pended [store1]).mayReachCore store1 = true) ∧
    (let a := { store1 with stage := 1 }; (pended [a]).mayReachHome a = true ∧ (pended [a]).peerGone a = false ∧ (pended [a]).portRefuses a = false ∧ (pended [a]).coreGone a = false) ∧
    (let a := { store1 with pol := 2 }; a.homeOnly = true ∧ (pended [a]).mayReachHome a = true) ∧
    ((pended [load1]).mayRead load1 = true ∧ (pended [load1]).peerGone load1 = false ∧ (pended [load1]).portRefuses load1 = false ∧ (pended [load1]).readsPoison load1 = false) ∧
    (let a := { atomic1 with stage := 2 }; (pended [a]).pend.find? (fun x => x.id == a.id) = some a ∧ a.kind = .atomic ∧ a.stage = 2) ∧
    ((pended [atomic1]).mayExecute atomic1 = true ∧ (pended [atomic1]).peerGone atomic1 = false ∧ (pended [atomic1]).portRefuses atomic1 = false ∧ (pended [atomic1]).poisonedIn 0 0x30000 4 = false) ∧
    (mergeable atomic1 atomic2 = true ∧ (pended [atomic1, atomic2]).mayExecute atomic1 = true) := by decide
theorem witness_AccumulatorWords :
    (∀ op ∈ [0x73, 0x74, 0x75], Goes op { ldw with d := .a 0 } one 1) ∧ (one.onWait { ldw with d := .a 0 } 1).accSettled 1 (· == 0) = true ∧
    (one.rank 1 0).accBusy 0 = false ∧ (one.accum 1 0 0).poison = [] ∧
    Goes 0x76 { d := .v 8, a := .a 0 } one 1 ∧ one.accSettled 1 (fun _ => true) = true ∧ (one.prepDest (one.st 1) [8]).isSome ∧
    Goes 0x77 { a := .a 0 } one 1 ∧ (∀ k ∈ (one.it 1).crews, ∀ r ∈ k.rounds, r.signsFor 1 0 = false) ∧ (one.rank 1 0).ops = [] :=
  ⟨goes_all (by decide), by decide, by decide, by decide, goes (by decide), by decide, by decide, goes (by decide), by decide, by decide⟩
/-- The parts of an ALD or AST at the page are accepted. -/
theorem witness_AccumulatorWords_parts : (match (one.issueParts (one.st 1) ((pageParts 0x5000).map fun p => one.newAcc (one.st 1) .store 0x74 { ldw with d := .a 0 } (0x5000 + BitVec.ofNat 64 p.1) p.2)).2 with
    | .next => true
    | _ => false) = true := by decide

/-- An operation at the head of a rank's queue. -/
def mm : MatOp := { id := 4, word := Ins.code 0x70 matW, signers := [{ sid := 1 }] }

theorem witness_MatrixOpFinishes : (let s := one.setRank 1 0 fun r => { r with ops := [mm] }
    (s.it 1).status ≠ .saved ∧ (s.rank 1 0).ops = mm :: [] ∧ mm.checked = true ∧ destSlot mm.word = none) := by decide
/-- An operation that writes a slot, with the slot taken. -/
theorem witness_MatrixOpFinishes_slot : (let o := { mm with word := Ins.code 0x79 { d := .x 0, a := .x 1 } }
    let s := one.setRank 1 0 fun r => { r with ops := [o], slots := r.slots.modify 0 fun x => { x with state := .filling } }
    destSlot o.word = some 0 ∧ (s.slot 1 0 0).state = SlotState.filling) := by decide
theorem witness_StatusWords : Goes 0x7C { d := .v 8, a := .x 0, b := .v 6 } one 1 ∧ (one.slot 1 0 0).state = .ready ∧ (one.slot 1 0 0).poison = [] ∧ entryPoison ∉ (one.slot 1 0 0).poison ∧
    one.atOnce { one.st 1 with nextRel := none } = true ∧ one.atOnce (one.st 1) = true ∧ (one.ownSlot 1 0 0).isSome ∧ Goes 0x7D { d := .v 8 } one 1 ∧
    Goes 0xB4 { d := .v 8, a := .tk 0 } one 1 ∧ Goes 0xB4 { d := .v 8, a := .x 0 } one 1 ∧ Goes 0xC2 { d := .v 8, imm := 0 } one 1 ∧
    Fits generalOf { d := .v 8 } one 1 [0] 1 ∧ Goes 0x7B { d := .v 6, a := .x 0, b := .v 6 } one 1 :=
  ⟨goes (by decide), by decide, by decide, by decide, by decide, by decide, by decide, goes (by decide), goes (by decide), goes (by decide), goes (by decide), fits (by decide), goes (by decide)⟩

/-- `one` with a number stored at the page, and with v6 set. -/
def holding (n v : Nat) : State := { (one) with mem := tables.put 0x30000 n v }
def withV6 (x : Word) : State := one strand1 { item1 with ranks := item1.ranks.map fun r => { r with rows := r.rows.map fun w => w.setReg 6 { shape := .uniform x } } }

/-- A descriptor at the page: FP32, ROWS 32, COLS 32, GRIDCOLS 1, PAYBASE 0x5000, HDRBASE 0x5040; its tile's header is valid and the identity. -/
def tiled : State :=
  let hdr : TileHdr := { ctl := 0x83, map := ValMap.ident, rest := 0 }
  { (one) with mem := ((holding 64 (8 + 32 * 2 ^ 32 + 32 * 2 ^ 64 + 2 ^ 96 + 0x5000 * 2 ^ 128 + 0x5040 * 2 ^ 192)).mem).store 0x30040 hdr.bytes }
def desc1 : Desc := { fmt := 8, satmat := false, ord := 0, rows := 32, cols := 32, grid := 1, paybase := 0x5000, hdrbase := 0x5040, code := 0 }
def read1 (wr : Bool) : State × Except Flow (Xlat × Desc) := (tiled.onWait lw 1).readDesc (tiled.st 1) 0x5000 wr
/-- Tile words: descriptor v2:v3, second source v0 or the pair v0:v1. -/
def tw : Ins := { d := .v 8, a := .v 2, b := .v 0, ty := 8 }

theorem witness_TileWordsArePosted : (∀ op ∈ [0x80, 0x81, 0x82, 0x83, 0x84, 0x85, 0x86, 0x87, 0x88, 0x89], Goes op tw tiled 1) ∧
    read1 false = ((read1 false).1, .ok (atPage, desc1)) ∧ read1 true = ((read1 true).1, .ok (atPage, desc1)) ∧ plainFmt desc1.fmt = false ∧ isFin32 0 = true ∧
    boundsOk 0 0 = true ∧ boundsOk (rnd fp32 (widenF fp16 0)) (rnd fp32 (widenF fp16 0)) = true ∧ desc1.stored 0 0 = some (0, 0) ∧ (tiled.prepDest (tiled.st 1) [8]).isSome ∧
    okB (tiled.withHdr (tiled.st 1) (tiled.newTile (tiled.st 1) 0x88 tw 0x5000 atPage desc1)) = true ∧ tiled.tileHeld (tiled.newTile (tiled.st 1) 0x80 tw 0x5000 atPage desc1) = false :=
  ⟨goes_all (by decide), ok_is (by decide), ok_is (by decide), by decide, by decide, by decide, by decide, by decide, by decide, by decide, by decide⟩
/-- The last element of a descriptor's tensor is in it and the next is not; ORD 7 is the last that TORD takes. -/
theorem witness_TileWordsArePosted_bounds : desc1.stored 31 31 = some (31, 31) ∧ desc1.stored 32 0 = none ∧ desc1.stored 0 32 = none ∧ 7 ≤ 7 ∧
    (tiled.tileOps.find? (fun y : TileOp => y.id == 3) = none) ∧ (tiled.postTile (tiled.newTile (tiled.st 1) 0x86 tw 0x5000 atPage desc1)).tileOps ≠ [] := by decide

/-- A record in slot 0: KIND 0, I8 to I8, 32 rows of 32 columns at 0x5000 with pitch 32, into slot 1, which is EMPTY. -/
def copying : State := one.setRank 1 0 fun r =>
  { r with slots := (r.slots.modify 0 fun x => { x with pay := x.pay.put 0 32 (0x660 + 0x5000 * 2 ^ 32 + 32 * 2 ^ 96 + 0x2020 * 2 ^ 128 + 2 ^ 160) }).modify 1 fun x => { x with state := .empty } }
/-- CPY tk1, [v0]. -/
def cw : Ins := { d := .tk 1, a := .v 0 }
def rec1 : CpyRec := CpyRec.of ((List.range 8).map fun i => BitVec.ofNat 32 ((copying.slot 1 0 0).pay.num (4 * i) 4))

/-- What its scratchpad access gives. -/
def cspad : State × Except Flow (Nat × Nat) := (copying.onWait cw 1).spad (copying.st 1) ((copying.onWait cw 1).sea (copying.st 1) 0xB0 cw) 32

theorem witness_CopyWords : Goes 0xB0 cw copying 1 ∧ ((copying.st 1).toks.getD 1 {}).busy = false ∧ cspad = (cspad.1, .ok (0, 0)) ∧
    copying.spadPoison 1 0 0 32 = false ∧ copying.spadClear (copying.st 1) 0 0 32 = true ∧ copying.cpyChecks (copying.st 1) rec1 0 = none :=
  ⟨goes (by decide), by decide, ok_is (by decide), by decide, by decide, by decide⟩
theorem witness_CopyWords_record : copying.copyDesc (copying.st 1) rec1 = ((copying.copyDesc (copying.st 1) rec1).1, .ok none) ∧ rec1.fromSlot = false ∧ rec1.tensor = false ∧
    copying.released 1 1 = true ∧ (copying.ownAll 1 0 (0 :: if rec1.toSlot then (List.range rec1.per).map (rec1.slot + ·) else [])).isSome :=
  ⟨ok_is (by decide), by decide, by decide, by decide, by decide⟩
theorem witness_CopyWords_chunk : (let c : Copy := { id := 5, sid := 1, uid := 1, ctx := 1, prank := 0, tok := 1, recordAt := 0, words := [], faulted := true }
    ({ (copying) with copies := [c] } : State).copies.find? (fun x => x.id == c.id) = some c ∧ c.faulted = true) := by decide

/-- An item of two ranks, the second with slot 1 EMPTY. -/
def two : State := one strand1 { item1 with ranks := item1.ranks ++ item1.ranks.map fun r => { r with core := 1, slots := r.slots.modify 1 fun x => { x with state := .filling } } }
/-- MCAST tk1, x0, x1 to a mask. -/
def mc (mask : BitVec 32) : Ins := { d := .tk 1, a := .x 0, b := .x 1, imm := mask }

theorem witness_MulticastWords : Goes 0xB1 (mc 2) two 1 ∧ Goes 0xB1 (mc 0) two 1 ∧ ((two.st 1).toks.getD 1 {}).busy = false ∧ bitN 2 (two.st 1).prank = false ∧
    2 < 2 ^ (two.it 1).ranks.length ∧ ¬ 4 < 2 ^ (two.it 1).ranks.length ∧ (two.slot 1 0 0).state = .ready ∧ two.released 1 1 = true ∧
    (let m : Mcast := { id := 5, sid := 1, uid := 1, prank := 0, tok := 1, src := 0, dst := 1, todo := [1] }
     let s : State := { (two) with mcasts := [m] }
     let e := s.setSlot 1 1 1 fun x => { x with state := .empty }
     s.mcasts.find? (fun x => x.id == m.id) = some m ∧ 1 ∈ m.todo ∧ s.filledBy m 1 = false ∧ s.rankDown 1 1 = false ∧ (s.slot 1 1 1).state ≠ .empty ∧
       (e.slot 1 1 1).state = .empty ∧ (e.arriveAt 1 1 1 m.owner).isSome) :=
  ⟨goes (by decide), goes (by decide), by decide, by decide, by decide, by decide, by decide, by decide, by decide⟩
/-- Both shapes of a delivery are met: one that leaves a rank, and the last. -/
theorem witness_MulticastWords_last : (([1, 2].filter fun k => k != 1).isEmpty = false) ∧ (([1].filter fun k => k != 1).isEmpty = true) := by decide

/-- XARM or XFREE of x1 or x0 with v6. -/
def xw (i : BitVec 9) : Ins := { a := .x i, b := .v 6 }
def empties (x : Word) : State := (withV6 x).setRank 1 0 fun r => { r with slots := r.slots.modify 1 fun x => { x with state := .empty } }

theorem witness_SlotWords : Goes 0xB3 (xw 1) (empties 1) 1 ∧ Goes 0xB3 (xw 1) (empties 65535) 1 ∧ Goes 0xB3 (xw 1) (empties 0) 1 ∧ Goes 0xB3 (xw 1) (empties 65536) 1 ∧ ((empties 65536).slot 1 0 1).state = .empty ∧
    (empties 65536).src ((empties 65536).st 1) {} (.v 6) = 65536 ∧ ((empties 1).ownSlot 1 0 1).isSome ∧
    Goes 0xB3 (xw 0) (empties 1) 1 ∧ ((empties 1).slot 1 0 0).state ≠ .empty ∧ Goes 0xB5 (xw 0) (empties 1) 1 ∧ (empties 1).spadClear ((empties 1).st 1) 0 0 1024 = true :=
  ⟨goes (by decide), goes (by decide), goes (by decide), goes (by decide), by decide, by decide, by decide, goes (by decide), by decide, goes (by decide), by decide⟩

/-- A Grinder block at the page: operation 0 on two sources, one element; sources, destination and flag in the same page. -/
def grinding : State := { (one) with mem := ((holding 32 (0x200 + 2 ^ 32 + 0x5100 * 2 ^ 64 + 0x5200 * 2 ^ 128 + 2 ^ 192)).mem).put 0x30020 16 (0x5300 + 0x5400 * 2 ^ 64) }
/-- REDC [v2], and NVSQ tk1, [v2], v6. -/
def gw : Ins := { a := .v 2 }
def nw : Ins := { d := .tk 1, a := .v 2, b := .v 6 }
def g1 : GrindRec := GrindRec.of (grinding.mem.bytes 0x30000 128)
def block1 : GBlock := { op := 0, n := 2, count := 1, srcs := [[0x30300], [0x30400]], dst := [0x30100], flag := 0x30200, flagval := 1, block := 0x30000, ctx := 1 }

theorem witness_GrinderWords : Goes 0xB6 gw grinding 1 ∧ (grinding.onWait gw 1).ea (grinding.st 1) 0xB6 gw = 0x5000 ∧
    (match grinding.access 1 (grinding.coreOf (grinding.st 1)) 1 0x5000 rd0 128 with
      | (_, .ok x) => x.pa == 0x30000
      | _ => false) = true ∧
    ((grinding.st 1).redc = none ∧ grinding.ownClear (grinding.st 1) 0x5000 0 0x30000 128 = true) ∧ grinding.released 1 1 = true ∧ grinding.poisonedAt 0x30000 128 = false ∧ g1.refused = false ∧
    (match (grinding.grindAll (grinding.st 1) (g1.count * grindBytes g1.op) g1.srcs).2 with
      | .ok xs => xs.map (·.map (·.loc)) == [[0], [0]] && xs.flatten.all fun y => stackOf y.pa == stackOf 0x30100
      | .error _ => false) = true ∧
    okB (grinding.grindPages (grinding.st 1) g1.dst (4 * g1.count) true) = true ∧ okB (grinding.grindPages (grinding.st 1) g1.flag 4 true) = true :=
  ⟨goes (by decide), by decide, by decide, by decide, by decide, by decide, by decide +kernel, by decide +kernel, by decide +kernel, by decide +kernel⟩
theorem witness_GrinderWords_events : (let s : State := { (one) with grinders := one.grinders.set 0 { queue := [block1] }, channels := [{ c := 0 }, { c := 999, compute := true }] }
    let t := s.setGrinder 0 fun _ => { running := some (block1, 0, false) }
    let u := s.setGrinder 0 fun _ => { running := some (block1, 1, false) }
    (s.grinders.getD 0 {}).running = none ∧ (s.grinders.getD 0 {}).queue = [block1] ∧ (t.grinders.getD 0 {}).running = some (block1, 0, false) ∧ 0 < 1 ∧ 1 ≤ block1.count ∧
      (u.grinders.getD 0 {}).running = some (block1, 1, false) ∧ block1.count ≤ 1 ∧ s.channels.find? (fun y => y.c == 0) = some { c := 0 } ∧
      s.channels.find? (fun y => y.c == 999) = some { c := 999, compute := true }) := by decide

/-- A live queue of the strand's context with one place, and an entry at the page: a Flush, or one with bits that R292 refuses. -/
def queue1 : NvQueue := { q := 3, live := true, ctx := 1, sqbase := 0x31000, cqbase := 0x32000 }
def queued (e : Nat) : State := { (holding 64 e) with nvqs := [queue1] }

theorem witness_StorageQueueWords : Goes 0xB7 nw (queued 0) 1 ∧ Goes 0xB7 nw (queued 0x300) 1 ∧ (queued 0).nvq 3 = some queue1 ∧ queue1.ctx = (queued 0).ctxOf ((queued 0).st 1) ∧
    (queued 0).ownClear ((queued 0).st 1) 0x5000 0 0x30000 64 = true ∧ (queued 0).poisonedAt 0x30000 64 = false ∧ nvOp ((queued 0).mem.bytes 0x30000 64) = 0 ∧ (queued 0).released 1 2 = true ∧
    queue1.cmds.length < queue1.depthm1 ∧
    (match ((queued 0).nvCheck ((queued 0).st 1) queue1 ((queued 0).mem.bytes 0x30000 64)).2 with
      | .ok _ => true
      | _ => false) = true ∧
    (match ((queued 0x300).nvCheck ((queued 0x300).st 1) queue1 ((queued 0x300).mem.bytes 0x30000 64)).2 with
      | .bad _ => true
      | _ => false) = true :=
  ⟨goes (by decide), goes (by decide), by decide, by decide, by decide, by decide, by decide, by decide, by decide, by decide, by decide⟩
theorem witness_StorageQueueWords_completion : (let c : NvCmd := { cid := 2, sid := 1, uid := 1, tok := 1, entry := List.replicate 64 0 }
    let d := { queue1 with cmds := [c] }
    let s : State := { (one) with nvqs := [d] }
    s.nvqs.find? (fun x => x.q == 3) = some d ∧ d.cmds.find? (fun x => x.cid == 2) = some c ∧ nvOp c.entry = 0 ∧ s.nvq 3 = some d) := by decide
/-- SYSW of register n from v6. -/
def yw (n : BitVec 32) : Ins := { a := .v 6, imm := n }

theorem witness_SystemWords_frame : Goes 0xC3 (yw 1) framed 1 ∧ Goes 0xC3 (yw 5) framed 1 ∧ (framed.st 1).isFrame = true := ⟨goes (by decide), goes (by decide), by decide⟩
theorem witness_SystemWords : Goes 0xC3 (yw 1) one 1 ∧ Goes 0xC3 (yw 2) one 1 ∧ Goes 0xC3 (yw 7) (withV6 1) 1 ∧ Goes 0xC3 (yw 8) (withV6 1000000) 1 ∧ one.sysWritable (one.st 1) 1 = true ∧
    one.sysWritable (one.st 1) 2 = true ∧ one.sysWritable (one.st 1) 7 = true ∧ one.sysWritable (one.st 1) 8 = true ∧ (one.st 1).isFrame = false ∧
    (withV6 1000000).src ((withV6 1000000).st 1) {} (.v 6) = 1000000 ∧ one.translatedBusy 1 none = false :=
  ⟨goes (by decide), goes (by decide), goes (by decide), goes (by decide), by decide, by decide, by decide, by decide, by decide, by decide, by decide⟩

/-- A strand parked at its word for a page, and the unit of a log entry, a tile operation or a copy that waits for one. -/
def paging : State := one { strand1 with park := .page 0x7000 false false, log := [{ acc := { store1 with id := 9, va := 0x7000 } }] }

theorem witness_PageService : 0x10028 % 8 = 0 ∧ 0x10028 + 8 ≤ Config.memTop ∧ (paging.st 1).park = .page 0x7000 false false ∧
    (paging.declined (paging.ctxOf (paging.st 1)) 0x7000 false false).isSome ∧
    ((paging.st 1).log.find? (fun e => e.acc.id == 9 && e.trap.cls == 4)).isSome ∧ (paging.declined 1 0x7000 true false).isSome ∧
    (let p := one.setPark 1 (.tile 0x7000 true); (p.st 1).park = .tile 0x7000 true ∧ (p.declined (p.ctxOf (p.st 1)) 0x7000 true false).isSome) ∧
    (let o : TileOp := { (tiled.newTile (tiled.st 1) 0x88 tw 0x5000 atPage desc1) with want := some (0x7000, false) }
     let s : State := { (tiled) with tileOps := [o] }
     s.tileOps.find? (fun x => x.id == o.id) = some o ∧ o.want = some (0x7000, false) ∧ (s.declined o.ctx 0x7000 false false).isSome) := by decide

theorem placed {s : State} {sid : Nat} (h : ((s.strand? sid).isSome && decide ((s.st sid).lane < 32) && (s.item? (s.st sid).uid).isSome
    && ((s.st sid).isFrame || (decide ((s.st sid).prank < (s.it (s.st sid).uid).ranks.length) && decide ((s.st sid).row < (s.rank (s.st sid).uid (s.st sid).prank).rows.length)))) = true) :
    Placed s sid := by
  simp only [Bool.and_eq_true, Bool.or_eq_true, decide_eq_true_eq] at h
  exact ⟨h.1.1.1, h.1.1.2, h.1.2, h.2⟩

theorem witness_TrapEntry : Placed one 1 ∧ (one.st 1).isFrame = false ∧ (one.st 1).traph = false ∧ (one.st 1).phase = .run ∧ (one.it 1).kernel.trapofs ≠ 0 :=
  ⟨placed (by decide), by decide, by decide, by decide, by decide⟩

/-- A strand in its trap handler, in its pre-empt handler, and in its resume handler; `late` has a deferred trap, `owing` a log entry whose access was refused. -/
def trapped : State := one { strand1 with traph := true, tr := { trpc := 0x3024 } }
def late : State := one { strand1 with traph := true, tr := { tcode := 0x105, trpc := 0x3024, tret := 5 } }
def owing : State := one { strand1 with traph := true, log := [{ acc := { store1 with id := 9 }, trap := ⟨5, 0, 0x5000, 9⟩, exempt := true }] }
def preempted : State := one { strand1 with phase := .preempt }
def resumed : State := one { strand1 with phase := .resume }
/-- CSAVE and CREST of v8 to v15, and words of the trap group. -/
def mw : Ins := { a := .v 8, imm := 0xFF }

theorem witness_HandlerWords : Goes 0xC0 { imm := 7 } one 1 ∧ Goes 0xC1 {} framed 1 ∧ (framed.st 1).isFrame = true ∧ Goes 0xC1 {} one 1 ∧ (one.st 1).isFrame = false ∧
    Goes 0xC4 mw preempted 1 ∧ (preempted.st 1).phase = .preempt ∧ maskRegs mw = [8, 9, 10, 11, 12, 13, 14, 15] ∧ Goes 0xC4 mw one 1 ∧ (one.st 1).phase ≠ .preempt ∧
    Goes 0xC5 mw resumed 1 ∧ (resumed.st 1).phase = .resume ∧ (resumed.restoreRegs (resumed.st 1) (maskRegs mw)).isSome ∧ Goes 0xC5 mw one 1 ∧
    Goes 0xC6 {} preempted 1 ∧ Goes 0xC6 {} one 1 :=
  ⟨goes (by decide), goes (by decide), by decide, goes (by decide), by decide, goes (by decide), by decide, by decide, goes (by decide), by decide, goes (by decide), by decide, by decide,
    goes (by decide), goes (by decide), goes (by decide)⟩
theorem witness_HandlerReturns : Goes 0xC7 {} trapped 1 ∧ (trapped.st 1).traph = true ∧ (trapped.st 1).phase ≠ .resume ∧ (trapped.st 1).allFaults = [] ∧ Goes 0xC7 {} late 1 ∧
    (late.st 1).tr.tcode.getLsbD 8 = true ∧ Goes 0xC7 {} owing 1 ∧ (owing.st 1).inService = false ∧ (owing.st 1).allFaults.length = 1 ∧ Goes 0xC7 {} resumed 1 ∧
    (resumed.restoreRegs (resumed.st 1) ((List.range (resumed.it 1).kernel.regs).filter fun i => !(resumed.st 1).handlerWrote.contains i)).isSome ∧
    Goes 0xC7 {} one 1 ∧ (one.st 1).traph = false ∧ Goes 0xC8 { d := .v 8 } one 1 ∧ (one.replayOne 1).2 = true ∧
    Goes 0xC8 { d := .v 8 } ({ (one.replayOne 1).1 with bundle := [1] } : State) 1 ∧ Fits generalOf { d := .v 8 } ({ (one.replayOne 1).1 with bundle := [1] } : State) 1 [0] 1 ∧
    (owing.replayOne 1).2 = false ∧
    Goes 0xC8 { d := .v 8 } owing 1 ∧ (owing.dropLogs [1]).2 = [1] ∧ Goes 0xC8 { d := .v 8 } (owing.dropLogs [1]).1 1 ∧ Fits generalOf { d := .v 8 } (owing.dropLogs [1]).1 1 [0] 1 :=
  ⟨goes (by decide), by decide, by decide, by decide, goes (by decide), by decide, goes (by decide), by decide, by decide, goes (by decide), by decide, goes (by decide), by decide,
    goes (by decide), by decide, goes (by decide), fits (by decide), by decide, goes (by decide), by decide, goes (by decide), fits (by decide)⟩
theorem witness_FaultService : (let s := one { strand1 with park := .bpt 3 }; let d : State := { (s) with debuggers := [1] }
    (s.st 1).park = .bpt 3 ∧ (d.st 1).park = .bpt 3 ∧ (d.ctx (d.ctxOf (d.st 1))).debugger = true) ∧
    (let s := one { strand1 with faults := [⟨4, 0x3000, ⟨0xB, 0, 0, 0⟩, false, none⟩] }
     (s.strand? 1).isSome ∧ s.active (s.st 1).uid = true ∧ ((s.st 1).allFaults.filter (fun f => !f.exempt && f.trap.cls != 4)).length = 1) ∧
    ((paging.st 1).isFrame = false ∧ paging.active (paging.st 1).uid = true ∧ ((paging.st 1).log.find? (fun e => e.acc.id == 9 && e.trap.cls == 4)).isSome) := by decide
theorem witness_Preemption : Placed one 1 ∧ one.livesOf 1 = [1] ∧ (one.st 1).isFinishing = false ∧ (one.st 1).phase = .run ∧ (one.it 1).status = .resident ∧ (one.it 1).kernel.preemptofs ≠ 0 ∧
    (let k := one strand1 { item1 with kernel := { kern with preemptofs := 0 } }; (k.item? 1).isSome ∧ (k.it 1).status = .resident ∧ (k.it 1).kernel.preemptofs = 0) ∧
    (let d := one strand1 { item1 with status := .preempting 0 false }; (d.it 1).status = .preempting 0 false ∧ d.saveDue 1 = false ∧ 0 ≤ d.nstime) :=
  ⟨placed (by decide), by decide, by decide, by decide, by decide, by decide, by decide, by decide⟩
/-- Two items on core 0, each waiting for storage. -/
def short : State :=
  { (one) with
    strands := [{ strand1 with park := .storage }, { strand1 with sid := 2, uid := 2, park := .storage }]
    items := [item1, { item1 with uid := 2, order := 1 }] }
theorem witness_Preemption_evict : (short.ranksOn 0).map (fun z => (z.1.uid, z.1.order)) = [(1, 0), (2, 1)] ∧
    (∀ z ∈ short.ranksOn 0, (short.it z.1.uid).status = .resident ∧ ∃ st ∈ short.strands, st.uid = z.1.uid ∧ st.isFrame = false ∧ st.park = .storage) := by decide
theorem canonical_one : Canonical one := ⟨by decide, rfl, rfl, rfl⟩
theorem witness_Containment : 49 < Config.clusters ∧ 49 < one.clusters.length ∧ (let s : State := { (one) with links := one.links.set 63 (some 4095) }; s.links.getD 63 none = some 4095) ∧
    (let a := { store1 with kind := .load, loc := 2 }; let s : State := { (pended [a]) with now := 17000000 }
     s.pend.find? (fun x => x.id == a.id) = some a ∧ a.loc = 2 ∧ a.issued + (s.ctx a.ctx).rcto.toNat * 1000 * Config.perNs ≤ s.now) ∧
    Config.memTop - 1 < Config.memTop := by decide
theorem witness_StorageWords : Goes 0x64 { d := .v 8 } one 1 ∧ isGeneral ((one.rowOf (one.st 1)).reg 8).shape = false ∧ Goes 0x64 { d := .v 2 } apart 1 ∧
    isGeneral ((apart.rowOf (apart.st 1)).reg 2).shape = true ∧ ((apart.rowOf (apart.st 1)).reg 2).tref = false ∧
    (one.grow 1 0 fun u => u.setRow (one.st 1) fun row => row.setReg 8 { shape := .general (List.replicate 32 0) }).isSome ∧
    (((one { strand1 with park := .storage }).st 1).owed = [] ∧ ((one { strand1 with park := .storage }).st 1).park = .storage ∧ ((one { strand1 with park := .storage }).st 1).due = false) ∧
    (let s := one { strand1 with park := .storage, phase := .resume, due := true }; (s.st 1).owed = [] ∧ (s.st 1).park = .storage ∧ (s.st 1).due = true) ∧ ((one { strand1 with park := .sleep 0 }).st 1).park = .sleep 0 :=
  ⟨goes (by decide), by decide, goes (by decide), by decide, by decide, by decide, by decide, by decide, by decide⟩
/-- A core whose register words are all taken by a second item's general registers. -/
def full : State :=
  { (one) with items := [item1, { item1 with uid := 2, ranks := [{ rows := List.replicate 64 { regs := List.replicate 128 { shape := .general [] } } }] }] }
theorem witness_StorageWords_full : goesB 0x64 { d := .v 8 } full = true ∧ (full.grow 1 0 fun u => u.setRow (full.st 1) fun row => row.setReg 8 { shape := .general (List.replicate 32 0) }) = none := by
  decide +kernel
/-- A row of two lanes on such a core: a write for one of them takes storage that is not there. -/
def crowdedRow (st : Strand) : State := { full with strands := [st, { strand1 with sid := 2, lane := 1 }] }
theorem witness_HandlerReturns_full : (let s := crowdedRow { strand1 with traph := true, log := [{ acc := { store1 with id := 9, kind := .load, ty := 1, dest := some 8 }, trap := ⟨5, 0, 0x5000, 9⟩, exempt := true }] }
    goesB 0xC8 { d := .v 8 } s && (s.dropLogs [1]).2.isEmpty) = true := by decide +kernel
/-- A result owed: with storage for it, and without. -/
def owed1 : Owed := { id := 3, dest := 8, vals := [5] }
theorem witness_StorageWords_owed : (let s := one { strand1 with park := .storage, owed := [owed1] }
    Placed s 1 ∧ (s.st 1).owed = [owed1] ∧ (s.st 1).due = false ∧ (∀ x ∈ s.strands, sameRow x (s.st 1) = true → (∃ y ∈ x.owed, y.id = owed1.id) → x = s.st 1) ∧ (s.payOne false 1 owed1).isSome) ∧
    (let s := crowdedRow { strand1 with park := .storage, owed := [owed1] }
     (s.st 1).owed = [owed1] ∧ (s.st 1).due = false ∧ (∀ x ∈ s.strands, sameRow x (s.st 1) = true → (∃ y ∈ x.owed, y.id = owed1.id) → x = s.st 1) ∧ (s.payOne false 1 owed1).isSome = false) :=
  ⟨⟨placed (by decide), by decide, by decide, by decide, by decide⟩, by decide, by decide, by decide, by decide +kernel⟩
theorem witness_StorageWords_result : goesB 0x20 { w66 with a := .v 9 } full = true ∧ fitsB (fun _ _ _ _ => none) w66 full [6] 1 = false := by decide +kernel

-- the launch unit

/-- A packet for context 1: one strand, one item, kernel header at 0x5000, SAVEBASE 0x5000, cluster 0. -/
def packet1 : List Byte :=
  leBytes 4 0 ++ leBytes 4 1 ++ leBytes 4 1 ++ leBytes 4 0 ++ leBytes 8 0x5000 ++ List.replicate 56 0 ++ leBytes 8 0x5000 ++ leBytes 8 1 ++ leBytes 1 1 ++ List.replicate 31 0
/-- The header there: magic, REGS 32, CALLDEPTH 2, STRANDSMAX 1, code at 0x3000, ENTRY 0, CODELEN 960. -/
def launching (h : HeadState) (bytes : List Byte := packet1) : State :=
  { (one) with
    mem := ((holding 32 (0x594C5331 + 32 * 2 ^ 32 + 2 * 2 ^ 48 + 2 ^ 128 + 0x3000 * 2 ^ 192)).mem).put 0x30038 4 960
    queues := one.queues.set 3 { packets := [{ bytes := bytes }], head := h } }

/-- Port 0 set as endpoint with its link up, and a doorbell with its counter at the page. -/
def hosted : State := { (one) with ports := [{ set := true, up := true }, {}], doorbells := [(0, 0x30000)] }

theorem witness_LaunchPorts_host : hosted.hostUp = true ∧ one.hostUp = false ∧ (0x3FFF < 0x4000 ∧ 0x3F00 % 256 + 128 ≤ 256 ∧ 511 < 512 ∧ 0x5000 ≤ 0x5000) := by decide
theorem witness_LaunchUnit_dead : (let p := Packet.fields { bytes := (packet1.set 0x60 2).set 0x40 8 }; p.ctx = 2 ∧ (launching .unchecked).headDead p = true) ∧
    (launching .unchecked).headDead (Packet.fields { bytes := packet1 }) = false := by decide +kernel
theorem witness_LaunchPorts : packet1.length = 128 ∧ (one.queues.getD 3 {}).packets.length < 32 ∧ 3 < one.queues.length ∧
    (let s := one.setQueue 3 fun _ => { packets := List.replicate 32 { bytes := [] } }; 32 ≤ (s.queues.getD 3 {}).packets.length) := by decide
theorem witness_LaunchUnit_head :
    (match (launching .unchecked).headCheck (Packet.fields { bytes := packet1 }) with
      | (_, .ok _ _) => true
      | _ => false) = true ∧
    (match (launching .unchecked).headCheck (Packet.fields { bytes := packet1.set 32 4 }) with
      | (_, .bad) => true
      | _ => false) = true := by decide +kernel
theorem witness_LaunchUnit_waits : (let p := Packet.fields { bytes := packet1 }
    (launching .checked).waitOk p.ctx p.w0addr p.w0val = true ∧ (launching .checked).waitOk p.ctx p.w1addr p.w1val = true) := by decide +kernel
theorem witness_LaunchUnit_age : (let s := { (launching (.eligible 0)) with now := agePeriod }
    ((s.queues.getD 3 {}).head = .eligible 0) ∧ (s.queues.getD 3 {}).aged < (s.now - 0) / agePeriod) := by decide +kernel
theorem witness_LaunchUnit_select : (launching (.eligible 0)).candidates = [3] ∧
    (match (launching (.eligible 0)).load { bytes := packet1 } with
      | (_, .ok k args rows) => k.regs == 32 && k.strandsmax == 1 && k.codelen == 960 && args == [] && rows == [1]
      | _ => false) = true ∧
    (match (launching (.eligible 0)).load { bytes := packet1.set 80 1 } with
      | (_, .bad code) => code == 0x10
      | _ => false) = true := by decide +kernel
theorem witness_LaunchUnit_sweep : one.lastSweep = none ∧ (∀ la ∈ ({ (one) with launches := [] } : State).launches, la.prepared = true) := by decide

/-- A word passed by its guard, held up by a token, and one with an empty register or a poisoned one. -/
def shaped (f : VReg → VReg) : State := one strand1 { item1 with ranks := item1.ranks.map fun r => { r with rows := r.rows.map fun w => w.setReg 6 (f (w.reg 6)) } }

/-- A TAGST in the log keeps a word that checks tags back; a busy token the word waits on or names does. -/
theorem witness_WordVerdicts_waits : (let s := one { strand1 with log := [{ acc := { store1 with id := 9, kind := .tagStore } }] }
    checksTags 0x90 = true ∧ s.held (s.st 1) 0x90 = false ∧ s.verdict 0x90 ldw (s.st 1) = .wait) ∧
    (let s := one { strand1 with toks := strand1.toks.set 1 { busy := true } }
     s.verdict 0xB0 cw (s.st 1) = .wait ∧ s.verdict 0x20 { w66 with wait := 2 } (s.st 1) = .wait) := by decide
theorem witness_WordVerdicts : one.verdict 0x20 { w66 with guard := ⟨true, 7⟩ } (one.st 1) = .pass ∧ (one.st 1).doomed = false ∧ (one.st 1).eretw = false ∧ one.unsettled (one.st 1) = [] ∧
    framed.verdict 0x1A {} (framed.st 1) = .ship ∧ one.verdict 0x20 w66 (one.st 1) = .go ∧
    (shaped fun v => { v with empty := 1 }).verdict 0x20 w66 (one.st 1) = .wait ∧ (shaped fun v => { v with empty := 1 }).verdict 0x20 { w66 with fe := true } (one.st 1) = .trap ⟨2, 0, 0, 0⟩ ∧
    (shaped fun v => { v with poison := 1 }).verdict 0x20 w66 (one.st 1) = .trap ⟨0x0C, 1, 0, 0⟩ := by decide

-- the device's surroundings and the machine

theorem canonical_hosted : Canonical hosted := ⟨canonical_one.1, rfl, rfl, rfl⟩
theorem witness_HostAccesses : hosted.hostUp = true ∧ one.hostUp = false ∧ Config.memTop - 1 < Config.memTop ∧
    1 = min [0x12#8, 0x34#8].length (Config.memTop - (Config.memTop - 1)) ∧ Config.memTop ≤ Config.memTop ∧ hosted.doorbellAt 0 = some 0x30000 ∧ hosted.doorbellAt 1 = none ∧
    1 < hosted.ports.length := by decide
theorem witness_NarrowingAndResets : (let s : State := { (one) with palert := some (some 0), now := 1700000 }; s.palert = some (some 0) ∧ 0 + 100000 * Config.perNs ≤ s.now) ∧ 6 < one.thermal.length ∧
    thermalLevel (one.thermal.getD 0 0) 40 < 3 ∧ one.thermal.getD 6 0 < 3 ∧ thermalLevel 0 114 < 3 ∧ ¬ thermalLevel 0 115 < 3 := by decide
theorem witness_BootAndAttestation : State.reset.boot = .off ∧ (let s : State := { (one) with boot := .retry 1 0 }; s.boot = .retry 1 0 ∧ 0 ≤ s.now) ∧
    (let s : State := { (one) with boot := .started, clusters := List.replicate 50 {} }
     s.boot = .started ∧ (s.clusters.filter fun c => c.released.isSome).length = 0 ∧ s.spdmVia = .tcp 0 ∧ s.carries (.tcp 0) = true ∧ s.carries (.tcp 2) = false ∧ hosted.carries (.doe 0) = true ∧
       hosted.carries (.doe 1) = false) ∧
    (let s : State := { (one) with boot := .started, now := 4000 * Config.perNs }
     (s.clusters.filter fun c => c.released.isSome).length = 0 + 1 ∧ (s.clusters.getD (releaseOrder 0) {}).released = some 0 ∧ 0 + 4000 * Config.perNs ≤ s.now) ∧
    releaseOrder 0 < 50 ∧ releaseOrder 49 < 50 := by decide
/-- A fetched NOP of strand 1 is what a step executes; an event on the agenda is too. -/
def stepping : State := State.reset.withFetchWord 96 (0x07 * 2 ^ 88 + 7 * 2 ^ 84)

theorem witness_StepRunsTheDecodedInstruction : stepping.nextAct = .issue [1] ∧ (stepping.begin.strand? 1).isSome ∧ stepping.begin.canIssue (stepping.begin.st 1) = true ∧
    (match stepping.begin.fetchUnit (stepping.begin.st 1) with
      | (u, .ok bs) => (decodeWith (u.limitsOf (u.st 1)) bs == some (.nop {}, [])) && !stepping.begin.behind (stepping.begin.st 1) (unitOp bs) && !u.held (u.st 1) 0x07
      | _ => false) = true ∧
    ({ State.reset with agenda := [.event .powerLoss] } : State).nextAct = .event .powerLoss ∧ Instr.powerLoss.word? = none := by decide +kernel
theorem witness_StepKeepsMemoryCanonical : Canonical State.reset ∧ ∃ t, step { State.reset with agenda := [.event .powerLoss] } = .next t := ⟨⟨rfl, rfl, rfl, rfl⟩, _, rfl⟩
theorem witness_DecodeOfEncode : (Instr.iadd { d := .v 6, a := .v 6, b := .imm .zext, imm := 1 }).word?.isSome ∧ (Instr.iadd { d := .v 6, a := .v 6, b := .imm .zext, imm := 1 }).wfWith Limits.max = true := by decide
theorem witness_ComputingWordsFrame : Goes 0x20 w66 one 1 ∧ ∃ t, exec (.iadd w66) one = .next t := ⟨goes (by decide), _, rfl⟩
theorem canonical_paging : Canonical paging := ⟨canonical_one.1, rfl, rfl, rfl⟩
theorem canonical_pended (as : List Acc) : Canonical (pended as) := ⟨canonical_one.1, rfl, rfl, rfl⟩
theorem witness_WritesFrame : (let a := { store1 with stage := 1 }; let s := pended [a]
    s.pend.find? (fun x => x.id == a.id) = some a ∧ a.loc ≤ 2 ∧ (s.it (s.st a.sid).uid).status = .resident ∧ s.mayReachHome a = true ∧ s.peerGone a = false) ∧
    (let s := pended [atomic1]
     s.pend.find? (fun x => x.id == 5) = some atomic1 ∧ s.mayExecute atomic1 = true ∧ s.peerGone atomic1 = false ∧ s.poisonedIn atomic1.loc atomic1.pa atomic1.width = false ∧ atomic1.acq ≠ some 3 ∧
       atomic1.merged = []) := by decide

end Sys2Proof.Tests
end

section
/-! SUPPORT. The shift words: their operation width, their count, and the proof that they compute what R130 and R171 say. -/

namespace Sys2Proof.Proofs

open Sys2Proof Sys2Proof.Machine Sys2Proof.Safety Sys2Proof.Laws

/-- The 64-bit types are those of width 64 (R117). -/
theorem wideTy_iff_intWidth (ty : Nat) : wideTy ty = true ↔ intWidth ty = 64 := by
  unfold wideTy intWidth
  split
  case h_7 hne2 hne3 _ _ => simp [show ¬ ty = 2 from hne2, show ¬ ty = 3 from hne3]
  all_goals simp

theorem shiftW_eq (ty : Nat) : shiftW ty = if intWidth ty = 64 then 64 else 32 := by
  simp only [shiftW, wideTy_iff_intWidth]

theorem shiftW_dvd (ty : Nat) : (shiftW ty : Int) ∣ ((2 ^ 64 : Nat) : Int) := by
  unfold shiftW
  split <;> norm_num

/-- Wrapping to 64 bits keeps a number's residue modulo every divisor of 2^64. -/
theorem wrapN_mod {W : Nat} (z : Int) (hW : (W : Int) ∣ ((2 ^ 64 : Nat) : Int)) : wrapN 64 z % W = (z % W).toNat := by
  have hz : 0 ≤ z % ((2 ^ 64 : Nat) : Int) := Int.emod_nonneg _ (by norm_num)
  calc wrapN 64 z % W = (z % ((2 ^ 64 : Nat) : Int) % W).toNat := (Int.toNat_emod hz (Int.natCast_nonneg W)).symm
    _ = (z % W).toNat := by rw [Int.emod_emod_of_dvd z hW]

/-- The words a shift writes (R130, R171): `g` of the operation width, the type's width, the pattern of A, and B modulo the operation width. -/
def shiftWords (g : Nat → Nat → Nat → Nat → Int) (s : State) (st : Strand) (w : Ins) : List Word :=
  let W : Nat := if intWidth w.ty.toNat = 64 then 64 else 32
  intWords w.ty.toNat (wrapInt w.ty.toNat
    (g W (intWidth w.ty.toNat) (s.srcTy st w w.ty.toNat w.a) (s.srcInt st w w.ty.toNat w.b % W).toNat))

theorem shiftOp_eq_alu (op : Nat) (g : Nat → Nat → Nat → Nat → Int) (w : Ins) (s : State) :
    shiftOp op (fun W a k => g W (intWidth w.ty.toNat) a k) w s =
      s.alu op w (tyWords w) (ruleOf op w) fun s st => shiftWords g s st w := by
  simp only [shiftOp, shiftWords, ← shiftW_eq, wrapN_mod _ (shiftW_dvd w.ty.toNat)]

/-- A word that is one shift operation, of an opcode whose results the table of R166 never makes affine, computes the shift's words. -/
theorem computes_of_shift {i : Ins → Instr} {op : Nat} {g : Nat → Nat → Nat → Nat → Int}
    (ho : op ≠ 0x0A ∧ op ≠ 0x38 ∧ op ≠ 0x20 ∧ op ≠ 0x21 ∧ op ≠ 0x22 ∧ op ≠ 0x36)
    (he : ∀ w s, exec (i w) s = .next (shiftOp op (fun W a k => g W (intWidth w.ty.toNat) a k) w s)) :
    ComputesRule i op tyWords (shiftWords g) :=
  computes_of_rule ho fun w s => by rw [he, shiftOp_eq_alu]

/-- SAR divides by a power of two taken among the integers. -/
theorem exec_sar (w : Ins) (s : State) :
    exec (.sar w) s = .next (shiftOp 0x2F (fun _ a k => signedN (intWidth w.ty.toNat) a / 2 ^ k) w s) := by
  have hpow : ∀ k : Nat, (2 : Int) ^ k = ((2 ^ k : Nat) : Int) := fun k => (Nat.cast_pow 2 k).symm
  simp only [hpow]
  rfl

/-- Settles O3: each of the three shifts is one shift operation, whose count is B modulo the operation width because that width divides 2^64. -/
theorem shiftResults : Obligations.ShiftResults := by
  unfold Obligations.ShiftResults
  simp only [List.forall_mem_cons, List.not_mem_nil, false_imp_iff, implies_true, and_true]
  refine ⟨?shl, ?shr, ?sar⟩
  case shl => exact computes_of_shift (g := fun W n a k => ((a % 2 ^ n * 2 ^ k % 2 ^ W : Nat) : Int)) (by decide) fun _ _ => rfl
  case shr => exact computes_of_shift (g := fun _ n a k => ((a % 2 ^ n / 2 ^ k : Nat) : Int)) (by decide) fun _ _ => rfl
  case sar => exact computes_of_shift (g := fun _ n a k => signedN n a / 2 ^ k) (by decide) exec_sar

end Sys2Proof.Proofs
end

section
/-! SUPPORT. The bit-count words: the model's bit lists, leading-zero count and bit reversal are the counts and sums over single bits that R172 states. -/

namespace Sys2Proof.Proofs

open Sys2Proof Sys2Proof.Machine Sys2Proof.Safety Sys2Proof.Laws

/-- A word that computes keeps doing so when its values are written another way. -/
theorem computesRule_congr {i : Ins → Instr} {op : Nat} {n : Ins → Nat} {f g : State → Strand → Ins → List Word}
    (h : ComputesRule i op n f) (hfg : ∀ s st w, f s st w = g s st w) : ComputesRule i op n g := by
  obtain rfl : f = g := funext fun s => funext fun st => funext fun w => hfg s st w
  exact h

theorem bitN_eq_testBit (x i : Nat) : bitN x i = x.testBit i := by
  rw [Nat.testBit_eq_decide_div_mod_eq, bitN, Nat.shiftRight_eq_div_pow]
  rfl

theorem length_setBits (n x : Nat) : (setBits n x).length = (List.range n).countP fun i => x.testBit i := by
  simp only [setBits, bitN_eq_testBit, List.countP_eq_length_filter]

theorem revN_eq_sum (n x : Nat) :
    revN n x = ((List.range n).map fun i => if x.testBit (n - 1 - i) then 2 ^ i else 0).sum := by
  simp only [revN, maskOf, bitN_eq_testBit]

/-- Below `n`, the first index at which a predicate fails is the length of the prefix on which it holds. -/
theorem length_takeWhile_range {p : Nat → Bool} {n k : Nat} (hk : k < n) (hat : p k = false) (hbelow : ∀ j < k, p j = true) :
    ((List.range n).takeWhile p).length = k := by
  have hfind : (List.range n).findIdx (fun i => !p i) = k := by
    rw [List.findIdx_eq (by simpa using hk)]
    simpa [hat] using hbelow
  rw [List.takeWhile_eq_take_findIdx_not, hfind, List.length_take, List.length_range]
  omega

/-- R172: counting zero bits from bit n - 1 down gives the model's `clzN`. The count stops at the highest set bit, which is bit `log2` of the pattern; of a pattern of 0 it takes in every bit. -/
theorem clzN_eq_length_takeWhile (n x : Nat) :
    clzN n x = ((List.range n).takeWhile fun i => !x.testBit (n - 1 - i)).length := by
  have hbit : ∀ i < n, x.testBit i = (x % 2 ^ n).testBit i := fun i hi => by simp [Nat.testBit_mod_two_pow, hi]
  unfold clzN
  split
  case isTrue hzero =>
    have hall : ∀ i ∈ List.range n, (!x.testBit (n - 1 - i)) = true := fun i hi => by
      have := List.mem_range.mp hi
      rw [hbit _ (by omega), hzero, Nat.zero_testBit]
      rfl
    rw [List.takeWhile_eq_self_iff.mpr hall, List.length_range]
  case isFalse hne =>
    have hlog : (x % 2 ^ n).log2 < n := (Nat.log2_lt hne).mpr (Nat.mod_lt x (Nat.two_pow_pos n))
    symm
    refine length_takeWhile_range (by omega) ?at_top ?above_top
    case at_top =>
      rw [hbit _ (by omega), show n - 1 - (n - 1 - (x % 2 ^ n).log2) = (x % 2 ^ n).log2 by omega, Nat.testBit_log2 hne]
      rfl
    case above_top =>
      intro j hj
      have habove : x % 2 ^ n < 2 ^ (n - 1 - j) := (Nat.log2_lt hne).mp (by omega)
      rw [hbit _ (by omega), Nat.testBit_lt_two_pow habove]
      rfl

/-- Settles O4: each word is one alu operation of a uniform or general result, and its value is the rule's by the lemmas above. -/
theorem bitCountResults : Obligations.BitCountResults := by
  unfold Obligations.BitCountResults
  refine ⟨?popc, ?clz, ?brev⟩
  case popc => exact computesRule_congr (computes_of_rule (by decide) fun _ _ => rfl) fun s st w => by rw [length_setBits]
  case clz => exact computesRule_congr (computes_of_rule (by decide) fun _ _ => rfl) fun s st w => by rw [clzN_eq_length_takeWhile]
  case brev => exact computesRule_congr (computes_of_rule (by decide) fun _ _ => rfl) fun s st w => by rw [revN_eq_sum]

end Sys2Proof.Proofs
end

section
/-! SUPPORT. The move words: a condition of ISET as a truth value, SEL's choice of operand, and the pair of LEA as a sum modulo 2^64. -/

namespace Sys2Proof.Proofs

open Sys2Proof Sys2Proof.Machine Sys2Proof.Safety Sys2Proof.Laws

theorem truthWords_eq (w : Ins) (b : Bool) : truthWords w b = intWords w.ty.toNat (if b then 1 else 0) := by
  cases b <;> rfl

/-- Bit 3 of SEL's FN, which negates its predicate (R175). -/
theorem bitN_three (x : Nat) : bitN x 3 = (x / 8 % 2 == 1) := by
  rw [bitN, Nat.shiftRight_eq_div_pow]

/-- A 64-bit result's pair, low word first (R117), read off any number that is it modulo 2^64. -/
theorem pair_ofNat (x : Nat) :
    [(BitVec.ofNat 64 x).setWidth 32, (BitVec.ofNat 64 x).extractLsb' 32 32] = [BitVec.ofNat 32 x, BitVec.ofNat 32 (x / 2 ^ 32)] := by
  have hlow : (BitVec.ofNat 64 x).setWidth 32 = BitVec.ofNat 32 x := by
    apply BitVec.eq_of_toNat_eq
    simp only [BitVec.toNat_setWidth, BitVec.toNat_ofNat]
    omega
  have hhigh : (BitVec.ofNat 64 x).extractLsb' 32 32 = BitVec.ofNat 32 (x / 2 ^ 32) := by
    apply BitVec.eq_of_toNat_eq
    simp only [BitVec.extractLsb'_toNat, BitVec.toNat_ofNat, Nat.shiftRight_eq_div_pow]
    omega
  rw [hlow, hhigh]

/-- An address plus a shifted offset is the sum of the numbers modulo 2^64 (R176). -/
theorem add_shiftLeft_eq_ofNat (a x : Addr) (k : Nat) : a + x <<< k = BitVec.ofNat 64 (a.toNat + x.toNat * 2 ^ k) := by
  apply BitVec.eq_of_toNat_eq
  simp only [BitVec.toNat_add, BitVec.toNat_shiftLeft, BitVec.toNat_ofNat, Nat.shiftLeft_eq, Nat.add_mod_mod]

/-- The extension of LEA's B as a number: by its sign, or by zeros, which keep it as it is (R176). -/
theorem toNat_extend (b : Word) (c : Prop) [Decidable c] :
    (if c then b.signExtend 64 else b.setWidth 64 : Addr).toNat = if c then (b.signExtend 64).toNat else b.toNat := by
  split
  · rfl
  · exact BitVec.toNat_setWidth_of_le (by decide)

/-- LEA's sum as a pair of words (R176). -/
theorem lea_words (a : Addr) (b : Word) (c : Prop) [Decidable c] (k : Nat) :
    let d := a + (if c then b.signExtend 64 else b.setWidth 64 : Addr) <<< k
    let x : Nat := a.toNat + (if c then (b.signExtend 64).toNat else b.toNat) * 2 ^ k
    [d.setWidth 32, d.extractLsb' 32 32] = [BitVec.ofNat 32 x, BitVec.ofNat 32 (x / 2 ^ 32)] := by
  intro d x
  have hd : d = BitVec.ofNat 64 x := by simp only [d, x, add_shiftLeft_eq_ofNat, toNat_extend]
  rw [hd, pair_ofNat]

/-- SEL moves A exactly where the predicate and the negation bit differ (R175). -/
theorem sel_computes :
    ComputesRule .sel 0x36 tyWords fun s st w => s.srcMove st w (if st.pred (w.fn.toNat % 8) = (w.fn.toNat / 8 % 2 == 1) then w.b else w.a) := by
  have hsel : ComputesRule .sel 0x36 tyWords fun s st w => s.srcMove st w (if st.pred (w.fn.toNat % 8) != bitN w.fn.toNat 3 then w.a else w.b) :=
    computes_of_alu (fun _ _ => rfl) fun _ _ _ => sel_sound _
  refine computesRule_congr hsel fun s st w => ?_
  simp only [bitN_three, bne_iff_ne, ite_not]

/-- Settles O6: ISET by its six conditions, SEL and MOV because an affine source keeps its value when it is moved, LEA by its sum modulo 2^64. -/
theorem moveResults : Obligations.MoveResults := by
  unfold Obligations.MoveResults
  refine ⟨?iset, ?sel, ?mov, ?lea⟩
  case iset =>
    refine computesRule_congr (computes_of_rule (by decide) fun _ _ => rfl) fun s st w => ?_
    rw [truthWords_eq]
    congr 3
    generalize s.srcInt st w w.ty.toNat w.a = a, s.srcInt st w w.ty.toNat w.b = b, w.fn.toNat = k
    match k with
    | 0 => rfl
    | 1 => exact (decide_not (p := a = b)).symm
    | 2 => rfl
    | 3 => rfl
    | 4 => rfl
    | _ + 5 => rfl
  case sel => exact sel_computes
  case mov => exact computes_of_alu (fun _ _ => rfl) fun _ _ _ => mov_sound
  case lea => exact computesRule_congr (computes_of_rule (by decide) fun _ _ => rfl) fun s st w => lea_words _ _ _ _

end Sys2Proof.Proofs
end

section
/-! SUPPORT. The slot words: how a word that acts strand by strand ends for a lone strand, and the cases of XARM and XFREE (R273, R276). -/

namespace Sys2Proof.Proofs

open Sys2Proof Sys2Proof.Machine Sys2Proof.Safety Sys2Proof.Laws

section each
variable {i : Instr} {op : Nat} {w : Ins} {s u : State} {sid : Nat} {body : State → Strand → State × Flow}

/-- A lone strand whose part in a word ends by going on. -/
theorem goesOnFrom_of_each (hG : Goes op w s sid) (he : exec i s = .next (s.each op w body))
    (hb : body (s.onWait w sid) ((s.onWait w sid).st sid) = (u, .next)) : GoesOnFrom i s u sid w := by
  rw [GoesOnFrom, he, each_go hG, hb]
  rfl

/-- A lone strand whose part in a word is a trap and changes nothing before it. -/
theorem traps_of_each {tr : Trap} (hG : Goes op w s sid) (he : exec i s = .next (s.each op w body))
    (hb : body (s.onWait w sid) ((s.onWait w sid).st sid) = (s.onWait w sid, .trap tr)) : Traps i s sid w tr := by
  rw [Traps, he, each_go hG, hb]
  rfl

end each

section slots
variable {w : Ins} {s s2 : State} {sid : Nat}

/-- XARM's test of its count is the range test of R273. -/
theorem count_out_of_range_iff (n : Word) : (n = 0 ∨ n.toNat > 65535) ↔ n.toNat = 0 ∨ 65535 < n.toNat := by
  rw [← BitVec.toNat_inj]
  rfl

/-- XARM of an EMPTY slot with a count in range arms it once the slot has storage of its own (R71, R273); its OWNER is the arming strand (log 117). -/
theorem xarm_arms (hG : Goes 0xB3 w s sid) :
    let s1 := s.onWait w sid
    let st := s1.st sid
    let n := (s1.src st w w.b).toNat
    (s1.slot st.uid st.prank (xOf w.a)).state = .empty → 1 ≤ n → n ≤ 65535 → s1.ownSlot st.uid st.prank (xOf w.a) = some s2 →
      GoesOnFrom (.xarm w) s (s2.setSlot st.uid st.prank (xOf w.a) fun y =>
        { y with state := .filling, expect := BitVec.ofNat 16 n, cerr := false, owner := s2.ownerOf st }) sid w := by
  intro s1 st n hempty hpos hmax hown
  have hcount : ¬ (s1.src st w w.b = 0 ∨ (s1.src st w w.b).toNat > 65535) := by
    rw [count_out_of_range_iff]
    omega
  refine goesOnFrom_of_each hG rfl ?_
  simp only [s1, st] at hempty hcount hown ⊢
  simp only [hempty, ne_eq, not_true_eq_false, if_false, if_neg hcount, hown]
  rfl

/-- XARM looks at the slot before the count (R273, log 116). -/
theorem xarm_traps_slot (hG : Goes 0xB3 w s sid) :
    let s1 := s.onWait w sid
    let st := s1.st sid
    (s1.slot st.uid st.prank (xOf w.a)).state ≠ .empty → Traps (.xarm w) s sid w ⟨7, 4, 0, 0⟩ := fun hslot =>
  traps_of_each hG rfl (if_pos hslot)

/-- XARM of an EMPTY slot with a count out of range (R273). -/
theorem xarm_traps_count (hG : Goes 0xB3 w s sid) :
    let s1 := s.onWait w sid
    let st := s1.st sid
    let n := (s1.src st w w.b).toNat
    (s1.slot st.uid st.prank (xOf w.a)).state = .empty → n = 0 ∨ 65535 < n → Traps (.xarm w) s sid w ⟨8, 15, 0, 0⟩ :=
  fun hempty hcount => traps_of_each hG rfl <|
    (if_neg (not_not.mpr hempty)).trans (if_pos ((count_out_of_range_iff _).mpr hcount))

/-- XFREE of a READY slot frees it once the strand's own accesses to it have performed and it has storage of its own (R71, R276). -/
theorem xfree_frees (hG : Goes 0xB5 w s sid) :
    let s1 := s.onWait w sid
    let st := s1.st sid
    (s1.slot st.uid st.prank (xOf w.a)).state = .ready → s1.spadClear st st.prank (1024 * xOf w.a) 1024 = true →
      s1.ownSlot st.uid st.prank (xOf w.a) = some s2 → GoesOnFrom (.xfree w) s (s2.freeSlot st.uid st.prank (xOf w.a)) sid w := by
  intro s1 st hready hclear hown
  refine goesOnFrom_of_each hG rfl ?_
  simp only [s1, st] at hready hclear hown ⊢
  simp [hready, hclear, hown]

end slots

/-- Settles O36: one law above for each way XARM ends, and the one for XFREE. -/
theorem slotWords : Obligations.SlotWords := by
  unfold Obligations.SlotWords
  intro w s sid s2
  exact ⟨xarm_arms, xarm_traps_slot, xarm_traps_count, xfree_frees⟩

end Sys2Proof.Proofs
end

section
/-! SUPPORT. The codec: each field of a word, each operand and each MODW reads back from its bits, and so a well-formed instruction from its bytes (R33 to R50). -/

namespace Sys2Proof.Proofs

open Sys2Proof

/-- An operand field as a number: its class in bits 10:8, its index below (R35). -/
theorem toNat_class_append (k : BitVec 3) (i : BitVec 8) : (k ++ i : BitVec 11).toNat = 256 * k.toNat + i.toNat := by
  have := i.isLt
  rw [BitVec.toNat_append, ← Nat.shiftLeft_add_eq_or_of_lt (by omega), Nat.shiftLeft_eq]
  omega

theorem ofBits_class_append (k : BitVec 3) (i : BitVec 8) :
    (k ++ i : BitVec 11).toNat / 256 = k.toNat ∧ (k ++ i : BitVec 11).toNat % 256 = i.toNat := by
  have := i.isLt
  rw [toNat_class_append]
  omega

theorem ofBits_sr (r : SpecReg) : Operand.ofBits (Operand.sr r).toBits = some (.sr r) := by cases r <;> rfl

theorem ofBits_imm (k : ImmIdx) : Operand.ofBits (Operand.imm k).toBits = some (.imm k) := by cases k <;> rfl

/-- Indices beyond 255 of the 9-bit classes stand in the class's second code (R35). -/
theorem ofBits_wide (f : BitVec 9 → Operand) (lo hi : BitVec 3) (i : BitVec 9)
    (h0 : ∀ x : BitVec 8, Operand.ofBits (lo ++ x) = some (f (BitVec.ofNat 9 x.toNat)))
    (h1 : ∀ x : BitVec 8, Operand.ofBits (hi ++ x) = some (f (BitVec.ofNat 9 (x.toNat + 256)))) :
    Operand.ofBits (if i.toNat < 256 then lo ++ i.setWidth 8 else hi ++ i.setWidth 8) = some (f i) := by
  split
  · rw [h0]
    congr 2
    apply BitVec.eq_of_toNat_eq
    simp only [BitVec.toNat_ofNat, BitVec.toNat_setWidth]
    omega
  · rw [h1]
    congr 2
    apply BitVec.eq_of_toNat_eq
    simp only [BitVec.toNat_ofNat, BitVec.toNat_setWidth]
    omega

theorem operand_ofBits_toBits (o : Operand) : Operand.ofBits o.toBits = some o := by
  cases o with
  | v i =>
    obtain ⟨hc, hi⟩ := ofBits_class_append 0 i
    unfold Operand.ofBits Operand.toBits
    simp only [hc, hi]
    simp
  | s i => 
    refine ofBits_wide .s 1 2 i (fun x => ?_) (fun x => ?_)
    · obtain ⟨hc, hi⟩ := ofBits_class_append 1 x
      simp only [Operand.ofBits, hc, hi]
      rfl
    · obtain ⟨hc, hi⟩ := ofBits_class_append 2 x
      simp only [Operand.ofBits, hc, hi]
      rfl
  | p i => revert i; decide
  | sr r => exact ofBits_sr r
  | imm k => exact ofBits_imm k
  | a i => revert i; decide
  | c i => revert i; decide
  | tk i => revert i; decide
  | x i =>
    refine ofBits_wide .x 6 7 i (fun x => ?_) (fun x => ?_)
    · obtain ⟨hc, hi⟩ := ofBits_class_append 6 x
      simp only [Operand.ofBits, hc, hi]
      rfl
    · obtain ⟨hc, hi⟩ := ofBits_class_append 7 x
      simp only [Operand.ofBits, hc, hi]
      rfl

theorem bit_beq_one (b : Bool) : (bit b == 1) = b := by cases b <;> rfl

theorem raw_ofCode_toCode (r : Raw) : Raw.ofCode r.toCode = r := by
  obtain ⟨op, guard, d, a, b, fn, ty, wait, la, lb, fe, imm⟩ := r
  simp (disch := omega) only [Raw.ofCode, Raw.toCode, BitVec.extractLsb'_append_eq_of_le, BitVec.extractLsb'_append_eq_of_add_le,
    Nat.sub_self, Nat.reduceSub, BitVec.extractLsb'_eq_self]

theorem modw_ofCode_toCode (m : Modw) : Modw.ofCode m.toCode = m := by
  obtain ⟨k, rnd, sat, negc, absc, negb, absb, nega, absa, imm⟩ := m
  simp (disch := omega) only [Modw.ofCode, Modw.toCode, BitVec.extractLsb'_append_eq_of_le, BitVec.extractLsb'_append_eq_of_add_le,
    Nat.sub_self, Nat.reduceSub, BitVec.extractLsb'_eq_self, bit_beq_one]

/-- The major opcode of a MODW word says that it is one (R42). -/
theorem isModw_toCode (m : Modw) : isModw m.toCode = true := by
  simp (disch := omega) only [isModw, Modw.toCode, BitVec.extractLsb'_append_eq_of_le, Nat.sub_self, Nat.reduceSub, BitVec.extractLsb'_eq_self]
  rfl

theorem isModw_raw (r : Raw) : isModw r.toCode = (r.op == 0xFE) := by
  rw [isModw, show r.toCode.extractLsb' 88 8 = (Raw.ofCode r.toCode).op from rfl, raw_ofCode_toCode]

theorem length_leBytes (n x : Nat) : (leBytes n x).length = n := by simp [leBytes]

/-- Bytes read back give the number they were taken from (R117). -/
theorem ofLeBytes_leBytes (n x : Nat) : ofLeBytes (leBytes n x) = x % 2 ^ (8 * n) := by
  induction n generalizing x with
  | zero => simp [leBytes, ofLeBytes, Nat.mod_one]
  | succ n ih =>
    have hcons : leBytes (n + 1) x = BitVec.ofNat 8 x :: leBytes n (x / 256) := by
      simp only [leBytes, List.range_succ_eq_map, List.map_cons, List.map_map, Nat.mul_zero, Nat.shiftRight_zero, List.cons.injEq, true_and]
      refine List.map_congr_left fun i _ => ?_
      simp only [Function.comp, Nat.shiftRight_eq_div_pow, Nat.div_div_eq_div_mul]
      congr 2
      rw [show 8 * i.succ = 8 + 8 * i by omega, pow_add]
      rfl
    rw [hcons, ofLeBytes, ih, BitVec.toNat_ofNat, show 8 * (n + 1) = 8 + 8 * n by omega, pow_add, Nat.mod_mul]
    rfl

theorem codeOf_codeBytes (c : Code) (rest : List Byte) : codeOf (codeBytes c ++ rest) = c := by
  have hlen : (codeBytes c).length = 12 := length_leBytes 12 _
  rw [codeOf, List.take_left' hlen, codeBytes, ofLeBytes_leBytes]
  apply BitVec.eq_of_toNat_eq
  have := c.isLt
  rw [BitVec.toNat_ofNat, Nat.mod_eq_of_lt (by omega), Nat.mod_eq_of_lt (by omega)]

theorem ins_ofRaw_toRaw (op : BitVec 8) (w : Ins) (m : Option Modw) : Ins.ofRaw m (w.toRaw op) = some { w with modw := m } := by
  have hneg : (bit w.guard.neg ++ w.guard.p).extractLsb' 3 1 = bit w.guard.neg := BitVec.extractLsb'_append_eq_left
  have hp : (bit w.guard.neg ++ w.guard.p).extractLsb' 0 3 = w.guard.p := BitVec.extractLsb'_append_eq_right
  simp only [Ins.ofRaw, Ins.toRaw, operand_ofBits_toBits, hneg, hp, bit_beq_one]

/-- No word of the major opcode of MODW passes the encoding check as a modified word (R43). -/
theorem op_ne_modw {lim : Limits} {m : Option Code} {r : Raw} (h : illegalCause lim m r = none) : r.op ≠ 0xFE := by
  have hleast : ∀ l : List Nat, least l = none → l = [] := fun l hl => by
    cases l with
    | nil => rfl
    | cons n ns => 
      unfold least at hl
      split at hl <;> cases hl
  intro hop
  have hnil := hleast _ h
  simp [causes, hop] at hnil

/-- A word that passes the encoding check decodes to the instruction of its opcode and fields. -/
theorem decodeRaw_toRaw {lim : Limits} {op : BitVec 8} {w : Ins} (h : illegalCause lim (w.modw.map Modw.toCode) (w.toRaw op) = none) :
    decodeRaw lim (w.modw.map Modw.toCode) (w.toRaw op) = Instr.ofOp op.toNat w := by
  have hm : (w.modw.map Modw.toCode).map Modw.ofCode = w.modw := by
    cases w.modw with
    | none => rfl
    | some m => simp [modw_ofCode_toCode]
  unfold decodeRaw
  rw [h, hm, ins_ofRaw_toRaw]
  rfl

/-- Decoding the bytes of a word or unit that passes the encoding check. -/
theorem decodeWith_encode {lim : Limits} {op : BitVec 8} {w : Ins} (rest : List Byte)
    (h : illegalCause lim (w.modw.map Modw.toCode) (w.toRaw op) = none) :
    decodeWith lim (w.encode op ++ rest) = (Instr.ofOp op.toNat w).map fun i => (i, rest) := by
  have hraw := decodeRaw_toRaw h
  have hop : isModw (w.toRaw op).toCode = false := by
    rw [isModw_raw]
    exact beq_eq_false_iff_ne.mpr (op_ne_modw h)
  have hlen : ∀ c, (codeBytes c).length = 12 := fun c => length_leBytes 12 _
  cases hw : w.modw with
  | none =>
    rw [hw] at hraw
    have henc : w.encode op ++ rest = codeBytes (w.toRaw op).toCode ++ rest := by simp [Ins.encode, hw]
    rw [henc, decodeWith, if_neg (by simp [hlen]), codeOf_codeBytes]
    dsimp only
    rw [hop, if_neg (by decide), raw_ofCode_toCode, List.drop_left' (hlen _)]
    exact congrArg _ hraw
  | some m =>
    rw [hw] at hraw
    have henc : w.encode op ++ rest = codeBytes m.toCode ++ (codeBytes (w.toRaw op).toCode ++ rest) := by simp [Ins.encode, hw]
    have hdrop : (codeBytes m.toCode ++ (codeBytes (w.toRaw op).toCode ++ rest)).drop 24 = rest := by
      rw [← List.append_assoc, List.drop_left' (by simp [hlen])]
    rw [henc, decodeWith, if_neg (by simp [hlen]), codeOf_codeBytes]
    dsimp only
    rw [isModw_toCode, if_pos rfl, if_neg (by simp [hlen]; omega), hdrop,
      List.drop_left' (hlen _), codeOf_codeBytes, raw_ofCode_toCode]
    exact congrArg _ hraw

/-- Settles O57: well-formedness says that the word passes the encoding check and that its opcode and fields name the instruction. -/
theorem decodeOfEncode : Obligations.DecodeOfEncode := by
  unfold Obligations.DecodeOfEncode
  intro lim i rest hword hwf
  obtain ⟨⟨op, w⟩, hw⟩ := Option.isSome_iff_exists.mp hword
  simp only [Instr.wfWith, hw, Bool.and_eq_true, beq_iff_eq] at hwf
  obtain ⟨hlegal, hofOp⟩ := hwf
  rw [encode, hw]
  exact (decodeWith_encode rest hlegal).trans (by rw [hofOp]; rfl)

/-- Settles O58: the decoder evaluated on each word. -/
theorem wordsOfTheSpecDecode : Obligations.WordsOfTheSpecDecode := by
  unfold Obligations.WordsOfTheSpecDecode
  exact ⟨by decide, by decide, by decide, by decide, by decide, by decide, by decide, by decide⟩

end Sys2Proof.Proofs
end

section
/-! SUPPORT. The words that compute their result at once: each is one alu operation of the model, and its value is written in the rule's own terms (R170, R173, R177, R178, R180 to R189). -/

namespace Sys2Proof.Proofs

open Sys2Proof Sys2Proof.Machine Sys2Proof.Safety Sys2Proof.Laws

/-- A word that is one integer operation, of an opcode whose results the table of R166 never makes affine, computes the value its rule states. -/
theorem computes_of_integer {i : Ins → Instr} {op : Nat} {f g : Int → Int → Nat → Int}
    (ho : op ≠ 0x0A ∧ op ≠ 0x38 ∧ op ≠ 0x20 ∧ op ≠ 0x21 ∧ op ≠ 0x22 ∧ op ≠ 0x36)
    (he : ∀ w s, exec (i w) s = .next (intOp op (fun a b => f a b w.ty.toNat) w s)) (hfg : ∀ a b ty, f a b ty = g a b ty) :
    ComputesRule i op tyWords fun s st w => w.finishInt w.ty.toNat (g (s.srcInt st w w.ty.toNat w.a) (s.srcInt st w w.ty.toNat w.b) w.ty.toNat) := by
  have : f = g := by funext a b ty; exact hfg a b ty
  subst this
  exact computes_of_rule ho he

/-- Settles O1: IADD, ISUB and IMUL because an affine result reads as the wrapped word, the others by their opcode's uniform or general results. -/
theorem arithmeticResults : Obligations.ArithmeticResults := by
  unfold Obligations.ArithmeticResults
  simp only [List.forall_mem_cons, List.not_mem_nil, false_imp_iff, implies_true, and_true]
  refine ⟨⟨?iadd, ?isub, ?imul, ?imulh, ?imin, ?imax⟩, ?imad⟩
  case iadd => exact computes_of_alu (fun _ _ => rfl) fun _ _ _ => arith_sound (· + ·) (· + ·) (.inl ⟨rfl, rfl, rfl⟩)
  case isub => exact computes_of_alu (fun _ _ => rfl) fun _ _ _ => arith_sound (· - ·) (· - ·) (.inr (.inl ⟨rfl, rfl, rfl⟩))
  case imul => exact computes_of_alu (fun _ _ => rfl) fun _ _ _ => arith_sound (· * ·) (· * ·) (.inr (.inr ⟨rfl, rfl, rfl⟩))
  case imulh =>
    exact computes_of_integer (f := fun a b ty => a * b / ((2 ^ intWidth ty : Nat) : Int)) (g := fun a b ty => a * b / (2 ^ intWidth ty : Int)) (by decide) (fun _ _ => rfl)
      fun a b ty => by push_cast; rfl
  case imin =>
    exact computes_of_integer (f := fun a b _ => if a ≤ b then a else b) (g := fun a b _ => min a b) (by decide) (fun _ _ => rfl)
      fun a b _ => (min_def a b).symm
  case imax =>
    exact computes_of_integer (f := fun a b _ => if a ≥ b then a else b) (g := fun a b _ => max a b) (by decide) (fun _ _ => rfl)
      fun a b _ => (max_def' a b).symm
  case imad => exact computes_of_rule (by decide) fun _ _ => rfl

theorem readInt_mod (ty x : Nat) : readInt ty (x % 2 ^ intWidth ty) = readInt ty x := by
  simp only [readInt, signedN, Nat.mod_mod]

/-- Wrapping a number to a type reads its pattern in that type (R124). -/
theorem wrapInt_natCast (ty x : Nat) : wrapInt ty (x : Int) = readInt ty x := by
  rw [wrapInt, wrapN, ← Int.natCast_mod, Int.toNat_natCast, readInt_mod]

/-- The bits of a pattern inverted (R170, ANDN). -/
theorem two_pow_sub_eq_xor {n x : Nat} (hx : x < 2 ^ n) : 2 ^ n - 1 - x = x ^^^ (2 ^ n - 1) := by
  apply Nat.eq_of_testBit_eq
  intro i
  rw [Nat.sub_sub, Nat.add_comm 1 x, Nat.testBit_two_pow_sub_succ hx, Nat.testBit_xor, Nat.testBit_two_pow_sub_one]
  by_cases hi : i < n
  · simp [hi]
  · simp [hi, Nat.testBit_lt_two_pow (lt_of_lt_of_le hx (Nat.pow_le_pow_right (by omega) (not_lt.mp hi)))]

/-- A word that is one bitwise operation computes the operation's words. -/
theorem computes_of_bitwise {i : Ins → Instr} {op : Nat} {f g : Nat → Nat → Nat → Nat}
    (ho : op ≠ 0x0A ∧ op ≠ 0x38 ∧ op ≠ 0x20 ∧ op ≠ 0x21 ∧ op ≠ 0x22 ∧ op ≠ 0x36)
    (he : ∀ w s, exec (i w) s = .next (bitOp op f w s)) (hfg : ∀ n a b, b < 2 ^ n → f n a b = g n a b) :
    ComputesRule i op tyWords fun s st w =>
      let n := intWidth w.ty.toNat
      intWords w.ty.toNat (wrapInt w.ty.toNat (g n (s.srcTy st w w.ty.toNat w.a % 2 ^ n) (s.srcTy st w w.ty.toNat w.b % 2 ^ n) : Nat)) :=
  computesRule_congr (computes_of_rule ho he) fun s st w => by
    rw [hfg _ _ _ (Nat.mod_lt _ (Nat.two_pow_pos _))]
    exact congrArg _ (wrapInt_natCast _ _).symm

/-- Settles O2: the model reads the bitwise pattern in the type, which is its wrapped value; ANDN inverts B within the width. -/
theorem logicResults : Obligations.LogicResults := by
  unfold Obligations.LogicResults
  simp only [List.forall_mem_cons, List.not_mem_nil, false_imp_iff, implies_true, and_true]
  refine ⟨?and, ?or, ?xor, ?andn⟩
  case and => exact computes_of_bitwise (g := fun _ a b => a &&& b) (by decide) (fun _ _ => rfl) fun _ _ _ _ => rfl
  case or => exact computes_of_bitwise (g := fun _ a b => a ||| b) (by decide) (fun _ _ => rfl) fun _ _ _ _ => rfl
  case xor => exact computes_of_bitwise (g := fun _ a b => a ^^^ b) (by decide) (fun _ _ => rfl) fun _ _ _ _ => rfl
  case andn =>
    exact computes_of_bitwise (g := fun n a b => a &&& (b ^^^ (2 ^ n - 1))) (by decide) (fun _ _ => rfl)
      fun n a b hb => by rw [two_pow_sub_eq_xor hb]

/-- Putting `x` in place of the `len` bits of `old` from `pos` on: what lies below and above stays (R173). -/
theorem insert_field_eq (old x pos len : Nat) :
    old - old / 2 ^ pos % 2 ^ len * 2 ^ pos + x * 2 ^ pos = old % 2 ^ pos + 2 ^ pos * x + 2 ^ (pos + len) * (old / 2 ^ (pos + len)) := by
  have hlow : old = old % 2 ^ pos + 2 ^ pos * (old / 2 ^ pos) := (Nat.mod_add_div _ _).symm
  have hhigh : old / 2 ^ pos = old / 2 ^ pos % 2 ^ len + 2 ^ len * (old / 2 ^ (pos + len)) := by
    rw [pow_add, ← Nat.div_div_eq_div_mul, Nat.mod_add_div]
  have hsplit : old = old % 2 ^ pos + 2 ^ pos * (old / 2 ^ pos % 2 ^ len) + 2 ^ (pos + len) * (old / 2 ^ (pos + len)) := by
    calc old = old % 2 ^ pos + 2 ^ pos * (old / 2 ^ pos) := hlow
      _ = old % 2 ^ pos + 2 ^ pos * (old / 2 ^ pos % 2 ^ len + 2 ^ len * (old / 2 ^ (pos + len))) := by rw [← hhigh]
      _ = _ := by rw [pow_add]; ring
  rw [Nat.mul_comm x, Nat.mul_comm (old / 2 ^ pos % 2 ^ len)]
  omega

/-- Settles O5: the model's position and length are the rule's, and its subtraction of the old field leaves the bits around it. -/
theorem bitFieldResults : Obligations.BitFieldResults := by
  unfold Obligations.BitFieldResults
  refine ⟨?bfx, ?bfi⟩
  case bfx => exact computesRule_congr (computes_of_rule (by decide) fun _ _ => rfl) fun s st w => by simp only [bfPos, shiftW_eq]
  case bfi =>
    refine computesRule_congr (computes_of_rule (by decide) fun _ _ => rfl) fun s st w => ?_
    simp only [bfPos, shiftW_eq, insert_field_eq]

/-- One step of the checksum of R178: bit `b` enters at bit 0. -/
def crcStep (c : Word) (b : Bool) : Word :=
  let c := c ^^^ (if b then 1 else 0)
  if c.getLsbD 0 then (c >>> 1) ^^^ 0x82F63B78 else c >>> 1

theorem crcBits_eq_foldl (n b : Nat) (c : Word) : crcBits n b c = (List.range n).foldl (fun c i => crcStep c (b.testBit i)) c := by
  induction n generalizing b c with
  | zero => rfl
  | succ n ih =>
    have hbit : BitVec.ofNat 32 (b % 2) = if b.testBit 0 then 1 else 0 := by
      rw [Nat.testBit_zero]
      rcases Nat.mod_two_eq_zero_or_one b with h | h <;> simp [h]
    rw [List.range_succ_eq_map, List.foldl_cons, List.foldl_map, crcBits, hbit, ih]
    simp only [Nat.testBit_succ]
    rfl

/-- Settles O7: the checksum's recursion over the bits of B is the fold over their positions. -/
theorem packResults : Obligations.PackResults := by
  unfold Obligations.PackResults
  refine ⟨?pack, ?unpk, ?crc⟩
  case pack => exact computes_of_rule (by decide) fun _ _ => rfl
  case unpk => exact computes_of_rule (by decide) fun _ _ => rfl
  case crc =>
    refine computesRule_congr (computes_of_rule (by decide) fun _ _ => rfl) fun s st w => ?_
    rw [crcBits_eq_foldl]
    rfl

theorem ofNat_b01 (b : Bool) : BitVec.ofNat 32 (b01 b) = if b then 1 else 0 := by cases b <;> rfl

/-- Settles O8: each word is one alu operation whose value is the rule's. -/
theorem floatResults : Obligations.FloatResults := by
  unfold Obligations.FloatResults
  simp only [List.forall_mem_cons, List.not_mem_nil, false_imp_iff, implies_true, and_true]
  refine ⟨⟨?fadd, ?fsub, ?fmul, ?ffma⟩, ⟨?fmin, ?fmax⟩, ?fset, ?hadd2, ?hmul2, ?hfma2⟩
  case fset => exact computesRule_congr (computes_of_rule (by decide) fun _ _ => rfl) fun s st w => by rw [ofNat_b01]
  all_goals exact computes_of_rule (by decide) fun _ _ => rfl

/-- FLDX's exponent, held within ±2,000 (log 32). -/
theorem clamp_eq (n : Int) : (if n > 2000 then 2000 else if n < -2000 then -2000 else n) = max (-2000) (min 2000 n) := by
  omega

/-- Settles O9: each word is one alu operation; the test of FCLS is a truth value, FLDX's exponent a clamped number. -/
theorem conversionResults : Obligations.ConversionResults := by
  unfold Obligations.ConversionResults
  refine ⟨?frnd, ?fcls, ?fclsTest, ?fcvt, ?fdot, ?fldx⟩
  case fclsTest =>
    refine computesRule_congr (computes_of_rule (by decide) fun _ _ => rfl) fun s st w => ?_
    rw [ofNat_b01]
    simp only [bne_iff_ne, ne_eq, ite_not]
  case fldx => exact computesRule_congr (computes_of_rule (by decide) fun _ _ => rfl) fun s st w => by simp only [clamp_eq]
  all_goals exact computes_of_rule (by decide) fun _ _ => rfl

end Sys2Proof.Proofs
end

section
/-! SUPPORT. SHAPE of a register that a shared load has left empty: the model's field 0 is that of a uniform register (R194, log 15), where the statement has that of an affine one. -/

namespace Sys2Proof.Proofs

open Sys2Proof Sys2Proof.Machine Sys2Proof.Safety Sys2Proof.Laws

/-- SHAPE v1, v0, field 0. -/
def shapeWord : Ins := { d := .v 1, a := .v 0 }

/-- One strand about to issue, alone, whose v0 waits for a word that one read brings to the whole row: the entry drawn for it is affine with steps of 0, and its lane is empty. -/
def shapePending : State :=
  { State.reset with
    bundle := [1]
    strands := [{ sid := 1, uid := 1 }]
    items := [{ uid := 1, ranks := [{ rows := [{ regs := [{ shape := .affine 5 0 0, empty := 1 }] }] }] }] }

theorem goes_shapePending : Goes 0x63 shapeWord shapePending 1 :=
  ⟨by decide, by decide, ⟨by decide, by decide, by decide, .inr (by decide)⟩⟩

/-- The words SHAPE writes (R194). -/
def shapeVals (s : State) (st : Strand) (w : Ins) : List Word := [s.shapeField st w.fn.toNat (vOf w.a)]

/-- The shape of SHAPE's result (R194). -/
def shapeShape (w : Ins) (s : State) (st : Strand) (vals : List Word) (_ : Nat) : Option Shape :=
  if w.fn = 1 ∧ isGeneral ((s.rowOf st).reg (vOf w.a)).shape then none else some (.uniform (vals.headD 0))

theorem exec_shape (w : Ins) (s : State) : exec (.shape w) s = .next (s.alu 0x63 w 1 (shapeShape w) fun s st => shapeVals s st w) := by
  have hshape : (fun (s : State) (st : Strand) (vals : List Word) (_ : Nat) =>
      if (match ((s.rowOf st).reg (vOf w.a)).shape with
        | .general _ => w.fn == 1
        | _ => false) = true then none else some (Shape.uniform (vals.headD 0))) = shapeShape w := by
    funext s st vals j
    unfold shapeShape isGeneral
    cases ((s.rowOf st).reg (vOf w.a)).shape <;> simp
  exact congrArg (fun sh => Host.Outcome.next (s.alu 0x63 w 1 sh fun s st => shapeVals s st w)) hshape

/-- SHAPE computes the fields of R194, those of a uniform register for one on its way. -/
theorem shape_computes : Computes shapeShape .shape 0x63 (fun _ => 1) shapeVals :=
  computes_of_alu exec_shape fun w s st j hj sh h => by
    obtain rfl : j = 0 := by omega
    unfold shapeShape at h
    split at h
    · cases h
    · cases h; rfl

theorem results_unique {i : Instr} {s : State} {sid : Nat} {w : Ins} {x y : List Word} {r : BitVec 8} (hd : w.d = .v r)
    (hx : Results i s sid w x 1) (hy : Results i s sid w y 1) : x.getD 0 0 = y.getD 0 0 := by
  obtain ⟨t, ht, hxt, -⟩ := hx
  obtain ⟨u, hu, hyu, -⟩ := hy
  obtain rfl : t = u := Host.Outcome.next.inj (ht.symm.trans hu)
  rw [hd] at hxt hyu
  exact (hxt 0 (by decide)).symm.trans (hyu 0 (by decide))

/-- Refutes O10: SHAPE of a register on its way. In the state above field 0 of v0 reads 0, a uniform register's, and not the 1 that the statement gives every affine one. -/
theorem not_laneResults : ¬ Obligations.LaneResults := by
  unfold Obligations.LaneResults
  rintro ⟨-, -, -, -, -, -, -, -, -, hshape⟩
  have hmodel := shape_computes shapeWord shapePending 1 goes_shapePending (show Option.isSome _ = true by decide)
  have hstated := hshape shapeWord shapePending 1 goes_shapePending (show Option.isSome _ = true by decide)
  exact absurd (results_unique rfl hmodel hstated) (by decide)

end Sys2Proof.Proofs
end

section
/-! SUPPORT. What a strand that issues alone reads once it has waited for the word's tokens, how it goes on, and the control words in those terms (R45, R88 to R94). -/

namespace Sys2Proof.Proofs

open Sys2Proof Sys2Proof.Machine Sys2Proof.Safety Sys2Proof.Laws

/-- Waiting for tokens changes strands and copies alone. -/
theorem onWait_eq (s : State) (w : Ins) (sid : Nat) :
    s.onWait w sid = { s with strands := (s.onWait w sid).strands, l1 := (s.onWait w sid).l1 } := by
  obtain ⟨l, h⟩ := (onWait_cases s w sid).2
  rw [h]

section goes
variable {op : Nat} {w : Ins} {s : State} {sid : Nat} (hG : Goes op w s sid)
include hG

theorem goes_vreg (i : Nat) : (s.onWait w sid).vreg ((s.onWait w sid).st sid) i = s.vreg (s.st sid) i := by
  obtain ⟨y, z, q, ha⟩ := goes_st hG
  rw [ha, onWait_eq]
  rfl

theorem goes_sreg (i : Nat) : (s.onWait w sid).sreg ((s.onWait w sid).st sid) i = s.sreg (s.st sid) i := by
  obtain ⟨y, z, q, ha⟩ := goes_st hG
  rw [ha, onWait_eq]
  rfl

theorem goes_src (w' : Ins) (o : Operand) : (s.onWait w sid).src ((s.onWait w sid).st sid) w' o = s.src (s.st sid) w' o := by
  obtain ⟨y, z, q, ha⟩ := goes_st hG
  unfold State.src
  cases o with
  | v i => exact goes_vreg hG _
  | s i => exact goes_sreg hG _
  | p i => rw [ha]; rfl
  | _ => rfl

theorem goes_src64 (w' : Ins) (o : Operand) : (s.onWait w sid).src64 ((s.onWait w sid).st sid) w' o = s.src64 (s.st sid) w' o := by
  unfold State.src64
  cases o with
  | v i => dsimp only; rw [goes_vreg hG, goes_vreg hG]
  | s i => dsimp only; rw [goes_sreg hG, goes_sreg hG]
  | _ => rfl

theorem goes_depthOf : (s.onWait w sid).depthOf ((s.onWait w sid).st sid) = s.depthOf (s.st sid) := by
  obtain ⟨y, z, q, ha⟩ := goes_st hG
  rw [ha, onWait_eq]
  rfl

theorem goes_pc : ((s.onWait w sid).st sid).pc = (s.st sid).pc := by
  obtain ⟨y, z, q, ha⟩ := goes_st hG
  rw [ha]; rfl

theorem goes_seq : ((s.onWait w sid).st sid).seq = (s.st sid).seq := by
  obtain ⟨y, z, q, ha⟩ := goes_st hG
  rw [ha]; rfl

theorem goes_rstk : ((s.onWait w sid).st sid).rstk = (s.st sid).rstk := by
  obtain ⟨y, z, q, ha⟩ := goes_st hG
  rw [ha]; rfl

theorem goes_park : ((s.onWait w sid).st sid).park = (s.st sid).park := by
  obtain ⟨y, z, q, ha⟩ := goes_st hG
  rw [ha]; rfl

theorem goes_strand? : ((s.onWait w sid).strand? sid).isSome := onWait_strand s w sid sid hG.placed.strand

end goes

/-- A strand that goes on at an address (R45, R75). -/
theorem jump_st {t : State} {sid : Nat} (pc : Addr) (h : (t.strand? sid).isSome) :
    (t.jump sid pc).st sid = { (t.st sid) with pc := pc, seq := (t.st sid).seq + 1, age := 0, satAt := none } :=
  setSt_st_same t sid (fun st => { st with pc := pc, seq := st.seq + 1, age := 0, satAt := none }) (fun _ => rfl) h

theorem setPark_st {t : State} {sid : Nat} (p : Park) (h : (t.strand? sid).isSome) : (t.setPark sid p).st sid = { (t.st sid) with park := p } :=
  setSt_st_same t sid (fun st => { st with park := p }) (fun _ => rfl) h

theorem setSt_isSome {t : State} {sid : Nat} (f : Strand → Strand) (hf : ∀ x, (f x).sid = x.sid) (h : (t.strand? sid).isSome) :
    ((t.setSt sid f).strand? sid).isSome := by
  rw [setSt_strand? t sid f hf, if_pos rfl]
  simpa using h

theorem retire_isSome {t : State} {sid : Nat} (w : Ins) (h : (t.strand? sid).isSome) : ((t.retire sid w).strand? sid).isSome :=
  setSt_isSome (fun st => { st with pc := nextPc w (t.st sid).pc, seq := st.seq + 1, age := 0, satAt := none }) (fun _ => rfl) h

/-- What a destination holds does not change as the strand goes on elsewhere. -/
theorem holds_jump {t : State} {sid : Nat} (pc : Addr) (d : Operand) (vals : List Word) (n : Nat) (h : (t.strand? sid).isSome)
    (hh : Holds t sid d vals n) : Holds (t.jump sid pc) sid d vals n := by
  unfold Holds at *
  rw [jump_st pc h]
  cases d <;> exact hh

section words
variable {i : Instr} {op : Nat} {w : Ins} {s u : State} {sid : Nat} {body : State → Strand → State × Flow}

/-- A lone strand whose part in a word ends in a flow of any kind. -/
theorem exec_of_each {f : Flow} (hG : Goes op w s sid) (he : exec i s = .next (s.each op w body))
    (hb : body (s.onWait w sid) ((s.onWait w sid).st sid) = (u, f)) : exec i s = .next (u.flow sid w f) := by
  rw [he, each_go hG, hb]

/-- A lone strand that branches: it goes on at the address, with the return stack that `u` gives it. -/
theorem lands_of_each {pc : Addr} {rstk : List Addr} (hG : Goes op w s sid) (he : exec i s = .next (s.each op w body))
    (hb : body (s.onWait w sid) ((s.onWait w sid).st sid) = (u, .goto pc)) (hu : (u.strand? sid).isSome)
    (hseq : (u.st sid).seq = (s.st sid).seq) (hrstk : (u.st sid).rstk = rstk) :
    Completes i s fun t => Lands s t sid pc ∧ (t.st sid).rstk = rstk := by
  refine ⟨_, exec_of_each hG he hb, ?_⟩
  show Lands s (u.jump sid pc) sid pc ∧ ((u.jump sid pc).st sid).rstk = rstk
  rw [Lands, jump_st pc hu]
  exact ⟨⟨rfl, congrArg (· + 1) hseq⟩, hrstk⟩

/-- A lone strand that goes on after the word, what its part of the word has set in it standing. -/
theorem wentOn_of_each {P : Strand → Prop} (hG : Goes op w s sid) (he : exec i s = .next (s.each op w body))
    (hb : body (s.onWait w sid) ((s.onWait w sid).st sid) = (u, .next)) (hu : (u.strand? sid).isSome)
    (hpc : (u.st sid).pc = (s.st sid).pc) (hseq : (u.st sid).seq = (s.st sid).seq)
    (hP : P { (u.st sid) with pc := nextPc w (u.st sid).pc, seq := (u.st sid).seq + 1, age := 0, satAt := none }) :
    Completes i s fun t => WentOn s t sid w ∧ P (t.st sid) := by
  refine ⟨_, exec_of_each hG he hb, ?_⟩
  show WentOn s (u.retire sid w) sid w ∧ P ((u.retire sid w).st sid)
  rw [WentOn, retire_st w hu]
  exact ⟨⟨by rw [← hpc], congrArg (· + 1) hseq⟩, hP⟩

end words

section branches
variable {w : Ins} {s : State} {sid : Nat}

/-- A call below CALLDEPTH pushes the address after the word (R88). -/
theorem callTo_lands {i : Instr} {op : Nat} {body : State → Strand → State × Flow} (hG : Goes op w s sid) (he : exec i s = .next (s.each op w body)) (target : Addr)
    (hdepth : (s.st sid).rstk.length < s.depthOf (s.st sid))
    (hb : body (s.onWait w sid) ((s.onWait w sid).st sid) = (s.onWait w sid).callTo ((s.onWait w sid).st sid) w target) :
    Completes i s fun t => Lands s t sid target ∧ (t.st sid).rstk = nextPc w (s.st sid).pc :: (s.st sid).rstk := by
  let f : Strand → Strand := fun x => { x with rstk := nextPc w (s.st sid).pc :: x.rstk }
  have hst : ((s.onWait w sid).setSt sid f).st sid = f ((s.onWait w sid).st sid) := setSt_st_same _ sid f (fun _ => rfl) (goes_strand? hG)
  refine lands_of_each (u := (s.onWait w sid).setSt sid f) hG he ?body (setSt_isSome f (fun _ => rfl) (goes_strand? hG)) ?seq ?rstk
  case body => rw [hb, State.callTo, goes_rstk hG, goes_depthOf hG, if_neg (by omega), goes_sid hG, goes_pc hG]
  case seq => rw [hst]; exact goes_seq hG
  case rstk => rw [hst]; exact congrArg _ (goes_rstk hG)

/-- A call at CALLDEPTH traps STACK 2 (R88). -/
theorem callTo_traps {i : Instr} {op : Nat} {body : State → Strand → State × Flow} (hG : Goes op w s sid) (he : exec i s = .next (s.each op w body)) (target : Addr)
    (hdepth : s.depthOf (s.st sid) ≤ (s.st sid).rstk.length)
    (hb : body (s.onWait w sid) ((s.onWait w sid).st sid) = (s.onWait w sid).callTo ((s.onWait w sid).st sid) w target) :
    Traps i s sid w ⟨0x0F, 2, 0, 0⟩ := by
  refine traps_of_each hG he ?_
  rw [hb, State.callTo, goes_rstk hG, goes_depthOf hG, if_pos hdepth]

/-- Settles O11: each branch is one part whose flow goes to its target; a call and a return change the stack before it. -/
theorem branchesLand : Obligations.BranchesLand := by
  unfold Obligations.BranchesLand
  intro w s sid next rel abs
  refine ⟨?bra, ?brx, ?call, ?callx, ?ret⟩
  case bra =>
    intro hG
    exact lands_of_each hG rfl (by rw [relTarget, goes_pc hG]) (goes_strand? hG) (goes_seq hG) (goes_rstk hG)
  case brx =>
    intro hG habs
    refine lands_of_each hG rfl ?_ (goes_strand? hG) (goes_seq hG) (goes_rstk hG)
    dsimp only
    rw [goes_src64 hG, if_neg (by rw [habs]; decide)]
  case call =>
    intro hG hdepth
    exact callTo_lands hG rfl _ hdepth (by rw [relTarget, goes_pc hG])
  case callx =>
    intro hG habs hdepth
    exact callTo_lands hG rfl _ hdepth (by rw [goes_src64 hG, if_neg (by rw [habs]; decide)])
  case ret =>
    intro pc rest hG hstack
    let f : Strand → Strand := fun x => { x with rstk := rest }
    have hst : ((s.onWait w sid).setSt sid f).st sid = f ((s.onWait w sid).st sid) := setSt_st_same _ sid f (fun _ => rfl) (goes_strand? hG)
    refine lands_of_each (u := (s.onWait w sid).setSt sid f) hG rfl ?_ (setSt_isSome f (fun _ => rfl) (goes_strand? hG)) (by rw [hst]; exact goes_seq hG) (by rw [hst])
    rw [goes_rstk hG, hstack, goes_sid hG]

/-- Settles O12: each check comes before anything is changed. -/
theorem branchesTrap : Obligations.BranchesTrap := by
  unfold Obligations.BranchesTrap
  intro w s sid abs
  refine ⟨?brx, ?call, ?callxAlign, ?callxDepth, ?ret⟩
  case brx => exact fun hG habs => traps_of_each hG rfl (by dsimp only; rw [goes_src64 hG, if_pos habs]; rfl)
  case call => exact fun hG hdepth => callTo_traps hG rfl _ hdepth rfl
  case callxAlign => exact fun hG habs => traps_of_each hG rfl (by dsimp only; rw [goes_src64 hG, if_pos habs]; rfl)
  case callxDepth =>
    exact fun hG habs hdepth => callTo_traps hG rfl _ hdepth (by rw [goes_src64 hG, if_neg (by rw [habs]; decide)])
  case ret => exact fun hG hstack => traps_of_each hG rfl (by rw [goes_rstk hG, hstack])

end branches

/-- A strand that yields goes on after the word, out of this regroup period and the next (R93). -/
theorem yields_of_each {i : Instr} {op : Nat} {w : Ins} {s : State} {sid : Nat} {body : State → Strand → State × Flow} (hG : Goes op w s sid)
    (he : exec i s = .next (s.each op w body))
    (hb : body (s.onWait w sid) ((s.onWait w sid).st sid) = ((s.onWait w sid).yieldOf ((s.onWait w sid).st sid).sid, .next)) :
    Completes i s fun t => WentOn s t sid w ∧ (t.st sid).yieldFor = 2 := by
  let f : Strand → Strand := fun x => { x with yieldFor := 2 }
  have hst : ((s.onWait w sid).setSt sid f).st sid = f ((s.onWait w sid).st sid) := setSt_st_same _ sid f (fun _ => rfl) (goes_strand? hG)
  refine wentOn_of_each (u := (s.onWait w sid).setSt sid f) (P := fun x => x.yieldFor = 2) hG he (by rw [hb, goes_sid hG]; rfl)
    (setSt_isSome f (fun _ => rfl) (goes_strand? hG)) (by rw [hst]; exact goes_pc hG) (by rw [hst]; exact goes_seq hG) ?_
  rw [hst]

/-- Settles O13: NOP, YIELD and SLEEP act strand by strand; DBNZ computes D - 1 and then goes on or branches. -/
theorem pacingWords : Obligations.PacingWords := by
  unfold Obligations.PacingWords
  intro w s sid a d
  refine ⟨?nop, ?yield, ?sleepZero, ?sleep, ?dbnz⟩
  case nop =>
    exact fun hG => wentOn_of_each (P := fun x => x.park = (s.st sid).park) hG rfl rfl (goes_strand? hG) (goes_pc hG) (goes_seq hG) (goes_park hG)
  case yield => exact fun hG => yields_of_each hG rfl rfl
  case sleepZero => exact fun hG ha => yields_of_each hG rfl (by dsimp only; rw [goes_src hG, if_pos ha])
  case sleep =>
    intro hG ha
    refine ⟨_, exec_of_each hG rfl (f := .parkNext (.sleep (s.nstime + a.toNat))) (u := s.onWait w sid) ?_, ?_⟩
    · dsimp only
      rw [goes_src hG, if_neg ha, onWait_eq]
      rfl
    · show WentOn s (((s.onWait w sid).retire sid w).setPark sid _) sid w ∧ _
      rw [WentOn, State.flow, setPark_st _ (retire_isSome w (goes_strand? hG)), retire_st w (goes_strand? hG)]
      exact ⟨⟨by rw [goes_pc hG], by rw [goes_seq hG]⟩, rfl⟩
  case dbnz =>
    intro hG hfits
    obtain ⟨t, ht, hholds, hpc, hseq, hsome⟩ := aluWith_spec 1 (ruleOf 0x0A w) (fun s st => [s.src st w w.d - 1])
      (fun s sid vals => if vals.headD 0 = 0 then s.retire sid w else s.jump sid (relTarget w (s.st sid).pc)) hG hfits dbnz_sound
    refine ⟨_, congrArg Host.Outcome.next ht, ?_⟩
    show Holds (if d = 0 then t.retire sid w else t.jump sid (relTarget w (t.st sid).pc)) sid w.d [d] 1 ∧ _
    by_cases hd : d = 0
    · rw [if_pos hd, if_pos hd, Lands, List.headD_cons, if_pos hd, retire_st w hsome]
      exact ⟨holds_retire w _ _ _ hsome hholds, by rw [hpc], by rw [hseq]⟩
    · rw [if_neg hd, if_neg hd, Lands, List.headD_cons, if_neg hd, jump_st _ hsome]
      exact ⟨holds_jump _ _ _ _ hsome hholds, by rw [hpc]; rfl, by rw [hseq]⟩

end Sys2Proof.Proofs
end

section
/-! SUPPORT. What a word that computes leaves alone when one strand issues it: the state in which its result has landed, and that everything but the destination and the strand's progress is as before (R71, R163 to R167, R245). -/

namespace Sys2Proof.Proofs

open Sys2Proof Sys2Proof.Machine Sys2Proof.Safety Sys2Proof.Laws

/-- The state in which one strand's result stands in its destination; none where the core's storage is short (R67, R163, R164). -/
def landed (s : State) (sid : Nat) (d : Operand) (vals : List Word) (hint : Nat → Option Shape) (n : Nat) : Option State :=
  match d with
  | .v i => s.putV (s.st sid) i.toNat [(s.st sid, vals)] hint n
  | .s i => s.putS (s.st sid) i.toNat vals n
  | .p i => some (s.setSt sid fun st => st.setPred i.toNat (vals.headD 0 != 0))
  | _ => some s

theorem room_iff_landed (s : State) (sid : Nat) (d : Operand) (vals : List Word) (hint : Nat → Option Shape) (n : Nat) :
    Room s sid d vals hint n ↔ (landed s sid d vals hint n).isSome = true := by
  cases d <;> simp [Room, landed]

/-- How a lone strand goes at a word that computes: its result lands and it goes on by `go`, or it parks on storage. -/
theorem aluWith_eq_landed {op : Nat} {w : Ins} {s : State} {sid : Nat} (n : Nat) (shape : State → Strand → List Word → Nat → Option Shape)
    (f : State → Strand → List Word) (go : State → Nat → List Word → State) (hG : Goes op w s sid) :
    s.aluWith op w n shape f go =
      match landed (s.onWait w sid) sid w.d (f s (s.st sid)) (shape s (s.st sid) (f s (s.st sid))) n with
      | some t => go t sid (f s (s.st sid))
      | none => (s.onWait w sid).setPark sid .storage := by
  have hsid := st_sid hG.placed.strand
  obtain ⟨y, z, q, ha⟩ := goes_st hG
  unfold State.aluWith
  dsimp only
  rw [goers_one hG f, hG.bundle]
  simp only [List.foldl_cons, List.foldl_nil, hG.verdict]
  have hsame : List.filter (fun y : Strand × List Word => sameRow y.1 (s.st sid)) [(s.st sid, f s (s.st sid))] = [(s.st sid, f s (s.st sid))] := by
    simp [sameRow_self]
  have hrow : (if (Option.map (fun y : Strand × List Word => y.1.sid)
        (List.filter (fun y : Strand × List Word => sameRow y.1 (s.st sid)) [(s.st sid, f s (s.st sid))]).head?) = some (s.st sid).sid then
        State.finishRow s (s.onWait w sid) w n shape go (List.filter (fun y : Strand × List Word => sameRow y.1 (s.st sid)) [(s.st sid, f s (s.st sid))])
      else s.onWait w sid) = State.finishRow s (s.onWait w sid) w n shape go [(s.st sid, f s (s.st sid))] := by
    rw [hsame]
    exact if_pos rfl
  cases hd : w.d with
  | v d =>
    dsimp only
    rw [hrow]
    unfold State.finishRow landed
    simp only [hd, ha, ← putV_acq, List.foldl_cons, List.foldl_nil, hsid] <;> rfl
  | s d =>
    simp only [landed, ha, ← putS_acq, hsid] <;> rfl
  | p i => simp only [landed, hsid]
  | _ =>
    dsimp only
    rw [hrow]
    unfold State.finishRow landed
    simp only [hd, List.foldl_cons, List.foldl_nil, hsid]

/-- What a word that computes leaves alone (R163 to R167), in terms that can be chained. -/
structure Leaves (s t : State) (sid : Nat) (d : Operand) (n : Nat) : Prop where
  only : OnlyComputes s t sid
  regs : OtherRegs s t sid d n
  strand : ∀ x, (t.strand? x).isSome = (s.strand? x).isSome
  item : ∀ u, (t.item? u).isSome = (s.item? u).isSome

section strands
variable {x y : Strand}

theorem rest_sid (h : restOf x = restOf y) : x.sid = y.sid := by injection h
theorem rest_kind (h : restOf x = restOf y) : x.kind = y.kind := by injection h
theorem rest_uid (h : restOf x = restOf y) : x.uid = y.uid := by injection h
theorem rest_prank (h : restOf x = restOf y) : x.prank = y.prank := by injection h
theorem rest_row (h : restOf x = restOf y) : x.row = y.row := by injection h
theorem rest_lane (h : restOf x = restOf y) : x.lane = y.lane := by injection h
theorem rest_isFrame (h : restOf x = restOf y) : x.isFrame = y.isFrame := by unfold Strand.isFrame; rw [rest_kind h]

theorem rest_sameRow (h : restOf x = restOf y) (z : Strand) : sameRow z x = sameRow z y := by
  unfold sameRow
  rw [rest_isFrame h, rest_sid h, rest_uid h, rest_prank h, rest_row h]

/-- What a strand reads of its registers depends on where it stands and on a frame's own row. -/
theorem vreg_congr (s : State) (h : restOf x = restOf y) (hf : x.frame = y.frame) (r : Nat) : s.vreg x r = s.vreg y r := by
  unfold State.vreg State.rowOf
  rw [rest_isFrame h, rest_uid h, rest_prank h, rest_row h, rest_lane h, hf]

theorem sreg_congr (s : State) (h : restOf x = restOf y) (r : Nat) : s.sreg x r = s.sreg y r := by
  unfold State.sreg
  rw [rest_uid h]

end strands

theorem bare_uid {x y : Item} (h : bare x = bare y) : x.uid = y.uid := by injection h
theorem bare_number {x y : Item} (h : bare x = bare y) : x.number = y.number := by injection h

theorem onlyComputes_refl (s : State) (sid : Nat) : OnlyComputes s s sid := ⟨rfl, fun _ h => h, fun _ => rfl, fun _ _ => rfl, rfl⟩

theorem OnlyComputes.trans {s t u : State} {sid : Nat} (h1 : OnlyComputes s t sid) (h2 : OnlyComputes t u sid) : OnlyComputes s u sid where
  machine := by rw [h2.machine, h1.machine]
  copies l hl := h1.copies l (h2.copies l hl)
  items x := (h2.items x).trans (h1.items x)
  others x hx := (h2.others x hx).trans (h1.others x hx)
  own := h2.own.trans h1.own

theorem Leaves.trans {s t u : State} {sid : Nat} {d : Operand} {n : Nat} (h1 : Leaves s t sid d n) (h2 : Leaves t u sid d n) : Leaves s u sid d n where
  only := OnlyComputes.trans h1.only h2.only
  strand x := (h2.strand x).trans (h1.strand x)
  item x := (h2.item x).trans (h1.item x)
  regs :=
    { vector := fun r hr => (h2.regs.vector r hr).trans (h1.regs.vector r hr)
      scalar := fun r hr => (h2.regs.scalar r hr).trans (h1.regs.scalar r hr)
      items := fun u r hu => (h2.regs.items u r (by rwa [rest_uid h1.only.own])).trans (h1.regs.items u r hu)
      pred := fun r hr => (h2.regs.pred r hr).trans (h1.regs.pred r hr)
      others := fun x r hx hsome hlive hlane hrow => by
        have hst := h1.only.others x hx
        refine (h2.regs.others x r hx (by rwa [h1.strand]) (by rwa [hst]) (by rwa [hst]) fun h => ?_).trans
          (h1.regs.others x r hx hsome hlive hlane hrow)
        rw [hst, rest_lane h1.only.own]
        exact hrow (by rwa [hst, rest_sameRow h1.only.own] at h) }

/-- A state whose registers all read the same leaves every register alone. -/
theorem leaves_of_reads {s t : State} {sid : Nat} (d : Operand) (n : Nat) (hr : SameReads s t) (ho : OnlyComputes s t sid) 
    (hi : ∀ u r, ((t.it u).sregs.getD r {}).val = ((s.it u).sregs.getD r {}).val) : Leaves s t sid d n where
  only := ho
  strand x := by rw [hr.strand?]
  item := hr.items
  regs :=
    { vector := fun r _ => by rw [hr.st]; exact hr.vector _ _
      scalar := fun r _ => by rw [hr.st]; exact hr.scalar _ _
      items := fun u r _ => hi u r
      pred := fun r _ => by rw [hr.st]
      others := fun x r _ _ _ _ _ => by rw [hr.st]; exact hr.vector _ _ }

theorem setSt_onlyComputes (s : State) (sid : Nat) (f : Strand → Strand) (hf : ∀ x, restOf (f x) = restOf x) : OnlyComputes s (s.setSt sid f) sid where
  machine := rfl
  copies _ h := h
  items _ := rfl
  others x hx := setSt_st_other s sid f (fun y => rest_sid (hf y)) x (Ne.symm hx)
  own := by
    by_cases h : (s.strand? sid).isSome
    · rw [setSt_st_same s sid f (fun y => rest_sid (hf y)) h, hf]
    · have hn : s.strand? sid = none := by simpa using h
      have hn' : (s.setSt sid f).strand? sid = none := by rw [setSt_strand? s sid f (fun y => rest_sid (hf y)), hn]; simp
      unfold State.st
      rw [hn, hn']

theorem setSt_strand_isSome (s : State) (sid : Nat) (f : Strand → Strand) (hf : ∀ x, restOf (f x) = restOf x) (x : Nat) :
    ((s.setSt sid f).strand? x).isSome = (s.strand? x).isSome := by
  rw [setSt_strand? s sid f (fun y => rest_sid (hf y))]
  split <;> simp

/-- A change of the strand itself, which at most one predicate sees. -/
theorem setSt_leaves (s : State) (sid : Nat) (f : Strand → Strand) (d : Operand) (n : Nat) (hf : ∀ x, restOf (f x) = restOf x) (hframe : ∀ x, (f x).frame = x.frame)
    (hpred : ∀ x, ∀ r : BitVec 3, d ≠ .p r → (f x).pred r.toNat = x.pred r.toNat) : Leaves s (s.setSt sid f) sid d n where
  only := setSt_onlyComputes s sid f hf
  strand := setSt_strand_isSome s sid f hf
  item _ := rfl
  regs := by
    have hown : (s.setSt sid f).st sid = s.st sid ∨ (s.setSt sid f).st sid = f (s.st sid) := by
      by_cases h : (s.strand? sid).isSome
      · exact .inr (setSt_st_same s sid f (fun y => rest_sid (hf y)) h)
      · left
        have hn : s.strand? sid = none := by simpa using h
        unfold State.st
        rw [setSt_strand? s sid f (fun y => rest_sid (hf y)), hn]
        simp
    exact
      { vector := fun r _ => by
          rcases hown with h | h
          · rw [h]; rfl
          · rw [h]; exact vreg_congr s (hf _) (hframe _) r
        scalar := fun r _ => sreg_congr s (setSt_onlyComputes s sid f hf).own r
        items := fun _ _ _ => rfl
        pred := fun r hr => by
          rcases hown with h | h
          · rw [h]
          · rw [h]; exact hpred _ r hr
        others := fun x r hx _ _ _ _ => by rw [(setSt_onlyComputes s sid f hf).others x hx]; rfl }

theorem setIt_bare (s : State) (uid : Nat) (f : Item → Item) (hf : ∀ x, bare (f x) = bare x) (u : Nat) : bare ((s.setIt uid f).it u) = bare (s.it u) := by
  unfold State.it
  rw [setIt_item? s uid f (fun y => bare_uid (hf y))]
  split
  · cases s.item? u with
    | none => rfl
    | some x => exact hf x
  · rfl

theorem setIt_item_isSome (s : State) (uid : Nat) (f : Item → Item) (hf : ∀ x, bare (f x) = bare x) (u : Nat) :
    ((s.setIt uid f).item? u).isSome = (s.item? u).isSome := by
  rw [setIt_item? s uid f (fun y => bare_uid (hf y))]
  split <;> simp

theorem setIt_onlyComputes (s : State) (sid uid : Nat) (f : Item → Item) (hf : ∀ x, bare (f x) = bare x) : OnlyComputes s (s.setIt uid f) sid :=
  ⟨rfl, fun _ h => h, setIt_bare s uid f hf, fun _ _ => rfl, rfl⟩

/-- An update of an item that keeps something of every item keeps it in the state. -/
theorem setIt_keeps {β : Type} (g : Item → β) (s : State) (uid : Nat) (f : Item → Item) (hf : ∀ x, (f x).uid = x.uid) (hg : ∀ x, g (f x) = g x) (u : Nat) :
    g ((s.setIt uid f).it u) = g (s.it u) := by
  unfold State.it
  rw [setIt_item? s uid f hf]
  split
  · cases s.item? u with
    | none => rfl
    | some x => exact hg x
  · rfl

theorem modify_map_eq {α β : Type} (l : List α) (i : Nat) (f : α → α) (g : α → β) (h : ∀ x, g (f x) = g x) : (l.modify i f).map g = l.map g := by
  apply List.ext_getElem?
  intro k
  simp only [List.getElem?_map, List.getElem?_modify]
  cases l[k]? with
  | none => rfl
  | some x => 
    simp only [Option.map_some]
    split <;> simp [h]

theorem bare_taking (it : Item) (a : Bool) (p : Nat) : bare (it.taking a p) = bare it := by
  have hranks : (it.ranks.modify p Rank.owned).map (fun r : Rank => ({ r with rows := [], slots := r.slots.map fun x => { x with tref := false } } : Rank)) =
      it.ranks.map fun r : Rank => ({ r with rows := [], slots := r.slots.map fun x => { x with tref := false } } : Rank) :=
    modify_map_eq _ _ _ _ fun r => by simp [Rank.owned]
  unfold bare Item.taking
  simp only [hranks]

theorem bare_rowUpdate (p r : Nat) (f : Row → Row) (it : Item) : bare (rowUpdate p r f it) = bare it := by
  have hranks := modify_map_eq it.ranks p (fun k => { k with rows := k.rows.modify r f })
    (fun r : Rank => ({ r with rows := [], slots := r.slots.map fun x => { x with tref := false } } : Rank)) fun _ => rfl
  unfold bare rowUpdate
  simp only [hranks]

theorem takeover_onlyComputes (s : State) (sid uid p : Nat) : OnlyComputes s (s.takeover uid p) sid := by
  rcases takeover_cases s uid p with h | ⟨a, h⟩
  · rw [h]; exact onlyComputes_refl s sid
  · rw [h]; exact setIt_onlyComputes s sid uid _ fun x => bare_taking x a p

theorem takeover_sregs (s : State) (uid p u r : Nat) : (((s.takeover uid p).it u).sregs.getD r {}).val = ((s.it u).sregs.getD r {}).val := by
  rcases takeover_cases s uid p with h | ⟨a, h⟩
  · rw [h]
  · rw [h]
    exact setIt_keeps (fun it => (it.sregs.getD r {}).val) s uid (fun it => it.taking a p) (fun _ => rfl) (fun it => taking_sreg it a p r) u

theorem takeover_leaves (s : State) (sid uid p : Nat) (d : Operand) (n : Nat) : Leaves s (s.takeover uid p) sid d n :=
  leaves_of_reads d n (takeover_reads s uid p) (takeover_onlyComputes s sid uid p) fun u r => takeover_sregs s uid p u r

theorem leaves_refl (s : State) (sid : Nat) (d : Operand) (n : Nat) : Leaves s s sid d n :=
  leaves_of_reads d n (SameReads.refl s) (onlyComputes_refl s sid) fun _ _ => rfl

theorem handover_leaves (s : State) (sid core : Nat) (tm : Option Nat) (d : Operand) (n : Nat) : Leaves s (s.handover core tm) sid d n := by
  unfold State.handover
  split
  · exact leaves_refl s sid d n
  · generalize List.filter _ _ = l
    induction l generalizing s with
    | nil => exact leaves_refl s sid d n
    | cons x l ih => exact (takeover_leaves s sid _ _ d n).trans (ih _)

/-- A change that draws storage leaves alone what the change itself does (R67, R68). -/
theorem grow_leaves {s t : State} {p sid : Nat} {f : State → State} {d : Operand} {n : Nat} (hP : Placed s sid) (h : s.grow (s.st sid).uid p f = some t)
    (hf : ∀ u, Placed u sid → u.st sid = s.st sid → Leaves u (f u) sid d n) : Leaves s t sid d n := by
  unfold State.grow at h
  dsimp only at h
  split at h
  · cases h
    refine (hf s hP rfl).trans ?_
    unfold State.handedOver
    split
    · exact handover_leaves _ _ _ _ d n
    · exact leaves_refl _ _ d n
  · split at h
    · cases h
      obtain ⟨hP', hst, -⟩ := takeover_placed (s.st sid).uid p hP
      exact (takeover_leaves s sid _ _ d n).trans (hf _ hP' hst)
    · cases h

/-- What one strand's write does to its row (R71, R167). -/
def writeRow (s : State) (st : Strand) (d n : Nat) (vals : List Word) (hint : Nat → Option Shape) (row : Row) : Row :=
  (List.range n).foldl (fun row j => row.setReg (d + j) ((row.reg (d + j)).write (s.it st.uid).number (s.covers st [st.lane])
    ((hint j).map fun sh => sh.forFrame st.isFrame (s.it st.uid).number) [(st.lane, vals.getD j 0)])) row

theorem writeV_eq_writeRow (s : State) (st : Strand) (d n : Nat) (vals : List Word) (hint : Nat → Option Shape) :
    s.writeV st d [(st, vals)] hint n = noteWrite d n vals st (s.setRow st (writeRow s st d n vals hint)) := by
  unfold State.writeV noteWrite
  simp only [List.foldl_cons, List.foldl_nil, List.map_cons, List.map_nil]
  rfl

theorem writeRow_reg (s : State) (st : Strand) (d n : Nat) (vals : List Word) (hint : Nat → Option Shape) (row : Row) (k : Nat) :
    (writeRow s st d n vals hint row).reg k = if d ≤ k ∧ k < d + n then (row.reg k).write (s.it st.uid).number (s.covers st [st.lane])
      ((hint (k - d)).map fun sh => sh.forFrame st.isFrame (s.it st.uid).number) [(st.lane, vals.getD (k - d) 0)] else row.reg k :=
  foldReg_reg (fun j v => v.write (s.it st.uid).number (s.covers st [st.lane]) ((hint j).map fun sh : Shape => sh.forFrame st.isFrame (s.it st.uid).number) [(st.lane, vals.getD j 0)]) d n row k

/-- A lane that a write does not name keeps its value where the write covers no row (R71). -/
theorem write_other (v : VReg) (item : Word) (hint : Option Shape) (lane other : Nat) (x : Word) (h32 : other < 32) (hne : other ≠ lane) :
    (v.write item false hint [(lane, x)]).shape.at item other = v.shape.at item other := by
  have hfind : [(lane, x)].find? (fun y => y.1 == other) = none := by simp [Ne.symm hne]
  have hval : ((List.range 32).map fun K => match [(lane, x)].find? fun y => y.1 == K with
      | some y => y.2
      | none => v.shape.at item K).getD other 0 = v.shape.at item other := by
    rw [List.getD_eq_getElem?_getD, List.getElem?_map, List.getElem?_range h32, Option.map_some, Option.getD_some, hfind]
  exact hval

/-- A row that another live strand stands in is not covered by one lane other than that strand's (R167). -/
theorem not_covers {s : State} {sid x : Nat} (hx : (s.strand? x).isSome) (hlive : (s.st x).exited = false) (hrow : sameRow (s.st x) (s.st sid) = true)
    (hframe : (s.st sid).isFrame = false) (hlane : (s.st x).lane ≠ (s.st sid).lane) : s.covers (s.st sid) [(s.st sid).lane] = false := by
  obtain ⟨y, hy⟩ := Option.isSome_iff_exists.mp hx
  have hst : s.st x = y := by unfold State.st; rw [hy]; rfl
  have hmem : y ∈ s.strands := List.mem_of_find?_eq_some hy
  rw [hst] at hlive hrow hlane
  unfold State.covers
  rw [hframe, Bool.false_or, List.all_eq_false]
  exact ⟨y, hmem, by simp [hrow, hlive, hlane]⟩

/-- Another strand's row after a write to a strand's row: the written one where they share it, else as it was. -/
theorem setRow_rowOf_other {s : State} {sid x : Nat} (hP : Placed s sid) (F : Row → Row) (hx : x ≠ sid) (hsome : (s.strand? x).isSome) :
    (s.setRow (s.st sid) F).rowOf (s.st x) = if sameRow (s.st x) (s.st sid) then F (s.rowOf (s.st sid)) else s.rowOf (s.st x) := by
  have hids : (s.st x).sid ≠ (s.st sid).sid := by rwa [st_sid hsome, st_sid hP.strand]
  cases hf : (s.st sid).isFrame with
  | true =>
    rw [setRow_frame s _ F hf, setSt_rowOf, if_neg]
    simp [sameRow, hf, hids]
  | false =>
    rw [setRow_item s _ F hf]
    cases hxf : (s.st x).isFrame with
    | true =>
      rw [rowOf_frame _ _ hxf, rowOf_frame _ _ hxf, if_neg]
      simp [sameRow, hxf, hids]
    | false =>
      rw [rowOf_item _ _ hxf, rowOf_item _ _ hxf, rowOf_item _ _ hf]
      have hsame : sameRow (s.st x) (s.st sid) = true ↔ (s.st x).uid = (s.st sid).uid ∧ (s.st x).prank = (s.st sid).prank ∧ (s.st x).row = (s.st sid).row := by
        simp [sameRow, hf, hxf, and_assoc]
      obtain ⟨hp, hr⟩ := hP.row.resolve_left (by simp [hf])
      by_cases hu : (s.st x).uid = (s.st sid).uid
      · rw [hu, setIt_it_same s _ (rowUpdate (s.st sid).prank (s.st sid).row F) (fun _ => rfl) hP.item]
        by_cases hpr : (s.st x).prank = (s.st sid).prank
        · have hrank : (rowUpdate (s.st sid).prank (s.st sid).row F (s.it (s.st sid).uid)).ranks.getD (s.st sid).prank {} =
              { (s.rank (s.st sid).uid (s.st sid).prank) with rows := (s.rank (s.st sid).uid (s.st sid).prank).rows.modify (s.st sid).row F } :=
            getD_modify _ _ _ _ hp
          rw [hpr, hrank]
          by_cases hrow : (s.st x).row = (s.st sid).row
          · rw [hrow, if_pos (hsame.mpr ⟨hu, hpr, hrow⟩)]
            exact getD_modify _ _ _ _ hr
          · rw [if_neg fun h => hrow (hsame.mp h).2.2]
            exact getD_modify_ne _ _ _ _ _ (Ne.symm hrow)
        · rw [if_neg fun h => hpr (hsame.mp h).2.1]
          have hrank : (rowUpdate (s.st sid).prank (s.st sid).row F (s.it (s.st sid).uid)).ranks.getD (s.st x).prank {} =
              (s.it (s.st sid).uid).ranks.getD (s.st x).prank {} := getD_modify_ne _ _ _ _ _ (Ne.symm hpr)
          rw [hrank]
      · rw [setIt_it_other s _ (rowUpdate (s.st sid).prank (s.st sid).row F) (fun _ => rfl) _ (Ne.symm hu), if_neg fun h => hu (hsame.mp h).1]

theorem setRow_onlyComputes {s : State} {sid : Nat} (hP : Placed s sid) (F : Row → Row) : OnlyComputes s (s.setRow (s.st sid) F) sid := by
  cases hf : (s.st sid).isFrame with
  | true =>
    rw [setRow_frame s _ F hf, st_sid hP.strand]
    exact setSt_onlyComputes s sid (frameUpdate F) fun _ => rfl
  | false =>
    rw [setRow_item s _ F hf]
    exact setIt_onlyComputes s sid _ _ (bare_rowUpdate _ _ F)

theorem setRow_sregs (s : State) (st : Strand) (F : Row → Row) (u : Nat) : ((s.setRow st F).it u).sregs = (s.it u).sregs := by
  cases hf : st.isFrame with
  | true => rw [setRow_frame s _ F hf]; rfl
  | false =>
    rw [setRow_item s _ F hf]
    exact setIt_keeps (fun it => it.sregs) s st.uid (rowUpdate st.prank st.row F) (fun _ => rfl) (fun _ => rfl) u

theorem setRow_strand_isSome {s : State} {sid : Nat} (hP : Placed s sid) (F : Row → Row) (x : Nat) :
    ((s.setRow (s.st sid) F).strand? x).isSome = (s.strand? x).isSome := by
  cases hf : (s.st sid).isFrame with
  | true =>
    rw [setRow_frame s _ F hf, st_sid hP.strand]
    exact setSt_strand_isSome s sid (frameUpdate F) (fun _ => rfl) x
  | false => rw [setRow_item s _ F hf]; rfl

theorem setRow_item_isSome (s : State) (st : Strand) (F : Row → Row) (u : Nat) : ((s.setRow st F).item? u).isSome = (s.item? u).isSome := by
  cases hf : st.isFrame with
  | true => rw [setRow_frame s _ F hf]; rfl
  | false =>
    rw [setRow_item s _ F hf]
    exact setIt_item_isSome s st.uid (rowUpdate st.prank st.row F) (bare_rowUpdate _ _ F) u

/-- A lone strand's write to its row leaves every other register, and every other live strand's lane, alone (R71, R167). -/
theorem setRow_leaves {s : State} {sid : Nat} (hP : Placed s sid) (i : BitVec 8) (n : Nat) (vals : List Word) (hint : Nat → Option Shape) :
    Leaves s (s.setRow (s.st sid) (writeRow s (s.st sid) i.toNat n vals hint)) sid (.v i) n where
  only := setRow_onlyComputes hP _
  strand := setRow_strand_isSome hP _
  item := setRow_item_isSome s _ _
  regs := by
    have honly := setRow_onlyComputes hP (writeRow s (s.st sid) i.toNat n vals hint)
    have hkept := setRow_kept hP (writeRow s (s.st sid) i.toNat n vals hint)
    refine ⟨fun r hr => ?vector, fun r _ => ?scalar, fun u r _ => ?items, fun r _ => ?pred, fun x r hx hsome hlive hlane hrow => ?others⟩
    case vector =>
      unfold State.vreg
      rw [setRow_row hP, writeRow_reg, if_neg (by have := hr i rfl; omega), hkept.uid, hkept.lane, setRow_number]
    case scalar =>
      unfold State.sreg
      rw [hkept.uid, setRow_sregs]
    case items => rw [setRow_sregs]
    case pred => rw [hkept]; rfl
    case others =>
      rw [honly.others x hx]
      unfold State.vreg
      rw [setRow_rowOf_other hP _ hx hsome, setRow_number]
      by_cases hs : sameRow (s.st x) (s.st sid) = true
      · have hf : (s.st sid).isFrame = false ∧ (s.st x).isFrame = false := by
          have hids : (s.st x).sid ≠ (s.st sid).sid := by rwa [st_sid hsome, st_sid hP.strand]
          cases h1 : (s.st sid).isFrame <;> cases h2 : (s.st x).isFrame <;> simp [sameRow, h1, h2, hids] at hs ⊢
        have hplace : (s.st x).uid = (s.st sid).uid ∧ (s.st x).prank = (s.st sid).prank ∧ (s.st x).row = (s.st sid).row := by
          simpa [sameRow, hf.1, hf.2, and_assoc] using hs
        have hrow' : s.rowOf (s.st sid) = s.rowOf (s.st x) := by
          rw [rowOf_item _ _ hf.1, rowOf_item _ _ hf.2, hplace.1, hplace.2.1, hplace.2.2]
        rw [if_pos hs, writeRow_reg, hrow']
        split
        · rw [not_covers hsome hlive hs hf.1 (hrow hs), hplace.1]
          exact write_other _ _ _ _ _ _ hlane (hrow hs)
        · rfl
      · rw [if_neg hs]

theorem noteWrite_leaves (s : State) (st : Strand) (d m : Nat) (vals : List Word) (o : Operand) (n : Nat) : Leaves s (noteWrite d m vals st s) st.sid o n := by
  unfold noteWrite
  split
  · exact setSt_leaves _ _ _ _ _ (fun _ => rfl) (fun _ => rfl) fun _ _ _ => rfl
  · exact setSt_leaves _ _ _ _ _ (fun _ => rfl) (fun _ => rfl) fun _ _ _ => rfl
  · exact leaves_refl s st.sid o n

theorem writeV_leaves {s : State} {sid : Nat} (hP : Placed s sid) (i : BitVec 8) (n : Nat) (vals : List Word) (hint : Nat → Option Shape) :
    Leaves s (s.writeV (s.st sid) i.toNat [(s.st sid, vals)] hint n) sid (.v i) n := by
  rw [writeV_eq_writeRow]
  have hnote := noteWrite_leaves (s.setRow (s.st sid) (writeRow s (s.st sid) i.toNat n vals hint)) (s.st sid) i.toNat n vals (.v i) n
  rw [st_sid hP.strand] at hnote
  exact (setRow_leaves hP i n vals hint).trans hnote

/-- A write of one scalar register of a destination (R164). -/
theorem writeS_leaves {s : State} {sid uid : Nat} (hu : uid = (s.st sid).uid) (i : BitVec 9) {n k : Nat} (x : Word) (hk : k < n) :
    Leaves s (s.writeS uid (i.toNat + k) x) sid (.s i) n where
  only := setIt_onlyComputes s sid _ _ fun _ => rfl
  strand _ := rfl
  item := setIt_item_isSome s _ _ fun _ => rfl
  regs := by
    let F : Item → Item := fun it => { it with sregs := setAt it.sregs (i.toNat + k) { val := x } {} }
    have hranks : ∀ u, ((s.setIt uid F).it u).ranks = (s.it u).ranks := setIt_keeps (fun it => it.ranks) s _ F (fun _ => rfl) fun _ => rfl
    have hnum : ∀ u, ((s.setIt uid F).it u).number = (s.it u).number := setIt_keeps (fun it => it.number) s _ F (fun _ => rfl) fun _ => rfl
    have hvreg : ∀ st r, (s.setIt uid F).vreg st r = s.vreg st r := fun st r => by
      unfold State.vreg State.rowOf State.rank
      rw [hranks, hnum]
    refine ⟨fun r _ => hvreg _ r, fun r hr => ?scalar, fun u r hne => ?items, fun _ _ => rfl, fun x r _ _ _ _ _ => hvreg _ r⟩
    case scalar =>
      exact setIt_keeps (fun it => (it.sregs.getD r {}).val) s _ F (fun _ => rfl)
        (fun it => by show SReg.val (List.getD (setAt _ _ _ _) _ _) = _; rw [setAt_getD, if_neg (by have := hr i rfl; omega)]) _
    case items =>
      show (((s.setIt uid F).it u).sregs.getD r {}).val = _
      rw [setIt_it_other s _ F (fun _ => rfl) u (by rw [hu]; exact Ne.symm hne)]

theorem writeS_fold_leaves {s : State} {sid uid : Nat} (hu : uid = (s.st sid).uid) (i : BitVec 9) {n m : Nat} (vals : List Word) (hm : m ≤ n) :
    Leaves s ((List.range m).foldl (fun s j => s.writeS uid (i.toNat + j) (vals.getD j 0)) s) sid (.s i) n := by
  induction m with
  | zero => exact leaves_refl s sid _ n
  | succ m ih =>
    have hfold := ih (by omega)
    rw [List.range_succ, List.foldl_append]
    exact hfold.trans (writeS_leaves (hu.trans (rest_uid hfold.only.own).symm) i _ (by omega))

theorem getLsbD_maskOf_seven (f : Nat → Bool) (k : Nat) (hk : k < 7) : (BitVec.ofNat 7 (maskOf 7 f)).getLsbD k = f k := by
  have hsum : maskOf 7 f = (if f 0 then 1 else 0) + ((if f 1 then 2 else 0) + ((if f 2 then 4 else 0) + ((if f 3 then 8 else 0) +
      ((if f 4 then 16 else 0) + ((if f 5 then 32 else 0) + if f 6 then 64 else 0))))) := by
    simp [maskOf, List.range_succ_eq_map]
  rw [hsum]
  interval_cases k <;> (generalize f 0 = b0, f 1 = b1, f 2 = b2, f 3 = b3, f 4 = b4, f 5 = b5, f 6 = b6; revert b0 b1 b2 b3 b4 b5 b6; decide)

theorem setPred_pred_other (x : Strand) (i r : BitVec 3) (b : Bool) (h : r ≠ i) : (x.setPred i.toNat b).pred r.toNat = x.pred r.toNat := by
  have hne : r.toNat ≠ i.toNat := fun e => h (BitVec.eq_of_toNat_eq e)
  unfold Strand.pred
  split
  · rfl
  · exact (getLsbD_maskOf_seven _ _ (by omega)).trans (if_neg hne)

/-- A result that has landed has changed its destination alone (R163, R164). -/
theorem landed_leaves {s t : State} {sid : Nat} {d : Operand} {vals : List Word} {hint : Nat → Option Shape} {n : Nat} (hP : Placed s sid)
    (h : landed s sid d vals hint n = some t) : Leaves s t sid d n := by
  unfold landed at h
  cases d with
  | v i =>
    dsimp only at h
    unfold State.putV at h
    split at h
    · cases h
      exact writeV_leaves hP i n vals hint
    · exact grow_leaves hP h fun u hPu hst => by rw [← hst]; exact writeV_leaves hPu i n vals hint
  | s i =>
    dsimp only at h
    unfold State.putS at h
    refine grow_leaves hP h fun u hPu hst => ?_
    exact writeS_fold_leaves (by rw [hst]) i vals le_rfl
  | p i =>
    cases h
    refine setSt_leaves s sid _ _ _ (fun _ => rfl) (fun _ => rfl) fun x r hr => setPred_pred_other x i r _ fun e => hr (by rw [e])
  | _ => cases h; exact leaves_refl s sid _ n

/-- Copies that go from L1s are no registers. -/
theorem dropCopies_leaves (s : State) (sid : Nat) (p : L1Line → Bool) (d : Operand) (n : Nat) : Leaves s { s with l1 := s.l1.filter p } sid d n where
  only := ⟨rfl, fun _ h => (List.mem_filter.mp h).1, fun _ => rfl, fun _ _ => rfl, rfl⟩
  strand _ := rfl
  item _ := rfl
  regs := ⟨fun _ _ => rfl, fun _ _ => rfl, fun _ _ _ => rfl, fun _ _ => rfl, fun _ _ _ _ _ _ _ => rfl⟩

theorem acquireAt_leaves (s : State) (sid scope at_ acq : Nat) (d : Operand) (n : Nat) : Leaves s (s.acquireAt sid scope at_ acq) sid d n := by
  unfold State.acquireAt
  dsimp only
  split
  · refine Leaves.trans ?_ (dropCopies_leaves (s.setSt sid _) sid _ d n)
    exact setSt_leaves s sid _ d n (fun _ => rfl) (fun _ => rfl) fun _ _ _ => rfl
  · exact setSt_leaves s sid _ d n (fun _ => rfl) (fun _ => rfl) fun _ _ _ => rfl

theorem onWait_leaves (s : State) (w : Ins) (sid : Nat) (d : Operand) (n : Nat) : Leaves s (s.onWait w sid) sid d n := by
  unfold State.onWait
  dsimp only
  split
  · exact leaves_refl s sid d n
  · exact acquireAt_leaves s sid _ _ _ d n

theorem retire_leaves (s : State) (sid : Nat) (w : Ins) (d : Operand) (n : Nat) : Leaves s (s.retire sid w) sid d n :=
  setSt_leaves s sid _ d n (fun _ => rfl) (fun _ => rfl) fun _ _ _ => rfl

theorem setPark_leaves (s : State) (sid : Nat) (p : Park) (d : Operand) (n : Nat) : Leaves s (s.setPark sid p) sid d n :=
  setSt_leaves s sid _ d n (fun _ => rfl) (fun _ => rfl) fun _ _ _ => rfl

/-- A word that computes, issued by one strand, leaves all but its destination alone, whether its result has storage or not. -/
theorem alu_leaves {op : Nat} {w : Ins} {s : State} {sid : Nat} (n : Nat) (shape : State → Strand → List Word → Nat → Option Shape)
    (f : State → Strand → List Word) (hG : Goes op w s sid) : Leaves s (s.alu op w n shape f) sid w.d n := by
  have hwait := onWait_leaves s w sid w.d n
  unfold State.alu
  rw [aluWith_eq_landed n shape f _ hG]
  split
  · rename_i t ht
    exact (hwait.trans (landed_leaves (onWait_placed w hG.placed) ht)).trans (retire_leaves t sid w w.d n)
  · exact hwait.trans (setPark_leaves _ sid .storage w.d n)

/-- The frame of a word that is one alu operation. -/
theorem frame_of_alu {i : Ins → Instr} {op : Nat} {n : Ins → Nat}
    (he : ∀ w s, ∃ shape f, exec (i w) s = .next (s.alu op w (n w) shape f)) (w : Ins) (s : State) (sid : Nat) (t : State) (hG : Goes op w s sid)
    (ht : exec (i w) s = .next t) : OnlyComputes s t sid ∧ OtherRegs s t sid w.d (n w) := by
  obtain ⟨shape, f, hexec⟩ := he w s
  obtain rfl : s.alu op w (n w) shape f = t := Host.Outcome.next.inj (hexec.symm.trans ht)
  have h := alu_leaves (n w) shape f hG
  exact ⟨h.only, h.regs⟩

/-- Settles O59: each of the words is one alu operation, and those leave all but the destination alone. -/
theorem computingWordsFrame : Obligations.ComputingWordsFrame := by
  unfold Obligations.ComputingWordsFrame
  simp only [List.forall_mem_cons, List.not_mem_nil, false_imp_iff, implies_true, and_true]
  refine ⟨?_, ?_, ?_, ?_, ?_, ?_, ?_, ?_, ?_, ?_, ?_, ?_, ?_, ?_, ?_, ?_, ?_, ?_, ?_, ?_, ?_, ?_, ?_, ?_, ?_, ?_, ?_, ?_, ?_, ?_, ?_, ?_, ?_, ?_, ?_, ?_, ?_, ?_, ?_, ?_, ?_, ?_⟩
  all_goals exact frame_of_alu fun _ _ => ⟨_, _, rfl⟩

/-- The strands of a lone bundle that go at a word, by number. -/
theorem goers_sids {op : Nat} {w : Ins} {s : State} {sid : Nat} (hG : Goes op w s sid) :
    (s.bundle.filter fun x => decide (s.verdict op w (s.st x) = .go)) = [sid] := by
  rw [hG.bundle]
  simp [hG.verdict]

/-- CNEW hands a lone strand the lowest free id of its item (R96). -/
theorem cnewId_lone (s : State) (sid : Nat) (hsid : (s.st sid).sid = sid) :
    s.cnewId [sid] (s.st sid) = match (List.range 16).find? (fun i => decide (1 ≤ i) && ((s.it (s.st sid).uid).crew i).isNone) with
      | some i => BitVec.ofNat 32 i
      | none => 0xFFFFFFFF := by
  have hmine : sortBy (fun x => (s.st x).rank) ([sid].filter fun x => (s.st x).uid == (s.st sid).uid) = [sid] := by simp [sortBy, insertBy]
  have hfirst : [sid].findIdx (· == (s.st sid).sid) = 0 := by rw [hsid]; simp [List.findIdx_cons]
  unfold State.cnewId
  dsimp only
  rw [hmine, hfirst, ← List.head?_eq_getElem?, List.head?_filter] <;> rfl

theorem crew_append_isSome (it : Item) (id : Nat) : (({ it with crews := it.crews ++ [{ id := id }] } : Item).crew id).isSome := by
  simp [Item.crew]

/-- A crew added to an item is no register: what a destination holds stays. -/
theorem holds_addCrew {t : State} {sid : Nat} (uid id : Nat) (d : Operand) (vals : List Word) (n : Nat) (hh : Holds t sid d vals n) :
    Holds (t.setIt uid fun it => { it with crews := it.crews ++ [{ id := id }] }) sid d vals n := by
  let F : Item → Item := fun it => { it with crews := it.crews ++ [{ id := id }] }
  have hranks : ∀ u, ((t.setIt uid F).it u).ranks = (t.it u).ranks := setIt_keeps (fun it => it.ranks) t _ F (fun _ => rfl) fun _ => rfl
  have hnum : ∀ u, ((t.setIt uid F).it u).number = (t.it u).number := setIt_keeps (fun it => it.number) t _ F (fun _ => rfl) fun _ => rfl
  have hsregs : ∀ u, ((t.setIt uid F).it u).sregs = (t.it u).sregs := setIt_keeps (fun it => it.sregs) t _ F (fun _ => rfl) fun _ => rfl
  unfold Holds at hh ⊢
  cases d with
  | v i =>
    intro j hj
    rw [← hh j hj, setIt_st]
    unfold State.vreg State.rowOf State.rank
    rw [hranks, hnum]
  | s i =>
    intro j hj
    rw [← hh j hj, setIt_st]
    unfold State.sreg
    rw [hsregs]
  | p i => exact hh
  | _ => trivial

/-- A lone strand whose result has storage: the state in which the result has landed, by which it goes on. -/
theorem aluWith_lands {op : Nat} {w : Ins} {s : State} {sid : Nat} (n : Nat) (shape : State → Strand → List Word → Nat → Option Shape)
    (f : State → Strand → List Word) (go : State → Nat → List Word → State) (hG : Goes op w s sid)
    (hr : Room (s.onWait w sid) sid w.d (f s (s.st sid)) (shape s (s.st sid) (f s (s.st sid))) n)
    (hh : ∀ j < n, ∀ sh, shape s (s.st sid) (f s (s.st sid)) j = some sh →
      sh.at (s.it (s.st sid).uid).number (s.st sid).lane = (f s (s.st sid)).getD j 0) :
    ∃ t, s.aluWith op w n shape f go = go t sid (f s (s.st sid)) ∧ Holds t sid w.d (f s (s.st sid)) n ∧ Leaves s t sid w.d n ∧
      (t.st sid).pc = (s.st sid).pc ∧ (t.st sid).seq = (s.st sid).seq ∧ (t.strand? sid).isSome := by
  obtain ⟨t, ht⟩ := Option.isSome_iff_exists.mp ((room_iff_landed _ _ _ _ _ _).mp hr)
  obtain ⟨u, hu, hholds, hpc, hseq, hsome⟩ := aluWith_spec n shape f (fun t _ _ => t) hG hr hh
  rw [aluWith_eq_landed n shape f _ hG, ht] at hu
  dsimp only at hu
  subst hu
  refine ⟨t, ?_, hholds, (onWait_leaves s w sid w.d n).trans (landed_leaves (onWait_placed w hG.placed) ht), hpc, hseq, hsome⟩
  rw [aluWith_eq_landed n shape f go hG, ht]

/-- How CNEW's strand goes on: with an id, the crew is live from then on (R96). -/
def cnewGo (w : Ins) (t : State) (sid : Nat) (vals : List Word) : State :=
  let v := vals.headD 0
  let t := if v = 0xFFFFFFFF then t else t.setIt (t.st sid).uid fun it => { it with crews := it.crews ++ [{ id := v.toNat }] }
  t.retire sid w

theorem exec_cnew_lone {w : Ins} {s : State} {sid : Nat} (hG : Goes 0x12 w s sid) :
    exec (.cnew w) s = .next (s.aluWith 0x12 w 1
      (fun s0 st vals _ => if ([sid].filter fun x => sameRow (s0.st x) st).length = 1 then some (.uniform (vals.headD 0)) else none)
      (fun s st => [s.cnewId [sid] st]) (cnewGo w)) := by
  have hexec : exec (.cnew w) s = .next (s.aluWith 0x12 w 1
      (fun s0 st vals _ => if ((s.bundle.filter fun x => decide (s.verdict 0x12 w (s.st x) = .go)).filter fun x => sameRow (s0.st x) st).length = 1
        then some (.uniform (vals.headD 0)) else none)
      (fun s0 st => [s0.cnewId (s.bundle.filter fun x => decide (s.verdict 0x12 w (s.st x) = .go)) st]) (cnewGo w)) := rfl
  rw [goers_sids hG] at hexec
  exact hexec

/-- Settles O15: the word is an alu operation of a uniform result; the crew is added before the strand goes on. -/
theorem cnewGivesLowestFreeId : Obligations.CnewGivesLowestFreeId := by
  unfold Obligations.CnewGivesLowestFreeId
  intro w s sid it v hG hfits
  have hv : s.cnewId [sid] (s.st sid) = v := cnewId_lone s sid (st_sid hG.placed.strand)
  have hlen : ([sid].filter fun x => sameRow (s.st x) (s.st sid)).length = 1 := by simp [sameRow_self]
  obtain ⟨t, ht, hholds, hleaves, hpc, hseq, hsome⟩ := aluWith_lands 1
    (fun s0 st vals _ => if ([sid].filter fun x => sameRow (s0.st x) st).length = 1 then some (Shape.uniform (vals.headD 0)) else none)
    (fun s st => [s.cnewId [sid] st]) (cnewGo w) hG (by simp only [hv, if_pos hlen]; exact hfits) (by
      intro j hj sh h
      rw [if_pos hlen] at h
      cases h
      obtain rfl : j = 0 := by omega
      rfl)
  rw [hv] at ht hholds
  have huid : (t.st sid).uid = (s.st sid).uid := rest_uid hleaves.only.own
  refine ⟨_, (exec_cnew_lone hG).trans (congrArg Host.Outcome.next ht), ?_⟩
  unfold cnewGo
  dsimp only [List.headD_cons]
  by_cases hnone : v = 0xFFFFFFFF
  · rw [if_pos hnone, WentOn, retire_st w hsome]
    exact ⟨holds_retire w _ _ _ hsome hholds, ⟨by rw [hpc], by rw [hseq]⟩, fun h => absurd hnone h⟩
  · rw [if_neg hnone, huid]
    let F : Item → Item := fun it => { it with crews := it.crews ++ [{ id := v.toNat }] }
    have hitem : (t.item? (s.st sid).uid).isSome := by rw [hleaves.item]; exact hG.placed.item
    refine ⟨holds_retire w _ _ _ hsome (holds_addCrew _ _ _ _ _ hholds), ?_, fun _ => ?_⟩
    · rw [WentOn, retire_st w (t := t.setIt (s.st sid).uid F) hsome]
      exact ⟨by rw [setIt_st, hpc], by rw [setIt_st, hseq]⟩
    · show (((t.setIt (s.st sid).uid F).it (s.st sid).uid).crew v.toNat).isSome
      rw [setIt_it_same t _ F (fun _ => rfl) hitem]
      exact crew_append_isSome _ _

end Sys2Proof.Proofs
end

section
/-! SUPPORT. Words that sign a round, contribute to one, or change crews, for a strand that issues them alone (R77, R78, R91, R95 to R104, R197). -/

namespace Sys2Proof.Proofs

open Sys2Proof Sys2Proof.Machine Sys2Proof.Safety Sys2Proof.Laws

/-- The strand of a bundle of one as it signs (R98): unless its operands stop it, it has waited for the word's tokens. -/
theorem eachSign_go {op : Nat} {w : Ins} {s : State} {sid c : Nat} {f : Flow} {pre : State → Strand → Option Flow} (hG : Goes op w s sid)
    (hp : pre (s.onWait w sid) ((s.onWait w sid).st sid) = none) :
    s.eachSign op w c f pre = (s.onWait w sid).sign sid c op w true f := by
  unfold State.eachSign
  rw [hG.bundle]
  simp only [List.foldl_cons, List.foldl_nil, hG.verdict, hp]

/-- The same for a collective word (R100). -/
theorem eachColl_go {op : Nat} {w : Ins} {s : State} {sid : Nat} {f : State → Strand → Word × Nat} (hG : Goes op w s sid) :
    s.eachColl op w f = (s.onWait w sid).collect sid op w true (f (s.onWait w sid) ((s.onWait w sid).st sid)).1
      (f (s.onWait w sid) ((s.onWait w sid).st sid)).2 := by
  unfold State.eachColl
  rw [hG.bundle]
  simp only [List.foldl_cons, List.foldl_nil, hG.verdict]

/-- A strand that stands in the round's pending members, or opens the round, with a word like the first, joins the signers (R77, R98). -/
theorem sign_joins {s : State} {sid c op : Nat} {w : Ins} {k : Crew} (f : Flow)
    (hk : (s.it (s.st sid).uid).crew (s.st sid).crew = some k) (hb : sid ∉ (k.rounds.getD c {}).broken)
    (hp : (k.rounds.getD c {}).first.isSome → sid ∈ (k.rounds.getD c {}).pending)
    (hr : s.released sid (s.roundScope (s.st sid).uid (s.st sid).crew (k.rounds.getD c {})) = true)
    (hw : sigBits ((k.rounds.getD c {}).first.getD (Ins.code op w)) = sigBits (Ins.code op w)) :
    s.sign sid c op w true f =
      ((s.setRound (s.st sid).uid (s.st sid).crew c fun r =>
        { r with
          first := some ((k.rounds.getD c {}).first.getD (Ins.code op w))
          pending := (if (k.rounds.getD c {}).first.isSome then (k.rounds.getD c {}).pending else s.members (s.st sid).uid (s.st sid).crew).filter fun x => x != sid
          signers := (k.rounds.getD c {}).signers ++ [{ sid := sid, seq := (s.st sid).seq, pc := (s.st sid).pc, acq := (s.st sid).acqAt }] }).flow sid w f).completeRound
        (s.st sid).uid (s.st sid).crew c := by
  have hpend : ((k.rounds.getD c {}).first.isSome && !(k.rounds.getD c {}).pending.contains sid) = false := by
    cases h : (k.rounds.getD c {}).first.isSome
    · rfl
    · simpa using hp h
  unfold State.sign
  simp only [hk]
  rw [if_neg (by simpa using hb), if_neg (by simp only [hpend, Bool.false_eq_true, not_false_eq_true]), if_neg (by rw [hr]; decide), if_neg (by rw [hw, bne_self_eq_false]; decide)]

/-- A strand that stands in the collective round's pending members, or opens it, with a word like the first, contributes its value and parks (R100). -/
theorem collect_joins {s : State} {sid op : Nat} {w : Ins} {k : Crew} (val : Word) (aux : Nat)
    (hk : (s.it (s.st sid).uid).crew (s.st sid).crew = some k) (hb : sid ∉ k.coll.broken)
    (hp : k.coll.first.isSome → sid ∈ k.coll.pending)
    (hr : s.released sid (s.roundScope (s.st sid).uid (s.st sid).crew k.coll) = true)
    (hw : sigBits (k.coll.first.getD (Ins.code op w)) = sigBits (Ins.code op w)) :
    s.collect sid op w true val aux =
      ((s.setColl (s.st sid).uid (s.st sid).crew fun r =>
        { r.signedOff sid with
          first := some (k.coll.first.getD (Ins.code op w))
          pending := (if k.coll.first.isSome then k.coll.pending else s.members (s.st sid).uid (s.st sid).crew).filter fun x => x != sid
          signers := k.coll.signers ++ [{ sid := sid, seq := (s.st sid).seq, pc := (s.st sid).pc, val := val, aux := aux, acq := (s.st sid).acqAt }] }).flow sid w
        (.parkNext .collective)).completeColl (s.st sid).uid (s.st sid).crew := by
  have hpend : (k.coll.first.isSome && !k.coll.pending.contains sid) = false := by
    cases h : k.coll.first.isSome
    · rfl
    · simpa using hp h
  unfold State.collect
  simp only [hk]
  rw [if_neg (by simpa using hb), if_neg (by simp only [hpend, Bool.false_eq_true, not_false_eq_true]), if_neg (by rw [hr]; decide), if_neg (by rw [hw, bne_self_eq_false]; decide)]
  rfl

/-- FREEZE's strand, once it stands in crew 0, joins the signers of c15 and parks (R104). -/
theorem signFreeze_joins {s : State} {sid op : Nat} {w : Ins} {k : Crew} (hk : ((s.leave sid).it ((s.leave sid).st sid).uid).crew 0 = some k)
    (hb : sid ∉ (k.rounds.getD 15 {}).broken)
    (hw : sigBits ((k.rounds.getD 15 {}).first.getD (Ins.code op w)) = sigBits (Ins.code op w)) :
    s.signFreeze sid op w =
      ((((s.leave sid).setRound ((s.leave sid).st sid).uid 0 15 fun r =>
        { r with
          first := some ((k.rounds.getD 15 {}).first.getD (Ins.code op w))
          pending := (if (k.rounds.getD 15 {}).first.isSome then (k.rounds.getD 15 {}).pending else (s.leave sid).liveOf ((s.leave sid).st sid).uid).filter fun x => x != sid
          signers := (k.rounds.getD 15 {}).signers ++ [{ sid := sid, seq := ((s.leave sid).st sid).seq, pc := ((s.leave sid).st sid).pc, acq := ((s.leave sid).st sid).acqAt }] }).retire sid w).setPark sid
        .freeze) := by
  unfold State.signFreeze
  simp only [hk]
  rw [if_neg (by simpa using hb), if_neg (by rw [hw, bne_self_eq_false]; decide)]
  rfl

/-- Settles O16: a lone strand goes at SIGN, and the round is one it may join. -/
theorem signWords : Obligations.SignWords := by
  intro w s sid k s1 st c rd word signed hG hk hb hp hr hw
  have he : ∀ f, s.eachSign 0x14 w c f (fun _ _ => none) = (signed.flow sid w f).completeRound st.uid st.crew c := fun f =>
    (eachSign_go hG rfl).trans (sign_joins f hk hb hp hr hw)
  exact ⟨congrArg Host.Outcome.next (he .next), congrArg Host.Outcome.next (he (.parkNext (.signW c)))⟩

/-- Settles O17: the matrix words sign as SIGN does, once their operands pass. -/
theorem matrixWordsSign : Obligations.MatrixWordsSign := by
  intro w s sid k x hx s1 st c rd word signed hG hk hb hp hr hw hc
  have he : s.signWord x.2 w = (signed.retire sid w).completeRound st.uid st.crew c :=
    (eachSign_go hG hc).trans (sign_joins .next hk hb hp hr hw)
  have hx' : exec (x.1 w) s = .next (s.signWord x.2 w) := by
    simp only [List.mem_cons, List.not_mem_nil, or_false] at hx
    rcases hx with rfl | rfl | rfl | rfl | rfl | rfl | rfl <;> rfl
  rw [hx', he]

/-- Settles O18: each collective word contributes operand A, SHFL also the lane it asks for. -/
theorem collectiveWords : Obligations.CollectiveWords := by
  intro w s sid k x hx s1 st rd word joined hG hk hb hp hr hw
  have hx' : exec (x.1 w) s = .next (s.eachColl x.2 w fun s st =>
      (s.src st w w.a, if x.2 = 0x16 then shflLane w.fn.toNat st.lane (s.src st w w.b) else 0)) := by
    simp only [List.mem_cons, List.not_mem_nil, or_false] at hx
    rcases hx with rfl | rfl | rfl | rfl | rfl | rfl <;> rfl
  rw [hx', eachColl_go hG]
  exact congrArg Host.Outcome.next (collect_joins _ _ hk hb hp hr hw)

/-- Settles O19: FREEZE of a member signs c15 from crew 0; a round that is ready completes. -/
theorem freezeWords : Obligations.FreezeWords := by
  refine ⟨?_, fun s uid h => congrArg Host.Outcome.next (if_pos h)⟩
  intro w s sid k s1 s2 st rd word hG hfin htl hk hb hw
  have he : exec (.freeze w) s = .next (s1.signFreeze sid 0x19 w) := by
    show execFreeze w s = _
    unfold execFreeze
    rw [hG.bundle]
    simp only [List.foldl_cons, List.foldl_nil, hG.verdict]
    rw [if_neg (ne_true_of_eq_false hfin), if_neg htl]
  rw [he]
  exact congrArg Host.Outcome.next (signFreeze_joins hk hb hw)

/-- Settles O14: each word's part for a lone strand, its branch chosen by the premises. -/
theorem crewWords : Obligations.CrewWords := by
  intro w s sid
  dsimp only
  refine ⟨fun hG hi hc => ?_, fun hG hi hc hr => ?_, fun hG hl => ?_, fun hG => ?_, fun hG ha hl => ?_, fun hG hn => ?_⟩
  · exact exec_of_each (u := (s.onWait w sid).endStrand sid) (f := .done) hG rfl (by simp only [hi, hc, goes_sid hG, Bool.not_true, Bool.false_eq_true, if_false])
  · obtain ⟨c, hc⟩ := Option.isSome_iff_exists.mp hc
    exact exec_of_each (u := (s.onWait w sid).returnCall ((s.onWait w sid).st sid) []) (f := .done) hG rfl
      (by simp only [hi, hc, goes_sid hG, hr, Bool.not_true, Bool.false_eq_true, if_false, if_true])
  · exact exec_of_each (f := .next) hG rfl (by simp [hl, goes_sid hG])
  · exact exec_of_each (f := .next) hG rfl (by rw [goes_sid hG])
  · exact ⟨_, exec_of_each (f := .next) hG rfl (by simp [hl]; exact fun h => absurd h ha), _, rfl, rfl⟩
  · refine exec_of_each (f := .next) hG rfl ?_
    cases hk : ((s.onWait w sid).it ((s.onWait w sid).st sid).uid).crew ((s.onWait w sid).st sid).crew with
    | none => rfl
    | some k =>
      have hno : ((k.rounds.getD (cOf w.a) {}).signers.any fun g => g.sid == ((s.onWait w sid).st sid).sid) = false := by
        simpa [goes_sid hG] using hn k hk
      exact if_neg (ne_true_of_eq_false hno)

end Sys2Proof.Proofs
end

section
/-! SUPPORT. What a strand does with a word at issue, and what a step does with the act it takes (R20, R31, R46, R75, R255, R324). -/

namespace Sys2Proof.Proofs

open Sys2Proof Sys2Proof.Machine Sys2Proof.Safety Sys2Proof.Laws

/-- A strand whose delivery has not begun, and that has nothing unsettled, is held by no run-ahead limit (R324). -/
theorem held_of_settled {s : State} {st : Strand} (op : Nat) (hd : st.doomed = false) (he : st.eretw = false) (hu : s.unsettled st = []) :
    s.held st op = false := by
  have hlate : st.log.any (fun e => e.late && !e.exempt) = false := by
    have hlog : (st.log.filter fun e => !e.exempt).map (fun e => e.acc.seq) = [] := by
      have h := hu
      simp only [State.unsettled, List.append_eq_nil_iff] at h
      exact h.1.1.1.1
    rw [List.any_eq_false]
    intro e hm hc
    have : e ∈ st.log.filter fun e => !e.exempt := List.mem_filter.mpr ⟨hm, (Bool.and_eq_true_iff.mp hc).2⟩
    rw [List.map_eq_nil_iff.mp hlog] at this
    exact absurd this (List.not_mem_nil)
  simp [State.held, hd, he, hu, hlate]

/-- What is left of the verdict once the word may issue at all: its operands and tokens (R255). -/
theorem verdict_operands {s : State} {op : Nat} {w : Ins} {st : Strand} (hh : s.held st op = false) (hg : st.guard w.guard = true)
    (ht : s.tagsWait st op = false) (hf : (st.isFrame && nmuExcluded op) = false) : s.verdict op w st = s.operandVerdict st op w := by
  simp [State.verdict, hh, hg, ht, hf]

/-- Settles O53: the verdict's branches in their order; a lone strand whose guard is false goes on after any of the words. -/
theorem wordVerdicts : Obligations.WordVerdicts := by
  refine ⟨fun s op w st => ?_, fun s op st hd he hu => held_of_settled op hd he hu, fun c hc w s sid hb hv => ?_⟩
  · dsimp only
    refine ⟨fun hh => ?_, fun hh hg => ?_, fun hh hg ht => ?_, fun hh hg ht hf hn => ?_, fun hh hg ht hf => ?_⟩
    · simp [State.verdict, hh]
    · simp [State.verdict, hh, hg]
    · simp [State.verdict, hh, hg, ht]
    · simp [State.verdict, hh, hg, ht, hf, hn]
    · rw [verdict_operands hh hg ht hf]
      unfold State.operandVerdict
      refine ⟨fun hb => if_pos hb, fun hb he => ?_, fun hb hr hw => ⟨fun hp => ?_, fun hp hs => ?_⟩⟩
      · rw [if_neg (ne_true_of_eq_false hb), if_pos (List.any_eq_true.mpr he)]
      all_goals
        rw [if_neg (ne_true_of_eq_false hb), if_neg (ne_true_of_eq_false (List.any_eq_false.mpr fun i hi => ne_true_of_eq_false (hr i hi))),
          if_neg (ne_true_of_eq_false (List.any_eq_false.mpr fun i hi => ne_true_of_eq_false (hw i hi)))]
      · exact if_pos (List.any_eq_true.mpr hp)
      · rw [if_neg (ne_true_of_eq_false (List.any_eq_false.mpr fun i hi => ne_true_of_eq_false (hp i hi))),
          if_neg (ne_true_of_eq_false (List.any_eq_false.mpr fun i hi => ne_true_of_eq_false (hs i hi)))]
  · have pass_each : ∀ {i op} (_ : ∃ body, exec i s = .next (s.each op w body)), s.verdict op w (s.st sid) = .pass → exec i s = .next (s.retire sid w) := by
      rintro i op ⟨body, he⟩ hv
      rw [he, each_pass hb hv]
    have pass_alu : ∀ {i op} (_ : ∃ n shape f, exec i s = .next (s.alu op w n shape f)), s.verdict op w (s.st sid) = .pass →
        exec i s = .next (s.retire sid w) := by
      rintro i op ⟨n, shape, f, he⟩ hv
      rw [he, alu_pass hb hv]
    simp only [List.mem_cons, List.not_mem_nil, or_false] at hc
    rcases hc with rfl | rfl | rfl | rfl | rfl | rfl | rfl | rfl | rfl | rfl | rfl | rfl | rfl
    case inr.inr.inr.inr.inl => exact pass_alu ⟨_, _, _, rfl⟩ hv
    case inr.inr.inr.inr.inr.inl => exact pass_alu ⟨_, _, _, rfl⟩ hv
    case inr.inr.inr.inr.inr.inr.inl => exact pass_alu ⟨_, _, _, rfl⟩ hv
    all_goals exact pass_each ⟨_, rfl⟩ hv

/-- A unit that decodes passes the encoding check (R46). -/
theorem illegalOf_of_decode {lim : Limits} {bs : List Byte} {r : Instr × List Byte} (h : decodeWith lim bs = some r) : illegalOf lim bs = none := by
  have raw : ∀ {m c}, (decodeRaw lim m (Raw.ofCode c)).isSome → illegalCause lim m (Raw.ofCode c) = none := by
    intro m c hd
    unfold decodeRaw at hd
    cases hi : illegalCause lim m (Raw.ofCode c) with
    | none => rfl
    | some n => rw [hi] at hd; exact absurd hd (by simp)
  unfold decodeWith at h
  unfold illegalOf
  split at h
  · exact absurd h (by simp)
  dsimp only at h ⊢
  split at h
  · rename_i hm
    rw [if_pos hm]
    split at h
    · exact absurd h (by simp)
    · obtain ⟨i, hi, -⟩ := Option.map_eq_some_iff.mp h
      exact raw (by rw [hi]; rfl)
  · rename_i hm
    rw [if_neg hm]
    obtain ⟨i, hi, -⟩ := Option.map_eq_some_iff.mp h
    exact raw (by rw [hi]; rfl)

/-- A walk that a lone strand's fetch took is shared with nobody. -/
theorem shareWalk_alone (s : State) (hd : Nat) : s.shareWalk hd [] = s := by
  unfold State.shareWalk
  split <;> rfl

/-- One strand that may issue fetches its instruction, when nothing holds it and the unit decodes (R46, R75, R324). -/
theorem fetch_alone {s u : State} {sid : Nat} {bs : List Byte} {i : Instr} {rest : List Byte} (hs : (s.strand? sid).isSome)
    (hc : s.canIssue (s.st sid) = true) (hf : s.fetchUnit (s.st sid) = (u, .ok bs)) (hd : decodeWith (u.limitsOf (u.st sid)) bs = some (i, rest))
    (hb : s.behind (s.st sid) (unitOp bs) = false) (hh : u.held (u.st sid) (unitOp bs) = false) :
    s.fetch [sid] = .run i { u with bundle := [sid] } := by
  have hbundle : s.bundleOf [sid] = [sid] := by
    unfold State.bundleOf
    rw [if_pos (by rw [hs, hc]; rfl)]
    rfl
  unfold State.fetch
  rw [hbundle]
  dsimp only
  rw [hf]
  dsimp only
  rw [if_neg (ne_true_of_eq_false hb), shareWalk_alone]
  have hgood : illegalOf (u.limitsOf (u.st sid)) bs = none := illegalOf_of_decode hd
  simp [hh, hgood, hd]

/-- Settles O54. -/
theorem stepRunsTheDecodedInstruction : Obligations.StepRunsTheDecodedInstruction := by
  refine ⟨fun s sid u bs i rest ha hs hc hf hd hb hh => ?_, fun s i ha hw => ?_, fun s => ⟨rfl, Nat.le_add_right _ _, rfl, rfl, rfl⟩⟩
  · unfold step
    rw [ha]
    show issue s.begin [sid] = _
    unfold issue
    rw [fetch_alone hs hc hf hd hb hh]
  · unfold step
    rw [ha]
    show happen s.begin i = _
    unfold happen
    rw [hw]

/-- Settles O55: every byte store of the reset state lists nothing. -/
theorem resetIsCanonical : Obligations.ResetIsCanonical := ⟨⟨rfl, rfl, rfl, rfl⟩, rfl, rfl, rfl, rfl, rfl, rfl⟩

end Sys2Proof.Proofs
end

section
/-! SUPPORT. LAUNCH, events and remote calls, for a strand that issues alone and for the events that follow (R79 to R85, R106 to R112). -/

namespace Sys2Proof.Proofs

open Sys2Proof Sys2Proof.Machine Sys2Proof.Safety Sys2Proof.Laws

/-- What a change of one strand keeps of that strand stands in every strand. -/
theorem setSt_st_proj {β : Type} (g : Strand → β) (s : State) (sid : Nat) {f : Strand → Strand} (hf : ∀ x, (f x).sid = x.sid) (hg : ∀ x, g (f x) = g x)
    (b : Nat) : g ((s.setSt sid f).st b) = g (s.st b) := by
  unfold State.st
  rw [setSt_strand? s sid f hf]
  split
  · cases s.strand? b with
    | none => rfl
    | some x => exact hg x
  · rfl

/-- A lone strand that parks at its word; a frame that waits for a page ships instead (R81). -/
theorem parks_of_each {i : Instr} {op : Nat} {w : Ins} {s u : State} {sid : Nat} {body : State → Strand → State × Flow} {p : Park} (hG : Goes op w s sid)
    (he : exec i s = .next (s.each op w body)) (hb : body (s.onWait w sid) ((s.onWait w sid).st sid) = (u, .park p))
    (hp : u.flow sid w (.park p) = u.setPark sid p) : exec i s = .next (u.setPark sid p) := by
  rw [exec_of_each hG he hb, hp]

/-- Looking a key up after a map that keeps keys. -/
theorem find_map_key {α : Type} (key : α → Nat) (f : α → α) (hf : ∀ x, key (f x) = key x) (b : Nat) (l : List α) :
    (l.map f).find? (fun x => key x == b) = (l.find? fun x => key x == b).map f := by
  rw [List.find?_map]
  congr 2
  funext x
  exact congrArg (· == b) (hf x)

/-- A strand after a map over all strands that keeps their numbers. -/
theorem st_of_map {s : State} {f : Strand → Strand} (hf : ∀ x, (f x).sid = x.sid) {sid : Nat} (h : (s.strand? sid).isSome) :
    ({ s with strands := s.strands.map f } : State).st sid = f (s.st sid) := by
  obtain ⟨x, hx⟩ := Option.isSome_iff_exists.mp h
  unfold State.st State.strand?
  dsimp only
  rw [find_map_key Strand.sid f hf, show s.strands.find? (fun x => x.sid == sid) = some x from hx]
  rfl

/-- A parked strand exists. -/
theorem isSome_of_park {s : State} {sid : Nat} (h : (s.st sid).park ≠ .none) : (s.strand? sid).isSome := by
  cases hx : s.strand? sid with
  | some x => rfl
  | none => exact absurd (by unfold State.st; rw [hx]; rfl) h

/-- A call after its own update (R109). -/
theorem setCall_call? {s : State} {n : Nat} {c : Call} {f : Call → Call} (hf : ∀ x, (f x).id = x.id) (h : s.call? n = some c) :
    (s.setCall n f).call? n = some (f c) := by
  show (s.calls.map fun x => if x.id = n then f x else x).find? (fun x => x.id == n) = _
  rw [find_update Call.id f hf n n, if_pos rfl, show s.calls.find? (fun x => x.id == n) = some c from h]
  rfl

theorem call?_id {s : State} {n : Nat} {c : Call} (h : s.call? n = some c) : c.id = n := by
  simpa using List.find?_some h

theorem dropCall_call? (s : State) (n : Nat) : (s.dropCall n).call? n = none := by
  unfold State.dropCall State.call?
  rw [List.find?_eq_none]
  intro x hx
  simpa using (List.mem_filter.mp hx).2

/-- What a strand parked on a counter does with an add there that reaches its bound (R108). -/
theorem rouse_park {s : State} {sid loc pa n p : Nat} {va : Addr} {bound : Addr} {hit : Bool} (h : (s.st sid).park = .evwait va bound loc p hit)
    (hlo : pa < p + 8) (hhi : p < pa + n) (hb : bound.toNat ≤ s.homeNum loc p 8) : ((s.rouse loc pa n).st sid).park = .evwait va bound loc p true := by
  unfold State.rouse
  rw [st_of_map (fun x => by split <;> [split; skip] <;> rfl) (isSome_of_park (by rw [h]; exact Park.noConfusion)), h]
  dsimp only
  rw [if_pos ⟨rfl, hlo, hhi, hb⟩]

/-- What a write of device memory does to a strand parked on its line (R266). -/
def lineWritten (pa n : Nat) (st : Strand) : Strand :=
  match st.park with
  | .waita line t _ e => if pa / 128 ≤ line ∧ line ≤ (pa + n - 1) / 128 then { st with park := .waita line t true e } else st
  | _ => st

theorem lineWritten_sid (pa n : Nat) (st : Strand) : (lineWritten pa n st).sid = st.sid := by
  unfold lineWritten
  split
  · split <;> rfl
  · rfl

theorem noteCode_strands (s : State) (pa n : Nat) : (s.noteCode pa n).strands = s.strands := by
  unfold State.noteCode
  split <;> rfl

/-- A write of device memory marks the strands parked on its lines, then rouses those that wait for a counter. -/
theorem writeHome_zero (s : State) (uid pa : Nat) (bs : List Byte) :
    ∃ u : State, s.writeHome uid 0 pa bs = u.rouse 0 pa bs.length ∧ u.strands = s.strands.map (lineWritten pa bs.length) :=
  ⟨_, rfl, congrArg (List.map (lineWritten pa bs.length)) (noteCode_strands { s with relMarks := s.relMarks.filter fun m => !(m.lies uid 0 pa bs.length) } pa bs.length)⟩

/-- A write of host or peer memory rouses those that wait for a counter there, and cleans what it replaces. -/
theorem writeHome_far (s : State) (uid pa : Nat) (bs : List Byte) {l : Nat} (hl : l = 1 ∨ l = 2) :
    ∃ (u : State) (p : List Nat), s.writeHome uid l pa bs = { u.rouse l pa bs.length with poison := p } ∧ u.strands = s.strands := by
  rcases hl with rfl | rfl <;> exact ⟨_, _, rfl, rfl⟩

/-- A write of an event counter wakes the strand that waits for what it then reads (R108). -/
theorem writeHome_wakes {s : State} {uid sid loc pa p : Nat} {bs : List Byte} {va bound : Addr} {hit : Bool}
    (h : (s.st sid).park = .evwait va bound loc p hit) (hl : loc < 3) (hlo : pa < p + 8) (hhi : p < pa + bs.length)
    (hb : bound.toNat ≤ (s.writeHome uid loc pa bs).homeNum loc p 8) : ((s.writeHome uid loc pa bs).st sid).park = .evwait va bound loc p true := by
  obtain rfl | hl : loc = 0 ∨ (loc = 1 ∨ loc = 2) := by omega
  · obtain ⟨u, hu, hm⟩ := writeHome_zero s uid pa bs
    rw [hu] at hb ⊢
    refine rouse_park (hit := hit) ?_ hlo hhi hb
    have hs : (s.strand? sid).isSome := isSome_of_park (by rw [h]; exact Park.noConfusion)
    rw [st_of_strands (t := u) (s := { s with strands := s.strands.map (lineWritten pa bs.length) }) hm sid, st_of_map (lineWritten_sid pa bs.length) hs,
      lineWritten, h]
    exact h
  · obtain ⟨u, c, hu, hm⟩ := writeHome_far s uid pa bs hl
    rw [hu] at hb ⊢
    exact rouse_park (s := u) (hit := hit) (by rw [st_of_strands hm, h]) hlo hhi hb

/-- Settles O20. -/
theorem eventWords : Obligations.EventWords := by
  refine ⟨fun w s sid s2 x => ?_, fun w s sid s2 x => ?_, fun w s sid s2 x => ?_, fun s uid sid loc pa bs va bound p hit h hl hlo hhi hb =>
    writeHome_wakes h hl hlo hhi hb, fun s sid va bound loc pa h => ?_, fun w s sid sc hG h => ?_⟩
  · dsimp only
    intro hG ha hx hq hr ho hp hl
    refine exec_of_each (f := .next) hG rfl ?_
    simp only [hx, ha, goes_sid hG, hr, ho, hp, ne_eq, not_true_eq_false, if_false, Nat.not_lt.mpr hq, Nat.not_le.mpr hl, Bool.not_true, Bool.or_self,
      Bool.false_eq_true]
  · dsimp only
    intro hG ha hx hr
    refine exec_of_each (f := .next) hG rfl ?_
    simp only [hx, ha, goes_sid hG, hr, ne_eq, not_true_eq_false, if_false, Bool.not_true, Bool.false_eq_true]
    have hacq : ∀ u : State, ((u.setSt sid fun y => { y with nextRel := none }).st sid).acqAt = (u.st sid).acqAt := fun u =>
      setSt_st_proj Strand.acqAt u sid (f := fun y => { y with nextRel := none }) (fun _ => rfl) (fun _ => rfl) sid
    rw [hacq]
    rfl
  · dsimp only
    intro hG hn ha hx ho hp
    split <;> rename_i hb
    · refine exec_of_each (f := .next) hG rfl ?_
      simp only [hn, hx, ha, goes_sid hG, ho, hp, ne_eq, not_true_eq_false, if_false, Bool.not_true, Bool.false_eq_true, ge_iff_le, if_pos hb]
    · refine parks_of_each hG rfl ?_ rfl
      simp only [hn, hx, ha, ho, hp, ne_eq, not_true_eq_false, if_false, Bool.not_true, Bool.false_eq_true, ge_iff_le, if_neg hb]
  · show Host.Outcome.next _ = _
    rw [h]
  · refine exec_of_each (f := .next) hG rfl ?_
    simp only [h, goes_sid hG]

/-- Settles O21. -/
theorem remoteCallWords : Obligations.RemoteCallWords := by
  refine ⟨fun w s sid s2 s3 x => ?_, fun w s sid c => ?_, fun w s sid k => ?_⟩
  · dsimp only
    intro hG hf hd hb hx hr hp
    refine exec_of_each (f := .next) hG rfl ?_
    simp only [hx, goes_sid hG, hr, hp, if_neg (Nat.not_le.mpr hf), Nat.not_lt.mpr hd, Nat.not_lt.mpr hb, Bool.not_true, Bool.false_eq_true, if_false,
      ge_iff_le, decide_false, Bool.or_self]
    rfl
  · dsimp only
    intro hG hc hr
    refine (exec_of_each (f := .done) (u := (s.onWait w sid).returnCall ((s.onWait w sid).st sid)
      ((s.onWait w sid).retWords ((s.onWait w sid).st sid) w c.fn)) hG rfl ?_).trans rfl
    simp only [hc, goes_sid hG, hr, Bool.not_true, Bool.false_eq_true, if_false]
  · dsimp only
    intro hG hf hk hz
    refine exec_of_each (f := .next) hG rfl ?_
    have hstay : ¬(k.counts.getD (cOf w.a) 0 ≠ 0 ∧ ((s.onWait w sid).st sid).rjoin ≠ some (((s.onWait w sid).st sid).seq, cOf w.a, true)) :=
      fun ⟨h0, h1⟩ => hz.elim h0 h1
    simp only [hf, hk, goes_sid hG, Bool.false_eq_true, if_false, if_neg hstay]

/-- Settles O22. -/
theorem remoteCallEvents : Obligations.RemoteCallEvents := by
  intro s n c hc
  have hid := call?_id hc
  refine ⟨fun hp hl => ?_, fun f t hp hi hr hs => ?_, fun vals status hp => ?_, fun hd => ?_⟩
  · have harrived : ((c.phase = .transit || c.phase = .waiting) && (c.loc = 0 || c.loc = 1)) = true := by
      simpa only [Bool.and_eq_true, Bool.or_eq_true, decide_eq_true_eq] using And.intro hp hl
    split
    · rename_i hn
      refine ⟨_, rfl, ?_⟩
      rw [hc]
      dsimp only
      rw [if_pos harrived, if_pos (show s.framesAt c < Config.nmuFrames from hn)]
      exact ⟨rfl, rfl, setCall_call? (fun _ => rfl) hc⟩
    · rename_i hn
      refine ⟨_, rfl, ?_⟩
      rw [hc]
      dsimp only
      rw [if_pos harrived, if_neg (show ¬s.framesAt c < Config.nmuFrames from hn)]
      exact ⟨rfl, setCall_call? (fun _ => rfl) hc⟩
  · show Host.Outcome.next _ = _
    rw [hc]
    dsimp only
    rw [hp]
    simp only [hi, hr, decide_true, Bool.and_self, if_true, hs, Option.getD_some]
  · refine ⟨_, rfl, ?_⟩
    rw [hc]
    dsimp only
    rw [hp]
    dsimp only
    unfold State.landReply
    rw [hid]
    exact ⟨rfl, dropCall_call? _ n⟩
  · show Host.Outcome.next _ = _
    rw [hc]
    dsimp only
    rw [if_pos hd]

end Sys2Proof.Proofs
end

section
/-! SUPPORT. Registers whose words arrive later: what making one ready leaves of its strand, which registers are then empty, and how a result that arrives fills them (R165, R259); the long-latency words in those terms. -/

namespace Sys2Proof.Proofs

open Sys2Proof Sys2Proof.Machine Sys2Proof.Safety Sys2Proof.Laws

/-- A change of registers' storage: the strand stands where it stood, and the machine keeps all but its items and strands. -/
structure Stands (s t : State) (sid : Nat) : Prop where
  placed : Placed t sid
  kept : Kept (s.st sid) (t.st sid)
  machine : t = { s with items := t.items, strands := t.strands }

theorem kept_trans {x y z : Strand} (h1 : Kept x y) (h2 : Kept y z) : Kept x z := by
  unfold Kept at *
  rw [h2, h1]

theorem Stands.trans {s t u : State} {sid : Nat} (h1 : Stands s t sid) (h2 : Stands t u sid) : Stands s u sid :=
  ⟨h2.placed, kept_trans h1.kept h2.kept, by rw [h2.machine, h1.machine]⟩

theorem stands_refl {s : State} {sid : Nat} (hP : Placed s sid) : Stands s s sid := ⟨hP, rfl, rfl⟩

theorem takeover_stands {s : State} {sid : Nat} (uid p : Nat) (hP : Placed s sid) : Stands s (s.takeover uid p) sid := by
  obtain ⟨hp, hs, -⟩ := takeover_placed uid p hP
  refine ⟨hp, by rw [hs]; rfl, ?_⟩
  rcases takeover_cases s uid p with h | ⟨a, h⟩
  · rw [h]
  · rw [h]; rfl

theorem handover_stands {s : State} {sid : Nat} (core : Nat) (tm : Option Nat) (hP : Placed s sid) : Stands s (s.handover core tm) sid := by
  unfold State.handover
  split
  · exact stands_refl hP
  · generalize ((s.ranksOn core).filter fun x => x.1.template == tm && x.1.refsTemplate x.2.2) = l
    induction l generalizing s with
    | nil => exact stands_refl hP
    | cons x l ih => exact (takeover_stands x.1.uid x.2.1 hP).trans (ih (takeover_stands x.1.uid x.2.1 hP).placed)

theorem grow_stands {s t : State} {uid p sid : Nat} {f : State → State} (hP : Placed s sid) (h : s.grow uid p f = some t)
    (hf : ∀ u, Placed u sid → u.st sid = s.st sid → Stands u (f u) sid) : Stands s t sid := by
  unfold State.grow at h
  dsimp only at h
  split at h
  · cases h
    unfold State.handedOver
    split
    · exact (hf s hP rfl).trans (handover_stands _ _ (hf s hP rfl).placed)
    · exact hf s hP rfl
  · obtain ⟨hp, hs, -⟩ := takeover_placed uid p hP
    split at h
    · cases h
      exact (takeover_stands uid p hP).trans (hf _ hp hs)
    · cases h

/-- What a row's update keeps of every item stands in the state. -/
theorem setRow_keeps {β : Type} (g : Item → β) (hg : ∀ p r f it, g (rowUpdate p r f it) = g it) (s : State) (st : Strand) (f : Row → Row) (u : Nat) :
    g ((s.setRow st f).it u) = g (s.it u) := by
  cases hf : st.isFrame with
  | true => rw [setRow_frame s _ f hf]; rfl
  | false =>
    rw [setRow_item s _ f hf]
    exact setIt_keeps g s _ (rowUpdate st.prank st.row f) (fun _ => rfl) (fun x => hg _ _ _ x) u

theorem rowUpdate_lengths (p r : Nat) (f : Row → Row) (it : Item) (q : Nat) :
    (rowUpdate p r f it).ranks.length = it.ranks.length ∧ ((rowUpdate p r f it).ranks.getD q {}).rows.length = (it.ranks.getD q {}).rows.length := by
  refine ⟨List.length_modify .., ?_⟩
  show ((it.ranks.modify p fun k => { k with rows := k.rows.modify r f }).getD q {}).rows.length = _
  simp only [List.getD_eq_getElem?_getD, List.getElem?_modify]
  cases it.ranks[q]? with
  | none => rfl
  | some x =>
    by_cases e : p = q
    · simp [e]
    · simp [e]

/-- An update of a strand's row leaves it standing there. -/
theorem setRow_stands {s : State} {sid : Nat} (hP : Placed s sid) (F : Row → Row) : Stands s (s.setRow (s.st sid) F) sid := by
  have hk := setRow_kept hP F
  refine ⟨⟨setRow_strand hP F, by rw [hk.lane]; exact hP.lane, ?_, ?_⟩, hk, (setRow_onlyComputes hP F).machine.trans ?_⟩
  · rw [hk.uid, setRow_item_isSome]; exact hP.item
  · rw [hk.uid, show ((s.setRow (s.st sid) F).st sid).isFrame = (s.st sid).isFrame by rw [hk]; rfl,
      show ((s.setRow (s.st sid) F).st sid).prank = (s.st sid).prank by rw [hk], show ((s.setRow (s.st sid) F).st sid).row = (s.st sid).row by rw [hk]]
    have h1 := setRow_keeps (fun it => it.ranks.length) (fun p r f it => (rowUpdate_lengths p r f it 0).1) s (s.st sid) F (s.st sid).uid
    have h2 := setRow_keeps (fun it => ((it.ranks.getD (s.st sid).prank {}).rows.length)) (fun p r f it => (rowUpdate_lengths p r f it _).2) s (s.st sid) F
      (s.st sid).uid
    refine hP.row.imp id fun h => ⟨?_, ?_⟩
    · exact lt_of_lt_of_eq h.1 h1.symm
    · exact lt_of_lt_of_eq h.2 h2.symm
  · have hl1 : (s.setRow (s.st sid) F).l1 = s.l1 := by
      cases hf : (s.st sid).isFrame with
      | true => rw [setRow_frame s _ F hf]; rfl
      | false => rw [setRow_item s _ F hf]; rfl
    rw [hl1]

-- bits of a lane mask

theorem maskOf_succ (n : Nat) (f : Nat → Bool) : maskOf (n + 1) f = maskOf n f + if f n then 2 ^ n else 0 := by
  simp [maskOf, List.range_succ]

theorem maskOf_lt (n : Nat) (f : Nat → Bool) : maskOf n f < 2 ^ n := by
  induction n with
  | zero => simp [maskOf]
  | succ n ih =>
    rw [maskOf_succ, Nat.pow_succ]
    split <;> omega

theorem testBit_maskOf (n : Nat) (f : Nat → Bool) (k : Nat) : (maskOf n f).testBit k = (decide (k < n) && f k) := by
  induction n with
  | zero => simp [maskOf]
  | succ n ih =>
    rw [maskOf_succ]
    by_cases hf : f n
    · rw [if_pos hf, Nat.add_comm]
      obtain hk | rfl | hk := Nat.lt_trichotomy k n
      · rw [Nat.testBit_two_pow_add_gt hk, ih]
        simp [hk, Nat.lt_succ_of_lt hk]
      · rw [Nat.testBit_two_pow_add_eq, Nat.testBit_lt_two_pow (maskOf_lt k f)]
        simp [hf]
      · have hlt : 2 ^ n + maskOf n f < 2 ^ k :=
          lt_of_lt_of_le (by rw [Nat.pow_succ]; have := maskOf_lt n f; omega) (Nat.pow_le_pow_right (by decide) hk)
        rw [Nat.testBit_lt_two_pow hlt, decide_eq_false (by omega)]
        rfl
    · rw [if_neg hf, Nat.add_zero, ih]
      obtain hk | rfl | hk := Nat.lt_trichotomy k n
      · simp [hk, Nat.lt_succ_of_lt hk]
      · simp [hf]
      · rw [decide_eq_false (by omega), decide_eq_false (by omega)]

/-- One strand's write fills the register in its lane. -/
theorem write_full (v : VReg) (item : Word) (cov : Bool) (hint : Option Shape) (lane : Nat) (x : Word) :
    (v.write item cov hint [(lane, x)]).empty.getLsbD lane = false := by
  have hclear : (BitVec.ofNat 32 (maskOf 32 fun L => !([(lane, x)].any fun y => y.1 == L))).getLsbD lane = false := by
    rw [BitVec.getLsbD_ofNat, testBit_maskOf]
    simp
  have hand : (v.empty &&& BitVec.ofNat 32 (maskOf 32 fun L => !([(lane, x)].any fun y => y.1 == L))).getLsbD lane = false := by
    rw [BitVec.getLsbD_and, hclear, Bool.and_false]
  unfold VReg.write
  dsimp only
  split <;> exact hand

-- empty registers

/-- A register marked empty in a lane. -/
def emptied (lane : Nat) (v : VReg) : VReg := { v with empty := v.empty ||| BitVec.ofNat 32 (2 ^ lane) }

theorem emptied_bit {lane : Nat} (h : lane < 32) (v : VReg) : (emptied lane v).empty.getLsbD lane = true := by
  unfold emptied
  rw [BitVec.getLsbD_or, BitVec.getLsbD_ofNat, Nat.testBit_two_pow_self]
  simp [h]

/-- Marking a list of registers empty empties each of them and fills none. -/
theorem emptied_fold {lane : Nat} (h : lane < 32) (regs : List Nat) (row : Row) (r : Nat)
    (hr : r ∈ regs ∨ (row.reg r).empty.getLsbD lane = true) :
    ((regs.foldl (fun row d => row.setReg d (emptied lane (row.reg d))) row).reg r).empty.getLsbD lane = true := by
  induction regs generalizing row with
  | nil => exact hr.resolve_left (List.not_mem_nil)
  | cons d regs ih =>
    refine ih _ ?_
    rw [setReg_reg]
    rcases hr with hm | hb
    · rcases List.mem_cons.mp hm with rfl | hm
      · exact .inr (by rw [if_pos rfl]; exact emptied_bit h _)
      · exact .inl hm
    · refine .inr ?_
      split
      · rename_i e
        rw [e] at hb
        show (_ ||| _ : BitVec 32).getLsbD lane = true
        rw [BitVec.getLsbD_or, hb, Bool.true_or]
      · exact hb

theorem markEmpty_stands {s : State} {sid : Nat} (hP : Placed s sid) (regs : List Nat) : Stands s (s.markEmpty (s.st sid) regs) sid := setRow_stands hP _

theorem markEmpty_isEmpty {s : State} {sid : Nat} (hP : Placed s sid) {regs : List Nat} {r : Nat} (hr : r ∈ regs) :
    (s.markEmpty (s.st sid) regs).isEmpty ((s.markEmpty (s.st sid) regs).st sid) r = true := by
  have hrow : (s.markEmpty (s.st sid) regs).rowOf ((s.markEmpty (s.st sid) regs).st sid) =
      regs.foldl (fun row d => row.setReg d (emptied (s.st sid).lane (row.reg d))) (s.rowOf (s.st sid)) := setRow_row hP _
  unfold State.isEmpty
  rw [hrow, (markEmpty_stands hP regs).kept.lane]
  exact emptied_fold hP.lane regs _ r (.inl hr)

/-- What an update of a row asks of its strand stays as registers change. -/
theorem setRow_kept_congr (s : State) {x y : Strand} (h : Kept x y) (F : Row → Row) : s.setRow x F = s.setRow y F := by
  rw [h]; rfl

theorem markEmpty_kept_congr (s : State) {x y : Strand} (h : Kept x y) (regs : List Nat) : s.markEmpty x regs = s.markEmpty y regs := by
  rw [h]; rfl

/-- Storage drawn for a strand's row, the registers then marked empty: the strand stands, and reads them empty. -/
theorem prepared {s t u : State} {sid : Nat} {regs : List Nat} (h : Stands s u sid) (ht : u.markEmpty (s.st sid) regs = t) :
    Stands s t sid ∧ ∀ r ∈ regs, t.isEmpty (t.st sid) r = true := by
  rw [markEmpty_kept_congr u h.kept] at ht
  subst ht
  exact ⟨h.trans (markEmpty_stands h.placed regs), fun r hr => markEmpty_isEmpty h.placed hr⟩

/-- Storage drawn by an update of a strand's row: of a frame's own, or of its item's. -/
theorem drawn_stands {s u : State} {sid : Nat} (hP : Placed s sid) (F : State → Row → Row)
    (h : (if (s.st sid).isFrame then some (s.setRow (s.st sid) (F s)) else s.grow (s.st sid).uid (s.st sid).prank fun v => v.setRow (s.st sid) (F v)) = some u) :
    Stands s u sid := by
  split at h
  · cases h
    exact setRow_stands hP _
  · refine grow_stands hP h fun v hv hst => ?_
    rw [← hst]
    exact setRow_stands hv _

theorem prepDest_spec {s t : State} {sid : Nat} {regs : List Nat} (hP : Placed s sid) (h : s.prepDest (s.st sid) regs = some t) :
    Stands s t sid ∧ ∀ r ∈ regs, t.isEmpty (t.st sid) r = true := by
  obtain ⟨u, hu, ht⟩ := Option.map_eq_some_iff.mp h
  exact prepared (drawn_stands hP (fun _ row => regs.foldl (fun row d =>
    row.setReg d { row.reg d with shape := .general ((List.range 32).map ((row.reg d).shape.at (s.it (s.st sid).uid).number)), tref := false }) row) hu) ht

theorem prepUniform_spec {s t : State} {sid d : Nat} {vals : List Word} (hP : Placed s sid) (h : s.prepUniform (s.st sid) [s.st sid] d vals = some t) :
    Stands s t sid ∧ ∀ r ∈ (List.range vals.length).map (d + ·), t.isEmpty (t.st sid) r = true := by
  unfold State.prepUniform at h
  dsimp only at h
  obtain ⟨u, hu, ht⟩ := Option.map_eq_some_iff.mp h
  exact prepared (drawn_stands hP _ hu) ht

-- long-latency words

/-- Whether a lone strand's results go to its row as uniform values (R166, R167). -/
def aloneUniform (s : State) (sid op : Nat) (w : Ins) (vals : List Word) (regs : List Nat) : Bool :=
  s.rowUniform op w [(s.st sid, vals)] && regs.all fun r => !((s.rowOf (s.st sid)).reg r).generalTref

/-- Words of a lone strand that stay on their way to its registers. -/
def awaiting (t : State) (sid d : Nat) (vals : List Word) (group : List Nat) : State :=
  { t with nextId := t.nextId + 1, lats := t.lats ++ [{ id := t.nextId, sid := sid, dest := d, vals := vals, group := group }] }

/-- What a lone strand's long-latency word does: its registers made ready, its words on their way (R165). -/
theorem longOp_lone {op : Nat} {w : Ins} {s : State} {sid : Nat} {d : BitVec 8} (n : Nat) (f : State → Strand → List Word) (hG : Goes op w s sid)
    (hd : w.d = .v d) :
    s.longOp op w n f = if aloneUniform s sid op w (f s (s.st sid)) ((List.range n).map (d.toNat + ·)) then
        match (s.onWait w sid).prepUniform (s.st sid) [s.st sid] d.toNat (f s (s.st sid)) with
        | none => (s.onWait w sid).setPark sid .storage
        | some t => (awaiting t sid d.toNat (f s (s.st sid)) [sid]).retire sid w
      else match (s.onWait w sid).prepDest (s.st sid) ((List.range n).map (d.toNat + ·)) with
        | none => (s.onWait w sid).setPark sid .storage
        | some t => (awaiting t sid d.toNat (f s (s.st sid)) []).retire sid w := by
  have hsid := st_sid hG.placed.strand
  have hsame : List.filter (fun y : Strand × List Word => sameRow y.1 (s.st sid)) [(s.st sid, f s (s.st sid))] = [(s.st sid, f s (s.st sid))] := by
    simp [sameRow_self]
  unfold State.longOp aloneUniform awaiting
  dsimp only
  rw [goers_one hG f, hG.bundle, hd]
  simp only [List.foldl_cons, List.foldl_nil, hG.verdict, hsame, List.head?_cons, Option.map_some, if_true, List.map_cons, List.map_nil, hsid, State.fresh] <;> rfl

/-- A lone strand whose registers were made ready, empty, goes on with its words on their way. -/
theorem goesOn_awaiting {w : Ins} {s t : State} {sid d n : Nat} {vals : List Word} {group : List Nat} (h : Stands (s.onWait w sid) t sid)
    (hG : ∃ op, Goes op w s sid) (he : ∀ r ∈ (List.range n).map (d + ·), t.isEmpty (t.st sid) r = true) :
    let u := (awaiting t sid d vals group).retire sid w
    WentOn s u sid w ∧ (∀ j < n, u.isEmpty (u.st sid) (d + j) = true) ∧
      ∃ l, u.lats = s.lats ++ [l] ∧ l.id = s.nextId ∧ l.sid = sid ∧ l.dest = d ∧ l.vals = vals := by
  intro u
  obtain ⟨op, hG⟩ := hG
  have hu : u.st sid = { t.st sid with pc := nextPc w (t.st sid).pc, seq := (t.st sid).seq + 1, age := 0, satAt := none } :=
    retire_st (t := awaiting t sid d vals group) w h.placed.strand
  have hlats : t.lats = s.lats := by rw [h.machine, onWait_eq]
  have hnext : t.nextId = s.nextId := by rw [h.machine, onWait_eq]
  refine ⟨?_, fun j hj => ?_, _, congrArg (· ++ _) hlats, hnext, rfl, rfl, rfl⟩
  · rw [WentOn, hu, ← goes_pc hG, ← goes_seq hG, ← h.kept.pc, ← h.kept.seq]
    exact ⟨rfl, rfl⟩
  · rw [hu]
    exact he _ (List.mem_map.mpr ⟨j, List.mem_range.mpr hj, rfl⟩)

/-- The registers of a long-latency word of one strand were made ready, with storage (R165, R166). -/
def ReadyAlone (w : Ins) (s : State) (sid op : Nat) (d : BitVec 8) (n : Nat) (vals : List Word) : Prop :=
  if aloneUniform s sid op w vals ((List.range n).map (d.toNat + ·)) then ((s.onWait w sid).prepUniform (s.st sid) [s.st sid] d.toNat vals).isSome = true
  else ((s.onWait w sid).prepDest (s.st sid) ((List.range n).map (d.toNat + ·))).isSome = true

/-- A long-latency word of a lone strand, where there is storage for its registers. -/
theorem longOp_later {op : Nat} {w : Ins} {s : State} {sid : Nat} {d : BitVec 8} {n : Nat} {f : State → Strand → List Word} (hG : Goes op w s sid)
    (hd : w.d = .v d) (hlen : (f s (s.st sid)).length = n) (hr : ReadyAlone w s sid op d n (f s (s.st sid))) :
    let t := s.longOp op w n f
    WentOn s t sid w ∧ (∀ j < n, t.isEmpty (t.st sid) (d.toNat + j) = true) ∧
      ∃ l, t.lats = s.lats ++ [l] ∧ l.id = s.nextId ∧ l.sid = sid ∧ l.dest = d.toNat ∧ l.vals = f s (s.st sid) := by
  obtain ⟨y, z, q, ha⟩ := goes_st hG
  have hP := onWait_placed w hG.placed
  have hdest : ∀ regs, (s.onWait w sid).prepDest (s.st sid) regs = (s.onWait w sid).prepDest ((s.onWait w sid).st sid) regs := fun regs => by rw [ha]; rfl
  have hunif : ∀ vals, (s.onWait w sid).prepUniform (s.st sid) [s.st sid] d.toNat vals =
      (s.onWait w sid).prepUniform ((s.onWait w sid).st sid) [(s.onWait w sid).st sid] d.toNat vals := fun vals => by rw [ha]; rfl
  unfold ReadyAlone at hr
  rw [longOp_lone n f hG hd]
  split
  · rename_i hu
    rw [if_pos hu] at hr
    obtain ⟨t, ht⟩ := Option.isSome_iff_exists.mp hr
    rw [ht]
    obtain ⟨hs, he⟩ := prepUniform_spec hP (hunif _ ▸ ht)
    rw [hlen] at he
    exact goesOn_awaiting hs ⟨op, hG⟩ he
  · rename_i hu
    rw [if_neg hu] at hr
    obtain ⟨t, ht⟩ := Option.isSome_iff_exists.mp hr
    rw [ht]
    obtain ⟨hs, he⟩ := prepDest_spec hP (hdest _ ▸ ht)
    exact goesOn_awaiting hs ⟨op, hG⟩ he

theorem length_intWords (w : Ins) (z : Int) : (intWords w.ty.toNat z).length = tyWords w := by
  unfold intWords tyWords
  split <;> rfl

-- results that arrive

/-- One strand's write to consecutive registers fills them in its lane, and leaves its item's status. -/
theorem writeV_arrives {s : State} {sid : Nat} (hP : Placed s sid) (d n : Nat) (vals : List Word) (hint : Nat → Option Shape)
    (hh : ∀ j < n, ∀ sh, hint j = some sh → sh.at (s.it (s.st sid).uid).number (s.st sid).lane = vals.getD j 0) :
    let t := s.writeV (s.st sid) d [(s.st sid, vals)] hint n
    (∀ j < n, t.vreg (t.st sid) (d + j) = vals.getD j 0 ∧ t.isEmpty (t.st sid) (d + j) = false) ∧
      (∀ u, (t.it u).status = (s.it u).status) ∧ t.lats = s.lats := by
  intro t
  have hsid := st_sid hP.strand
  obtain ⟨hval, hk, -⟩ := writeV_spec hP d n vals hint fun j hj sh hs => (forFrame_at _ _ _ _ hP.lane).trans (hh j hj sh hs)
  have ht : t = noteWrite d n vals (s.st sid) (s.setRow (s.st sid) (writeRow s (s.st sid) d n vals hint)) := writeV_eq_writeRow s (s.st sid) d n vals hint
  refine ⟨fun j hj => ⟨hval j hj, ?_⟩, fun u => ?_, ?_⟩
  · have hnote := noteWrite_kept d n vals (s.st sid) (s.setRow (s.st sid) (writeRow s (s.st sid) d n vals hint)) (by rw [hsid]; exact setRow_strand hP _)
    rw [hsid, ← ht] at hnote
    have hrow : t.rowOf (t.st sid) = writeRow s (s.st sid) d n vals hint (s.rowOf (s.st sid)) := by
      rw [rowOf_kept t hnote.1 hnote.2, ht, noteWrite_rowOf]
      exact setRow_row hP _
    unfold State.isEmpty
    rw [hrow, show (t.st sid).lane = (s.st sid).lane from hk.lane, writeRow_reg, if_pos (by omega)]
    exact write_full _ _ _ _ _ _
  · rw [ht, noteWrite_it]
    exact setRow_keeps Item.status (fun _ _ _ _ => rfl) s _ _ u
  · have hl : ∀ v : State, (noteWrite d n vals (s.st sid) v).lats = v.lats := fun v => by unfold noteWrite; split <;> rfl
    rw [ht, hl, (setRow_stands hP _).machine]

/-- No end and no save is due of a resident item (R323, R332). -/
theorem settled_resident {s : State} {uid : Nat} (h : (s.it uid).status = .resident) : s.settled uid = s := by
  have he : s.tryEnd uid = s := by
    unfold State.tryEnd
    dsimp only
    rw [h]
  have hs : s.saveDue uid = false := by
    unfold State.saveDue
    rw [h]
  unfold State.settled State.trySave
  rw [he, hs]
  rfl

/-- A long-latency result of one strand arrives: its registers hold the words, and are full (R165). -/
theorem finishLat_lone {s : State} {l : Machine.Lat} (hP : Placed s l.sid) (hr : (s.it (s.st l.sid).uid).status = .resident) (hph : (s.st l.sid).phase ≠ .resume)
    (hg : l.group = [] ∨ l.group = [l.sid]) :
    let t := s.finishLat l
    t.lats = s.lats.filter (fun x => x.id != l.id) ∧
      ∀ j < l.vals.length, t.vreg (t.st l.sid) (l.dest + j) = l.vals.getD j 0 ∧ t.isEmpty (t.st l.sid) (l.dest + j) = false := by
  intro t
  obtain ⟨st, hst⟩ := Option.isSome_iff_exists.mp hP.strand
  have hst' : s.st l.sid = st := by unfold State.st; rw [hst]; rfl
  let s0 : State := { s with lats := s.lats.filter fun x => x.id != l.id }
  have hP0 : Placed s0 l.sid := ⟨hP.strand, hP.lane, hP.item, hP.row⟩
  have harrive : ∀ hint : Nat → Option Shape, (∀ j, hint j = none ∨ hint j = some (.uniform (l.vals.getD j 0))) →
      t = (s0.writeV (s0.st l.sid) l.dest [(s0.st l.sid, l.vals)] hint l.vals.length).settled st.uid →
      t.lats = s.lats.filter (fun x => x.id != l.id) ∧
        ∀ j < l.vals.length, t.vreg (t.st l.sid) (l.dest + j) = l.vals.getD j 0 ∧ t.isEmpty (t.st l.sid) (l.dest + j) = false := by
    intro hint hh ht
    obtain ⟨hv, hs, hl⟩ := writeV_arrives hP0 l.dest l.vals.length l.vals hint fun j _ sh hsh => by
      rcases hh j with h | h
      · rw [h] at hsh; cases hsh
      · rw [h] at hsh; cases hsh; rfl
    rw [settled_resident (by rw [hs]; rw [hst'] at hr; exact hr)] at ht
    rw [ht]
    exact ⟨hl, hv⟩
  have hs0 : s0.st l.sid = st := hst'
  have hsid : l.sid = st.sid := by rw [← hst', st_sid hP.strand]
  rcases hg with hg | hg
  · refine harrive (fun _ => none) (fun _ => .inl rfl) ?_
    show s.finishLat l = _
    unfold State.finishLat State.fill
    dsimp only
    rw [show State.strand? { s with lats := s.lats.filter fun x => x.id != l.id } l.sid = some st from hst, hg]
    dsimp only
    rw [hs0, if_neg (by rw [← hst']; exact hph)]
    rfl
  · refine harrive (fun j => some (.uniform (l.vals.getD j 0))) (fun _ => .inr rfl) ?_
    show s.finishLat l = _
    unfold State.finishLat
    dsimp only
    rw [show State.strand? { s with lats := s.lats.filter fun x => x.id != l.id } l.sid = some st from hst, hg]
    dsimp only
    rw [List.filterMap_cons, show State.strand? { s with lats := s.lats.filter fun x => x.id != l.id } l.sid = some st from hst, hs0]
    rfl

/-- Settles O23: every long-latency word is a `longOp` of its function; what arrives is written as any late result. -/
theorem longLatencyWords : Obligations.LongLatencyWords := by
  refine ⟨?_, ?_, ?_, ?_, ?_, ?_⟩
  · exact fun w s sid d hG hd hr => ⟨_, rfl, longOp_later hG hd (length_intWords w _) hr⟩
  · exact fun w s sid d hG hd hr => ⟨_, rfl, longOp_later hG hd (length_intWords w _) hr⟩
  · exact fun w s sid d hG hd hr => ⟨_, rfl, longOp_later hG hd rfl hr⟩
  · exact fun w s sid d hG hd hr => ⟨_, rfl, longOp_later hG hd rfl hr⟩
  · intro c hc
    simp only [List.mem_cons, List.not_mem_nil, or_false] at hc
    rcases hc with rfl | rfl | rfl | rfl | rfl <;>
      exact fun w s sid d hG hd hr => ⟨_, rfl, longOp_later hG hd rfl hr⟩
  · intro s l hl hP hr hph hg
    refine ⟨s.finishLat l, ?_, finishLat_lone hP hr hph hg⟩
    show Host.Outcome.next _ = _
    rw [hl]

end Sys2Proof.Proofs
end

section
/-! SUPPORT. Accesses that a lone strand posts: stores, atomics, loads, the scratchpad and its locks, fences, and parking on a line (R228, R255 to R268). -/

namespace Sys2Proof.Proofs

open Sys2Proof Sys2Proof.Machine Sys2Proof.Safety Sys2Proof.Laws

/-- An access gets its name in program order, and a FENCE.rel before it makes a write a release (R228). -/
def named (s : State) (a : Machine.Acc) : Machine.Acc × State := ({ s with nextId := s.nextId + a.count } : State).takeRel { a with id := s.nextId }

/-- An access that is accepted, and for whose registers there is storage, joins the pending accesses (R255). -/
theorem issueAcc_posts {s s2 s3 : State} {st : Strand} {a0 a : Machine.Acc} {regs : List Nat} (ha : s.accept a0 = (s2, .ok a)) (hw : s2.await st regs = some s3) :
    s.issueAcc st a0 regs = ((named s3 a).2.post (named s3 a).1, .next) := by
  unfold State.issueAcc
  rw [ha]
  dsimp only
  rw [hw]
  rfl

/-- A write of a lone strand that is accepted is posted, named in program order. -/
theorem posts_of_each {i : Instr} {op : Nat} {w : Ins} {s s2 s3 : State} {sid : Nat} {body : State → Strand → State × Flow} {a0 a : Machine.Acc} {regs : List Nat}
    (hG : Goes op w s sid) (he : exec i s = .next (s.each op w body))
    (hb : body (s.onWait w sid) ((s.onWait w sid).st sid) = (s.onWait w sid).issueAcc ((s.onWait w sid).st sid) a0 regs)
    (ha : (s.onWait w sid).accept a0 = (s2, .ok a)) (hw : s2.await ((s.onWait w sid).st sid) regs = some s3) :
    GoesOnFrom i s ((named s3 a).2.post (named s3 a).1) sid w :=
  exec_of_each (f := .next) hG he (hb.trans (issueAcc_posts ha hw))

theorem bytes_eq (w : Ins) : Ins.bytes w = if w.fn = 1 then 16 else tyBytes w.ty.toNat := by
  unfold Ins.bytes Ins.isQuad
  simp only [beq_iff_eq]

theorem loadRegs_eq (w : Ins) : Ins.loadRegs w = if w.fn = 1 then 4 else if wideTy w.ty.toNat then 2 else 1 := by
  unfold Ins.loadRegs Ins.isQuad
  simp only [beq_iff_eq]

/-- Settles O24: every word issues one access, and what is accepted is posted. -/
theorem writesArePosted : Obligations.WritesArePosted := by
  refine ⟨fun w s sid s2 a s3 => ?_, fun w s sid s2 a s3 => ?_, fun c hc w s sid s2 a s3 => ?_⟩
  · intro s1 st hG ha hw
    exact posts_of_each hG rfl (by rw [bytes_eq]) ha hw
  · intro s1 st hG ha hw
    exact posts_of_each hG rfl rfl ha hw
  · intro s1 st hG ha hw
    have he : exec (c.1 w) s = .next (s.atomicWord c.2 w) := by
      simp only [List.mem_cons, List.not_mem_nil, or_false] at hc
      rcases hc with rfl | rfl | rfl | rfl | rfl | rfl | rfl | rfl | rfl <;> rfl
    have hn : (if (if wideTy w.ty.toNat then 8 else 4) = 8 then 2 else 1) = (if wideTy w.ty.toNat then 8 else 4) / 4 := by split <;> rfl
    refine posts_of_each hG he ?_ ha hw
    dsimp only
    rw [hn]
    rfl

-- loads

/-- A strand shares its row with itself, whatever it has acquired. -/
theorem goes_rowGo {op : Nat} {w : Ins} {s : State} {sid : Nat} (hG : Goes op w s sid) : s.rowGo op w ((s.onWait w sid).st sid) = [sid] := by
  obtain ⟨y, z, q, ha⟩ := goes_st hG
  unfold State.rowGo
  rw [hG.bundle, ha]
  have hrow : sameRow (s.st sid) (acqUpdate y z q (s.st sid)) = true := sameRow_self (s.st sid)
  simp [hrow, hG.verdict]

/-- What is accepted is held by nothing in the strand's log (R232). -/
theorem not_held_of_accept {s s2 : State} {a0 a : Machine.Acc} (h : s.accept a0 = (s2, .ok a)) : s2.heldByLog a0.sid a = false := by
  unfold State.accept at h
  split at h
  · cases h
  split at h
  · cases h
  split at h
  · split at h
    · cases h
    · rename_i hb
      cases h
      exact Bool.eq_false_iff.mpr hb
  · split at h <;> cases h
  · rename_i hne _
    exact absurd h (hne s2 a)

/-- One read of a lone strand that serves its row, once there is storage for what it brings (R259). -/
theorem shareRead_alone {s u : State} {sid : Nat} {st : Strand} (a : Machine.Acc) {regs : List Nat} (hsid : st.sid = sid) (hu : s.prepShared st [s.st sid] regs = some u) :
    s.shareRead st a [sid] regs = (({ u with nextId := u.nextId + a.count } : State).post
      { a with id := u.nextId, group := [sid], bundle := s.bundle, gens := regs.filter fun r => ((s.rowOf st).reg r).generalTref }, .next) := by
  unfold State.shareRead
  rw [if_pos (by rw [hsid]; rfl), List.map_cons, List.map_nil, hu]
  rfl

/-- A lone strand's load, when its row is served strand by strand. -/
theorem eachLoad_posts {i : Instr} {op n : Nat} {one : Bool} {w : Ins} {s s2 s3 : State} {sid : Nat} {mk : State → Strand → State × Except Flow Machine.Acc}
    {u : State} {a0 a : Machine.Acc} (hG : Goes op w s sid) (he : exec i s = .next (s.eachLoad op w n one mk))
    (hm : mk (s.onWait w sid) ((s.onWait w sid).st sid) = (u, .ok a0)) (hone : (one && s.oneRead op w ((s.onWait w sid).st sid)) = false) (hloc : a0.loc ≠ 4)
    (ha : u.accept { a0 with dest := some ((w.d.vregs 1).headD 0) } = (s2, .ok a))
    (hw : s2.await ((s.onWait w sid).st sid) (destRegs ((w.d.vregs 1).headD 0) n) = some s3) :
    GoesOnFrom i s ((named s3 a).2.post (named s3 a).1) sid w := by
  refine exec_of_each (f := .next) hG he ?_
  dsimp only
  rw [hm]
  dsimp only
  rw [if_neg (ne_true_of_eq_false hone), if_neg hloc]
  exact issueAcc_posts ha hw

/-- A lone strand's load that serves its whole row. -/
theorem eachLoad_shares {i : Instr} {op n : Nat} {w : Ins} {s s2 u : State} {sid : Nat} {mk : State → Strand → State × Except Flow Machine.Acc}
    {u0 : State} {a0 a : Machine.Acc} (hG : Goes op w s sid) (he : exec i s = .next (s.eachLoad op w n true mk))
    (hm : mk (s.onWait w sid) ((s.onWait w sid).st sid) = (u0, .ok a0)) (hone : s.oneRead op w ((s.onWait w sid).st sid) = true)
    (ha : (a0.loc = 4 ∧ s2 = u0 ∧ a = { a0 with dest := some ((w.d.vregs 1).headD 0) } ∧ s2.heldByLog sid a = false) ∨
      (a0.loc ≠ 4 ∧ a0.sid = sid ∧ u0.accept { a0 with dest := some ((w.d.vregs 1).headD 0) } = (s2, .ok a)))
    (hp : s2.prepShared ((s.onWait w sid).st sid) [s2.st sid] (destRegs ((w.d.vregs 1).headD 0) n) = some u) :
    GoesOnFrom i s (({ u with nextId := u.nextId + a.count } : State).post
      { a with id := u.nextId, group := [sid], bundle := s2.bundle
               gens := (destRegs ((w.d.vregs 1).headD 0) n).filter fun r => ((s2.rowOf ((s.onWait w sid).st sid)).reg r).generalTref }) sid w := by
  have hshare : s2.heldByLog sid a = false → (if ([sid].any fun x => s2.heldByLog x a) = true then (s2, Flow.stay)
      else s2.shareRead ((s.onWait w sid).st sid) a [sid] (destRegs ((w.d.vregs 1).headD 0) n)) = _ := fun hh =>
    (if_neg (by simp [hh])).trans (shareRead_alone a (goes_sid hG) hp)
  refine exec_of_each (f := .next) hG he ?_
  dsimp only
  rw [hm]
  dsimp only
  rw [hone, goes_rowGo hG]
  rcases ha with ⟨hl, rfl, rfl, hh⟩ | ⟨hl, hs, ha⟩
  · rw [if_pos (show (true && true) = true from rfl), if_pos hl]
    exact hshare hh
  · rw [if_pos (show (true && true) = true from rfl), if_neg hl, ha]
    have hh := not_held_of_accept ha
    exact hshare (hs ▸ hh)

/-- Registers of a load are one or more, so storage is drawn for them. -/
theorem await_destRegs (s : State) (st : Strand) (d n : Nat) : s.await st (destRegs d (n + 1)) = s.prepDest st (destRegs d (n + 1)) := by
  unfold State.await destRegs
  rw [List.range_succ]
  simp

/-- Settles O25. -/
theorem loadsArePosted : Obligations.LoadsArePosted := by
  intro w s sid s2 a
  dsimp only
  have hquad : (!(Ins.isQuad w)) = decide (w.fn ≠ 1) := by unfold Ins.isQuad; rw [decide_not]; rfl
  have hregs : ∃ n, Ins.loadRegs w = n + 1 := by
    rw [loadRegs_eq]
    split
    · exact ⟨3, rfl⟩
    · split
      · exact ⟨1, rfl⟩
      · exact ⟨0, rfl⟩
  rw [← loadRegs_eq, ← bytes_eq]
  refine ⟨fun s3 hG h1 ha hp => ?_, fun u hG h1 ho ha hp => ?_, fun s3 hG ha hp => ?_⟩
  · refine eachLoad_posts hG rfl rfl ?_ (show (0 : Nat) ≠ 4 by decide) ha ?_
    · rw [hquad]
      rcases h1 with h | h
      · rw [h]; rfl
      · rw [h, Bool.and_false]
    · obtain ⟨n, hn⟩ := hregs
      rw [hn] at hp ⊢
      exact (await_destRegs ..).trans hp
  · have he : exec (.ld w) s = .next (s.eachLoad 0x90 w (Ins.loadRegs w) true fun s st =>
        (s, .ok { (s.newAcc st .load 0x90 w (s.ea st 0x90 w) (Ins.bytes w)) with acq := acqOf w.fn.toNat })) := by
      show execLd w s = _
      unfold execLd
      rw [hquad, decide_eq_true h1]
    exact eachLoad_shares hG he rfl ho (.inr ⟨show (0 : Nat) ≠ 4 by decide, goes_sid hG, ha⟩) hp
  · exact eachLoad_posts hG rfl rfl rfl (show (0 : Nat) ≠ 4 by decide) ha ((await_destRegs _ _ _ 0).trans hp)

-- the scratchpad

/-- The access of an LDS or LDLK, where the element is in bounds, READY and not poisoned (R260). -/
theorem spadLoad_ok {s s2 : State} {st : Strand} {op p o : Nat} {w : Ins} (acq : Option Nat)
    (hs : s.spad st (s.sea st op w) (tyBytes w.ty.toNat) = (s2, .ok (p, o))) (hp : s2.spadPoison st.uid p o (tyBytes w.ty.toNat) = false) :
    s.spadLoad st op w acq = (s2, .ok { (s2.spadAcc st .load op w p o) with acq := spadScope st p acq }) := by
  unfold State.spadLoad
  rw [hs]
  dsimp only
  rw [hp]
  rfl

theorem loadRegs_zero (w : Ins) : Ins.loadRegs { w with fn := 0 } = if wideTy w.ty.toNat then 2 else 1 := by
  rw [loadRegs_eq]
  exact if_neg (show (0 : BitVec 4) ≠ 1 by decide)

theorem loadRegs_zero_pos (w : Ins) : ∃ n, Ins.loadRegs { w with fn := 0 } = n + 1 := by
  rw [loadRegs_zero]
  split
  · exact ⟨1, rfl⟩
  · exact ⟨0, rfl⟩

/-- A lone strand's load of a scratchpad element, which its log does not hold (R260). -/
theorem lds_posts {w : Ins} {s s2 s3 : State} {sid p o : Nat} (hG : Goes 0x92 w s sid) (hone : s.oneRead 0x92 w ((s.onWait w sid).st sid) = false)
    (hs : (s.onWait w sid).spad ((s.onWait w sid).st sid) ((s.onWait w sid).sea ((s.onWait w sid).st sid) 0x92 w) (tyBytes w.ty.toNat) = (s2, .ok (p, o)))
    (hp : s2.spadPoison ((s.onWait w sid).st sid).uid p o (tyBytes w.ty.toNat) = false) {a : Machine.Acc}
    (ha : a = { (s2.spadAcc ((s.onWait w sid).st sid) .load 0x92 w p o) with
      acq := spadScope ((s.onWait w sid).st sid) p (acqOf w.fn.toNat), dest := some ((w.d.vregs 1).headD 0) })
    (hh : s2.heldByLog sid a = false)
    (hw : s2.prepDest ((s.onWait w sid).st sid) (destRegs ((w.d.vregs 1).headD 0) (Ins.loadRegs { w with fn := 0 })) = some s3) :
    GoesOnFrom (.lds w) s (({ s3 with nextId := s3.nextId + a.count } : State).post { a with id := s3.nextId }) sid w := by
  subst ha
  obtain ⟨n, hn⟩ := loadRegs_zero_pos w
  refine exec_of_each (f := .next) hG rfl ?_
  dsimp only
  rw [spadLoad_ok _ hs hp]
  dsimp only
  rw [hone, if_neg (show (true && false) ≠ true by decide), goes_sid hG]
  refine (if_pos rfl).trans ((if_neg (ne_true_of_eq_false hh)).trans ?_)
  rw [hn] at hw ⊢
  rw [await_destRegs, hw]
  rfl

/-- Settles O26. -/
theorem scratchpadWords : Obligations.ScratchpadWords := by
  intro w s sid s2 p o
  dsimp only
  rw [← loadRegs_zero]
  refine ⟨fun s3 hG ho hs hp hh hw => ?_, fun u hG ho hs hp hh hw => ?_, fun s3 hG hs hw => ?_, fun s3 hG hs hp hl ht hd hr hw => ?_,
    fun s3 hG hs hl hr hd hw => ?_, fun hG hs hl hr => ?_⟩
  · exact lds_posts hG ho hs hp rfl hh hw
  · exact eachLoad_shares (a := { (s2.spadAcc ((s.onWait w sid).st sid) .load 0x92 w p o) with
        acq := spadScope ((s.onWait w sid).st sid) p (acqOf w.fn.toNat), dest := some ((w.d.vregs 1).headD 0) })
      hG rfl (spadLoad_ok _ hs hp) ho (.inl ⟨rfl, rfl, rfl, hh⟩) hw
  · refine exec_of_each (f := .next) hG rfl ?_
    simp only [hs, hw]
    rfl
  · refine exec_of_each (f := .next) hG rfl ?_
    have hlock : (((s.onWait w sid).st sid).lock.isSome && ((s.onWait w sid).st sid).lock != some (lockOf p o)) = false := by
      rcases hl with h | h <;> simp [h]
    have hrival : (((s.onWait w sid).st sid).lock.isNone && s2.lockRival ((s.onWait w sid).st sid) (lockOf p o)) = false := by
      cases h : ((s.onWait w sid).st sid).lock with
      | none => rw [hr h]; rfl
      | some l => rfl
    simp only [hs, hlock, ht, hd, hrival, hp, Bool.false_eq_true, if_false, Bool.or_self, show destRegs ((w.d.vregs 1).headD 0) (Ins.loadRegs w) = (List.range (Ins.loadRegs w)).map ((w.d.vregs 1).headD 0 + ·) from rfl, hw, goes_sid hG]
    rfl
  · refine exec_of_each (f := .next) hG rfl ?_
    simp only [hs, hl, hd, goes_sid hG, hr, hw, bne_self_eq_false, Bool.false_eq_true, if_false, Bool.not_true]
    rfl
  · refine exec_of_each (f := .next) hG rfl ?_
    simp only [hs, hl, goes_sid hG, hr, bne_self_eq_false, Bool.false_eq_true, if_false, Bool.not_true]

/-- Settles O27. -/
theorem fenceWords : Obligations.FenceWords := by
  intro w s sid
  dsimp only
  refine ⟨fun hG hl hp ht => ?_, fun hG hl => ?_, fun hG hr => ?_⟩
  · refine exec_of_each (f := .next) hG rfl ?_
    have hpend : ((s.onWait w sid).pend.any fun a => a.owns sid && a.reads && a.stage < 2 && decide (a.id > ((s.onWait w sid).st sid).lastId) &&
        (a.loc != 3 || fenceScope ((s.onWait w sid).st sid) w == 2)) = false := by
      rw [List.any_eq_false]
      intro a ha
      have := hp a ha
      simp only [Bool.and_eq_true, decide_eq_true_eq, Bool.or_eq_true, bne_iff_ne, beq_iff_eq, gt_iff_lt]
      rintro ⟨⟨⟨⟨h1, h2⟩, h3⟩, h4⟩, h5⟩
      exact absurd (this h1 h2 h3 h5) (Nat.not_le.mpr h4)
    have htile : ((s.onWait w sid).tileOps.any fun o => o.sid == sid && (o.op == 0x87 || o.op == 0x88) && decide (o.id > ((s.onWait w sid).st sid).lastId)) = false := by
      rw [List.any_eq_false]
      intro o ho
      have := ht o ho
      simp only [Bool.and_eq_true, decide_eq_true_eq, Bool.or_eq_true, beq_iff_eq, gt_iff_lt]
      rintro ⟨⟨h1, h2⟩, h3⟩
      exact absurd (this h1 h2) (Nat.not_le.mpr h3)
    simp only [hl, goes_sid hG, hpend, htile, List.isEmpty_nil, Bool.not_true, Bool.or_self, Bool.false_eq_true, if_false]
  · have hs := goes_strand? hG
    let sc := fenceScope ((s.onWait w sid).st sid) w
    let f : Strand → Strand := fun x => { x with nextRel := some ((x.nextRel.map fun y => widerScope y sc).getD sc) }
    have hst : ((s.onWait w sid).setSt sid f).st sid = f ((s.onWait w sid).st sid) := setSt_st_same _ sid f (fun _ => rfl) hs
    have hu : (((s.onWait w sid).setSt sid f).strand? sid).isSome := setSt_isSome f (fun _ => rfl) hs
    refine ⟨((s.onWait w sid).setSt sid f).retire sid w, exec_of_each (f := .next) hG rfl ?_, ?_, ?_, ?_, ?_⟩
    · simp only [hl, goes_sid hG, List.isEmpty_nil, Bool.not_true, Bool.false_eq_true, if_false]
      rfl
    · rw [WentOn, retire_st w hu, hst, ← goes_pc hG, ← goes_seq hG]
      exact ⟨rfl, rfl⟩
    · rw [retire_st w hu, hst]
      obtain ⟨y, z, q, ha⟩ := goes_st hG
      show some ((((s.onWait w sid).st sid).nextRel.map fun y => widerScope y sc).getD sc) = _
      rw [show ((s.onWait w sid).st sid).nextRel = (s.st sid).nextRel by rw [ha]; rfl]
      cases (s.st sid).nextRel <;> rfl
    · show (s.onWait w sid).pend = _
      rw [onWait_eq]
    · show (s.onWait w sid).mem = _
      rw [onWait_eq]
  · refine exec_of_each (f := .next) hG rfl ?_
    simp only [goes_sid hG, hr, Bool.not_true, Bool.false_eq_true, if_false]

/-- A parked WAITA returns: the strand is at its word no longer, and goes on after it (R266). -/
theorem waitaReturn_back {s : State} {sid line : Nat} {t : Option Nat} {hit e : Bool} (h : (s.st sid).park = .waita line t hit e) (hs : (s.strand? sid).isSome) :
    ((s.waitaReturn sid).st sid).park = .none ∧ ((s.waitaReturn sid).st sid).pc = (s.st sid).pc := by
  unfold State.waitaReturn
  rw [h]
  have hst := setPark_st (t := s.l1Drop (s.coreOf (s.st sid)) 0 line) (sid := sid) .none hs
  dsimp only
  rw [hst]
  exact ⟨rfl, rfl⟩

/-- Settles O28. -/
theorem watchWords : Obligations.WatchWords := by
  refine ⟨fun w s sid s2 a => ?_, fun w s sid s2 a => ?_, fun s sid line t hit e h hs => ?_⟩
  · dsimp only
    intro hG ha hm hp
    have hb : ∀ {u f}, ((({ s2 with nextId := s2.nextId + a.count } : State).watch { a with id := s2.nextId } false).1,
        (match (({ s2 with nextId := s2.nextId + a.count } : State).watch { a with id := s2.nextId } false).2 with
          | some p => Flow.parkNext p
          | none => Flow.next)) = (u, f) → exec (.waita w) s = .next (State.flow u sid w f) := fun {u f} he => by
      refine exec_of_each hG rfl ?_
      rw [← he]
      simp only [ha, State.reserve, hm, hp, Bool.not_true, Bool.false_eq_true, if_false]
      generalize ({ s2 with nextId := s2.nextId + a.count } : State).watch { a with id := s2.nextId } false = r
      obtain ⟨u', q⟩ := r
      cases q <;> rfl
    rw [hb rfl]
    generalize (({ s2 with nextId := s2.nextId + a.count } : State).watch { a with id := s2.nextId } false).2 = q
    cases q <;> rfl
  · intro s1 st hG ha
    refine exec_of_each (f := .next) hG rfl ?_
    show (match s1.accept (s1.newAcc st .wake 0xA2 w (s1.ea st 0xA2 w) 1) with
      | (s, .ok a) => (s.wakeLine a, Flow.next)
      | _ => s1.issueAcc st (s1.newAcc st .wake 0xA2 w (s1.ea st 0xA2 w) 1) []) = _
    rw [ha]
  · have hback := waitaReturn_back h hs
    refine ⟨fun hh => ⟨s.waitaReturn sid, ?_, hback⟩, fun ns hn hle => ⟨s.waitaReturn sid, ?_, hback⟩, ⟨s.waitaReturn sid, rfl, hback⟩⟩
    · show Host.Outcome.next _ = _
      rw [h, hh]
    · show Host.Outcome.next _ = _
      rw [h, hn]
      exact congrArg Host.Outcome.next (if_pos hle)

end Sys2Proof.Proofs
end

section
/-! SUPPORT. Accesses that perform, and operations of the matrix group that finish, where nothing stands in their way (R199, R240, R241, R259, R369). -/

namespace Sys2Proof.Proofs

open Sys2Proof Sys2Proof.Machine Sys2Proof.Safety Sys2Proof.Laws

/-- An event on an access that is pending happens to that access. -/
theorem onAcc_of_find {s : State} {a : Machine.Acc} {id : Nat} (f : State → Machine.Acc → State) (h : s.pend.find? (fun x => x.id == id) = some a) :
    s.onAcc id f = f s a := by
  unfold State.onAcc
  rw [h]

/-- Settles O29. -/
theorem accessEvents : Obligations.AccessEvents := by
  intro s a ha
  refine ⟨fun hk hst hh hm => ?_, fun hk hst hm hp hr hg => ?_, fun hk hst hm hp hr hn => ?_, fun hk hst => ?_, fun hm hp hn hl hr => ?_,
    fun b hb hmg hma hmb => ?_⟩
  · refine congrArg Host.Outcome.next ((onAcc_of_find _ ha).trans ?_)
    unfold State.performStore
    simp [hk, hst, hh, hm]
  · refine congrArg Host.Outcome.next ((onAcc_of_find _ ha).trans ?_)
    have hstore : (!(a.kind == .store || a.kind == .tagStore)) = false := by rcases hk with h | h <;> rw [h] <;> rfl
    have hpast : ¬(a.stage = 0 ∧ (!a.homeOnly) = true) := by
      rintro ⟨h0, h1⟩
      rcases hst with h | h
      · exact h h0
      · rw [h] at h1; exact absurd h1 (by decide)
    unfold State.performStore
    simp only [hstore, hpast, hm, hp, hr, hg, Bool.false_eq_true, if_false, if_true]
  · refine congrArg Host.Outcome.next ((onAcc_of_find _ ha).trans ?_)
    unfold State.completeLoad
    rcases hk with h | h <;> rw [h] <;> simp [hst, hm, hp, hr, hn]
  · refine congrArg Host.Outcome.next ((onAcc_of_find _ ha).trans ?_)
    unfold State.completeLoad
    rw [hk]
    exact if_neg (fun h => h hst)
  · refine congrArg Host.Outcome.next ((onAcc_of_find _ ha).trans ?_)
    show s.executeAtomic a = _
    unfold State.executeAtomic
    simp only [hm, hp, hn, hr, hl, Bool.not_true, Bool.false_eq_true, if_false, decide_false, Bool.false_and, Bool.or_self]
  · refine congrArg Host.Outcome.next ((onAcc_of_find _ ha).trans ?_)
    refine (onAcc_of_find _ hb).trans ?_
    simp only [hmg, hma, hmb, Bool.and_self, if_true]

/-- Settles O31: the destination slot of a checked operation is taken already, so the head operation finishes. -/
theorem matrixOpFinishes : Obligations.MatrixOpFinishes := by
  intro s uid p o rest hs ho hc hd
  dsimp only
  refine congrArg Host.Outcome.next ?_
  rw [if_neg hs, ho]
  dsimp only
  rw [hc, if_neg (show ¬(!true) = true by decide)]
  cases hw : destSlot o.word with
  | none => rfl
  | some d =>
    dsimp only
    rw [if_pos (hd d hw)]
    rfl

end Sys2Proof.Proofs
end

section
/-! SUPPORT. Status words: what they write, and what else they do besides (R205, R212, R213, R274, R275, R317). -/

namespace Sys2Proof.Proofs

open Sys2Proof Sys2Proof.Machine Sys2Proof.Safety Sys2Proof.Laws

/-- What a register read asks of its strand. -/
def regsView (st : Strand) : Kind × Nat × Nat × Nat × Nat × Row × BitVec 7 := (st.kind, st.uid, st.prank, st.row, st.lane, st.frame, st.preds)

/-- A destination holds its words still, where items' registers and what a read asks of the strand are the same. -/
theorem holds_of_view {t u : State} {sid : Nat} {d : Operand} {vals : List Word} {n : Nat} (hv : regsView (u.st sid) = regsView (t.st sid))
    (hnum : ∀ x, (u.it x).number = (t.it x).number) (hrows : ∀ x q, ((u.it x).ranks.getD q {}).rows = ((t.it x).ranks.getD q {}).rows)
    (hs : ∀ x, (u.it x).sregs = (t.it x).sregs) (hh : Holds t sid d vals n) : Holds u sid d vals n := by
  simp only [regsView, Prod.mk.injEq] at hv
  obtain ⟨hkind, huid, hprank, hrow, hlane, hframe, hpreds⟩ := hv
  have hfr : (u.st sid).isFrame = (t.st sid).isFrame := by unfold Strand.isFrame; rw [hkind]
  unfold Holds at *
  cases d with
  | v i =>
    dsimp only at hh ⊢
    intro j hj
    rw [← hh j hj]
    unfold State.vreg State.rowOf State.rank
    rw [hfr, huid, hprank, hrow, hlane, hframe, hnum, hrows]
  | s i =>
    dsimp only at hh ⊢
    intro j hj
    rw [← hh j hj]
    unfold State.sreg
    rw [huid, hs]
  | p i =>
    dsimp only at hh ⊢
    rw [← hh]
    unfold Strand.pred
    rw [hpreds]
  | _ => trivial

/-- A strand of which a read is the last in program order that has returned (R228, R249). -/
def readNoted (a : Machine.Acc) (at_ acq : Nat) (rels : List Nat) (st : Strand) : Strand :=
  if a.id < st.lastId then st
  else { st with lastId := a.id, lastRead := at_, lastAcq := acq, lastRels := rels, lastLine := some (a.loc, a.pa / 128), lastIo := a.loc == 3 }

theorem readNoted_keeps {β : Type} (g : Strand → β) {a : Machine.Acc} {at_ acq : Nat} {rels : List Nat}
    (hg : ∀ st : Strand, g { st with lastId := a.id, lastRead := at_, lastAcq := acq, lastRels := rels, lastLine := some (a.loc, a.pa / 128), lastIo := a.loc == 3 } = g st)
    (st : Strand) : g (readNoted a at_ acq rels st) = g st := by
  unfold readNoted
  split
  · rfl
  · exact hg st

/-- What noting a read keeps of every strand stands. -/
theorem noteRead_st_proj {β : Type} (g : Strand → β) {a : Machine.Acc} {at_ acq : Nat} {rels : List Nat}
    (hg : ∀ st : Strand, g { st with lastId := a.id, lastRead := at_, lastAcq := acq, lastRels := rels, lastLine := some (a.loc, a.pa / 128), lastIo := a.loc == 3 } = g st)
    (s : State) (b : Nat) : g ((s.noteRead a at_ acq rels).st b) = g (s.st b) := by
  show g ((a.owners.foldl (fun s sid => s.setSt sid (readNoted a at_ acq rels)) s).st b) = _
  generalize a.owners = l
  induction l generalizing s with
  | nil => rfl
  | cons x l ih => exact (ih _).trans (setSt_st_proj g s x (readNoted_keeps Strand.sid fun _ => rfl) (readNoted_keeps g hg) b)

theorem noteRead_items (s : State) (a : Machine.Acc) (at_ acq : Nat) (rels : List Nat) : (s.noteRead a at_ acq rels).items = s.items := by
  unfold State.noteRead
  generalize a.owners = l
  induction l generalizing s with
  | nil => rfl
  | cons x l ih => exact ih _

theorem noteRead_isSome (s : State) (a : Machine.Acc) (at_ acq : Nat) (rels : List Nat) (b : Nat) (h : (s.strand? b).isSome) :
    ((s.noteRead a at_ acq rels).strand? b).isSome := by
  show ((a.owners.foldl (fun s sid => s.setSt sid (readNoted a at_ acq rels)) s).strand? b).isSome
  generalize a.owners = l
  induction l generalizing s with
  | nil => exact h
  | cons x l ih =>
    refine ih _ ?_
    rw [setSt_strand? s x _ (readNoted_keeps Strand.sid fun _ => rfl)]
    split
    · simpa using h
    · exact h

/-- The state in which a lone strand's result has landed, where there is storage for it. -/
theorem landed_spec {op : Nat} {w : Ins} {s : State} {sid n : Nat} {vals : List Word} {hint : Nat → Option Shape} (hG : Goes op w s sid)
    (hr : Room (s.onWait w sid) sid w.d vals hint n) (hh : ∀ j < n, ∀ sh, hint j = some sh → sh.at (s.it (s.st sid).uid).number (s.st sid).lane = vals.getD j 0) :
    ∃ t, landed (s.onWait w sid) sid w.d vals hint n = some t ∧ Holds t sid w.d vals n ∧ Leaves s t sid w.d n ∧
      (t.st sid).pc = (s.st sid).pc ∧ (t.st sid).seq = (s.st sid).seq ∧ (t.strand? sid).isSome := by
  obtain ⟨t, ht⟩ := Option.isSome_iff_exists.mp ((room_iff_landed _ _ _ _ _ _).mp hr)
  obtain ⟨u, hu, hrest⟩ := aluWith_lands n (fun _ _ _ => hint) (fun _ _ => vals) (fun t _ _ => t) hG hr hh
  rw [aluWith_eq_landed n _ _ _ hG, ht] at hu
  dsimp only at hu
  subst hu
  exact ⟨t, ht, hrest⟩

/-- How a word that writes one word of its own finishes, once its result has landed. -/
theorem putD_of_landed {s t : State} {sid : Nat} {w : Ins} {v : Word} {hint : Nat → Option Shape} (hsid : (s.st sid).sid = sid)
    (h : landed s sid w.d [v] hint 1 = some t) : s.putD (s.st sid) w v hint = (t, .next) := by
  unfold landed at h
  unfold State.putD
  cases hd : w.d with
  | v d => rw [hd] at h; dsimp only at h ⊢; rw [h]
  | s d => rw [hd] at h; dsimp only at h ⊢; rw [h]
  | p i => rw [hd] at h; dsimp only at h ⊢; rw [hsid]; cases h; rfl
  | _ => rw [hd] at h; cases h; rfl

/-- A lone strand's word that writes one word and does no more to what the strand reads. -/
theorem results_of_each {i : Instr} {op : Nat} {w : Ins} {s : State} {sid : Nat} {v : Word} {body : State → Strand → State × Flow} (g : State → State)
    (hG : Goes op w s sid) (hr : Room (s.onWait w sid) sid w.d [v] (fun _ => none) 1) (he : exec i s = .next (s.each op w body))
    (hb : ∀ t, (s.onWait w sid).putD ((s.onWait w sid).st sid) w v (fun _ => none) = (t, .next) →
      body (s.onWait w sid) ((s.onWait w sid).st sid) = (g t, .next))
    (hg : ∀ t, Holds t sid w.d [v] 1 → Holds (g t) sid w.d [v] 1 ∧ ((g t).st sid).pc = (t.st sid).pc ∧ ((g t).st sid).seq = (t.st sid).seq ∧
      ((t.strand? sid).isSome → ((g t).strand? sid).isSome)) :
    ∃ t, exec i s = .next ((g t).retire sid w) ∧ Holds ((g t).retire sid w) sid w.d [v] 1 ∧ WentOn s ((g t).retire sid w) sid w := by
  obtain ⟨t, ht, hholds, -, hpc, hseq, hsome⟩ := landed_spec hG hr fun _ _ _ h => nomatch h
  obtain ⟨h1, h2, h3, h4⟩ := hg t hholds
  refine ⟨t, exec_of_each (f := .next) hG he (hb t (putD_of_landed (goes_sid hG) ht)), holds_retire w _ _ _ (h4 hsome) h1, ?_⟩
  rw [WentOn, retire_st w (h4 hsome), h2, h3, hpc, hseq]
  exact ⟨rfl, rfl⟩

theorem goes_slot {op : Nat} {w : Ins} {s : State} {sid : Nat} (hG : Goes op w s sid) (x : Nat) :
    (s.onWait w sid).slot ((s.onWait w sid).st sid).uid ((s.onWait w sid).st sid).prank x = s.slot (s.st sid).uid (s.st sid).prank x := by
  obtain ⟨y, z, q, ha⟩ := goes_st hG
  rw [ha, onWait_eq]
  rfl

theorem goes_mstat {op : Nat} {w : Ins} {s : State} {sid : Nat} (hG : Goes op w s sid) :
    ((s.onWait w sid).rank ((s.onWait w sid).st sid).uid ((s.onWait w sid).st sid).prank).mstat ((s.onWait w sid).narrowOn ((s.onWait w sid).coreOf ((s.onWait w sid).st sid))) =
      (s.rank (s.st sid).uid (s.st sid).prank).mstat (s.narrowOn (s.coreOf (s.st sid))) := by
  obtain ⟨y, z, q, ha⟩ := goes_st hG
  rw [ha, onWait_eq]
  rfl

/-- A READY slot stops no word that names it (R30). -/
theorem slotReady_none {s : State} {st : Strand} {x : Nat} (h : (s.slot st.uid st.prank x).state = .ready) : s.slotReady st x = none := by
  unfold State.slotReady
  simp [h]

/-- What MSTAT.clr does to a rank (R213). -/
def stickyClear (r : Rank) : Rank := { r with underscale := false, sati := false }

theorem stickyClear_default : stickyClear {} = {} := rfl

theorem modify_getD {α : Type} (l : List α) (i q : Nat) (f : α → α) (d : α) (hd : f d = d) : (l.modify i f).getD q d = if i = q then f (l.getD q d) else l.getD q d := by
  simp only [List.getD_eq_getElem?_getD, List.getElem?_modify]
  cases l[q]? with
  | none => split <;> simp [hd]
  | some x => split <;> simp_all

/-- A rank without its sticky bits: its registers read as before (R213). -/
theorem holds_stickyClear {t : State} {sid uid p : Nat} {d : Operand} {vals : List Word} {n : Nat} (hh : Holds t sid d vals n) :
    Holds (t.setRank uid p stickyClear) sid d vals n := by
  let F : Item → Item := fun it => { it with ranks := it.ranks.modify p stickyClear }
  refine holds_of_view (t := t) rfl (setIt_keeps Item.number t uid F (fun _ => rfl) fun _ => rfl) (fun x q => ?_) (setIt_keeps Item.sregs t uid F (fun _ => rfl) fun _ => rfl) hh
  refine setIt_keeps (fun it => (it.ranks.getD q {}).rows) t uid F (fun _ => rfl) (fun it => ?_) x
  show ((it.ranks.modify p stickyClear).getD q {}).rows = _
  rw [modify_getD _ _ _ _ _ stickyClear_default]
  split <;> rfl

theorem stickyClear_rank (t : State) (uid p : Nat) : (t.setRank uid p stickyClear).rank uid p = stickyClear (t.rank uid p) := by
  let F : Item → Item := fun it => { it with ranks := it.ranks.modify p stickyClear }
  by_cases hi : (t.item? uid).isSome
  · show ((t.setIt uid F).it uid).ranks.getD p {} = _
    rw [setIt_it_same t uid F (fun _ => rfl) hi]
    show (((t.it uid).ranks).modify p stickyClear).getD p {} = _
    rw [modify_getD _ _ _ _ _ stickyClear_default, if_pos rfl]
    rfl
  · have hnone : t.item? uid = none := by simpa using hi
    have hit : t.it uid = {} := by unfold State.it; rw [hnone]; rfl
    have hit' : (t.setIt uid F).it uid = {} := by
      unfold State.it
      rw [setIt_item? t uid F fun _ => rfl, if_pos rfl, hnone]
      rfl
    show ((t.setIt uid F).it uid).ranks.getD p {} = stickyClear ((t.it uid).ranks.getD p {})
    rw [hit, hit']
    rfl

/-- A read of a sidecar word that a word has made at once is noted in program order (R212, R228). -/
def sideRead (v : State) (a : Machine.Acc) (t : State) : State :=
  ({ t with nextId := t.nextId + 1 } : State).noteRead a v.tick (v.passedOn a.core a.uid a.loc a.pa a.width) (v.relsOf a.core a.uid a.loc a.pa a.width)

theorem sideRead_keeps (v : State) (a : Machine.Acc) {sid : Nat} {d : Operand} {vals : List Word} {n : Nat} (t : State) (hh : Holds t sid d vals n) :
    Holds (sideRead v a t) sid d vals n ∧ ((sideRead v a t).st sid).pc = (t.st sid).pc ∧ ((sideRead v a t).st sid).seq = (t.st sid).seq ∧
      ((t.strand? sid).isSome → ((sideRead v a t).strand? sid).isSome) := by
  have hi : (sideRead v a t).items = t.items := noteRead_items _ _ _ _ _
  refine ⟨?_, noteRead_st_proj Strand.pc (fun _ => rfl) _ sid, noteRead_st_proj Strand.seq (fun _ => rfl) _ sid, fun h => noteRead_isSome _ _ _ _ _ sid h⟩
  exact holds_of_view (t := t) (noteRead_st_proj regsView (fun _ => rfl) _ sid) (fun x => by rw [it_of_items hi]) (fun x q => by rw [it_of_items hi])
    (fun x => by rw [it_of_items hi]) hh

/-- Settles O32. -/
theorem statusWords : Obligations.StatusWords := by
  intro w s sid
  dsimp only
  have hid : ∀ {v : Word} (t : State), Holds t sid w.d [v] 1 → Holds t sid w.d [v] 1 ∧ (t.st sid).pc = (t.st sid).pc ∧ (t.st sid).seq = (t.st sid).seq ∧
      ((t.strand? sid).isSome → (t.strand? sid).isSome) := fun t hh => ⟨hh, rfl, rfl, id⟩
  refine ⟨fun hr ho hp hG hroom => ?_, fun hG hroom => ?_, fun hG hroom => ?_, fun hG hroom => ?_, fun hp hG hroom => ?_, fun n hn hG hf => ?_,
    fun s2 hr ho hs hG => ?_⟩
  · have hp' : ((s.slot (s.st sid).uid (s.st sid).prank (xOf w.a)).poison.any fun i =>
        decide (1024 + 4 * ((s.src (s.st sid) w w.b).toNat % 8) ≤ i ∧ i < 1024 + 4 * ((s.src (s.st sid) w w.b).toNat % 8) + 4)) = false := by
      rw [List.any_eq_false]
      exact fun i hi h => hp i hi (of_decide_eq_true h)
    have hready := slotReady_none (s := s.onWait w sid) (st := (s.onWait w sid).st sid) (x := xOf w.a) (by rw [goes_slot hG, hr])
    obtain ⟨t, h⟩ := results_of_each (i := .scr w) (sideRead (s.onWait w sid)
        ((s.onWait w sid).sideAcc ((s.onWait w sid).st sid) .load (xOf w.a) ((s.src (s.st sid) w w.b).toNat % 8))) hG hroom rfl
      (fun t ht => by
        simp only [hready, goes_slot hG, goes_src hG, ho, hp', ht, Bool.not_true, Bool.false_eq_true, if_false]
        rfl)
      fun t hh => sideRead_keeps _ _ t hh
    exact ⟨_, h⟩
  · obtain ⟨t, h⟩ := results_of_each (i := .mstat w) id hG hroom rfl (fun t ht => by
      simp only [goes_mstat hG, ht, Bool.false_eq_true, if_false, id_eq]) hid
    exact ⟨_, h⟩
  · obtain ⟨y, z, q, ha⟩ := goes_st hG
    obtain ⟨t, h1, h2, h3⟩ := results_of_each (i := .mstatClr w) (fun t => t.setRank (s.st sid).uid (s.st sid).prank stickyClear) hG hroom rfl (fun t ht => by
      simp only [goes_mstat hG, ht, if_true]
      rw [ha]
      rfl) fun t hh => ⟨holds_stickyClear hh, rfl, rfl, id⟩
    have hrank := stickyClear_rank t (s.st sid).uid (s.st sid).prank
    refine ⟨_, h1, h2, h3, ?_, ?_⟩
    · show ((t.setRank (s.st sid).uid (s.st sid).prank stickyClear).rank (s.st sid).uid (s.st sid).prank).underscale = false
      rw [hrank]; rfl
    · show ((t.setRank (s.st sid).uid (s.st sid).prank stickyClear).rank (s.st sid).uid (s.st sid).prank).sati = false
      rw [hrank]; rfl
  · obtain ⟨y, z, q, ha⟩ := goes_st hG
    obtain ⟨t, h⟩ := results_of_each (i := .xstatToken w) id hG hroom rfl (fun t ht => by
      rw [show ((s.onWait w sid).st sid).toks = (s.st sid).toks by rw [ha]; rfl]
      exact ht) hid
    exact ⟨_, h⟩
  · have hp' : (s.slot (s.st sid).uid (s.st sid).prank (xOf w.a)).poison.contains entryPoison = false := by simpa using hp
    obtain ⟨t, h⟩ := results_of_each (i := .xstatSlot w) id hG hroom rfl (fun t ht => by
      simp only [goes_slot hG, hp', Bool.false_eq_true, if_false, ht, id_eq]) hid
    exact ⟨_, h⟩
  · subst hn
    have hspec := alu_spec (sysWords (w.imm.toNat % 256)) (if w.imm.toNat % 256 ≥ 6 then uniformOf else generalOf)
      (fun s st => (pairWords (s.sysReg st (w.imm.toNat % 256))).take (sysWords (w.imm.toNat % 256))) hG hf fun j _ sh hsh => by
        split at hsh
        · cases hsh; rfl
        · cases hsh
    exact ⟨_, rfl, hspec.1, hspec.2⟩
  · refine exec_of_each (f := .next) hG rfl ?_
    have hready := slotReady_none (s := s.onWait w sid) (st := (s.onWait w sid).st sid) (x := xOf w.a) (by rw [goes_slot hG, hr])
    obtain ⟨y, z, q, ha⟩ := goes_st hG
    have hs' : (s.onWait w sid).ownSlot ((s.onWait w sid).st sid).uid ((s.onWait w sid).st sid).prank (xOf w.a) = some s2 := by rw [ha]; exact hs
    simp only [hready, ho, hs', Bool.not_true, Bool.false_eq_true, if_false, goes_src hG, goes_sid hG]
    rw [show ((s.onWait w sid).st sid).uid = (s.st sid).uid by rw [ha]; rfl, show ((s.onWait w sid).st sid).prank = (s.st sid).prank by rw [ha]; rfl]
    rfl

/-- Settles O30. -/
theorem accumulatorWords : Obligations.AccumulatorWords := by
  intro w s sid
  dsimp only
  refine ⟨fun hG hs => ⟨?_, ?_⟩, fun u hG hs hb hp hu => ?_, fun u hG hu => ?_, fun s2 hG hs hb hp hd => ?_, fun hG hc ho => ?_⟩
  · exact exec_of_each (f := .next) hG rfl (by simp only [goes_sid hG, hs, Bool.not_true, Bool.false_eq_true, if_false])
  · exact exec_of_each (f := .next) hG rfl (by simp only [goes_sid hG, hs, Bool.not_true, Bool.false_eq_true, if_false, if_true])
  · refine exec_of_each (f := .next) hG rfl ?_
    have hpoison : ((List.range 32).any fun e => ((s.onWait w sid).accum ((s.onWait w sid).st sid).uid ((s.onWait w sid).st sid).prank (aOf w.d)).poison.contains
        (32 * ((s.onWait w sid).st sid).lane + e)) = false := by
      rw [List.any_eq_false]
      intro e he
      simpa using hp e (List.mem_range.mp he)
    simp only [goes_sid hG, hs, hb, hpoison, Bool.not_true, Bool.not_false, Bool.and_false, Bool.false_eq_true, if_false]
    exact hu
  · refine exec_of_each (f := .next) hG rfl ?_
    simp only [hu, if_true]
  · refine exec_of_each (f := .next) hG rfl ?_
    have hp' : (((s.onWait w sid).accum ((s.onWait w sid).st sid).uid ((s.onWait w sid).st sid).prank (aOf w.a)).poison.contains
        (((s.onWait w sid).src ((s.onWait w sid).st sid) w w.b).toNat % 1024)) = false := by simpa using hp
    simp only [goes_sid hG, hs, hb, hp', Bool.not_true, Bool.not_false, Bool.and_false, Bool.false_eq_true, if_false,
      show destRegs (vOf w.d) 1 = [vOf w.d] from rfl, hd]
    rfl
  · refine exec_of_each (f := .next) hG rfl ?_
    have hsign : (((s.onWait w sid).it ((s.onWait w sid).st sid).uid).crews.any fun k => k.rounds.any fun r => r.signsFor sid (aOf w.a)) = false := by
      rw [List.any_eq_false]
      intro k hk
      rw [Bool.not_eq_true, List.any_eq_false]
      exact fun r hr => ne_true_of_eq_false (hc k hk r hr)
    have hbusy : ∀ bound, (((s.onWait w sid).rank ((s.onWait w sid).st sid).uid ((s.onWait w sid).st sid).prank).ops.any fun o =>
        decide (o.id < bound) && (MatWord.of (Raw.ofCode o.word)).isMma && o.usesAcc (aOf w.a)) = false := by
      intro bound
      rw [List.any_eq_false]
      intro o hm hand
      simp only [Bool.and_eq_true] at hand
      obtain ⟨⟨-, hmma⟩, huse⟩ := hand
      rw [ho o hm hmma] at huse
      exact absurd huse (by decide)
    simp only [goes_sid hG, hsign, hbusy, Bool.false_eq_true, if_false]

end Sys2Proof.Proofs
end

section
/-! SUPPORT. The words of the tile group (O33): an edit of a tensor, a read of a tile, and what they post. -/

namespace Sys2Proof.Proofs

open Sys2Proof Sys2Proof.Machine Sys2Proof.Safety Sys2Proof.Laws

theorem issueTile_posts {s : State} {o : TileOp} (h : s.tileHeld o = false) : s.issueTile o = (s.postTile o, .next) := by
  unfold State.issueTile
  rw [h]
  rfl

/-- R151, R215, R216: an edit whose descriptor is read and whose operands are accepted posts the operation with its map. -/
theorem edit_posts {i : Instr} {op : Nat} {w : Ins} {s s2 : State} {sid : Nat} {x : Xlat} {d : Desc} {m : ValMap} {n : State → Strand → Option ValMap}
    (hG : Goes op w s sid) (he : exec i s = .next (s.editWord op w n))
    (hd : (s.onWait w sid).readDesc ((s.onWait w sid).st sid) ((s.onWait w sid).src64 ((s.onWait w sid).st sid) w w.a) false = (s2, .ok (x, d)))
    (hn : n s2 ((s.onWait w sid).st sid) = some m) (hf : plainFmt d.fmt = false ∨ op = 0x83)
    (hh : s2.tileHeld { (s2.newTile ((s.onWait w sid).st sid) op w ((s.onWait w sid).src64 ((s.onWait w sid).st sid) w w.a) x d) with
      mapA := BitVec.ofNat 32 m.a, mapB := BitVec.ofNat 32 m.b, mapLo := BitVec.ofNat 32 m.lo, mapHi := BitVec.ofNat 32 m.hi } = false) :
    exec i s = .next ((s2.postTile { (s2.newTile ((s.onWait w sid).st sid) op w ((s.onWait w sid).src64 ((s.onWait w sid).st sid) w w.a) x d) with
      mapA := BitVec.ofNat 32 m.a, mapB := BitVec.ofNat 32 m.b, mapLo := BitVec.ofNat 32 m.lo, mapHi := BitVec.ofNat 32 m.hi }).flow sid w .next) := by
  refine exec_of_each (f := .next) hG he ?_
  have hplain : (plainFmt d.fmt && op != 0x83) = false := by
    rcases hf with hf | hf
    · rw [hf]; rfl
    · rw [hf]; exact Bool.and_false _
  dsimp only
  rw [hd]
  dsimp only
  rw [hn]
  dsimp only
  rw [hplain, if_neg Bool.false_ne_true]
  exact issueTile_posts hh

/-- R219, R220: a read of a tile for a register empties it and posts the operation. -/
theorem tileRead_posts {i : Instr} {op : Nat} {w : Ins} {s s2 s3 s4 : State} {sid : Nat} {x : Xlat} {d : Desc} {r c : Nat} {acq : Option Nat} {o p : TileOp}
    (hG : Goes op w s sid) (he : exec i s = .next (s.tileRead op w acq))
    (hd : (s.onWait w sid).readDesc ((s.onWait w sid).st sid) ((s.onWait w sid).src64 ((s.onWait w sid).st sid) w w.a) false = (s2, .ok (x, d)))
    (hs : d.stored ((s2.src64 ((s.onWait w sid).st sid) w w.b).toNat % 2 ^ 32) ((s2.src64 ((s.onWait w sid).st sid) w w.b).toNat / 2 ^ 32) = some (r, c))
    (ho : o = { (s2.newTile ((s.onWait w sid).st sid) op w ((s.onWait w sid).src64 ((s.onWait w sid).st sid) w w.a) x d) with
      row := r, col := c, dest := vOf w.d, sat := Ins.sat w != 0, acq := acq })
    (hp : (if op = 0x88 then s2.withHdr ((s.onWait w sid).st sid) o else (s2, .ok o)) = (s4, .ok p))
    (hh : s4.tileHeld p = false) (hr : s4.prepDest ((s.onWait w sid).st sid) [vOf w.d] = some s3) :
    exec i s = .next ((s3.postTile p).flow sid w .next) := by
  refine exec_of_each (f := .next) hG he ?_
  dsimp only
  rw [hd]
  dsimp only
  rw [hs]
  dsimp only
  rw [← ho, hp]
  dsimp only
  rw [hh, hr]
  rfl

/-- Settles O33. -/
theorem tileWordsArePosted : Obligations.TileWordsArePosted := by
  intro w s sid s2 x d
  dsimp only
  refine ⟨fun h1 hG hd hf hh => ?_, fun h1 hG hd hf hh => ?_, fun h1 hG hd hf hh => ?_, fun h1 hG hd hf hh => ?_, fun hG hd hf hh => ?_,
    fun h0 h1 h2 hG hd hf hh => ?_, fun hG hd hg hh => ?_, fun r c hG hd hs hh => ?_, fun hG hd hh => ?_, fun r c s3 hG hd hs hh hr => ?_,
    fun r c s3 s4 p hG hd hs hp hh hr => ?_, fun r c s4 p hG hd hs hp hh => ?_, fun o ho => ?_⟩
  · exact edit_posts (m := { ValMap.ident with a := s2.srcFp ((s.onWait w sid).st sid) w 8 w.b }) hG rfl hd (by dsimp only; rw [if_pos h1]) hf hh
  · exact edit_posts (m := { ValMap.ident with b := s2.srcFp ((s.onWait w sid).st sid) w 8 w.b }) hG rfl hd (by dsimp only; rw [if_pos h1]) hf hh
  · exact edit_posts (m := { ValMap.ident with lo := (s2.src ((s.onWait w sid).st sid) w w.b).toNat, hi := (s2.src ((s.onWait w sid).st sid) w w.third).toNat }) hG rfl hd (by dsimp only; rw [if_pos h1]) hf hh
  · exact edit_posts (m := { ValMap.ident with lo := rnd fp32 (widenF fp16 (w.imm.toNat % 65536)), hi := rnd fp32 (widenF fp16 (w.imm.toNat / 65536)) }) hG rfl hd (by dsimp only; rw [if_pos h1]) hf hh
  · exact edit_posts (m := { ValMap.ident with a := 0, b := s2.srcFp ((s.onWait w sid).st sid) w 8 w.b }) hG rfl hd rfl hf hh
  · exact edit_posts (m := ⟨(s2.src ((s.onWait w sid).st sid) w (w.b.plus 0)).toNat, (s2.src ((s.onWait w sid).st sid) w (w.b.plus 1)).toNat,
      (s2.src ((s.onWait w sid).st sid) w (w.b.plus 2)).toNat, (s2.src ((s.onWait w sid).st sid) w (w.b.plus 3)).toNat⟩) hG rfl hd (by dsimp only; rw [h0, h1, h2]; rfl) hf hh
  · refine exec_of_each (f := .next) hG rfl ?_
    dsimp only
    rw [hd]
    dsimp only
    rw [if_neg (Nat.not_lt.mpr hg)]
    exact issueTile_posts hh
  · refine exec_of_each (f := .next) hG rfl ?_
    dsimp only
    rw [hd]
    dsimp only
    rw [hs]
    exact issueTile_posts hh
  · refine exec_of_each (f := .next) hG rfl ?_
    dsimp only
    rw [hd]
    exact issueTile_posts hh
  · exact tileRead_posts hG rfl hd hs rfl rfl hh hr
  · exact tileRead_posts hG rfl hd hs rfl hp hh hr
  · refine exec_of_each (f := .next) hG rfl ?_
    dsimp only
    rw [hd]
    dsimp only
    rw [hs]
    dsimp only
    rw [hp]
    exact issueTile_posts hh
  · refine congrArg Host.Outcome.next ?_
    rw [ho]

end Sys2Proof.Proofs
end

section
/-! SUPPORT. Copies and multicasts (O34, O35): the command of a CPY, an engine's act on it, and the deliveries of an MCAST. -/

namespace Sys2Proof.Proofs

open Sys2Proof Sys2Proof.Machine Sys2Proof.Safety Sys2Proof.Laws

/-- Whether CPY refuses a record whose region leaves the tensor (R281). -/
def outside (r : CpyRec) (good : Option Desc) : Bool :=
  match good with
  | some d => !r.permit && r.region.any fun x => (r.stored d x.1 x.2).isNone
  | none => false

theorem not_outside {r : CpyRec} {good : Option Desc} (h : ∀ d, good = some d → r.permit = true ∨ ∀ x ∈ r.region, (r.stored d x.1 x.2).isSome) :
    outside r good = false := by
  cases good with
  | none => rfl
  | some d =>
    show (!r.permit && r.region.any fun x => (r.stored d x.1 x.2).isNone) = false
    rcases h d rfl with hp | hr
    · rw [hp]; rfl
    · rw [show (r.region.any fun x => (r.stored d x.1 x.2).isNone) = false from ?_, Bool.and_false]
      rw [List.any_eq_false]
      intro x hx hn
      have hs := hr x hx
      rw [Option.isNone_iff_eq_none.mp hn] at hs
      exact Bool.false_ne_true hs

/-- Settles O34. -/
theorem copyWords : Obligations.CopyWords := by
  refine ⟨fun w s sid s2 s3 s4 p o bs => ?_, fun s c hc => ?_, fun s c hc hf => ?_⟩
  · dsimp only
    intro hG hspad hpoison hclear hchecks hdesc hout hready hrel hown
    refine exec_of_each (f := .next) hG rfl ?_
    generalize hst : (s.onWait w sid).st sid = st at *
    have hsid : st.sid = sid := by rw [← hst]; exact goes_sid hG
    generalize hws : ((List.range 8).map fun i => BitVec.ofNat 32 ((s2.slot st.uid p (o / 1024)).pay.num (o % 1024 + 4 * i) 4)) = ws at *
    generalize hbad : ((CpyRec.of ws).tensor && ((bs.map Desc.ofBytes).map fun d => (CpyRec.of ws).unfit d).getD true) = bad at *
    generalize hgood : (if bad then none else bs.map Desc.ofBytes) = good at *
    have hwaits : ((CpyRec.of ws).fromSlot && (List.range (CpyRec.of ws).per).any fun q =>
        (s3.slot st.uid st.prank ((CpyRec.of ws).slot + q)).state != .ready) = false := by
      cases hfs : (CpyRec.of ws).fromSlot with
      | false => rfl
      | true =>
        rw [Bool.true_and, List.any_eq_false]
        exact fun q hq hn => by simp [hready hfs q (List.mem_range.mp hq)] at hn
    unfold State.cpyOne
    rw [hspad]
    dsimp only
    rw [hpoison, hclear, hws]
    simp only [Bool.false_eq_true, if_false, Bool.not_true, hchecks, hdesc, hbad, hgood]
    rw [hwaits, hsid, hrel, hown]
    simp only [Bool.false_eq_true, if_false, Bool.not_true, Bool.or_self]
    exact if_neg (ne_true_of_eq_false (not_outside hout))
  · refine congrArg Host.Outcome.next ?_
    rw [hc]
  · refine congrArg Host.Outcome.next ?_
    rw [hc]
    exact if_pos hf

/-- Settles O35. -/
theorem multicastWords : Obligations.MulticastWords := by
  refine ⟨fun w s sid x hx => ?_, fun s m r u hm hr hf hd he ha => ?_, fun s m r hm hr hf hd he => ?_⟩
  · dsimp only
    intro hG hown hmask
    have hcheck : (bitN (w.imm.toNat % 65536) ((s.onWait w sid).st sid).prank ||
        decide (w.imm.toNat % 65536 ≥ 2 ^ ((s.onWait w sid).it ((s.onWait w sid).st sid).uid).ranks.length)) = false := by
      rw [hown, decide_eq_false (Nat.not_le.mpr hmask)]
      rfl
    have he : exec (x.1 w) s = .next (s.each 0xB1 w fun s st => s.mcastOne st w (xOf x.2)) := by
      rcases List.mem_cons.mp hx with rfl | hx
      · rfl
      · rw [List.mem_singleton.mp hx]
        rfl
    refine ⟨fun hzero => exec_of_each (f := .next) hG he ?_, fun hsome hready hrel => ⟨_, rfl, exec_of_each (f := .next) hG he ?_⟩⟩
    · unfold State.mcastOne
      simp only [hcheck, if_pos hzero, goes_sid hG, Bool.false_eq_true, if_false]
    · unfold State.mcastOne
      simp only [hcheck, hsome, slotReady_none hready, hrel, goes_sid hG, Bool.not_true, Bool.false_eq_true, if_false]
      rfl
  · refine congrArg Host.Outcome.next ?_
    rw [hm]
    have hr' : m.todo.contains r = true := by simpa using hr
    dsimp only
    simp only [hr', hf, hd, he, Bool.not_true, Bool.or_self, Bool.false_eq_true, if_false, Bool.not_false, and_self, if_true, ha]
  · refine congrArg Host.Outcome.next ?_
    rw [hm]
    have hr' : m.todo.contains r = true := by simpa using hr
    dsimp only
    simp only [hr', hf, hd, he, Bool.not_true, Bool.or_self, Bool.false_eq_true, if_false, false_and]

end Sys2Proof.Proofs
end

section
/-! SUPPORT. The Grinders and the storage queues (O37, O38). -/

namespace Sys2Proof.Proofs

open Sys2Proof Sys2Proof.Machine Sys2Proof.Safety Sys2Proof.Laws

/-- Changing a channel that has an entry changes that entry. -/
theorem setChannel_find {s : State} {c : Nat} {x : Channel} (f : Channel → Channel) (hf : ∀ y, (f y).c = y.c) (h : s.channels.find? (fun y => y.c == c) = some x) :
    (s.setChannel c f).channels.find? (fun y => y.c == c) = some (f x) := by
  have hb := List.find?_some h
  have hx : x.c = c := eq_of_beq hb
  have hany : (s.channels.any fun x => x.c == c) = true := List.any_eq_true.mpr ⟨x, List.mem_of_find?_eq_some h, hb⟩
  unfold State.setChannel
  rw [if_pos hany]
  show (s.channels.map fun x => if x.c = c then f x else x).find? (fun y => y.c == c) = some (f x)
  rw [find_map_key Channel.c _ (fun y => by split <;> simp [hf]), h]
  exact congrArg some (if_pos hx)

theorem setChannel_grinders (s : State) (c : Nat) (f : Channel → Channel) : (s.setChannel c f).grinders = s.grinders := by
  unfold State.setChannel
  split <;> rfl

/-- What a write at its home in device memory can change: the bytes with what is kept about them, and parked strands. -/
def OnlyMemory (s t : State) : Prop :=
  t = { s with mem := t.mem, oldCode := t.oldCode, relMarks := t.relMarks, reserved := t.reserved, poison := t.poison, strands := t.strands }

theorem onlyMemory_refl (s : State) : OnlyMemory s s := rfl

theorem OnlyMemory.trans {s t u : State} (h1 : OnlyMemory s t) (h2 : OnlyMemory t u) : OnlyMemory s u := by
  unfold OnlyMemory at *
  rw [h2, h1]

theorem OnlyMemory.grinders {s t : State} (h : OnlyMemory s t) : t.grinders = s.grinders := by
  unfold OnlyMemory at h
  rw [h]

theorem OnlyMemory.nvqs {s t : State} (h : OnlyMemory s t) : t.nvqs = s.nvqs := by
  unfold OnlyMemory at h
  rw [h]

theorem noteCode_onlyMemory (s : State) (pa n : Nat) : OnlyMemory s (s.noteCode pa n) := by
  unfold State.noteCode OnlyMemory
  split <;> rfl

theorem writeHome_onlyMemory (s : State) (uid pa : Nat) (bs : List Byte) : OnlyMemory s (s.writeHome uid 0 pa bs) := by
  have hnote := noteCode_onlyMemory { s with relMarks := s.relMarks.filter fun m => !(m.lies uid 0 pa bs.length) } pa bs.length
  refine OnlyMemory.trans (t := { s with relMarks := s.relMarks.filter fun m => !(m.lies uid 0 pa bs.length) }) rfl (hnote.trans ?_)
  rfl

theorem grindOne_grinders (s : State) (b : GBlock) (f e : Nat) : (s.grindOne b f e).1.grinders = s.grinders := by
  unfold State.grindOne State.writePoison
  exact (writeHome_onlyMemory s 0 _ _).grinders

theorem foldl_keeps {α σ β : Type} (g : σ → β) (f : σ → α → σ) (hf : ∀ x a, g (f x a) = g x) (l : List α) (x : σ) : g (l.foldl f x) = g x := by
  induction l generalizing x with
  | nil => rfl
  | cons a l ih => exact (ih (f x a)).trans (hf x a)

/-- One element of a slice of a block (R287), with whether a source of it or of one before it is poisoned. -/
def sliceStep (b : GBlock) (f done : Nat) (x : State × Bool) (k : Nat) : State × Bool :=
  let y := x.1.grindOne b f (done + k)
  (y.1, x.2 || y.2)

/-- What a refresh that falls due does to a channel (R288, R289). -/
def refreshDue (x : Channel) : Channel :=
  if x.compute then (if x.postponed < 4 then { x with postponed := x.postponed + 1 } else { x.refresh x.postponed with postponed := 1 })
  else { x.refresh (x.postponed + 1) with postponed := 0 }

theorem refreshDue_c (x : Channel) : (refreshDue x).c = x.c := by
  unfold refreshDue
  split
  · split <;> rfl
  · rfl

/-- R277: a REDC whose block passes the checks and whose buffers translate into one stack with room queues the block there. -/
theorem redcQueue_queues {s s3 s4 s5 : State} {st : Strand} {pa : Nat} {bs : List Byte} {srcs : List (List Xlat)} {dst fl : List Xlat} {g : GrindRec}
    (hg : GrindRec.of bs = g) (href : g.refused = false)
    (hsrcs : (s.setSt st.sid fun x => { x with redc := some (st.seq, bs) }).grindAll st (g.count * grindBytes g.op) g.srcs = (s3, .ok srcs))
    (hdst : s3.grindPages st g.dst (4 * g.count) true = (s4, .ok dst)) (hfl : s4.grindPages st g.flag 4 true = (s5, .ok fl))
    (hpages : ∀ y ∈ dst ++ srcs.flatten, y.loc = 0 ∧ stackOf y.pa = stackOf (((dst ++ srcs.flatten).headD {}).pa))
    (hroom : (s5.grinders.getD (stackOf (((dst ++ srcs.flatten).headD {}).pa)) {}).queue.length +
      (if (s5.grinders.getD (stackOf (((dst ++ srcs.flatten).headD {}).pa)) {}).running.isSome then 1 else 0) < Config.grinderBlocks) :
    s.redcQueue st pa bs = ({ (s5.setSt st.sid fun x => { x with redc := none }) with
      grinders := s5.grinders.modify (stackOf (((dst ++ srcs.flatten).headD {}).pa)) fun k => { k with queue := k.queue ++
        [{ op := g.op, n := g.n, count := g.count, srcs := srcs.map (·.map Xlat.page), dst := dst.map Xlat.page, srcOfs := g.srcs.map (· % 4096)
           dstOfs := g.dst % 4096, flag := (fl.headD {}).pa, flagval := BitVec.ofNat 32 g.flagval, block := pa, ctx := s5.ctxOf st }] } }, .next) := by
  have hout : ((dst ++ srcs.flatten).any fun x => x.loc != 0 || stackOf x.pa != stackOf (((dst ++ srcs.flatten).headD {}).pa)) = false := by
    rw [List.any_eq_false]
    intro y hy
    obtain ⟨h0, h1⟩ := hpages y hy
    rw [h0, h1]
    simp
  have hg5 : (s5.setSt st.sid fun x => { x with redc := none }).grinders = s5.grinders := rfl
  unfold State.redcQueue
  rw [hg]
  -- the translations are taken as given: the kernel need not run them to compare the matches on them
  obtain ⟨translate, htranslate⟩ : ∃ f, State.grindPages = f := ⟨_, rfl⟩
  obtain ⟨translateAll, htranslateAll⟩ : ∃ f, State.grindAll = f := ⟨_, rfl⟩
  rw [htranslate] at hdst hfl ⊢
  rw [htranslateAll] at hsrcs ⊢
  simp only [href, Bool.false_eq_true, if_false, hsrcs, hdst, hfl, hout, hg5, if_neg (Nat.not_le.mpr hroom)]

/-- Settles O37. -/
theorem grinderWords : Obligations.GrinderWords := by
  refine ⟨fun w s sid s2 x s3 srcs s4 dst s5 fl => ?_, fun s k b rest hr hq => ?_, fun s k b done bad upto hr hlo hhi => ?_, fun s k b done bad hr hd => ?_,
    fun s c x hc hx => ?_, fun s c x hc hx => ?_⟩
  · dsimp only
    intro hG hva hal hacc hredc hrel hclear hpoison href hsrcs hdst hfl hpages hroom
    refine exec_of_each (f := .next) hG rfl ?_
    have hsid := goes_sid hG
    generalize hst : (s.onWait w sid).st sid = st at *
    generalize hv : (s.onWait w sid).ea st 0xB6 w = va at *
    have htop : fieldN va.toNat 60 4 = 0 := by
      unfold fieldN
      rw [Nat.shiftRight_eq_div_pow, Nat.div_eq_of_lt hva, Nat.zero_mod]
    have hheld : (st.redc.bind fun r => if r.1 = st.seq then some r.2 else none) = none := by
      cases hr : st.redc with
      | none => rfl
      | some r => exact if_neg (hredc r hr)
    dsimp only
    rw [if_neg (not_not.mpr htop), if_neg (not_not.mpr hal), hsid, hacc]
    dsimp only
    rw [hheld]
    dsimp only
    rw [hrel, hclear, hpoison, if_neg (by decide), if_neg Bool.false_ne_true]
    rw [redcQueue_queues rfl href (by rw [hsid]; exact hsrcs) hdst hfl hpages hroom, hsid]
  · refine congrArg Host.Outcome.next ?_
    dsimp only
    rw [hr, hq]
  · refine ⟨_, rfl, ?_⟩
    rw [hr]
    dsimp only
    rw [if_neg (by omega)]
    refine ⟨((List.range (upto - done)).foldl (sliceStep b s.nextId done) ({ s with nextId := s.nextId + 1 }, bad)).2, ?_⟩
    refine (foldl_keeps State.grinders _ (fun x a => setChannel_grinders x a _) _ _).trans ?_
    exact congrArg (List.modify · k _) (foldl_keeps (fun x : State × Bool => x.1.grinders) (sliceStep b s.nextId done) (fun x a => grindOne_grinders x.1 b _ _) _ _)
  · refine congrArg Host.Outcome.next ?_
    rw [hr]
    dsimp only
    rw [if_neg (Nat.not_lt.mpr hd)]
  · refine ⟨_, rfl, ?_⟩
    rw [if_pos hc]
    exact setChannel_find _ (fun _ => rfl) hx
  · refine ⟨_, rfl, ?_⟩
    rw [if_neg (Nat.not_le.mpr hc)]
    refine (setChannel_find refreshDue refreshDue_c hx).trans (congrArg some ?_)
    unfold refreshDue
    cases hcomp : x.compute with
    | false => simp [hcomp, Channel.refresh]
    | true =>
      by_cases hp : x.postponed < 4
      · simp [hp]
      · simp [hcomp, hp, Channel.refresh]

-- storage queues

theorem fillSegs_onlyMemory (s : State) (segs : List (Nat × Nat)) (bs : List Byte) : OnlyMemory s (s.fillSegs segs bs) := by
  induction segs generalizing s bs with
  | nil => exact onlyMemory_refl s
  | cons x xs ih =>
    unfold State.fillSegs
    split
    · exact onlyMemory_refl s
    · exact (writeHome_onlyMemory s 0 x.1 _).trans (ih _ _)

theorem putLines_onlyMemory (s : State) (ctx va : Nat) (ls : List (List (Byte × Bool))) : OnlyMemory s (s.putLines ctx va ls) := by
  induction ls generalizing s va with
  | nil => exact onlyMemory_refl s
  | cons l ls ih =>
    unfold State.putLines
    refine OnlyMemory.trans ?_ (ih _ _)
    split
    · dsimp only
      split
      · exact (writeHome_onlyMemory s 0 _ _).trans rfl
      · exact writeHome_onlyMemory s 0 _ _
    · exact onlyMemory_refl s

theorem foldl_onlyMemory {α : Type} (f : State → α → State) (hf : ∀ s a, OnlyMemory s (f s a)) (l : List α) (s : State) : OnlyMemory s (l.foldl f s) := by
  induction l generalizing s with
  | nil => exact onlyMemory_refl s
  | cons a l ih => exact (hf s a).trans (ih _)

theorem nvCrc_onlyMemory (s : State) (d : NvQueue) (c : NvCmd) (data : List Byte) : OnlyMemory s (s.nvCrc d c data).1 := by
  have hput : ∀ bs, OnlyMemory s ((crcPlaces d.crcbase (nvRange c.entry d.lbash).1 bs).foldl
      (fun (s : State) (x : Nat × Word) => s.writeHome 0 0 x.1 (leBytes 4 x.2.toNat)) s) :=
    fun bs => foldl_onlyMemory _ (fun s x => writeHome_onlyMemory s 0 _ _) _ s
  unfold State.nvCrc
  dsimp only
  split
  · exact onlyMemory_refl s
  · split
    · exact hput _
    · exact onlyMemory_refl s
    · exact hput _
    · exact onlyMemory_refl s

theorem nvToken_onlyMemory (s : State) (c : NvCmd) (cstat : BitVec 8) (nvst : BitVec 15) : OnlyMemory s (s.nvToken c cstat nvst) := by
  unfold State.nvToken
  dsimp only
  split
  · exact OnlyMemory.trans (t := s.endToken c.sid c.tok cstat (cstat != 0) nvst) rfl (putLines_onlyMemory _ _ _ _)
  · rfl

theorem setNvq_find {s : State} {q : Nat} {d : NvQueue} (f : NvQueue → NvQueue) (hf : ∀ x, (f x).q = x.q) (h : s.nvqs.find? (fun x => x.q == q) = some d) :
    (s.setNvq q f).nvqs.find? (fun x => x.q == q) = some (f d) := by
  have hb := List.find?_some h
  show (s.nvqs.map fun x => if x.q = q then f x else x).find? (fun x => x.q == q) = some (f d)
  rw [find_map_key NvQueue.q _ (fun x => by split <;> simp [hf]), h]
  exact congrArg some (if_pos (eq_of_beq hb))

/-- Settles O38. -/
theorem storageQueueWords : Obligations.StorageQueueWords := by
  refine ⟨fun w s sid d s2 x => ?_, fun s q d c status data hd hc hlen hfull => ⟨_, rfl, ?_⟩, fun s q d hd => ?_⟩
  · dsimp only
    intro hG hq hlive hctx htop hal hacc hclear hpoison hop hrel hplace
    have hsid := goes_sid hG
    generalize hst : (s.onWait w sid).st sid = st at *
    have hop' : [0, 1, 2, 8, 9].contains (nvOp (s2.mem.bytes x.pa 64)) = true := by simpa using hop
    have htop' : fieldN (((s.onWait w sid).ea st 0xB7 w)).toNat 60 4 = 0 := by
      unfold fieldN
      rw [Nat.shiftRight_eq_div_pow, Nat.div_eq_of_lt htop, Nat.zero_mod]
    have hone : ∀ r, s2.nvCheck st d (s2.mem.bytes x.pa 64) = r → (s.onWait w sid).nvsqOne st w = match r with
        | (s, .page va wr) => (s, .park (.page va wr false))
        | (s, .bad c) => ((s.takeToken sid (tkOf w.d) 3 true).endToken sid (tkOf w.d) 1 true c, .next)
        | (s, .ok segs) => (s.nvSubmit st d (tkOf w.d) (s2.mem.bytes x.pa 64) segs, .next) := by
      intro r hr
      unfold State.nvsqOne
      simp only [if_neg (Nat.not_lt.mpr hq), hlive, hctx, htop', hal, hsid, hacc, hclear, hpoison, hop', hrel, decide_eq_false (Nat.not_le.mpr hplace), hr,
        ne_eq, not_true_eq_false, Bool.not_true, Bool.or_self, Bool.false_eq_true, if_false] <;> rfl
    exact ⟨fun u segs h => exec_of_each (f := .next) hG rfl (by rw [hst]; exact hone _ h), fun u c h => exec_of_each (f := .next) hG rfl (by rw [hst]; exact hone _ h)⟩
  · rw [hd]
    dsimp only
    rw [hc]
    dsimp only
    have hdata : (decide (data.length > if nvOp c.entry = 2 then nvLen c.entry d.lbash else 0) ||
        (status == 0 && data.length != if nvOp c.entry = 2 then nvLen c.entry d.lbash else 0)) = false := by
      rw [decide_eq_false (Nat.not_lt.mpr hlen), Bool.false_or]
      cases hs : status == 0 with
      | false => rfl
      | true => rw [hfull (eq_of_beq hs)]; simp
    rw [if_neg (ne_true_of_eq_false hdata)]
    have hcrc : ∀ u : State, OnlyMemory u (if status = 0 ∨ nvOp c.entry ≠ 2 then u.nvCrc d c data else (u, false)).1 := by
      intro u
      split
      · exact nvCrc_onlyMemory u d c data
      · exact onlyMemory_refl u
    rw [(nvToken_onlyMemory _ _ _ _).nvqs]
    refine ⟨_, setNvq_find _ (fun _ => rfl) ?_, rfl, rfl⟩
    rw [(hcrc _).nvqs, (writeHome_onlyMemory _ _ _ _).nvqs]
    show (s.fillSegs c.segs data).nvqs.find? _ = _
    rw [(fillSegs_onlyMemory s c.segs data).nvqs]
    exact hd
  · refine congrArg Host.Outcome.next ?_
    rw [hd]

end Sys2Proof.Proofs
end

section
/-! SUPPORT. System registers, invalidation and page service (O39, O40). -/

namespace Sys2Proof.Proofs

open Sys2Proof Sys2Proof.Machine Sys2Proof.Safety Sys2Proof.Laws

/-- A SYSW to a register of the strand itself (R317). -/
theorem sysw_own {w : Ins} {s : State} {sid : Nat} {f : Strand → Strand} {g : TrapRegs} (hG : Goes 0xC3 w s sid) (hsid : ∀ x, (f x).sid = x.sid) (hpc : ∀ x, (f x).pc = x.pc)
    (hseq : ∀ x, (f x).seq = x.seq) (htr : ∀ x : Strand, x.tr = (s.st sid).tr → (f x).tr = g)
    (hb : exec (.sysw w) s = .next (((s.onWait w sid).setSt sid f).flow sid w .next)) :
    Completes (.sysw w) s fun t => WentOn s t sid w ∧ (t.st sid).tr = g := by
  have hs := goes_strand? hG
  have hst : ((s.onWait w sid).setSt sid f).st sid = f ((s.onWait w sid).st sid) := setSt_st_same _ sid f hsid hs
  obtain ⟨y, z, q, ha⟩ := goes_st hG
  refine ⟨_, hb, ?_⟩
  show WentOn s (((s.onWait w sid).setSt sid f).retire sid w) sid w ∧ ((((s.onWait w sid).setSt sid f).retire sid w).st sid).tr = g
  rw [WentOn, retire_st w (setSt_isSome f hsid hs), hst]
  refine ⟨⟨?_, ?_⟩, htr _ (by rw [ha]; rfl)⟩
  · rw [hpc, goes_pc hG]
  · rw [hseq, goes_seq hG]

theorem not_range {a : Word} {n : Nat} (hlo : 1 ≤ a.toNat) (hhi : a.toNat ≤ n) : ¬(a = 0 ∨ a.toNat > n) := by
  rintro (rfl | h)
  · exact absurd hlo (by decide)
  · omega

/-- Settles O39. -/
theorem systemWords : Obligations.SystemWords := by
  refine ⟨fun w s sid => ?_, fun s ctx range hb => ⟨_, rfl, ?_⟩⟩
  · dsimp only
    intro hG
    have hsid := goes_sid hG
    refine ⟨fun hn hf => exec_of_each (f := .next) hG rfl ?_, fun hw => ⟨fun hn hf => ?_, fun hn hf => ?_, fun hn hlo hhi => ?_, fun hn hlo hhi => ?_⟩⟩
    · dsimp only
      rw [hf, decide_eq_true hn]
      rfl
    · rw [hn] at hw
      refine sysw_own (f := fun x => { x with tr := { x.tr with tinfo := (s.onWait w sid).src ((s.onWait w sid).st sid) w w.a } }) hG (fun _ => rfl) (fun _ => rfl) (fun _ => rfl)
        (fun x hx => by dsimp only; rw [hx]) (exec_of_each (f := .next) hG rfl ?_)
      simp only [hf, hn, hw, hsid, Bool.false_and, Bool.not_true, Bool.false_eq_true, if_false]
      rfl
    · rw [hn] at hw
      refine sysw_own (f := fun x => { x with tr := { x.tr with trpc := (s.onWait w sid).src64 ((s.onWait w sid).st sid) w w.a }, heldPc := none }) hG (fun _ => rfl) (fun _ => rfl)
        (fun _ => rfl) (fun x hx => by dsimp only; rw [hx]) (exec_of_each (f := .next) hG rfl ?_)
      simp only [hf, hn, hw, hsid, Bool.false_and, Bool.not_true, Bool.false_eq_true, if_false]
      rfl
    · refine exec_of_each (f := .next) hG rfl ?_
      have ha : ¬((w.imm.toNat % 256) ≥ 7 ∧ ((s.onWait w sid).src ((s.onWait w sid).st sid) w w.a = 0 ∨ ((s.onWait w sid).src ((s.onWait w sid).st sid) w w.a).toNat > 1000000)) :=
        fun h => not_range hlo hhi h.2
      dsimp only
      rw [if_neg ha, hw, hn]
      simp only [Nat.reduceLT, decide_false, Bool.and_false, Bool.not_true, Bool.false_eq_true, if_false]
    · refine exec_of_each (f := .next) hG rfl ?_
      have ha : ¬((w.imm.toNat % 256) ≥ 7 ∧ ((s.onWait w sid).src ((s.onWait w sid).st sid) w w.a = 0 ∨ ((s.onWait w sid).src ((s.onWait w sid).st sid) w w.a).toNat > 1000000)) :=
        fun h => not_range hlo hhi h.2
      dsimp only
      rw [if_neg ha, hw, hn]
      simp only [Nat.reduceLT, decide_false, Bool.and_false, Bool.not_true, Bool.false_eq_true, if_false]
  · rw [hb, if_neg Bool.false_ne_true]
    refine ⟨fun e he => (List.mem_filter.mp he).1, fun e he hc => List.mem_filter.mpr ⟨he, ?_⟩, fun e he hc => ?_⟩
    · simp [TlbEntry.named, hc]
    · simpa [TlbEntry.named, hc] using (List.mem_filter.mp he).2

-- firmware's answers to page faults

theorem noteCode_mem (s : State) (pa n : Nat) : (s.noteCode pa n).mem = s.mem := by
  unfold State.noteCode
  split <;> rfl

/-- A write of device memory at its home stores its bytes (R244). -/
theorem writeHome_mem (s : State) (uid pa : Nat) (bs : List Byte) : (s.writeHome uid 0 pa bs).mem = s.mem.store pa bs := by
  show ((State.noteCode { s with relMarks := s.relMarks.filter fun m => !(m.lies uid 0 pa bs.length) } pa bs.length).mem).store pa bs = _
  rw [noteCode_mem]

/-- What a serviced page does to a strand that waits for one at its word (R305). -/
def served (st : Strand) : Strand :=
  match st.park with
  | .page _ _ _ | .tile _ _ => { st with park := .none }
  | _ => st

theorem served_sid (st : Strand) : (served st).sid = st.sid := by
  unfold served
  split <;> rfl

theorem served_park (st : Strand) (va : Addr) (wr f : Bool) : (served st).park ≠ .page va wr f ∧ (served st).park ≠ .tile va wr := by
  unfold served
  split
  · exact ⟨Park.noConfusion, Park.noConfusion⟩
  · exact ⟨Park.noConfusion, Park.noConfusion⟩
  · rename_i hp ht
    exact ⟨fun h => hp _ _ _ h, fun h => ht _ _ h⟩

/-- A write of device memory leaves a strand as it is that waits neither for a line nor for a counter. -/
theorem writeHome_other {s : State} {sid : Nat} (uid pa : Nat) (bs : List Byte) (h : (s.strand? sid).isSome) (hw : ∀ l t m e, (s.st sid).park ≠ .waita l t m e)
    (he : ∀ va b l p m, (s.st sid).park ≠ .evwait va b l p m) : (s.writeHome uid 0 pa bs).st sid = s.st sid ∧ ((s.writeHome uid 0 pa bs).strand? sid).isSome := by
  obtain ⟨u, hu, hm⟩ := writeHome_zero s uid pa bs
  have hline : u.st sid = s.st sid := by
    rw [st_of_strands (t := u) (s := { s with strands := s.strands.map (lineWritten pa bs.length) }) hm sid, st_of_map (lineWritten_sid pa bs.length) h]
    unfold lineWritten
    split
    · rename_i l t m e hp
      exact absurd hp (hw l t m e)
    · rfl
  have husome : (u.strand? sid).isSome := by
    rw [strand?_of_strands (t := u) (s := { s with strands := s.strands.map (lineWritten pa bs.length) }) hm sid]
    unfold State.strand?
    dsimp only
    rw [find_map_key Strand.sid _ (lineWritten_sid pa bs.length), Option.isSome_map]
    exact h
  rw [hu]
  constructor
  · unfold State.rouse
    rw [st_of_map (fun x => by split <;> [split; skip] <;> rfl) husome, hline]
    split
    · rename_i va b l p m hp
      exact absurd hp (he va b l p m)
    · rfl
  · unfold State.rouse State.strand?
    dsimp only
    rw [find_map_key Strand.sid _ (fun x => by split <;> [split; skip] <;> rfl), Option.isSome_map]
    exact husome

/-- Settles O40. -/
theorem pageService : Obligations.PageService := by
  refine ⟨fun s pa entry hal htop => ⟨_, rfl, ?_⟩, fun s sid va wr f t hp hd => ?_, fun s sid va wr t hp hd => ?_, fun s sid id e t he hd => ?_,
    fun s o va wr t ho hwant hd => ?_, fun s c hc hf => ?_⟩
  · rw [if_neg (by omega)]
    refine ⟨fun hC => ?_, fun sid va wr f hp => ?_, fun st hst va wr f => ?_⟩
    · have hm : (s.writeHome 0 0 pa (leBytes 8 entry.toNat)).mem = s.mem.store pa (leBytes 8 entry.toNat) := writeHome_mem s 0 pa _
      have hlen : (leBytes 8 entry.toNat).length = 8 := length_leBytes 8 _
      dsimp only
      rw [hm]
      constructor
      · unfold Memory.num
        have hb := Memory.bytes_store s.mem pa (leBytes 8 entry.toNat) hC.mem
        rw [hlen] at hb
        rw [hb, ofLeBytes_leBytes]
        exact Nat.mod_eq_of_lt entry.isLt
      · intro a ha
        rw [Memory.get_store _ _ _ _ hC.mem, if_neg (by omega)]
    · have hs : (s.strand? sid).isSome := isSome_of_park (by rcases hp with hp | hp <;> rw [hp] <;> exact Park.noConfusion)
      obtain ⟨hst, hsome⟩ := writeHome_other (s := s) (sid := sid) 0 pa (leBytes 8 entry.toNat) hs (fun l t m e h => by rcases hp with hp | hp <;> rw [hp] at h <;> exact Park.noConfusion h)
        (fun va b l p m h => by rcases hp with hp | hp <;> rw [hp] at h <;> exact Park.noConfusion h)
      refine (st_of_map (s := s.writeHome 0 0 pa (leBytes 8 entry.toNat)) served_sid hsome).trans ?_
      rw [hst]
      unfold served
      rcases hp with hp | hp <;> rw [hp]
    · obtain ⟨y, -, rfl⟩ := List.mem_map.mp hst
      exact served_park y va wr f
  · refine congrArg Host.Outcome.next ?_
    dsimp only
    rw [hp]
    dsimp only
    rw [hd]
  · refine congrArg Host.Outcome.next ?_
    dsimp only
    rw [hp]
    dsimp only
    rw [hd]
  · refine congrArg Host.Outcome.next ?_
    dsimp only
    rw [he]
    dsimp only
    rw [hd]
  · refine congrArg Host.Outcome.next ?_
    dsimp only
    rw [ho]
    dsimp only
    have hbind : (o.want.bind fun x => s.declined o.ctx x.1 x.2 false) = some t := by
      rw [hwant, Option.bind_some]
      exact hd
    rw [hbind]
  · refine congrArg Host.Outcome.next ?_
    dsimp only
    rw [hc]
    exact if_pos hf

end Sys2Proof.Proofs
end

section
/-! SUPPORT. Traps and the words of the handlers (O41, O42, O43). -/

namespace Sys2Proof.Proofs

open Sys2Proof Sys2Proof.Machine Sys2Proof.Safety Sys2Proof.Laws

/-- Settles O41. -/
theorem trapEntry : Obligations.TrapEntry := by
  intro s sid tr
  dsimp only
  intro hP hf ht hp hk
  obtain ⟨f, he, hsid, htraph, htr, hpc, hpreds, hrstk, htoks⟩ := trap_entry tr hP.strand hf ht hp hk
  have hst : (s.trap sid tr).st sid = f (s.st sid) := by rw [he]; exact setSt_st_same s sid f hsid hP.strand
  rw [hst]
  refine ⟨htr, htraph, hpc, hpreds, hrstk, htoks, ?_, ?_⟩ <;> rw [he] <;> rfl

-- ERET while a fault waits for room (R324, R326)

/-- ERET. -/
def eretWord : Ins := {}

/-- A strand in its trap handler, at its ERET, whose log holds one fault in firmware service that waits for room there and no entry: no fault is there to deliver again, but ERET waits for the one in service. -/
def eretWaits : State :=
  { State.reset with
    bundle := [1]
    strands := [{ sid := 1, uid := 1, traph := true, log := [{ late := true, exempt := true }] }]
    items := [{ uid := 1, ranks := [{ rows := [{}] }] }] }

theorem goes_eretWaits : Goes 0xC7 eretWord eretWaits 1 := ⟨by decide, by decide, ⟨by decide, by decide, by decide, .inr (by decide)⟩⟩

/-- ERET stays at its word there. -/
theorem exec_eretWaits : exec (.eret eretWord) eretWaits = .next (eretWaits.onWait eretWord 1) :=
  exec_of_each (f := .stay) goes_eretWaits rfl rfl

/-- Refutes O43: the statement has ERET leave the trap handler whenever no fault is left to deliver, but with a fault that waits for room in the log and is in firmware service ERET stays at its word, as in the state above, where the strand is still in its handler afterwards. -/
theorem not_handlerReturns : ¬ Obligations.HandlerReturns := by
  unfold Obligations.HandlerReturns
  intro h
  obtain ⟨heret, -⟩ := h eretWord eretWaits 1
  obtain ⟨hleaves, -⟩ := heret (.eret, false) (by simp) goes_eretWaits
  obtain ⟨t, ht, htraph, -⟩ := hleaves (by decide) (by decide) (by decide)
  obtain rfl : eretWaits.onWait eretWord 1 = t := Host.Outcome.next.inj (exec_eretWaits.symm.trans ht)
  exact absurd htraph (by decide)

end Sys2Proof.Proofs
end

section
/-! SUPPORT. The words of the pre-empt and resume handlers (O42): what drawing storage leaves of every register, and what a restored register reads. -/

namespace Sys2Proof.Proofs

open Sys2Proof Sys2Proof.Machine Sys2Proof.Safety Sys2Proof.Laws

/-- A register with the note gone whether a template holds it (R71). -/
def ownReg (v : VReg) : VReg := { v with tref := false }

/-- The registers of an item, whoever holds their storage. -/
def itemReg (q k i : Nat) (it : Item) : VReg := ownReg (((it.ranks.getD q {}).rows.getD k {}).reg i)

/-- Two states with the same strands and registers, saved ones too, whoever holds their storage (R68, R71). -/
structure SameRegs (s t : State) : Prop where
  strands : t.strands = s.strands
  regs : ∀ u q k i, itemReg q k i (t.it u) = itemReg q k i (s.it u)
  saved : ∀ u, (t.it u).saved = (s.it u).saved
  number : ∀ u, (t.it u).number = (s.it u).number

theorem sameRegs_refl (s : State) : SameRegs s s := ⟨rfl, fun _ _ _ _ => rfl, fun _ => rfl, fun _ => rfl⟩

theorem SameRegs.trans {s t u : State} (h1 : SameRegs s t) (h2 : SameRegs t u) : SameRegs s u :=
  ⟨h2.strands.trans h1.strands, fun x q k i => (h2.regs x q k i).trans (h1.regs x q k i), fun x => (h2.saved x).trans (h1.saved x),
    fun x => (h2.number x).trans (h1.number x)⟩

theorem SameRegs.st {s t : State} (h : SameRegs s t) (b : Nat) : t.st b = s.st b := st_of_strands h.strands b

/-- What a register reads does not depend on who holds its storage. -/
theorem laneOf_of_ownReg {x y : VReg} (h : ownReg x = ownReg y) (item : Word) (L : Nat) : x.laneOf item L = y.laneOf item L := by
  show (ownReg x).laneOf item L = (ownReg y).laneOf item L
  rw [h]

theorem SameRegs.reg {s t : State} (h : SameRegs s t) (st : Strand) (i : Nat) : ownReg ((t.rowOf st).reg i) = ownReg ((s.rowOf st).reg i) := by
  cases hf : st.isFrame with
  | true => rw [rowOf_frame t _ hf, rowOf_frame s _ hf]
  | false =>
    rw [rowOf_item t _ hf, rowOf_item s _ hf]
    exact h.regs st.uid st.prank st.row i

/-- A row with the notes gone whether a template holds its registers. -/
def ownRow (w : Row) : Row := { w with regs := w.regs.map ownReg }

theorem ownRow_reg (w : Row) (i : Nat) : (ownRow w).reg i = ownReg (w.reg i) := getD_map w.regs ownReg i {}

theorem owned_reg (r : Rank) (k i : Nat) : ownReg ((r.owned.rows.getD k {}).reg i) = ownReg ((r.rows.getD k {}).reg i) := by
  have h1 : (Rank.owned r).rows.getD k {} = ownRow (r.rows.getD k {}) := getD_map r.rows ownRow k {}
  rw [h1, ownRow_reg]
  rfl

theorem taking_reg (it : Item) (a : Bool) (p q k i : Nat) : itemReg q k i (it.taking a p) = itemReg q k i it := by
  unfold itemReg
  rcases (taking_ranks it a p q).2 with h | h
  · rw [h]
  · rw [h]; exact owned_reg _ _ _

theorem takeover_sameRegs (s : State) (uid p : Nat) : SameRegs s (s.takeover uid p) := by
  rcases takeover_cases s uid p with h | ⟨a, h⟩
  · rw [h]; exact sameRegs_refl s
  · rw [h]
    exact ⟨rfl, fun u q k i => setIt_keeps (itemReg q k i) s uid (fun it => it.taking a p) (fun _ => rfl) (fun it => taking_reg it a p q k i) u,
      setIt_keeps Item.saved s uid (fun it => it.taking a p) (fun _ => rfl) (fun _ => rfl),
      setIt_keeps Item.number s uid (fun it => it.taking a p) (fun _ => rfl) (fun _ => rfl)⟩

theorem handover_sameRegs (s : State) (core : Nat) (tm : Option Nat) : SameRegs s (s.handover core tm) := by
  unfold State.handover
  split
  · exact sameRegs_refl s
  · generalize List.filter _ _ = l
    induction l generalizing s with
    | nil => exact sameRegs_refl s
    | cons x l ih => exact (takeover_sameRegs s _ _).trans (ih _)

/-- Drawing storage for a change makes the change, from a state and into one with the same registers (R67). -/
theorem grow_between {s t : State} {uid p : Nat} {f : State → State} (h : s.grow uid p f = some t) :
    ∃ a, (a = s ∨ a = s.takeover uid p) ∧ SameRegs (f a) t := by
  unfold State.grow at h
  dsimp only at h
  split at h
  · cases h
    refine ⟨s, .inl rfl, ?_⟩
    unfold State.handedOver
    split
    · exact handover_sameRegs _ _ _
    · exact sameRegs_refl _
  · split at h
    · cases h
      exact ⟨_, .inr rfl, sameRegs_refl _⟩
    · cases h

-- restoring registers

theorem getLsbD_bitAt (b : BitVec 32) (L : Nat) (on : Bool) (hL : L < 32) :
    ((b &&& ~~~ BitVec.ofNat 32 (2 ^ L)) ||| (if on then BitVec.ofNat 32 (2 ^ L) else 0)).getLsbD L = on := by
  have hbit : (BitVec.ofNat 32 (2 ^ L)).getLsbD L = true := by
    rw [BitVec.getLsbD_ofNat, Nat.testBit_two_pow_self, decide_eq_true hL]
    rfl
  rw [BitVec.getLsbD_or, BitVec.getLsbD_and, BitVec.getLsbD_not, hbit]
  cases on with
  | true => rw [if_pos rfl, hbit, Bool.or_true]
  | false => simp

/-- Restoring a register writes one to the strand's row that reads, in the strand's lane, as the saved one (R326, R339). -/
theorem restoreReg_eq (s : State) (st : Strand) (i : Nat) (hL : st.lane < 32) : ∃ v : VReg,
    s.restoreReg st i = s.setRow st (fun row => row.setReg i v) ∧
      v.laneOf (s.it st.uid).number st.lane = (s.savedRegOf st i).laneOf (s.it st.uid).number st.lane := by
  refine ⟨_, rfl, ?_⟩
  split
  · rfl
  · unfold VReg.laneOf
    refine Prod.ext ?_ (Prod.ext ?_ ?_)
    · show ((List.range 32).map _).getD st.lane 0 = _
      rw [List.getD_eq_getElem _ _ (by simpa using hL)]
      simp
    · exact getLsbD_bitAt _ _ _ hL
    · exact getLsbD_bitAt _ _ _ hL

theorem setRow_of_kept {s : State} {x y : Strand} (h : Kept x y) (f : Row → Row) : s.setRow x f = s.setRow y f := by
  rw [h]
  rfl

/-- What restoring registers of a strand does: it stands as it stood, each register named reads as saved in its lane, and what is saved stays. -/
structure Restores (s t : State) (sid : Nat) (st : Strand) (regs : List Nat) : Prop where
  stands : Stands s t sid
  lanes : ∀ i ∈ regs, ((t.rowOf (t.st sid)).reg i).laneOf (s.it st.uid).number st.lane = (s.savedRegOf st i).laneOf (s.it st.uid).number st.lane
  others : ∀ i, i ∉ regs → (t.rowOf (t.st sid)).reg i = (s.rowOf (s.st sid)).reg i

theorem restore_fold {s : State} {sid : Nat} {st : Strand} (regs : List Nat) (hP : Placed s sid) (hk : Kept st (s.st sid)) :
    Restores s (regs.foldl (fun s i => s.restoreReg st i) s) sid st regs := by
  induction regs generalizing s with
  | nil => exact ⟨stands_refl hP, fun i hi => (List.not_mem_nil hi).elim, fun _ _ => rfl⟩
  | cons i is ih =>
    obtain ⟨v, he, hv⟩ := restoreReg_eq s st i (by rw [← hk.lane]; exact hP.lane)
    rw [List.foldl_cons, he, setRow_of_kept hk]
    have hstands := setRow_stands hP fun row => row.setReg i v
    have hrow := setRow_row hP fun row => row.setReg i v
    have hnum : ((s.setRow (s.st sid) fun row => row.setReg i v).it st.uid).number = (s.it st.uid).number := setRow_number _ _ _ _
    have hsaved : ∀ j, (s.setRow (s.st sid) fun row => row.setReg i v).savedRegOf st j = s.savedRegOf st j := by
      intro j
      unfold State.savedRegOf
      rw [setRow_keeps Item.saved (fun _ _ _ _ => rfl)]
    obtain ⟨h1, h2, h3⟩ := ih hstands.placed (kept_trans hk hstands.kept)
    rw [hnum] at h2
    refine ⟨hstands.trans h1, fun j hj => ?_, fun j hj => ?_⟩
    · by_cases hmem : j ∈ is
      · rw [h2 j hmem, hsaved]
      · obtain rfl : j = i := (List.mem_cons.mp hj).resolve_right hmem
        rw [h3 j hmem, hrow, setReg_reg, if_pos rfl]
        exact hv
    · rw [h3 j (fun h => hj (List.mem_cons_of_mem i h)), hrow, setReg_reg, if_neg fun h : j = i => hj (by rw [h]; exact List.mem_cons_self)]

/-- Registers that have been restored, drawing storage (R67, R339). -/
theorem restoreRegs_lanes {s t : State} {sid : Nat} {regs : List Nat} (hP : Placed s sid) (h : s.restoreRegs (s.st sid) regs = some t) :
    Stands s t sid ∧ ∀ i ∈ regs, ((t.rowOf (t.st sid)).reg i).laneOf (s.it (s.st sid).uid).number (s.st sid).lane =
      (s.savedRegOf (s.st sid) i).laneOf (s.it (s.st sid).uid).number (s.st sid).lane := by
  refine ⟨grow_stands hP h fun u hu hst => ?_, fun i hi => ?_⟩
  · exact (restore_fold regs hu (by rw [hst]; exact Kept.refl _)).stands
  · obtain ⟨a, ha, hsame⟩ := grow_between h
    have hPa : Placed a sid ∧ a.st sid = s.st sid ∧ SameRegs s a := by
      rcases ha with rfl | rfl
      · exact ⟨hP, rfl, sameRegs_refl _⟩
      · obtain ⟨h1, h2, -⟩ := takeover_placed (s.st sid).uid (s.st sid).prank hP
        exact ⟨h1, h2, takeover_sameRegs _ _ _⟩
    obtain ⟨hPa, hst, hregs⟩ := hPa
    have hr := (restore_fold regs hPa (show Kept (s.st sid) (a.st sid) by rw [hst]; exact Kept.refl _)).lanes i hi
    have hsaved : a.savedRegOf (s.st sid) i = s.savedRegOf (s.st sid) i := by
      unfold State.savedRegOf
      rw [hregs.saved]
    rw [hregs.number, hsaved] at hr
    rw [← hr, hsame.st]
    exact laneOf_of_ownReg (hsame.reg _ i) _ _

-- the words

/-- What CSAVE notes of the registers of its mask (R331). -/
def csaveRegs (w : Ins) (s : State) (sid : Nat) (x : Strand) : Strand :=
  { x with csaved := ((maskRegs w).map fun i => (i, s.vreg (s.st sid) i, s.isEmpty (s.st sid) i, s.isPoisoned (s.st sid) i)) ++ x.csaved.filter fun y => !(maskRegs w).contains y.1 }

theorem find_map_key_self {β : Type} (g : Nat → β) {l : List Nat} {i : Nat} (h : i ∈ l) : (l.map fun i => (i, g i)).find? (fun x => x.1 == i) = some (i, g i) := by
  induction l with
  | nil => exact (List.not_mem_nil h).elim
  | cons j l ih =>
    rw [List.map_cons]
    by_cases hj : j = i
    · subst hj
      exact List.find?_cons_of_pos (beq_self_eq_true j)
    · rw [List.find?_cons_of_neg (by simpa using hj)]
      exact ih ((List.mem_cons.mp h).resolve_left fun he => hj he.symm)

theorem csaveRegs_find (w : Ins) (s : State) (sid : Nat) (x : Strand) {i : Nat} (hi : i ∈ maskRegs w) :
    (csaveRegs w s sid x).csaved.find? (fun x => x.1 == i) = some (i, s.vreg (s.st sid) i, s.isEmpty (s.st sid) i, s.isPoisoned (s.st sid) i) := by
  unfold csaveRegs
  rw [List.find?_append, find_map_key_self _ hi]
  rfl

theorem goes_isEmpty {op : Nat} {w : Ins} {s : State} {sid : Nat} (hG : Goes op w s sid) (i : Nat) :
    (s.onWait w sid).isEmpty ((s.onWait w sid).st sid) i = s.isEmpty (s.st sid) i := by
  obtain ⟨y, z, q, ha⟩ := goes_st hG
  rw [ha, onWait_eq]
  rfl

theorem goes_isPoisoned {op : Nat} {w : Ins} {s : State} {sid : Nat} (hG : Goes op w s sid) (i : Nat) :
    (s.onWait w sid).isPoisoned ((s.onWait w sid).st sid) i = s.isPoisoned (s.st sid) i := by
  obtain ⟨y, z, q, ha⟩ := goes_st hG
  rw [ha, onWait_eq]
  rfl

theorem goes_number {op : Nat} {w : Ins} {s : State} {sid : Nat} (hG : Goes op w s sid) :
    ((s.onWait w sid).it ((s.onWait w sid).st sid).uid).number = (s.it (s.st sid).uid).number := by
  obtain ⟨y, z, q, ha⟩ := goes_st hG
  rw [ha, onWait_eq]
  rfl

theorem goes_savedRegOf {op : Nat} {w : Ins} {s : State} {sid : Nat} (hG : Goes op w s sid) (i : Nat) :
    (s.onWait w sid).savedRegOf ((s.onWait w sid).st sid) i = s.savedRegOf (s.st sid) i := by
  obtain ⟨y, z, q, ha⟩ := goes_st hG
  rw [ha, onWait_eq]
  rfl

/-- What CREST notes of the registers it has restored (R326). -/
def crested (w : Ins) (x : Strand) : Strand := { x with handlerWrote := maskRegs w ++ x.handlerWrote }

/-- PDONE of a strand alone: it does its part, and its item is saved if that was the last (R331). -/
theorem pdone_of_flow {w : Ins} {s : State} {sid : Nat} {f : Flow} (hG : Goes 0xC6 w s sid)
    (hb : (if ((s.onWait w sid).st sid).phase ≠ .preempt then ((s.onWait w sid), Flow.trap ⟨0x0F, 6, 0, 0⟩) else ((s.onWait w sid), .park .pdone)) = (s.onWait w sid, f)) :
    exec (.pdone w) s = .next (((s.onWait w sid).flow sid w f).trySave (s.st sid).uid) := by
  show Host.Outcome.next (s.bundle.foldl (fun (t : State) x => t.trySave (s.st x).uid)
    (s.each 0xC6 w fun s st => if st.phase ≠ .preempt then (s, .trap ⟨0x0F, 6, 0, 0⟩) else (s, .park .pdone))) = _
  rw [each_go hG, hb, hG.bundle]
  rfl

/-- Settles O42. -/
theorem handlerWords : Obligations.HandlerWords := by
  intro w s sid
  dsimp only
  refine ⟨fun hG => ?_, fun hG hf => ?_, fun hG hf => ?_, fun hG hp => ?_, fun hG hp => ?_, fun hG hp hr => ?_, fun hG hp => ?_, fun hG hp => ?_, fun hG hp => ?_⟩
  · exact exec_of_each (f := .trap ⟨0x11, w.imm.toNat % 256, 0, 0⟩) hG rfl rfl
  · exact exec_of_each (f := .trap ⟨0x10, w.imm.toNat % 256, 0, 0⟩) hG rfl (by simp only [hf, if_true])
  · exact parks_of_each (p := .bpt (w.imm.toNat % 256)) hG rfl (by simp only [hf, Bool.false_eq_true, if_false]) rfl
  · have hs := goes_strand? hG
    have hst : ((s.onWait w sid).setSt sid (csaveRegs w (s.onWait w sid) sid)).st sid = csaveRegs w (s.onWait w sid) sid ((s.onWait w sid).st sid) :=
      setSt_st_same _ sid _ (fun _ => rfl) hs
    refine wentOn_of_each (u := (s.onWait w sid).setSt sid (csaveRegs w (s.onWait w sid) sid))
      (P := fun x => ∀ i ∈ maskRegs w, x.csaved.find? (fun x => x.1 == i) = some (i, s.vreg (s.st sid) i, s.isEmpty (s.st sid) i, s.isPoisoned (s.st sid) i))
      hG rfl ?_ (setSt_isSome _ (fun _ => rfl) hs) (by rw [hst]; exact goes_pc hG) (by rw [hst]; exact goes_seq hG) fun i hi => ?_
    · simp only [hp, goes_sid hG, ne_eq, not_true_eq_false, if_false]
      rfl
    · rw [hst, ← goes_vreg hG, ← goes_isEmpty hG, ← goes_isPoisoned hG]
      exact csaveRegs_find w _ sid _ hi
  · exact exec_of_each (f := .trap ⟨0x0F, 8, 0, 0⟩) hG rfl (if_pos hp)
  · obtain ⟨u, hu⟩ := Option.isSome_iff_exists.mp hr
    have hP1 := onWait_placed w hG.placed
    obtain ⟨hstands, hlanes⟩ := restoreRegs_lanes hP1 hu
    have hs := hstands.placed.strand
    have hst : (u.setSt sid (crested w)).st sid = crested w (u.st sid) := setSt_st_same u sid _ (fun _ => rfl) hs
    have hsome := setSt_isSome (crested w) (fun _ => rfl) hs
    refine ⟨_, exec_of_each (f := .next) (u := u.setSt sid (crested w)) hG rfl ?_, ⟨?_, ?_⟩, fun i hi => ?_⟩
    · simp only [hp, hu, goes_sid hG, ne_eq, not_true_eq_false, if_false]
      rfl
    · show (((u.setSt sid (crested w)).retire sid w).st sid).pc = _
      rw [retire_st w hsome, hst]
      show nextPc w (u.st sid).pc = _
      rw [hstands.kept.pc, goes_pc hG]
    · show (((u.setSt sid (crested w)).retire sid w).st sid).seq = _
      rw [retire_st w hsome, hst]
      show (u.st sid).seq + 1 = _
      rw [hstands.kept.seq, goes_seq hG]
    · show ((((u.setSt sid (crested w)).retire sid w).rowOf (((u.setSt sid (crested w)).retire sid w).st sid)).reg i).laneOf _ _ = _
      rw [retire_st w hsome, hst]
      have h := hlanes i hi
      rw [goes_number hG, goes_savedRegOf hG] at h
      exact h
  · exact exec_of_each (f := .trap ⟨0x0F, 9, 0, 0⟩) hG rfl (if_pos hp)
  · exact pdone_of_flow (f := .park .pdone) hG (if_neg (not_not.mpr hp))
  · exact pdone_of_flow (f := .trap ⟨0x0F, 6, 0, 0⟩) hG (if_pos hp)

end Sys2Proof.Proofs
end

section
/-! SUPPORT. Firmware's service of faults, and pre-emption (O44, O45). -/

namespace Sys2Proof.Proofs

open Sys2Proof Sys2Proof.Machine Sys2Proof.Safety Sys2Proof.Laws

/-- Settles O44. -/
theorem faultService : Obligations.FaultService := by
  intro s sid
  dsimp only
  refine ⟨fun n hp => ?_, fun n hp hd => ?_, fun f rest hs hf hx ha he hfaults => ?_, fun e id hf ha he => ?_⟩
  · refine congrArg Host.Outcome.next ?_
    dsimp only
    rw [hp]
    rfl
  · refine congrArg Host.Outcome.next ?_
    dsimp only
    rw [hp]
    exact if_pos hd
  · refine congrArg Host.Outcome.next ?_
    have hnone : (s.strand? sid).isNone = false := by
      rw [Option.isNone_eq_false_iff]
      exact hs
    dsimp only
    simp only [hnone, hf, hx, ha, he, hfaults, Bool.not_true, Bool.or_self, Bool.false_eq_true, if_false]
  · refine congrArg Host.Outcome.next ?_
    dsimp only
    simp only [hf, ha, he, Bool.not_true, Bool.or_self, Bool.false_eq_true, if_false]

-- pre-emption

/-- What the end of a watch leaves of a strand but its park (R266). -/
theorem waitaReturn_st {s : State} {sid : Nat} (hs : (s.strand? sid).isSome) :
    (∃ p, (s.waitaReturn sid).st sid = { (s.st sid) with park := p }) ∧ ((s.waitaReturn sid).strand? sid).isSome ∧ (s.waitaReturn sid).items = s.items := by
  unfold State.waitaReturn
  split
  · rename_i line t m e hp
    refine ⟨⟨.none, setPark_st (t := s.l1Drop (s.coreOf (s.st sid)) 0 line) .none hs⟩, ?_, rfl⟩
    exact setSt_isSome (t := s.l1Drop (s.coreOf (s.st sid)) 0 line) (fun st => { st with park := .none }) (fun _ => rfl) hs
  · exact ⟨⟨_, rfl⟩, hs, rfl⟩

/-- A strand as it takes PREEMPT and is to go on at an address (R330), with what the log holds back of it. -/
def preempted (held : List Machine.Acc) (pc : Addr) (x : Strand) : Strand :=
  { x.freeze.behindLog held with
    savedTr := x.tr, savedTraph := x.traph, savedPark := x.park.recorded, tr := { tcode := 0x12, trpc := x.pc }, traph := false, phase := .preempt
    park := .none, csaved := [], redc := none, replay := none, eretw := false, dooming := false, due := false, pc := pc }

theorem enterPreempt_eq (s : State) (sid : Nat) : s.enterPreempt sid = (s.waitaReturn sid).setSt sid
    (preempted ((s.waitaReturn sid).stuck sid) (((s.waitaReturn sid).it ((s.waitaReturn sid).st sid).uid).kernel.code +
      BitVec.ofNat 64 ((s.waitaReturn sid).it ((s.waitaReturn sid).st sid).uid).kernel.preemptofs)) := rfl

/-- A strand in its pre-empt handler (R330). -/
theorem enterPreempt_st {s : State} {sid : Nat} (hs : (s.strand? sid).isSome) : ((s.enterPreempt sid).st sid).tr = { tcode := 0x12, trpc := (s.st sid).pc } ∧
    ((s.enterPreempt sid).st sid).savedTr = (s.st sid).tr ∧ ((s.enterPreempt sid).st sid).savedTraph = (s.st sid).traph ∧
    ((s.enterPreempt sid).st sid).traph = false ∧ ((s.enterPreempt sid).st sid).phase = .preempt ∧
    ((s.enterPreempt sid).st sid).pc = (s.it (s.st sid).uid).kernel.code + BitVec.ofNat 64 (s.it (s.st sid).uid).kernel.preemptofs ∧
    (s.enterPreempt sid).items = s.items := by
  obtain ⟨⟨p, hp⟩, hsome, hitems⟩ := waitaReturn_st hs
  rw [enterPreempt_eq, setSt_st_same _ sid (preempted _ _) (fun _ => rfl) hsome, hp]
  refine ⟨rfl, rfl, rfl, rfl, rfl, ?_, hitems⟩
  show ((s.waitaReturn sid).it (s.st sid).uid).kernel.code + BitVec.ofNat 64 ((s.waitaReturn sid).it (s.st sid).uid).kernel.preemptofs = _
  rw [it_of_items hitems]

/-- The last of a sorted list after an insertion. -/
theorem insertBy_getLast? {α : Type} (key : α → Nat) (x : α) (m : List α) :
    (insertBy key x m).getLast? = if (m.all fun y => decide (key y < key x)) = true then some x else m.getLast? := by
  induction m with
  | nil => rfl
  | cons y ys ih =>
    unfold insertBy
    by_cases h : key x ≤ key y
    · rw [if_pos h, if_neg (by simp [Nat.not_lt.mpr h])]
      rfl
    · rw [if_neg h, List.all_cons, decide_eq_true (Nat.lt_of_not_le h), Bool.true_and, List.getLast?_cons, ih]
      cases ys with
      | nil => rfl
      | cons z zs => split <;> simp [List.getLast?_cons]

theorem mem_insertBy {α : Type} (key : α → Nat) (x z : α) (m : List α) : z ∈ insertBy key x m ↔ z = x ∨ z ∈ m := by
  induction m with
  | nil => simp [insertBy]
  | cons y ys ih =>
    unfold insertBy
    split
    · simp
    · rw [List.mem_cons, ih, List.mem_cons]
      tauto

theorem mem_sortBy {α : Type} (key : α → Nat) (z : α) (l : List α) : z ∈ sortBy key l ↔ z ∈ l := by
  induction l with
  | nil => rfl
  | cons x l ih =>
    show z ∈ insertBy key x (sortBy key l) ↔ _
    rw [mem_insertBy, ih, List.mem_cons]

/-- The one element of the greatest key comes last. -/
theorem sortBy_getLast? (key : Nat → Nat) {l : List Nat} {y : Nat} (hy : y ∈ l) (h : ∀ z ∈ l, z ≠ y → key z < key y) : (sortBy key l).getLast? = some y := by
  induction l with
  | nil => exact (List.not_mem_nil hy).elim
  | cons x l ih =>
    show (insertBy key x (sortBy key l)).getLast? = some y
    rw [insertBy_getLast?]
    have htail : ∀ z ∈ l, z ≠ y → key z < key y := fun z hz => h z (List.mem_cons_of_mem x hz)
    by_cases hmem : y ∈ l
    · rw [ih hmem htail]
      by_cases hx : x = y
      · rw [hx]
        split <;> rfl
      · rw [if_neg]
        rw [List.all_eq_true]
        intro hall
        have hlt : key y < key x := of_decide_eq_true (hall y ((mem_sortBy key y l).mpr hmem))
        have := h x List.mem_cons_self hx
        omega
    · obtain rfl : y = x := (List.mem_cons.mp hy).resolve_right hmem
      rw [if_pos]
      rw [List.all_eq_true]
      exact fun z hz => decide_eq_true (htail z ((mem_sortBy key z l).mp hz) fun he => hmem (he ▸ (mem_sortBy key z l).mp hz))

/-- The items that have ranks on a core, each once. -/
def uidsOn (l : List (Item × Nat × Rank)) (m : List Nat) : List Nat := l.foldl (fun l x => if l.contains x.1.uid then l else l ++ [x.1.uid]) m

theorem mem_uidsOn (l : List (Item × Nat × Rank)) (m : List Nat) (u : Nat) : u ∈ uidsOn l m ↔ u ∈ m ∨ ∃ x ∈ l, x.1.uid = u := by
  induction l generalizing m with
  | nil => simp [uidsOn]
  | cons x l ih =>
    show u ∈ uidsOn l (if m.contains x.1.uid then m else m ++ [x.1.uid]) ↔ _
    rw [ih]
    by_cases hc : x.1.uid ∈ m
    · rw [if_pos (by simpa using hc)]
      constructor
      · rintro (h | ⟨y, hy, he⟩)
        · exact .inl h
        · exact .inr ⟨y, List.mem_cons_of_mem x hy, he⟩
      · rintro (h | ⟨y, hy, he⟩)
        · exact .inl h
        · rcases List.mem_cons.mp hy with rfl | hy
          · exact .inl (he ▸ hc)
          · exact .inr ⟨y, hy, he⟩
    · rw [if_neg (by simpa using hc)]
      simp only [List.mem_append, List.mem_cons, exists_eq_or_imp]
      tauto

/-- Settles O45. -/
theorem preemption : Obligations.Preemption := by
  refine ⟨fun s uid sid => ?_, fun s uid hi hr hk => ?_, fun s uid d hd hdue hle => ?_, fun s core x y hx hy hne hall => ?_⟩
  · dsimp only
    intro hP hu hlives hfin hphase hres hk
    subst hu
    let F : Item → Item := fun it => { it with status := .preempting (s.nstime + (s.ctx (s.it (s.st sid).uid).ctx).pdead.toNat * 1000) false, pforced := 0 }
    have hit : (s.setIt (s.st sid).uid F).it (s.st sid).uid = F (s.it (s.st sid).uid) := setIt_it_same s _ F (fun _ => rfl) hP.item
    have hexec : exec (.preemptRequest (.item (s.st sid).uid)) s = .next ((s.setIt (s.st sid).uid F).enterPreempt sid) := by
      refine congrArg Host.Outcome.next ?_
      show s.preempt (s.st sid).uid = _
      have hsome : (s.item? (s.st sid).uid).isNone = false := by
        rw [Option.isNone_eq_false_iff]
        exact hP.item
      have hfilter : ((s.livesOf (s.st sid).uid).filter fun x => !(s.st x).isFinishing) = [sid] := by
        rw [hlives, List.filter_cons, hfin]
        rfl
      unfold State.preempt
      dsimp only
      rw [hsome, hres, if_neg (by decide), if_neg hk]
      show ((s.livesOf (s.st sid).uid).filter fun x => !(s.st x).isFinishing).foldl (fun (t : State) x => if (t.st x).phase = .resume then t.preemptResume x else t.enterPreempt x)
        (s.setIt (s.st sid).uid F) = _
      rw [hfilter]
      exact if_neg (by show (s.st sid).phase ≠ .resume; rw [hphase]; decide)
    obtain ⟨h1, h2, h3, h4, h5, h6, h7⟩ := enterPreempt_st (s := s.setIt (s.st sid).uid F) (sid := sid) hP.strand
    refine ⟨_, hexec, ?_, h1, h2, h3, h4, h5, h6.trans ?_⟩
    · rw [it_of_items h7, hit]
    · show ((s.setIt (s.st sid).uid F).it (s.st sid).uid).kernel.code + BitVec.ofNat 64 ((s.setIt (s.st sid).uid F).it (s.st sid).uid).kernel.preemptofs = _
      rw [hit]
  · refine congrArg Host.Outcome.next ?_
    show s.preempt uid = _
    unfold State.preempt
    dsimp only
    rw [Option.isNone_eq_false_iff.mpr hi, hr, if_neg (by decide), if_pos hk]
  · refine congrArg Host.Outcome.next ?_
    rw [hd]
    dsimp only
    rw [hdue, if_neg]
    simp [Nat.not_lt.mpr hle]
  · have hmem : ∀ z ∈ s.ranksOn core, z.1.uid ∈ uidsOn (s.ranksOn core) [] := fun z hz => (mem_uidsOn _ _ _).mpr (.inr ⟨z, hz, rfl⟩)
    have hof : ∀ u ∈ uidsOn (s.ranksOn core) [], ∃ z ∈ s.ranksOn core, z.1.uid = u := fun u hu => ((mem_uidsOn _ _ _).mp hu).resolve_left List.not_mem_nil
    have hlen : ¬ (uidsOn (s.ranksOn core) []).length < 2 := by
      intro hlt
      match hl : uidsOn (s.ranksOn core) [] with
      | [] => exact absurd (hl ▸ hmem x hx) List.not_mem_nil
      | [a] =>
        have h1 := hmem x hx
        have h2 := hmem y hy
        rw [hl, List.mem_singleton] at h1 h2
        exact hne (h1.trans h2.symm)
      | a :: b :: l => rw [hl] at hlt; simp at hlt
    have hstuck : ((uidsOn (s.ranksOn core) []).all fun u => (s.it u).status == .resident &&
        s.strands.any fun st => st.uid == u && !st.isFrame && (st.park == .storage || !st.owed.isEmpty)) = true := by
      rw [List.all_eq_true]
      intro u hu
      obtain ⟨z, hz, rfl⟩ := hof u hu
      obtain ⟨hres, ⟨st, hst, hu, hf, hp⟩, -⟩ := hall z hz
      rw [hres, show (s.strands.any fun st => st.uid == z.1.uid && !st.isFrame && (st.park == .storage || !st.owed.isEmpty)) = true from
        List.any_eq_true.mpr ⟨st, hst, by rw [hu, hf, hp]; simp⟩]
      rfl
    have hyoung : (sortBy (fun u => (s.it u).order) (uidsOn (s.ranksOn core) [])).getLast? = some y.1.uid :=
      sortBy_getLast? _ (hmem y hy) fun u hu hneq => by
        obtain ⟨z, hz, rfl⟩ := hof u hu
        obtain ⟨-, -, horder⟩ := hall z hz
        exact horder hneq
    refine congrArg Host.Outcome.next ?_
    show (if (uidsOn (s.ranksOn core) []).length < 2 || !((uidsOn (s.ranksOn core) []).all fun u => (s.it u).status == .resident &&
        s.strands.any fun st => st.uid == u && !st.isFrame && (st.park == .storage || !st.owed.isEmpty)) then s
      else s.forceSave ((sortBy (fun u => (s.it u).order) (uidsOn (s.ranksOn core) [])).getLastD 0) 2) = _
    rw [hstuck, decide_eq_false hlen, if_neg (by decide), List.getLastD_eq_getLast?, hyoung]
    rfl

end Sys2Proof.Proofs
end

section
/-! SUPPORT. Storage (O47): GEN, words whose results find none, and results that are owed until it is there. -/

namespace Sys2Proof.Proofs

open Sys2Proof Sys2Proof.Machine Sys2Proof.Safety Sys2Proof.Laws

-- GEN

theorem SameRegs.shape {s t : State} (h : SameRegs s t) (st : Strand) (i : Nat) : ((t.rowOf st).reg i).shape = ((s.rowOf st).reg i).shape := by
  show (ownReg ((t.rowOf st).reg i)).shape = (ownReg ((s.rowOf st).reg i)).shape
  rw [h.reg]

/-- The registers of a strand where a change of its row has drawn storage (R67). -/
theorem grow_setRow {s t : State} {sid : Nat} {F : Row → Row} (hP : Placed s sid)
    (h : s.grow (s.st sid).uid (s.st sid).prank (fun u => u.setRow (s.st sid) F) = some t) : Stands s t sid ∧
    ∃ a, Placed a sid ∧ a.st sid = s.st sid ∧ SameRegs s a ∧ SameRegs (a.setRow (s.st sid) F) t := by
  refine ⟨grow_stands hP h fun u hu hst => by rw [← hst]; exact setRow_stands hu F, ?_⟩
  obtain ⟨a, ha, hsame⟩ := grow_between h
  refine ⟨a, ?_⟩
  rcases ha with rfl | rfl
  · exact ⟨hP, rfl, sameRegs_refl _, hsame⟩
  · obtain ⟨h1, h2, -⟩ := takeover_placed (s.st sid).uid (s.st sid).prank hP
    exact ⟨h1, h2, takeover_sameRegs _ _ _, hsame⟩

/-- A row whose register has turned general with its values as they stand (R195). -/
def turned (item : Word) (d : Nat) (row : Row) : Row :=
  row.setReg d { (row.reg d) with shape := .general ((List.range 32).map ((row.reg d).shape.at item)), tref := false }

theorem turned_shape (item : Word) (d : Nat) (row : Row) : ((turned item d row).reg d).shape = .general ((List.range 32).map ((row.reg d).shape.at item)) := by
  unfold turned
  rw [setReg_reg, if_pos rfl]

theorem general_at (sh : Shape) (item : Word) {L : Nat} (hL : L < 32) : (Shape.general ((List.range 32).map (sh.at item))).at item L = sh.at item L := by
  show ((List.range 32).map (sh.at item)).getD L 0 = _
  rw [List.getD_eq_getElem _ _ (by simpa using hL)]
  simp

/-- GEN where the strand's register turns general (R195). -/
theorem turned_reads {s t : State} {sid d : Nat} (hP : Placed s sid)
    (h : t = s.setRow (s.st sid) (turned (s.it (s.st sid).uid).number d) ∨
      s.grow (s.st sid).uid (s.st sid).prank (fun u => u.setRow (s.st sid) (turned (s.it (s.st sid).uid).number d)) = some t) :
    Stands s t sid ∧ isGeneral ((t.rowOf (t.st sid)).reg d).shape = true ∧ t.vreg (t.st sid) d = s.vreg (s.st sid) d := by
  have hread : Stands s t sid ∧ ((t.rowOf (t.st sid)).reg d).shape = .general ((List.range 32).map (((s.rowOf (s.st sid)).reg d).shape.at (s.it (s.st sid).uid).number)) ∧
      (t.it (s.st sid).uid).number = (s.it (s.st sid).uid).number := by
    rcases h with rfl | h
    · refine ⟨setRow_stands hP _, ?_, setRow_number _ _ _ _⟩
      rw [setRow_row hP, turned_shape]
    · obtain ⟨hst, a, ha, hasid, hsa, hat⟩ := grow_setRow hP h
      refine ⟨hst, ?_, ?_⟩
      · rw [hat.shape, hat.st, ← hasid, setRow_row ha, turned_shape, hasid]
        exact congrArg (fun sh : Shape => Shape.general ((List.range 32).map (sh.at _))) (hsa.shape _ d)
      · rw [hat.number, setRow_number, hsa.number]
  obtain ⟨hst, hshape, hnum⟩ := hread
  refine ⟨hst, by rw [hshape]; rfl, ?_⟩
  unfold State.vreg
  rw [hshape, hst.kept.uid, hnum, hst.kept.lane]
  exact general_at _ _ hP.lane

/-- Whether GEN finds the register general already, in storage of the strand's own (R195). -/
def genDone (v : VReg) : Bool :=
  match v.shape with
  | .general _ => !v.tref
  | _ => false

theorem genDone_of {v : VReg} (hg : isGeneral v.shape = true) (ht : v.tref = false) : genDone v = true := by
  unfold isGeneral at hg
  unfold genDone
  cases hs : v.shape with
  | general ws => exact (congrArg Bool.not ht).trans rfl
  | _ =>
    rw [hs] at hg
    cases hg

theorem not_genDone {v : VReg} (h : isGeneral v.shape = false ∨ v.tref = true) : genDone v = false := by
  unfold isGeneral at h
  unfold genDone
  cases hs : v.shape with
  | general ws =>
    rw [hs] at h
    rcases h with h | h
    · cases h
    · exact (congrArg Bool.not h).trans rfl
  | _ => rfl

/-- A strand's part in GEN. -/
def genPart (w : Ins) (s : State) (st : Strand) : State × Flow :=
  let gen := fun (u : State) => u.setRow st (turned (s.it st.uid).number (vOf w.d))
  if genDone ((s.rowOf st).reg (vOf w.d)) then (s, .next)
  else if st.isFrame then (gen s, .next)
  else match s.grow st.uid st.prank gen with
    | some s => (s, .next)
    | none => (s, .park .storage)

theorem exec_gen (w : Ins) (s : State) : exec (.gen w) s = .next (s.each 0x64 w (genPart w)) := rfl

-- results that are owed

/-- Writing the same words for the same strand again and again is writing them once, but for what its handler notes (R326, R331). -/
theorem writeV_replicate (s : State) (st : Strand) (d n k : Nat) (vals : List Word) (hint : Nat → Option Shape) :
    s.writeV st d (List.replicate (k + 1) (st, vals)) hint n =
      (List.replicate (k + 1) (st, vals)).foldl (fun u x => noteWrite d n x.2 x.1 u) (s.setRow st (writeRow s st d n vals hint)) := by
  have hcov : s.covers st ((List.replicate (k + 1) (st, vals)).map fun x => x.1.lane) = s.covers st [st.lane] := by
    unfold State.covers
    rw [List.map_replicate]
    congr 2
    funext x
    simp
  have hwrite : ∀ (v : VReg) item cov hn j, v.write item cov hn ((List.replicate (k + 1) (st, vals)).map fun x => (x.1.lane, x.2.getD j 0)) =
      v.write item cov hn [(st.lane, vals.getD j 0)] := by
    intro v item cov hn j
    unfold VReg.write
    rw [List.map_replicate]
    have hany : ∀ L, (List.replicate (k + 1) (st.lane, vals.getD j 0)).any (fun x => x.1 == L) = [(st.lane, vals.getD j 0)].any fun x => x.1 == L := by
      intro L
      rw [List.any_replicate]
      simp
    have hfind : ∀ L, (List.replicate (k + 1) (st.lane, vals.getD j 0)).find? (fun x => x.1 == L) = [(st.lane, vals.getD j 0)].find? fun x => x.1 == L := by
      intro L
      rw [List.find?_replicate]
      simp only [Nat.add_eq_zero_iff, one_ne_zero, and_false, if_false, List.find?_cons, List.find?_nil]
      cases st.lane == L <;> simp
    simp only [hany, hfind]
  unfold State.writeV
  simp only [hcov, hwrite]
  rfl

/-- What a strand's own later acts keep of it where it stands: a fold of acts that each leave it standing. -/
theorem foldl_stands {α : Type} {sid : Nat} (f : State → α → State) (l : List α) {s : State} (hP : Placed s sid)
    (hf : ∀ u, Placed u sid → Kept (s.st sid) (u.st sid) → ∀ x ∈ l, Stands u (f u x) sid) : Stands s (l.foldl f s) sid := by
  induction l generalizing s with
  | nil => exact stands_refl hP
  | cons x l ih =>
    have h := hf s hP (Kept.refl _) x List.mem_cons_self
    exact h.trans (ih h.placed fun u hu hk y hy => hf u hu (kept_trans h.kept hk) y (List.mem_cons_of_mem x hy))

/-- A strand's registers as they read, with their item's number. -/
def SameShapes (s t : State) (sid : Nat) : Prop :=
  (∀ i, ((t.rowOf (t.st sid)).reg i).shape = ((s.rowOf (s.st sid)).reg i).shape) ∧ ∀ u, (t.it u).number = (s.it u).number

theorem sameShapes_refl (s : State) (sid : Nat) : SameShapes s s sid := ⟨fun _ => rfl, fun _ => rfl⟩

theorem SameShapes.trans {s t u : State} {sid : Nat} (h1 : SameShapes s t sid) (h2 : SameShapes t u sid) : SameShapes s u sid :=
  ⟨fun i => (h2.1 i).trans (h1.1 i), fun x => (h2.2 x).trans (h1.2 x)⟩

theorem foldl_sameShapes {α : Type} {sid : Nat} (f : State → α → State) (l : List α) {s : State} (hP : Placed s sid)
    (hf : ∀ u, Placed u sid → Kept (s.st sid) (u.st sid) → ∀ x ∈ l, Stands u (f u x) sid ∧ SameShapes u (f u x) sid) : SameShapes s (l.foldl f s) sid := by
  induction l generalizing s with
  | nil => exact sameShapes_refl s sid
  | cons x l ih =>
    obtain ⟨h, hsh⟩ := hf s hP (Kept.refl _) x List.mem_cons_self
    exact hsh.trans (ih h.placed fun u hu hk y hy => hf u hu (kept_trans h.kept hk) y (List.mem_cons_of_mem x hy))

theorem setSt_stands {s : State} {sid : Nat} (hP : Placed s sid) (f : Strand → Strand) (hsid : ∀ x, (f x).sid = x.sid) (hk : Kept (s.st sid) (f (s.st sid)))
    : Stands s (s.setSt sid f) sid := by
  have hst : (s.setSt sid f).st sid = f (s.st sid) := setSt_st_same s sid f hsid hP.strand
  refine ⟨⟨setSt_isSome f hsid hP.strand, ?_, ?_, ?_⟩, by rw [hst]; exact hk, rfl⟩
  · rw [hst, hk.lane]; exact hP.lane
  · rw [hst, hk.uid]; exact hP.item
  · rw [hst, hk]
    exact hP.row

theorem noteWrite_stands {s : State} {sid : Nat} {st : Strand} (hP : Placed s sid) (hst : st.sid = sid) (d n : Nat) (vals : List Word) :
    Stands s (noteWrite d n vals st s) sid ∧ SameShapes s (noteWrite d n vals st s) sid := by
  have hk := noteWrite_kept d n vals st s (by rw [hst]; exact hP.strand)
  rw [hst] at hk
  refine ⟨?_, fun i => ?_, fun u => by rw [noteWrite_it]⟩
  · unfold noteWrite
    split
    · rw [hst]
      exact setSt_stands hP _ (fun _ => rfl) rfl
    · rw [hst]
      exact setSt_stands hP _ (fun _ => rfl) rfl
    · exact stands_refl hP
  · rw [rowOf_kept _ hk.1 hk.2, noteWrite_rowOf]

theorem markPoison_stands {s : State} {sid : Nat} {st : Strand} (hP : Placed s sid) (hk : Kept st (s.st sid)) (i : Nat) :
    Stands s (s.markPoison st i) sid ∧ SameShapes s (s.markPoison st i) sid := by
  unfold State.markPoison
  rw [setRow_of_kept hk]
  refine ⟨setRow_stands hP _, fun k => ?_, fun u => setRow_number _ _ _ _⟩
  rw [setRow_row hP, setReg_reg]
  split
  · rename_i h
    rw [h]
  · rfl

theorem setIt_stands {s : State} {sid : Nat} (hP : Placed s sid) (uid : Nat) (f : Item → Item) (huid : ∀ x, (f x).uid = x.uid) (hranks : ∀ x, (f x).ranks = x.ranks)
    (hnum : ∀ x, (f x).number = x.number) : Stands s (s.setIt uid f) sid ∧ SameShapes s (s.setIt uid f) sid := by
  have hr := setIt_keeps Item.ranks s uid f huid hranks
  have hst : (s.setIt uid f).st sid = s.st sid := rfl
  refine ⟨⟨⟨hP.strand, hP.lane, ?_, ?_⟩, Kept.refl _, rfl⟩, fun i => ?_, setIt_keeps Item.number s uid f huid hnum⟩
  · rw [hst, setIt_item? s uid f huid]
    split
    · rw [Option.isSome_map]; exact hP.item
    · exact hP.item
  · rw [hst]
    unfold State.rank
    rw [hr]
    exact hP.row
  · rw [hst]
    unfold State.rowOf State.rank
    rw [hr]

theorem fillSaved_stands {s : State} {sid : Nat} (hP : Placed s sid) (x : Strand) (d : Nat) (vals : List Word) :
    Stands s (s.fillSaved x d vals) sid ∧ SameShapes s (s.fillSaved x d vals) sid := by
  let F : Item → Item := fun it => { it with saved := it.saved.modify x.prank fun rows => rows.modify x.row fun row => row.putRaw it.number x.lane d vals }
  exact setIt_stands hP x.uid F (fun _ => rfl) (fun _ => rfl) fun _ => rfl

/-- The shapes that a result takes which is owed: uniform where it was so for its whole row (R167). -/
def owedShape (o : Owed) (j : Nat) : Option Shape := if o.uni then some (.uniform (o.vals.getD j 0)) else none

/-- The record of a strand in its resume handler takes a result that is owed (R85). -/
def owedRecord (o : Owed) (u : State) (x : Strand) : State := if x.phase = .resume ∧ o.record then u.fillSaved x o.dest o.vals else u

/-- The poison that comes with a result that is owed (R341). -/
def owedPoison (o : Owed) (u : State) (x : Strand) : State := (List.range o.vals.length).foldl (fun u j => u.markPoison x (o.dest + j)) u

/-- The write of a vector result that strands of one row owe (R67). -/
def owedWrite (o : Owed) (st : Strand) (row : List Strand) (u : State) : State :=
  let u := (row.foldl (owedRecord o) u).writeV st o.dest (row.map fun x => (x, o.vals)) (owedShape o) o.vals.length
  if o.bad then row.foldl (owedPoison o) u else u

/-- The write of a result that one strand owes, whose registers then hold it. -/
theorem owedWrite_reads {s : State} {sid : Nat} (hP : Placed s sid) (o : Owed) (k : Nat) :
    Stands s (owedWrite o (s.st sid) (List.replicate (k + 1) (s.st sid)) s) sid ∧
      ∀ j < o.vals.length, (owedWrite o (s.st sid) (List.replicate (k + 1) (s.st sid)) s).vreg ((owedWrite o (s.st sid) (List.replicate (k + 1) (s.st sid)) s).st sid) (o.dest + j) =
        o.vals.getD j 0 := by
  have hsid := st_sid hP.strand
  have hone : ∀ x ∈ List.replicate (k + 1) (s.st sid), x = s.st sid := fun x hx => List.eq_of_mem_replicate hx
  -- the record
  have h1 : Stands s ((List.replicate (k + 1) (s.st sid)).foldl (owedRecord o) s) sid := foldl_stands _ _ hP fun u hu _ x _ => by
    unfold owedRecord
    split
    · exact (fillSaved_stands hu x _ _).1
    · exact stands_refl hu
  have hst1 : ((List.replicate (k + 1) (s.st sid)).foldl (owedRecord o) s).st sid = s.st sid :=
    st_of_strands (foldl_keeps State.strands (owedRecord o) (fun u x => by unfold owedRecord; split <;> rfl) _ s) sid
  unfold owedWrite
  generalize (List.replicate (k + 1) (s.st sid)).foldl (owedRecord o) s = u1 at h1 hst1
  dsimp only
  rw [List.map_replicate, writeV_replicate]
  -- the row
  have h2 := setRow_stands h1.placed (writeRow u1 (s.st sid) o.dest o.vals.length o.vals (owedShape o))
  have hrow := setRow_row h1.placed (writeRow u1 (s.st sid) o.dest o.vals.length o.vals (owedShape o))
  have hnum := setRow_number u1 (u1.st sid) (writeRow u1 (s.st sid) o.dest o.vals.length o.vals (owedShape o)) (s.st sid).uid
  rw [hst1] at h2 hrow hnum
  generalize u1.setRow (s.st sid) (writeRow u1 (s.st sid) o.dest o.vals.length o.vals (owedShape o)) = u2 at h2 hrow hnum ⊢
  -- what the handler notes
  have hnote : ∀ u, Placed u sid → Kept (u2.st sid) (u.st sid) → ∀ x ∈ List.replicate (k + 1) (s.st sid, o.vals),
      Stands u (noteWrite o.dest o.vals.length x.2 x.1 u) sid ∧ SameShapes u (noteWrite o.dest o.vals.length x.2 x.1 u) sid := fun u hu _ x hx => by
    rw [List.eq_of_mem_replicate hx]
    exact noteWrite_stands hu hsid _ _ _
  have h3 := foldl_stands _ _ h2.placed fun u hu hk x hx => (hnote u hu hk x hx).1
  have hs3 := foldl_sameShapes _ _ h2.placed hnote
  generalize (List.replicate (k + 1) (s.st sid, o.vals)).foldl (fun u x => noteWrite o.dest o.vals.length x.2 x.1 u) u2 = u3 at h3 hs3 ⊢
  -- the poison
  have hbad : ∀ u, Placed u sid → Kept (u3.st sid) (u.st sid) → ∀ x ∈ List.replicate (k + 1) (s.st sid), Stands u (owedPoison o u x) sid ∧ SameShapes u (owedPoison o u x) sid := by
    intro u hu hk x hx
    obtain rfl := hone x hx
    have hkx : Kept (s.st sid) (u.st sid) := kept_trans ((h1.trans (h2.trans h3)).kept) hk
    have hstep : ∀ v, Placed v sid → Kept (u.st sid) (v.st sid) → ∀ j ∈ List.range o.vals.length,
        Stands v (v.markPoison (s.st sid) (o.dest + j)) sid ∧ SameShapes v (v.markPoison (s.st sid) (o.dest + j)) sid :=
      fun v hv hkv j _ => markPoison_stands hv (kept_trans hkx hkv) _
    exact ⟨foldl_stands _ _ hu fun v hv hkv j hj => (hstep v hv hkv j hj).1, foldl_sameShapes _ _ hu hstep⟩
  have h4 : Stands u3 (if o.bad = true then (List.replicate (k + 1) (s.st sid)).foldl (owedPoison o) u3 else u3) sid ∧
      SameShapes u3 (if o.bad = true then (List.replicate (k + 1) (s.st sid)).foldl (owedPoison o) u3 else u3) sid := by
    split
    · exact ⟨foldl_stands _ _ h3.placed fun u hu hk x hx => (hbad u hu hk x hx).1, foldl_sameShapes _ _ h3.placed hbad⟩
    · exact ⟨stands_refl h3.placed, sameShapes_refl _ _⟩
  generalize (if o.bad = true then (List.replicate (k + 1) (s.st sid)).foldl (owedPoison o) u3 else u3) = u4 at h4 ⊢
  have hall := h1.trans (h2.trans (h3.trans h4.1))
  refine ⟨hall, fun j hj => ?_⟩
  unfold State.vreg
  rw [h4.2.1, hs3.1, hrow, hall.kept.uid, hall.kept.lane, h4.2.2, hs3.2, hnum, writeRow_reg, if_pos (by omega), Nat.add_sub_cancel_left]
  refine write_at _ _ _ _ _ _ hP.lane fun sh hsh => ?_
  obtain ⟨sh0, h0, rfl⟩ := Option.map_eq_some_iff.mp hsh
  rw [forFrame_at _ _ _ _ hP.lane]
  unfold owedShape at h0
  split at h0
  · cases h0; rfl
  · cases h0

/-- A strand whose one result has been written (R67). -/
def settledUp (st : Strand) : Strand := { st with owed := [], park := if st.park = .storage then .none else st.park }

theorem paid_last {st : Strand} {o : Owed} (ho : st.owed = [o]) (hd : st.due = false) : st.paid o.id = settledUp st := by
  unfold Strand.paid settledUp
  simp [ho, hd]

theorem paid_settledUp (st : Strand) (id : Nat) : (settledUp st).paid id = settledUp st := by
  have hp : (settledUp st).park ≠ .storage := by
    unfold settledUp
    dsimp only
    split
    · exact Park.noConfusion
    · rename_i h
      exact h
  unfold Strand.paid
  dsimp only
  rw [if_neg fun h => hp h.2.1]
  rfl

/-- The strand of a row that has paid, however often it is told so. -/
theorem paid_fold {s : State} {sid k : Nat} {st : Strand} {o : Owed} (hsid : st.sid = sid) (hs : (s.strand? sid).isSome) (ho : (s.st sid).owed = [o]) (hd : (s.st sid).due = false) :
    ((List.replicate (k + 1) st).foldl (fun (u : State) x => u.setSt x.sid fun y => y.paid o.id) s).st sid = settledUp (s.st sid) ∧
      ((List.replicate (k + 1) st).foldl (fun (u : State) x => u.setSt x.sid fun y => y.paid o.id) s).items = s.items := by
  have hrest : ∀ n (u : State), (u.strand? sid).isSome → u.st sid = settledUp (s.st sid) →
      ((List.replicate n st).foldl (fun (u : State) x => u.setSt x.sid fun y => y.paid o.id) u).st sid = settledUp (s.st sid) := by
    intro n
    induction n with
    | zero => exact fun u _ hu => hu
    | succ n ih =>
      intro u hsome hu
      rw [List.replicate_succ, List.foldl_cons, hsid]
      refine ih _ (setSt_isSome _ (fun _ => rfl) hsome) ?_
      rw [setSt_st_same u sid (fun y => y.paid o.id) (fun _ => rfl) hsome, hu, paid_settledUp]
  refine ⟨?_, foldl_keeps State.items (fun (u : State) (x : Strand) => u.setSt x.sid fun y => y.paid o.id) (fun _ _ => rfl) _ s⟩
  rw [List.replicate_succ, List.foldl_cons, hsid]
  refine hrest k _ (setSt_isSome _ (fun _ => rfl) hs) ?_
  rw [setSt_st_same s sid (fun y => y.paid o.id) (fun _ => rfl) hs, paid_last ho hd]

/-- The payment of the one result that a strand owes, which no other of its row owes (R67). -/
theorem payOne_lone {s : State} {sid : Nat} {o : Owed} (hP : Placed s sid) (ho : (s.st sid).owed = [o]) (hv : o.scalar = false)
    (hu : ∀ x ∈ s.strands, sameRow x (s.st sid) = true → (∃ y ∈ x.owed, y.id = o.id) → x = s.st sid) :
    ∃ k, s.payOne false sid o = (s.grow (s.st sid).uid (s.st sid).prank (owedWrite o (s.st sid) (List.replicate (k + 1) (s.st sid)))).map
      fun u => (List.replicate (k + 1) (s.st sid)).foldl (fun (u : State) x => u.setSt x.sid fun y => y.paid o.id) u := by
  have hmem : s.st sid ∈ s.strands := by
    obtain ⟨x, hx⟩ := Option.isSome_iff_exists.mp hP.strand
    have hst : s.st sid = x := by unfold State.st; rw [hx]; rfl
    rw [hst]
    exact List.mem_of_find?_eq_some hx
  have hself : s.st sid ∈ s.strands.filter fun x => sameRow x (s.st sid) && x.owed.any fun y => y.id == o.id :=
    List.mem_filter.mpr ⟨hmem, by rw [sameRow_self, ho]; simp⟩
  obtain ⟨k, hk⟩ : ∃ k, (s.strands.filter fun x => sameRow x (s.st sid) && x.owed.any fun y => y.id == o.id).length = k + 1 :=
    Nat.exists_eq_succ_of_ne_zero (Nat.ne_of_gt (List.length_pos_of_mem hself))
  have hrow : (s.strands.filter fun x => sameRow x (s.st sid) && x.owed.any fun y => y.id == o.id) = List.replicate (k + 1) (s.st sid) := by
    refine List.eq_replicate_iff.mpr ⟨hk, fun x hx => ?_⟩
    obtain ⟨hx, hp⟩ := List.mem_filter.mp hx
    rw [Bool.and_eq_true] at hp
    obtain ⟨y, hy, he⟩ := List.any_eq_true.mp hp.2
    exact hu x hx hp.1 ⟨y, hy, eq_of_beq he⟩
  have hwords : (((s.st sid).owed.find? fun y => y.id == o.id).map (·.vals)).getD [] = o.vals := by rw [ho]; simp
  refine ⟨k, ?_⟩
  unfold State.payOne
  simp only [hv, hrow, Bool.false_eq_true, if_false]
  congr 2
  funext u
  unfold owedWrite
  rw [List.map_replicate, List.map_replicate, hwords]
  rw [List.foldl_ext (f := fun (s : State) (x : Strand) => if x.phase = .resume ∧ o.record = true then s.fillSaved x o.dest ((Option.map (·.vals) (x.owed.find? fun y => y.id == o.id)).getD []) else s)
    (g := owedRecord o) u fun v x hx => by rw [List.eq_of_mem_replicate hx, hwords]; rfl]
  rfl

/-- A word whose result finds no storage parks its strand with nothing written (R67). -/
theorem alu_parks {op : Nat} {w : Ins} {s : State} {sid n : Nat} {shape : State → Strand → List Word → Nat → Option Shape} {f : State → Strand → List Word}
    (hG : Goes op w s sid) (h : ¬ Fits shape w s sid (f s (s.st sid)) n) : s.alu op w n shape f = (s.onWait w sid).setPark sid .storage := by
  have hnone : landed (s.onWait w sid) sid w.d (f s (s.st sid)) (shape s (s.st sid) (f s (s.st sid))) n = none :=
    Option.not_isSome_iff_eq_none.mp fun hs => h ((room_iff_landed _ _ _ _ _ _).mpr hs)
  unfold State.alu
  rw [aluWith_eq_landed n shape f _ hG, hnone]

/-- Settles O47. -/
theorem storageWords : Obligations.StorageWords := by
  refine ⟨fun w s sid => ?_, fun c hc w s sid d => ?_, fun s sid ho hp => ?_, fun s sid o ho hd hP hv hu => ?_, fun s sid until_ hp hle => ?_⟩
  · dsimp only
    intro hG
    have hP1 := onWait_placed w hG.placed
    refine ⟨fun hg ht => exec_of_each (f := .next) hG (exec_gen w s) ?_, fun hn hroom => ?_, fun hn hf hnone => parks_of_each hG (exec_gen w s) ?_ rfl⟩
    · exact if_pos (genDone_of hg ht)
    · obtain ⟨t, hb, ht⟩ : ∃ t, exec (.gen w) s = .next (t.flow sid w .next) ∧ (t = (s.onWait w sid).setRow ((s.onWait w sid).st sid)
          (turned ((s.onWait w sid).it ((s.onWait w sid).st sid).uid).number (vOf w.d)) ∨
          (s.onWait w sid).grow ((s.onWait w sid).st sid).uid ((s.onWait w sid).st sid).prank (fun u => u.setRow ((s.onWait w sid).st sid)
          (turned ((s.onWait w sid).it ((s.onWait w sid).st sid).uid).number (vOf w.d))) = some t) := by
        cases hf : ((s.onWait w sid).st sid).isFrame with
        | true => exact ⟨_, exec_of_each (f := .next) hG (exec_gen w s) (by unfold genPart; simp only [not_genDone hn, hf, Bool.false_eq_true, if_false, if_true]), .inl rfl⟩
        | false =>
          obtain ⟨t, ht⟩ := Option.isSome_iff_exists.mp (hroom.resolve_left (by rw [hf]; exact Bool.false_ne_true))
          exact ⟨t, exec_of_each (f := .next) hG (exec_gen w s) (by
            unfold genPart
            simp only [not_genDone hn, hf, Bool.false_eq_true, if_false]
            rw [show (s.onWait w sid).grow _ _ (fun u => u.setRow ((s.onWait w sid).st sid) (turned ((s.onWait w sid).it ((s.onWait w sid).st sid).uid).number (vOf w.d))) = some t from ht]), .inr ht⟩
      obtain ⟨hst, hgen, hval⟩ := turned_reads hP1 ht
      have hs := hst.placed.strand
      refine ⟨_, hb, ?_, ?_, ?_⟩
      · show WentOn s (t.retire sid w) sid w
        rw [WentOn, retire_st w hs]
        exact ⟨by dsimp only; rw [hst.kept.pc, goes_pc hG], by dsimp only; rw [hst.kept.seq, goes_seq hG]⟩
      · show isGeneral (((t.retire sid w).rowOf ((t.retire sid w).st sid)).reg (vOf w.d)).shape = true
        rw [retire_st w hs]
        exact hgen
      · show (t.retire sid w).vreg ((t.retire sid w).st sid) (vOf w.d) = _
        rw [retire_st w hs, ← goes_vreg hG]
        exact hval
    · unfold genPart
      simp only [not_genDone hn, hf, Bool.false_eq_true, if_false]
      rw [show (s.onWait w sid).grow _ _ (fun u => u.setRow ((s.onWait w sid).st sid) (turned ((s.onWait w sid).it ((s.onWait w sid).st sid).uid).number (vOf w.d))) = none from hnone]
  · dsimp only
    intro hG hwd hfit
    simp only [List.mem_cons, List.not_mem_nil, or_false] at hc
    rcases hc with rfl | rfl | rfl
    · exact congrArg Host.Outcome.next (alu_parks hG hfit)
    · exact congrArg Host.Outcome.next (alu_parks hG hfit)
    · exact congrArg Host.Outcome.next (alu_parks hG hfit)
  · refine congrArg Host.Outcome.next ?_
    rw [ho, hp]
    rfl
  · obtain ⟨k, hk⟩ := payOne_lone hP ho hv hu
    have hexec : exec (.storageRetry sid) s = .next ((s.payOne false sid o).getD s) := by
      refine congrArg Host.Outcome.next ?_
      unfold State.payOwed
      rw [ho]
      rfl
    split
    · rename_i hsome
      obtain ⟨t, ht⟩ := Option.isSome_iff_exists.mp hsome
      rw [ht] at hexec
      refine ⟨t, hexec, ?_⟩
      rw [hk] at ht
      obtain ⟨u, hu, rfl⟩ := Option.map_eq_some_iff.mp ht
      have hst : Stands s u sid := grow_stands hP hu fun v hv hvs => by
        rw [← hvs]
        exact (owedWrite_reads hv o k).1
      have hkept := hst.kept
      have howed : (u.st sid).owed = [o] := by rw [hkept]; exact ho
      have hdue : (u.st sid).due = false := by rw [hkept]; exact hd
      obtain ⟨hpaid, hitems⟩ := paid_fold (k := k) (st_sid hP.strand) hst.placed.strand howed hdue
      refine ⟨fun j hj => ?_, ?_, ?_, ?_⟩
      · have hvals : u.vreg (u.st sid) (o.dest + j) = o.vals.getD j 0 := by
          rcases grow_cases hu with hr | rfl
          · rw [hr.vector, hr.st]
            exact (owedWrite_reads hP o k).2 j hj
          · obtain ⟨h1, h2, -⟩ := takeover_placed (s.st sid).uid (s.st sid).prank hP
            have h := (owedWrite_reads h1 o k).2 j hj
            rw [h2] at h
            exact h
        rw [hpaid]
        unfold State.vreg State.rowOf State.rank
        rw [it_of_items hitems]
        exact hvals
      · rw [hpaid]; rfl
      · rw [hpaid]
        exact hkept.pc
      · rw [hpaid]
        show (if (u.st sid).park = .storage then Park.none else (u.st sid).park) = _
        rw [show (u.st sid).park = (s.st sid).park by rw [hkept]]
    · rename_i hnone
      rw [hexec, show s.payOne false sid o = none by simpa using hnone]
      rfl
  · refine congrArg Host.Outcome.next ?_
    rw [hp]
    exact if_pos hle

end Sys2Proof.Proofs
end

section
/-! SUPPORT. What a host reaches on the device, and the release of its clusters: the launch ports and doorbells, the window to device memory, boot and attestation (O48, O50, O52). -/

namespace Sys2Proof.Proofs
open Sys2Proof Sys2Proof.Machine Sys2Proof.Safety Sys2Proof.Laws

-- launch ports (R55, R56)

/-- Two changes of an entry of a list agree when they agree on the entry that stands there. -/
theorem modify_congr {α : Type} (l : List α) (i : Nat) (f g : α → α) (d : α) (h : i < l.length → f (l.getD i d) = g (l.getD i d)) : l.modify i f = l.modify i g := by
  apply List.ext_getElem?
  intro k
  rw [List.getElem?_modify, List.getElem?_modify]
  cases hk : l[k]? with
  | none => rfl
  | some x =>
    obtain ⟨hlt, rfl⟩ := List.getElem?_eq_some_iff.mp hk
    by_cases hik : i = k
    · subst hik
      have hx := h hlt
      rw [List.getD_eq_getElem _ _ hlt] at hx
      simp [hx]
    · simp [hik]

theorem setQueue_congr (s : State) (q : Nat) (f g : Queue → Queue) (h : q < s.queues.length → f (s.queues.getD q {}) = g (s.queues.getD q {})) : s.setQueue q f = s.setQueue q g :=
  congrArg (fun l => ({ s with queues := l } : State)) (modify_congr s.queues q f g {} h)

/-- A write below the status word of a port is a packet, or none. -/
theorem portWrite_packet (s : State) (q off : Nat) {bytes : List Byte} (hne : bytes ≠ []) (hoff : off < 0x80) : s.portWrite q off bytes = s.setQueue q fun x =>
    if off ≠ 0 ∨ bytes.length ≠ 128 then { x with malformed := true }
    else if x.packets.length ≥ 32 then { x with overrun := true }
    else { x with packets := x.packets ++ [{ bytes := bytes }] } := by
  unfold State.portWrite
  rw [if_neg (by simpa using hne), if_pos hoff]

/-- A write of the four bytes of the status word of a port. -/
theorem portWrite_status (s : State) (q : Nat) (v : Word) : s.portWrite q 0x80 (leBytes 4 v.toNat) = s.setQueue q fun x => x.clear v := by
  have hword : ((List.range 4).map fun i => if 0x80 ≤ 0x80 + i then (leBytes 4 v.toNat).getD (0x80 + i - 0x80) 0 else 0) = leBytes 4 v.toNat := by
    simp [leBytes, List.range_succ]
  unfold State.portWrite
  rw [if_neg (by simp [leBytes]), if_neg (by decide)]
  dsimp only
  rw [hword, ofLeBytes_leBytes, Nat.mod_eq_of_lt v.isLt, BitVec.ofNat_toNat, BitVec.setWidth_eq]

theorem length_ne_nil {α : Type} {l : List α} {n : Nat} (h : l.length = n + 1) : l ≠ [] := by
  rintro rfl
  cases h

/-- Settles O48, from what a port does with a packet and with its status word. -/
theorem launchPorts : Obligations.LaunchPorts := by
  unfold Obligations.LaunchPorts
  refine ⟨fun s q bytes hlen hroom => ⟨_, rfl, ?_⟩, fun s q bytes _ hlen hfull => ⟨_, rfl, ?_⟩, fun s q off bytes hne hoff hbad => ⟨_, rfl, ?_⟩,
    fun s q v => ⟨_, rfl, rfl⟩, fun s q v => congrArg Host.Outcome.next (portWrite_status s q v), fun s off bytes hup hoff hin => congrArg Host.Outcome.next ?_,
    fun s n bytes hup hn => congrArg Host.Outcome.next ?_, fun s off bytes hup hoff => congrArg Host.Outcome.next ?_, fun s off bytes hup => congrArg Host.Outcome.next ?_⟩
  · rw [portWrite_packet s q 0 (length_ne_nil hlen) (by decide)]
    refine setQueue_congr s q _ _ fun _ => ?_
    rw [if_neg (by omega), if_neg (by omega)]
  · rw [portWrite_packet s q 0 (length_ne_nil hlen) (by decide)]
    refine setQueue_congr s q _ _ fun _ => ?_
    rw [if_neg (by omega), if_pos (by omega)]
  · rw [portWrite_packet s q off hne hoff]
    refine setQueue_congr s q _ _ fun _ => ?_
    rw [if_pos hbad]
  · rw [hup, Bool.not_true, if_neg Bool.false_ne_true, if_pos hoff]
    unfold State.pageWrite
    rw [if_pos hin]
  · rw [hup, Bool.not_true, if_neg Bool.false_ne_true, if_neg (by omega), if_pos (by omega), if_pos rfl]
    congr 1
    omega
  · rw [hup, Bool.not_true, if_neg Bool.false_ne_true, if_neg (by omega), if_neg (by omega)]
  · rw [hup, Bool.not_false, if_pos rfl]

-- the host's window to device memory and the doorbells (R247, R350, R351)

theorem hostDown {s : State} (h : s.hostUp = false) {α : Type} (a b : α) : (if s.hostUp then a else b) = b := by rw [h, if_neg Bool.false_ne_true]

theorem hostIsUp {s : State} (h : s.hostUp = true) {α : Type} (a b : α) : (if s.hostUp then a else b) = a := if_pos h

/-- A write at the home of device memory: the bytes there, and every other byte. -/
theorem writeHome_bytes {s : State} (hC : Canonical s) (uid pa : Nat) (bs : List Byte) :
    (s.writeHome uid 0 pa bs).mem.bytes pa bs.length = bs ∧ ∀ a, a < pa ∨ pa + bs.length ≤ a → (s.writeHome uid 0 pa bs).mem.get a = s.mem.get a := by
  rw [writeHome_mem]
  exact ⟨Memory.bytes_store _ _ _ hC.mem, fun a ha => by rw [Memory.get_store _ _ _ _ hC.mem, if_neg (by omega)]⟩

/-- Settles O50, from what a write at home leaves in device memory. -/
theorem hostAccesses : Obligations.HostAccesses := by
  unfold Obligations.HostAccesses
  refine ⟨fun s off n bytes hC hup hoff hn => ⟨_, congrArg Host.Outcome.next (if_pos (by rw [hup, decide_eq_true hoff]; rfl)), ?_⟩,
    fun s off bytes hoff => congrArg Host.Outcome.next (if_neg (by rw [decide_eq_false (by omega), Bool.and_false]; exact Bool.false_ne_true)),
    fun s off len hup => ⟨_, congrArg Host.Outcome.next (hostIsUp hup _ _), rfl, rfl⟩,
    fun s n pa bytes hC hup hat hlen => ⟨_, congrArg Host.Outcome.next (hostIsUp hup _ _), ?_⟩, fun s n bytes hno => congrArg Host.Outcome.next ?_,
    fun s n hup => ⟨_, congrArg Host.Outcome.next (hostIsUp hup _ _), rfl, ?_⟩, fun s hdown i hi x bytes => ?_,
    fun s x len hdown => ⟨congrArg Host.Outcome.next (hostDown hdown _ _), congrArg Host.Outcome.next (hostDown hdown _ _)⟩, fun s p => rfl,
    fun s p up hp => ⟨_, rfl, congrArg Port.up (getD_modify s.ports p _ {} hp)⟩⟩
  · have hw := writeHome_bytes hC 0 off (bytes.take (Config.memTop - off))
    have htake : bytes.take (Config.memTop - off) = bytes.take n := by rw [hn, min_comm, List.take_eq_take_min]
    have hlen : (bytes.take n).length = n := by rw [List.length_take]; omega
    rw [htake, hlen] at hw
    rw [htake]
    exact hw
  · have hring : s.ring n bytes = s.rmwHome 0 0 pa (leBytes 8 ((s.homeNum 0 pa 8 + ofLeBytes bytes) % 2 ^ 64)) := by
      unfold State.ring
      rw [hat]
      exact if_pos hlen
    have hw := writeHome_bytes hC 0 pa (leBytes 8 ((s.homeNum 0 pa 8 + ofLeBytes bytes) % 2 ^ 64))
    rw [length_leBytes] at hw
    rw [hring]
    refine ⟨(congrArg ofLeBytes hw.1).trans ?_, hw.2⟩
    rw [ofLeBytes_leBytes, Nat.mod_mod]
    rfl
  · have hring : s.ring n bytes = s := by
      unfold State.ring
      rcases hno with h | h
      · rw [h]
      · cases s.doorbellAt n with
        | none => rfl
        | some pa => exact if_neg h
    rw [hring, ite_self]
  · show s.doorbellBytes n 0 8 = _
    unfold State.doorbellBytes
    cases s.doorbellAt n with
    | none => rfl
    | some pa => exact if_pos ⟨rfl, rfl⟩
  · simp only [List.mem_cons, List.not_mem_nil, or_false] at hi
    rcases hi with rfl | rfl
    · refine congrArg Host.Outcome.next (if_neg ?_)
      rw [hdown, Bool.false_and]
      exact Bool.false_ne_true
    · exact congrArg Host.Outcome.next (hostDown hdown _ _)

-- boot, the release of clusters, attestation (R318, R319, R320, R356)

/-- What one attempt of the ROM leaves: a verified image started and measured, a bad one to fetch again, the other port to try. -/
theorem bootFetch_leaves (s : State) (port : Nat) (first : Bool) : match Config.fetchImage s.tick with
    | some (d, true) => (s.bootFetch port first).boot = .started ∧ (s.bootFetch port first).attest = shake256 s.attest d ∧ (s.bootFetch port first).measures = s.measures ++ [d]
    | some (_, false) => (s.bootFetch port first).boot = .retry port s.now ∧ (s.bootFetch port first).attest = s.attest
    | none => (s.bootFetch port first).boot = .retry (1 - port) (if first then s.now else s.now + 10 ^ 10 * Config.perNs) ∧ (s.bootFetch port first).attest = s.attest := by
  unfold State.bootFetch
  generalize Config.fetchImage s.tick = r
  obtain _ | ⟨d, _ | _⟩ := r
  · exact ⟨rfl, rfl⟩
  · exact ⟨rfl, rfl⟩
  · exact ⟨rfl, rfl, rfl⟩

/-- A request that arrives while the image runs is answered where it came. -/
theorem answerSpdm_answers {s : State} {via : Transport} (hb : s.boot = .started) (hv : s.spdmVia = via) (hc : s.carries via = true) (bytes : List Byte) :
    (s.answerSpdm bytes).spdm = s.spdm ++ [(via, bytes)] := by
  subst hv
  unfold State.answerSpdm
  rw [if_pos ⟨hb, hc⟩]

/-- The time of the step that is due. -/
theorem releaseAt_eq {s : State} {n at_ : Nat} (h0 : n = 0 → at_ = s.now)
    (hm : ∀ m, n = m + 1 → ∃ x, (s.clusters.getD (releaseOrder m) {}).released = some x ∧ at_ = x + 4000 * Config.perNs) : s.releaseAt n = some at_ := by
  cases n with
  | zero => exact congrArg some (h0 rfl).symm
  | succ m =>
    obtain ⟨x, hx, rfl⟩ := hm m rfl
    exact congrArg (Option.map _) hx

/-- The step of the staggered start that is due releases its cluster. -/
theorem clusterRelease_releases {s : State} {n at_ : Nat} (hb : s.boot = .started) (hn : n = (s.clusters.filter fun c => c.released.isSome).length) (hlt : n < Config.clusters)
    (hat : s.releaseAt n = some at_) (hdue : at_ ≤ s.now) :
    exec .clusterRelease s = .next { s with clusters := s.clusters.modify (releaseOrder n) fun c => { c with released := some at_ } } := by
  refine congrArg Host.Outcome.next ?_
  rw [← hn]
  dsimp only
  rw [hat]
  refine if_neg ?_
  rintro (h | h | h)
  · exact h hb
  · omega
  · omega

/-- Settles O52, from one attempt of the ROM, the time of a step and the answer to a request. -/
theorem bootAndAttestation : Obligations.BootAndAttestation := by
  unfold Obligations.BootAndAttestation
  dsimp only
  refine ⟨fun s hb => ⟨_, congrArg Host.Outcome.next (if_pos hb), bootFetch_leaves s 0 true⟩, fun s port due hb hdue => ⟨s.bootFetch port false, ?_, bootFetch_leaves s port false⟩,
    fun s n at_ hb hn hlt hin h0 hm hdue => ⟨_, clusterRelease_releases hb hn hlt (releaseAt_eq h0 hm) hdue, ?_, ?_⟩, fun s via hb hv hc => ?_⟩
  · refine congrArg Host.Outcome.next ?_
    rw [hb]
    exact if_pos hdue
  · exact congrArg Cluster.released (getD_modify s.clusters (releaseOrder n) _ {} hin)
  · exact fun k hk => getD_modify_ne s.clusters (releaseOrder n) k _ {} hk.symm
  · refine ⟨⟨_, rfl, answerSpdm_answers hb hv hc _⟩, ⟨_, rfl, _, answerSpdm_answers hb hv hc _, by decide, by decide, by decide⟩, ⟨_, rfl, _, answerSpdm_answers hb hv hc _⟩,
      ⟨_, rfl, answerSpdm_answers hb hv hc _⟩, ⟨_, rfl, [0, 0] ++ leBytes 2 Config.certChain.length ++ [0, 0], answerSpdm_answers hb hv hc _⟩,
      fun nonce => ⟨_, rfl, _, (answerSpdm_answers hb hv hc _).trans (congrArg (fun b => s.spdm ++ [(via, b)]) (List.append_assoc _ _ _))⟩,
      ⟨_, rfl, _, (answerSpdm_answers hb hv hc _).trans (congrArg (fun b => s.spdm ++ [(via, b)]) (List.append_assoc _ _ _))⟩⟩

end Sys2Proof.Proofs
end

section
/-! SUPPORT. What the operations of the machine leave of it: byte stores in canonical form, and the time, the clusters and the peers that are down as they stand (O56, O46, O49). One lemma an operation, in the order of the model. -/

namespace Sys2Proof.Proofs
open Sys2Proof Sys2Proof.Machine Sys2Proof.Safety Sys2Proof.Laws

/-- What an operation of the machine keeps: byte stores that are canonical stay so, and the time, the last sweep, the clusters and the peers that are down are as they stood. -/
structure Kept (r s : State) : Prop where
  canonical : Canonical r → Canonical s
  now : s.now = r.now
  lastSweep : s.lastSweep = r.lastSweep
  clusters : s.clusters = r.clusters
  peersDown : s.peersDown = r.peersDown

theorem Kept.refl (s : State) : Kept s s := ⟨id, rfl, rfl, rfl, rfl⟩

theorem canonical_congr {s t : State} (h : Canonical s) (hm : t.mem = s.mem) (ht : t.tags = s.tags) (hh : t.host = s.host) (hp : t.peer = s.peer) : Canonical t :=
  ⟨hm ▸ h.mem, ht ▸ h.tags, hh ▸ h.host, hp ▸ h.peer⟩

/-- A state that an operation may not answer. -/
def KeptSome (r : State) (o : Option State) : Prop := ∀ t, o = some t → Kept r t

/-- A state that an operation may not answer, with what else it answers. -/
def KeptSome₂ {α : Type} (r : State) (o : Option (State × α)) : Prop := ∀ p, o = some p → Kept r p.1

/-- A change of any fields other than these keeps them. -/
theorem kept_update {r s : State} (h : Kept r s)
    (tick : Nat) (nextId : Nat) (agenda : List Action) (bundle : List Nat) (strands : List Strand) (items : List Item) (templates : List Template) (launches : List Launch)
    (queues : List Queue) (lastQueue : Nat) (lastCluster : Nat) (calls : List Call) (exits : List (Nat × Word × Word)) (poison : List Nat) (pend : List Acc)
    (l1 : List L1Line) (lastRel : List (Nat × Nat × Nat)) (relMarks : List RelMark) (oldCode : List (Nat × List Word)) (tileOps : List TileOp) (tlb : List TlbEntry)
    (ctxTable : Nat) (debuggers : List Nat) (reserved : List (Nat × Nat × Nat)) (baristaRead : Nat) (copies : List Copy) (mcasts : List Mcast) (grinders : List Grinder)
    (channels : List Channel) (nvqs : List NvQueue) (lats : List Machine.Lat) (corrected : List (Nat × Nat)) (palert : Option (Option Nat)) (hold : Bool) (thermal : List Nat)
    (links : List (Option Nat)) (devId : BitVec 12) (ports : List Port) (portPage : Option Nat) (doorbells : List (Nat × Nat)) (boot : Boot) (attest : BitVec 512)
    (measures : List (BitVec 512)) (spdmVia : Transport) (spdm : List (Transport × List Byte)) (hostRead : List Byte) (ioLog : List IoAccess) :
    Kept r { s with
      tick := tick, nextId := nextId, agenda := agenda, bundle := bundle, strands := strands, items := items, templates := templates, launches := launches, queues := queues,
      lastQueue := lastQueue, lastCluster := lastCluster, calls := calls, exits := exits, poison := poison, pend := pend, l1 := l1, lastRel := lastRel, relMarks := relMarks,
      oldCode := oldCode, tileOps := tileOps, tlb := tlb, ctxTable := ctxTable, debuggers := debuggers, reserved := reserved, baristaRead := baristaRead, copies := copies,
      mcasts := mcasts, grinders := grinders, channels := channels, nvqs := nvqs, lats := lats, corrected := corrected, palert := palert, hold := hold, thermal := thermal,
      links := links, devId := devId, ports := ports, portPage := portPage, doorbells := doorbells, boot := boot, attest := attest, measures := measures, spdmVia := spdmVia,
      spdm := spdm, hostRead := hostRead, ioLog := ioLog } :=
  ⟨fun hr => ⟨(h.canonical hr).mem, (h.canonical hr).tags, (h.canonical hr).host, (h.canonical hr).peer⟩, h.now, h.lastSweep, h.clusters, h.peersDown⟩

/-- Other byte stores in canonical form. -/
theorem kept_stores {r s : State} (h : Kept r s) {mem tags host peer : Memory} (hm : s.mem.wf = true → mem.wf = true) (ht : s.tags.wf = true → tags.wf = true)
    (hh : s.host.wf = true → host.wf = true) (hp : s.peer.wf = true → peer.wf = true) : Kept r { s with mem := mem, tags := tags, host := host, peer := peer } :=
  ⟨fun hr => ⟨hm (h.canonical hr).mem, ht (h.canonical hr).tags, hh (h.canonical hr).host, hp (h.canonical hr).peer⟩, h.now, h.lastSweep, h.clusters, h.peersDown⟩

theorem kept_foldl {α : Type} {r s : State} (h : Kept r s) {f : State → α → State} (hf : ∀ s x, Kept r s → Kept r (f s x)) (l : List α) : Kept r (l.foldl f s) := by
  induction l generalizing s with
  | nil => exact h
  | cons x l ih => exact ih (hf s x h)

theorem kept_foldl_fst {α β : Type} {r : State} {p : State × β} (h : Kept r p.1) {f : State × β → α → State × β} (hf : ∀ p x, Kept r p.1 → Kept r (f p x).1) (l : List α) :
    Kept r (l.foldl f p).1 := by
  induction l generalizing p with
  | nil => exact h
  | cons x l ih => exact ih (hf p x h)

theorem kept_ite {r s t : State} {c : Prop} [Decidable c] (hs : Kept r s) (ht : Kept r t) : Kept r (if c then s else t) := by
  split
  · exact hs
  · exact ht

theorem kept_ite_fst {α : Type} {r : State} {p q : State × α} {c : Prop} [Decidable c] (hp : Kept r p.1) (hq : Kept r q.1) : Kept r (if c then p else q).1 := by
  split
  · exact hp
  · exact hq

theorem kept_ite_snd {α : Type} {r : State} {p q : α × State} {c : Prop} [Decidable c] (hp : Kept r p.2) (hq : Kept r q.2) : Kept r (if c then p else q).2 := by
  split
  · exact hp
  · exact hq

/-- The state of an answer that has been taken apart. -/
theorem kept_of_eq {α : Type} {r t : State} {p : State × α} {x : α} (e : p = (t, x)) (h : Kept r p.1) : Kept r t := by
  rw [e] at h
  exact h

theorem keptSome_none {r : State} : KeptSome r none := fun _ e => nomatch e

theorem keptSome_some {r s : State} (h : Kept r s) : KeptSome r (some s) := fun _ e => Option.some.inj e ▸ h

theorem keptSome_ite {r : State} {o o' : Option State} {c : Prop} [Decidable c] (h : KeptSome r o) (h' : KeptSome r o') : KeptSome r (if c then o else o') := by
  split
  · exact h
  · exact h'

theorem keptSome_map {r : State} {o : Option State} {f : State → State} (h : KeptSome r o) (hf : ∀ s, Kept r s → Kept r (f s)) : KeptSome r (o.map f) := by
  cases o with
  | none => exact keptSome_none
  | some s => exact keptSome_some (hf s (h s rfl))

theorem keptSome₂_none {α : Type} {r : State} : KeptSome₂ (α := α) r none := fun _ e => nomatch e

theorem keptSome₂_map {α β : Type} {r : State} {o : Option α} {f : α → State × β} (hf : ∀ x, Kept r (f x).1) : KeptSome₂ r (o.map f) := by
  cases o with
  | none => exact keptSome₂_none
  | some x => exact fun _ e => Option.some.inj e ▸ hf x

theorem kept_getD {r s : State} {o : Option State} (h : KeptSome r o) (hs : Kept r s) : Kept r (o.getD s) := by
  cases o with
  | none => exact hs
  | some t => exact h t rfl

/-- The answer of an instruction, when it is a next state. -/
def KeptNext (r : State) (o : Host.Outcome State Fault Refusal) : Prop := ∀ t, o = .next t → Canonical r → Canonical t

theorem keptNext_of {r s : State} (h : Canonical r → Canonical s) : KeptNext r (.next s) := fun _ e => Host.Outcome.next.inj e ▸ h

theorem keptNext {r s : State} (h : Kept r s) : KeptNext r (.next s) := fun _ e => Host.Outcome.next.inj e ▸ h.canonical

theorem keptNext_fault {r : State} {f : Fault} : KeptNext r (.fault f) := fun _ e => nomatch e

theorem kept_homeStore {r s : State} {loc pa bs} (h : Kept r s) : Kept r (s.homeStore loc pa bs) := by
  unfold State.homeStore
  split
  · exact kept_stores h (Memory.store_wf _ _ _) id id id
  · exact kept_stores h id id id (Memory.store_wf _ _ _)
  · exact kept_stores h id id (Memory.store_wf _ _ _) id

theorem kept_setSt {r s : State} {sid f} (h : Kept r s) : Kept r (s.setSt sid f) := kept_update h ..

theorem kept_setIt {r s : State} {uid f} (h : Kept r s) : Kept r (s.setIt uid f) := kept_update h ..

theorem kept_setLa {r s : State} {lid f} (h : Kept r s) : Kept r (s.setLa lid f) := kept_update h ..

theorem kept_setCall {r s : State} {id f} (h : Kept r s) : Kept r (s.setCall id f) := kept_update h ..

theorem kept_setTemplate {r s : State} {tid f} (h : Kept r s) : Kept r (s.setTemplate tid f) := kept_update h ..

theorem kept_setCtx {r s : State} {c f} (h : Kept r s) : Kept r (s.setCtx c f) := kept_stores h (Memory.store_wf _ _ _) id id id

theorem kept_setRank {r s : State} {uid p f} (h : Kept r s) : Kept r (s.setRank uid p f) := kept_setIt h

theorem kept_setSlot {r s : State} {uid p x f} (h : Kept r s) : Kept r (s.setSlot uid p x f) := kept_setRank h

theorem kept_setAccum {r s : State} {uid p a f} (h : Kept r s) : Kept r (s.setAccum uid p a f) := kept_setRank h

theorem kept_fresh {r s : State} (h : Kept r s) : Kept r s.fresh.2 := kept_update h ..

theorem kept_setRow {r s : State} {st f} (h : Kept r s) : Kept r (s.setRow st f) := kept_ite (kept_setSt h) (kept_setRank h)

theorem kept_takeover {r s : State} {uid p} (h : Kept r s) : Kept r (s.takeover uid p) := by
  unfold State.takeover
  dsimp only
  exact kept_ite h (kept_setIt h)

theorem kept_handover {r s : State} {core template} (h : Kept r s) : Kept r (s.handover core template) := kept_ite h (kept_foldl h (fun _ _ hs => kept_takeover hs) _)

theorem kept_handedOver {r before after : State} {uid p} (h1 : Kept r after) : Kept r (State.handedOver before after uid p) := kept_ite (kept_handover h1) h1

theorem kept_grow {r s : State} {uid p} {f : State → State} (h : Kept r s) (hf : ∀ u, Kept r u → Kept r (f u)) : KeptSome r (s.grow uid p f) := by
  unfold State.grow
  dsimp only
  exact keptSome_ite (keptSome_some (kept_handedOver (hf _ h))) (keptSome_ite (keptSome_some (hf _ (kept_takeover h))) keptSome_none)

theorem kept_writeV {r s : State} {st d writers hint n} (h : Kept r s) : Kept r (s.writeV st d writers hint n) := by
  unfold State.writeV
  dsimp only
  refine kept_foldl (kept_setRow h) (fun _ _ hs => ?_) _
  split
  · exact kept_setSt hs
  · exact kept_setSt hs
  · exact hs

theorem kept_fillSaved {r s : State} {st d vals} (h : Kept r s) : Kept r (s.fillSaved st d vals) := kept_setIt h

theorem kept_writeS {r s : State} {uid d x} (h : Kept r s) : Kept r (s.writeS uid d x) := kept_setIt h

theorem kept_markEmpty {r s : State} {st regs} (h : Kept r s) : Kept r (s.markEmpty st regs) := kept_setRow h

theorem kept_markFull {r s : State} {st regs} (h : Kept r s) : Kept r (s.markFull st regs) := kept_setRow h

theorem kept_markPoison {r s : State} {st i} (h : Kept r s) : Kept r (s.markPoison st i) := kept_setRow h

theorem kept_noteCode {r s : State} {pa n} (h : Kept r s) : Kept r (s.noteCode pa n) := by
  unfold State.noteCode
  dsimp only
  exact kept_ite h (kept_update h ..)

theorem kept_storeScratchByte {r s : State} {uid key b} (h : Kept r s) : Kept r (s.storeScratchByte uid key b) := kept_setRank h

theorem kept_storeScratch {r s : State} {uid key bs} (h : Kept r s) : Kept r (s.storeScratch uid key bs) := by
  induction bs generalizing s key with
  | nil => exact h
  | cons b bs ih => exact ih (kept_storeScratchByte h)

theorem kept_rouse {r s : State} {loc pa n} (h : Kept r s) : Kept r (s.rouse loc pa n) := kept_update h ..

theorem kept_writeHome {r s : State} {uid loc pa bs} (h : Kept r s) : Kept r (s.writeHome uid loc pa bs) := by
  unfold State.writeHome
  dsimp only
  split
  · exact kept_storeScratch (kept_update h ..)
  · exact kept_rouse (kept_update (kept_homeStore (kept_noteCode (kept_update h ..))) ..)
  · exact kept_update (kept_rouse (kept_homeStore (kept_update h ..))) ..

theorem kept_rmwHome {r s : State} {uid loc pa bs} (h : Kept r s) : Kept r (s.rmwHome uid loc pa bs) := kept_update (kept_writeHome h) ..

theorem kept_acquireAt {r s : State} {sid scope at_ acq} (h : Kept r s) : Kept r (s.acquireAt sid scope at_ acq) := by
  unfold State.acquireAt
  dsimp only
  exact kept_ite (kept_update (kept_setSt h) ..) (kept_setSt h)

theorem kept_acquire {r s : State} {sid scope} (h : Kept r s) : Kept r (s.acquire sid scope) := kept_acquireAt h

theorem kept_acquireCore {r s : State} {sid acq} (h : Kept r s) : Kept r (s.acquireCore sid acq) := kept_acquireAt h

theorem kept_readyAcquire {r s : State} {uid p acq} (h : Kept r s) : Kept r (s.readyAcquire uid p acq) := kept_foldl h (fun _ _ hs => kept_acquireCore hs) _

theorem kept_dropEarly {r s : State} {sids loc pa n} (h : Kept r s) : Kept r (s.dropEarly sids loc pa n) := kept_foldl h (fun _ _ hs => kept_setSt hs) _

theorem kept_markEntry {r s : State} {at_ pte wr used} (h : Kept r s) : Kept r (s.markEntry at_ pte wr used) := by
  unfold State.markEntry
  dsimp only
  exact kept_ite h (kept_update (kept_rmwHome h) ..)

theorem kept_tlbFill {r s : State} {core e walked} (h : Kept r s) : Kept r (s.tlbFill core e walked) := kept_update h ..

theorem kept_translate {r s : State} {core ctx va need} (h : Kept r s) : Kept r (s.translate core ctx va need).1 := by
  unfold State.translate
  dsimp only
  refine kept_ite_fst h ?_
  split
  · exact h
  · exact h
  · split
    · exact h
    · exact kept_ite (kept_markEntry h) (kept_tlbFill (kept_markEntry h))

theorem kept_walkAcquire {r s : State} {sid x} (h : Kept r s) : Kept r (s.walkAcquire sid x) := kept_ite (kept_acquire h) h

theorem kept_access {r s : State} {sid core ctx va need len} (h : Kept r s) : Kept r (s.access sid core ctx va need len).1 := by
  unfold State.access
  dsimp only
  split
  · split
    · exact kept_walkAcquire (kept_of_eq ‹_› (kept_translate h))
    · exact kept_walkAcquire (kept_of_eq ‹_› (kept_translate h))
  · exact kept_translate h

theorem kept_translateRange {r s : State} {sid core ctx va need n} (h : Kept r s) : Kept r (s.translateRange sid core ctx va need n).1 := by
  induction n generalizing s va with
  | zero => exact h
  | succ n ih =>
    unfold State.translateRange
    split
    · exact kept_of_eq ‹_› (kept_translate h)
    · rename_i t x ht
      have hw := ih (va := va + 4096 - BitVec.ofNat 64 (va.toNat % 4096)) (kept_walkAcquire (sid := sid) (x := x) (kept_of_eq ht (kept_translate h)))
      split
      · exact kept_of_eq ‹_› hw
      · exact kept_of_eq ‹_› hw

theorem kept_markRel {r s : State} {a} (h : Kept r s) : Kept r (s.markRel a) := by
  unfold State.markRel
  dsimp only
  split
  · exact h
  · exact kept_update h ..

theorem kept_markSeen {r s : State} {a at_} (h : Kept r s) : Kept r (s.markSeen a at_) := kept_update h ..

theorem kept_l1Take {r s : State} {core loc line stream} (h : Kept r s) : Kept r (s.l1Take core loc line stream) := kept_update h ..

theorem kept_l1Fill {r s : State} {a} (h : Kept r s) : Kept r (s.l1Fill a) := kept_ite h (kept_l1Take h)

theorem kept_l1Update {r s : State} {a} (h : Kept r s) : Kept r (s.l1Update a) := kept_update h ..

theorem kept_l1Drop {r s : State} {core loc line} (h : Kept r s) : Kept r (s.l1Drop core loc line) := kept_update h ..

theorem kept_dropOlder {r s : State} {core loc line at_} (h : Kept r s) : Kept r (s.dropOlder core loc line at_) := kept_update h ..

theorem kept_passEarly {r s : State} {a} (h : Kept r s) : Kept r (s.passEarly a) := kept_update h ..

theorem kept_wroteAtOnce {r s : State} {a} (h : Kept r s) : Kept r (s.wroteAtOnce a) := kept_markRel (kept_passEarly (kept_dropEarly h))

theorem kept_dropAcc {r s : State} {id} (h : Kept r s) : Kept r (s.dropAcc id) := kept_update h ..

theorem kept_toCore {r s : State} {a} (h : Kept r s) : Kept r (s.toCore a) := kept_update (kept_dropAcc (kept_passEarly (kept_dropEarly (kept_l1Update h)))) ..

theorem kept_noteRel {r s : State} {a} (h : Kept r s) : Kept r (s.noteRel a) := by
  unfold State.noteRel
  split
  · exact kept_ite (kept_update h ..) h
  · exact h

theorem kept_toHome {r s : State} {a} (h : Kept r s) : Kept r (s.toHome a) := by
  have hd : Kept r ((if a.isTag || a.stage ≥ 1 then (if a.isTag then s else (s.l1Update a).dropEarly a.owners a.loc a.pa a.width)
      else (if a.isTag then s else (s.l1Update a).dropEarly a.owners a.loc a.pa a.width).passEarly a).dropAcc a.id) :=
    kept_dropAcc (kept_ite (kept_ite h (kept_dropEarly (kept_l1Update h))) (kept_passEarly (kept_ite h (kept_dropEarly (kept_l1Update h)))))
  unfold State.toHome
  dsimp only
  split
  · exact kept_stores hd id (Memory.set_wf _ _ _) id id
  · exact kept_ite (kept_update hd ..) (kept_markRel (kept_noteRel (kept_writeHome hd)))

theorem kept_passLater {r s : State} {sid id} (h : Kept r s) : Kept r (s.passLater sid id) := kept_update h ..

theorem kept_promote {r s : State} {loc line rels} (h : Kept r s) : Kept r (s.promote loc line rels) := by
  unfold State.promote
  dsimp only
  exact kept_ite h (kept_foldl h (fun _ _ hs => kept_toHome hs) _)

theorem kept_acquireFor {r s : State} {sid a at_ acq} (h : Kept r s) : Kept r (s.acquireFor sid a at_ acq) := by
  unfold State.acquireFor
  split
  · exact kept_ite h (kept_passLater (kept_acquireAt h))
  · exact h

theorem kept_acquireBy {r s : State} {a at_ acq rels} (h : Kept r s) : Kept r (s.acquireBy a at_ acq rels) := by
  unfold State.acquireBy
  dsimp only
  exact kept_foldl (kept_ite (kept_promote h) h) (fun _ _ hs => kept_acquireFor hs) _

theorem kept_noteRead {r s : State} {a at_ acq rels} (h : Kept r s) : Kept r (s.noteRead a at_ acq rels) := kept_foldl h (fun _ _ hs => kept_setSt hs) _

theorem kept_execAtomic {r s : State} {a b} (h : Kept r s) : Kept r (s.execAtomic a b) := by
  unfold State.execAtomic
  dsimp only
  refine kept_ite ?_ ?_
  · refine kept_update ?_ ..
    refine kept_dropAcc ?_
    exact kept_noteRead (kept_acquireBy (kept_passEarly (kept_dropEarly (kept_l1Drop (kept_markRel (kept_noteRel (kept_rmwHome h)))))))
  · refine kept_dropAcc ?_
    exact kept_noteRead (kept_acquireBy (kept_passEarly (kept_dropEarly (kept_l1Drop (kept_markRel (kept_noteRel (kept_rmwHome h)))))))

theorem kept_mergedDone {r s : State} {b} (h : Kept r s) : Kept r (s.mergedDone b) := by
  unfold State.mergedDone
  dsimp only
  exact kept_noteRead (kept_acquireBy (kept_passEarly (kept_dropEarly (kept_markRel (kept_noteRel h)))))

theorem kept_dropMerged {r s : State} {a} (h : Kept r s) : Kept r (s.dropMerged a) := kept_update (kept_foldl h (fun _ _ hs => kept_mergedDone hs) _) ..

theorem kept_settle {r s : State} {a} (h : Kept r s) : Kept r (s.settle a) := by
  unfold State.settle
  dsimp only
  refine kept_ite h ?_
  split
  · exact kept_toHome h
  · exact kept_toHome h
  · refine kept_ite h ?_
    split
    · exact kept_ite h (kept_dropMerged (kept_execAtomic h))
    · exact h
  · exact h

theorem kept_flush {r s : State} {p} (h : Kept r s) : Kept r (s.flush p) := kept_foldl h (fun _ _ hs => kept_settle hs) _

theorem kept_flushItem {r s : State} {uid} (h : Kept r s) : Kept r (s.flushItem uid) := by
  unfold State.flushItem
  dsimp only
  exact kept_flush h

theorem kept_putVa {r s : State} {ctx va bs} (h : Kept r s) : Kept r (s.putVa ctx va bs) := by
  induction bs generalizing s va with
  | nil => exact h
  | cons b bs ih =>
    unfold State.putVa
    refine ih ?_
    split
    · exact kept_writeHome h
    · exact h

theorem kept_putLines {r s : State} {ctx va ls} (h : Kept r s) : Kept r (s.putLines ctx va ls) := by
  induction ls generalizing s va with
  | nil => exact h
  | cons l ls ih =>
    unfold State.putLines
    refine ih ?_
    split
    · exact kept_ite (kept_update (kept_writeHome h) ..) (kept_writeHome h)
    · exact h

theorem kept_setInuse {r s : State} {ctx savebase h' b} (h : Kept r s) : Kept r (s.setInuse ctx savebase h' b) := by
  unfold State.setInuse
  dsimp only
  exact kept_putVa h

theorem kept_writeRecord {r s : State} {uid stateCode frank} (h : Kept r s) : Kept r (s.writeRecord uid stateCode frank) := by
  unfold State.writeRecord
  dsimp only
  exact kept_putLines h

theorem kept_markWriting {r s : State} {uid} (h : Kept r s) : Kept r (s.markWriting uid) := by
  unfold State.markWriting
  dsimp only
  exact kept_ite h (kept_putVa h)

theorem kept_rehome {r s : State} {uid} (h : Kept r s) : Kept r (s.rehome uid) := kept_update h ..

theorem kept_restoreReg {r s : State} {st i} (h : Kept r s) : Kept r (s.restoreReg st i) := kept_setRow h

theorem kept_payOne {r s : State} {force sid o} (h : Kept r s) : KeptSome r (s.payOne force sid o) := by
  unfold State.payOne
  dsimp only
  refine keptSome_ite ?_ ?_
  · refine keptSome_some ?_
    refine kept_foldl ?_ (fun _ _ hs4 => kept_setSt hs4) _
    refine kept_ite (kept_writeS h) ?_
    refine kept_ite ?_ (kept_writeV (kept_foldl h (fun _ _ hs3 => kept_ite (kept_fillSaved hs3) hs3) _))
    refine kept_foldl ?_ (fun _ _ hs1 => kept_foldl hs1 (fun _ _ hs2 => kept_markPoison hs2) _) _
    exact kept_writeV (kept_foldl h (fun _ _ hs => kept_ite (kept_fillSaved hs) hs) _)
  · refine keptSome_map ?_ (fun _ hs10 => kept_foldl hs10 (fun _ _ hs11 => kept_setSt hs11) _)
    refine kept_grow h (fun _ hs5 => ?_)
    refine kept_ite (kept_writeS hs5) ?_
    refine kept_ite ?_ (kept_writeV (kept_foldl hs5 (fun _ _ hs9 => kept_ite (kept_fillSaved hs9) hs9) _))
    refine kept_foldl ?_ (fun _ _ hs7 => kept_foldl hs7 (fun _ _ hs8 => kept_markPoison hs8) _) _
    exact kept_writeV (kept_foldl hs5 (fun _ _ hs6 => kept_ite (kept_fillSaved hs6) hs6) _)

theorem kept_payOwed {r s : State} {force sid} (h : Kept r s) : Kept r (s.payOwed force sid) := kept_foldl h (fun _ _ hs => kept_getD (kept_payOne hs) hs) _

theorem kept_owe {r s : State} {dues} (h : Kept r s) : Kept r (s.owe dues) := by
  unfold State.owe
  dsimp only
  exact kept_foldl (kept_foldl h (fun _ _ hs => kept_setSt hs) _) (fun _ _ hs1 => kept_payOwed hs1) _

theorem kept_payAll {r s : State} {uid} (h : Kept r s) : Kept r (s.payAll uid) := kept_foldl h (fun _ _ hs => kept_payOwed hs) _

theorem kept_restoreAll {r s : State} {uid} (h : Kept r s) : Kept r (s.restoreAll uid) := kept_foldl h (fun _ _ hs => kept_foldl hs (fun _ _ hs1 => kept_restoreReg hs1) _) _

theorem kept_trySave {r s : State} {uid} (h : Kept r s) : Kept r (s.trySave uid) := by
  unfold State.trySave
  dsimp only
  refine kept_ite h ?_
  refine kept_ite (kept_markWriting h) ?_
  refine kept_update ?_ ..
  refine kept_foldl ?_ (fun _ _ hs => kept_handover hs) _
  exact kept_writeRecord (kept_setIt (kept_update (kept_restoreAll (kept_flushItem (kept_payAll h))) ..))

theorem kept_msix {r s : State} {q} (h : Kept r s) : Kept r (s.msix q) := kept_update h ..

theorem kept_setQueue {r s : State} {q f} (h : Kept r s) : Kept r (s.setQueue q f) := kept_update h ..

theorem kept_completeLaunch {r s : State} {lid} (h : Kept r s) : Kept r (s.completeLaunch lid) := by
  unfold State.completeLaunch
  dsimp only
  refine kept_update ?_ ..
  refine kept_setQueue ?_
  refine kept_msix ?_
  refine kept_ite h ?_
  split
  · exact kept_ite h (kept_rmwHome h)
  · exact h

theorem kept_resumeParent {r s : State} {uid dest} (h : Kept r s) : Kept r (s.resumeParent uid dest) := by
  unfold State.resumeParent
  dsimp only
  exact kept_owe (kept_foldl (kept_foldl (kept_setIt (kept_fresh h)) (fun _ _ hs => kept_setSt hs) _) (fun _ _ hs1 => kept_acquire hs1) _)

theorem kept_itemGone {r s : State} {it} (h : Kept r s) : Kept r (s.itemGone it) := by
  unfold State.itemGone
  dsimp only
  refine kept_ite ?_ ?_
  · refine kept_completeLaunch ?_
    refine kept_foldl ?_ (fun _ _ hs => kept_handover hs) _
    split
    · split
      · exact kept_setTemplate h
      · refine kept_ite (kept_setTemplate h) ?_
        split
        · split
          · exact kept_update (kept_setTemplate h) ..
          · exact kept_ite (kept_resumeParent (kept_update (kept_setTemplate h) ..)) (kept_setIt (kept_update (kept_setTemplate h) ..))
        · exact kept_setTemplate h
    · exact kept_setLa h
  · refine kept_foldl ?_ (fun _ _ hs1 => kept_handover hs1) _
    split
    · split
      · exact kept_setTemplate h
      · refine kept_ite (kept_setTemplate h) ?_
        split
        · split
          · exact kept_update (kept_setTemplate h) ..
          · exact kept_ite (kept_resumeParent (kept_update (kept_setTemplate h) ..)) (kept_setIt (kept_update (kept_setTemplate h) ..))
        · exact kept_setTemplate h
    · exact kept_setLa h

theorem kept_removeItem {r s : State} {uid} (h : Kept r s) : Kept r (s.removeItem uid) := kept_update (kept_flushItem h) ..

theorem kept_reportExit {r s : State} {it} (h : Kept r s) : Kept r (s.reportExit it) := kept_update h ..

theorem kept_endItem {r s : State} {uid} (h : Kept r s) : Kept r (s.endItem uid) := by
  unfold State.endItem
  dsimp only
  exact kept_itemGone (kept_setInuse (kept_putVa (kept_reportExit (kept_removeItem h))))

theorem kept_beginOps {r s : State} {uid} (h : Kept r s) : Kept r (s.beginOps uid) := kept_setIt h

theorem kept_faultReport {r s : State} {uid frank} (h : Kept r s) : Kept r (s.faultReport uid frank) := kept_update (kept_putVa (kept_writeRecord (kept_setIt (kept_update h ..)))) ..

theorem kept_tryEnd {r s : State} {uid} (h : Kept r s) : Kept r (s.tryEnd uid) := by
  unfold State.tryEnd
  dsimp only
  split
  · refine kept_ite (kept_markWriting h) ?_
    exact kept_ite (kept_ite h (kept_faultReport h)) (kept_itemGone (kept_reportExit (kept_removeItem (kept_ite h (kept_faultReport h)))))
  · exact h

theorem kept_faultEnd {r s : State} {uid frank} (h : Kept r s) : Kept r (s.faultEnd uid frank) := by
  unfold State.faultEnd
  dsimp only
  exact kept_ite h (kept_ite (kept_update h ..) (kept_tryEnd (kept_beginOps (kept_update (kept_setIt h) ..))))

theorem kept_trapEnds {r s : State} {sid} (h : Kept r s) : Kept r (s.trapEnds sid) := by
  unfold State.trapEnds
  dsimp only
  exact kept_faultEnd (kept_ite h (kept_update h ..))

theorem kept_ship {r s : State} {st} (h : Kept r s) : Kept r (s.ship st) := by
  unfold State.ship
  dsimp only
  split
  · split
    · exact kept_update h ..
    · exact kept_ite (kept_update (kept_update h ..) ..) (kept_setCall (kept_update h ..))
  · exact h

theorem kept_enterTrap {r s : State} {sid} (h : Kept r s) : Kept r (s.enterTrap sid) := by
  unfold State.enterTrap
  dsimp only
  exact kept_ite (kept_trapEnds h) (kept_setSt h)

theorem kept_deliver {r s : State} {sid t trpc defer tret} (h : Kept r s) : Kept r (s.deliver sid t trpc defer tret) := by
  unfold State.deliver
  dsimp only
  refine kept_ite (kept_ship h) ?_
  exact kept_ite (kept_trySave (kept_setIt h)) (kept_ite (kept_trapEnds (kept_setSt h)) (kept_enterTrap (kept_setSt h)))

theorem kept_trap {r s : State} {sid t} (h : Kept r s) : Kept r (s.trap sid t) := kept_deliver h

theorem kept_setRound {r s : State} {uid crew c f} (h : Kept r s) : Kept r (s.setRound uid crew c f) := kept_setIt h

theorem kept_setColl {r s : State} {uid crew f} (h : Kept r s) : Kept r (s.setColl uid crew f) := kept_setIt h

theorem kept_syncFrom {r s : State} {sid scope acq} (h : Kept r s) : Kept r (s.syncFrom sid scope acq) := kept_ite (kept_acquireCore h) (kept_acquire h)

theorem kept_addFault {r s : State} {g t} (h : Kept r s) : Kept r (s.addFault g t) := kept_setSt h

theorem kept_checkPool {r s : State} {uid gid} (h : Kept r s) : Kept r (s.checkPool uid gid) := by
  unfold State.checkPool
  dsimp only
  split
  · exact h
  · exact kept_beginOps (kept_foldl (kept_setIt h) (fun _ _ hs => kept_addFault hs) _)
  · exact kept_ite (kept_beginOps (kept_setIt h)) h

theorem kept_takeDest {r s : State} {uid p d} (h : Kept r s) : KeptSome r (s.takeDest uid p d) := by
  unfold State.takeDest
  dsimp only
  exact keptSome_ite (kept_grow h (fun _ hs => kept_setSlot hs)) (keptSome_some (kept_setSlot h))

theorem kept_issueOp {r s : State} {uid p gid word signers} (h : Kept r s) : Kept r (s.issueOp uid p gid word signers) := by
  unfold State.issueOp
  dsimp only
  split
  · exact kept_getD (kept_takeDest (kept_setRank (kept_update h ..))) (kept_setRank (kept_update h ..))
  · exact kept_setRank (kept_update h ..)

theorem kept_completeColl {r s : State} {uid crew} (h : Kept r s) : Kept r (s.completeColl uid crew) := by
  unfold State.completeColl
  dsimp only
  split
  · exact h
  · split
    · exact h
    · refine kept_ite h ?_
      split
      · refine kept_foldl ?_ (fun _ _ hs1 => kept_setSt hs1) _
        exact kept_foldl (kept_fresh (kept_setColl h)) (fun _ _ hs => kept_syncFrom (kept_setSt hs)) _
      · exact kept_owe (kept_foldl (kept_fresh (kept_setColl h)) (fun _ _ hs2 => kept_syncFrom (kept_setSt hs2)) _)
      · exact kept_owe (kept_foldl (kept_fresh (kept_setColl h)) (fun _ _ hs3 => kept_syncFrom (kept_setSt hs3)) _)
      · exact kept_foldl (kept_fresh (kept_setColl h)) (fun _ _ hs4 => kept_syncFrom (kept_setSt hs4)) _

theorem kept_completeRound {r s : State} {uid crew c} (h : Kept r s) : Kept r (s.completeRound uid crew c) := by
  unfold State.completeRound
  dsimp only
  split
  · exact h
  · split
    · exact h
    · refine kept_ite h ?_
      refine kept_ite ?_ (kept_foldl (kept_setRound h) (fun _ _ hs2 => kept_syncFrom (kept_setSt hs2)) _)
      refine kept_beginOps ?_
      refine kept_checkPool ?_
      refine kept_foldl ?_ (fun _ _ hs1 => kept_ite (kept_issueOp hs1) hs1) _
      exact kept_fresh (kept_foldl (kept_setRound h) (fun _ _ hs => kept_syncFrom (kept_setSt hs)) _)

theorem kept_leaveCrew {r s : State} {uid crew sid} (h : Kept r s) : Kept r (s.leaveCrew uid crew sid) := by
  unfold State.leaveCrew
  dsimp only
  exact kept_completeColl (kept_setColl (kept_foldl h (fun _ _ hs => kept_completeRound (kept_setRound hs)) _))

theorem kept_moveTo {r s : State} {sid crew} (h : Kept r s) : Kept r (s.moveTo sid crew) := by
  unfold State.moveTo
  dsimp only
  exact kept_ite h (kept_leaveCrew (kept_setSt h))

theorem kept_leave {r s : State} {sid} (h : Kept r s) : Kept r (s.leave sid) := by
  unfold State.leave
  dsimp only
  exact kept_ite (kept_leaveCrew h) (kept_moveTo h)

theorem kept_endStrand {r s : State} {sid} (h : Kept r s) : Kept r (s.endStrand sid) := by
  unfold State.endStrand
  dsimp only
  refine kept_ite ?_ ?_
  · refine kept_endItem ?_
    refine kept_ite ?_ (kept_setRound (kept_leaveCrew (kept_setSt h)))
    refine kept_ite ?_ (kept_setIt (kept_update (kept_setRound (kept_leaveCrew (kept_setSt h))) ..))
    exact kept_setRow (kept_setIt (kept_update (kept_setRound (kept_leaveCrew (kept_setSt h))) ..))
  · refine kept_ite ?_ (kept_setRound (kept_leaveCrew (kept_setSt h)))
    refine kept_ite ?_ (kept_setIt (kept_update (kept_setRound (kept_leaveCrew (kept_setSt h))) ..))
    exact kept_setRow (kept_setIt (kept_update (kept_setRound (kept_leaveCrew (kept_setSt h))) ..))

theorem kept_onWait {r s : State} {w sid} (h : Kept r s) : Kept r (s.onWait w sid) := by
  unfold State.onWait
  dsimp only
  exact kept_ite h (kept_acquire h)

theorem kept_jump {r s : State} {sid pc} (h : Kept r s) : Kept r (s.jump sid pc) := kept_setSt h

theorem kept_retire {r s : State} {sid w} (h : Kept r s) : Kept r (s.retire sid w) := kept_jump h

theorem kept_setPark {r s : State} {sid p} (h : Kept r s) : Kept r (s.setPark sid p) := kept_setSt h

theorem kept_flow {r s : State} {sid w f} (h : Kept r s) : Kept r (s.flow sid w f) := by
  unfold State.flow
  split
  · exact kept_retire h
  · exact h
  · exact kept_jump h
  · split
    · exact kept_ship h
    · exact kept_setPark h
  · exact kept_setPark (kept_retire h)
  · exact kept_trap h
  · exact h

theorem kept_act {r s : State} {sid w v} {body : State → Strand → State × Machine.Flow} (h : Kept r s) (hbody : ∀ u x1, Kept r u → Kept r (body u x1).1) : Kept r (s.act sid w v body) := by
  unfold State.act
  dsimp only
  split
  · exact kept_retire h
  · exact h
  · exact kept_trap h
  · exact kept_ship h
  · exact kept_flow (hbody _ _ (kept_onWait h))

theorem kept_each {r s : State} {op w} {body : State → Strand → State × Machine.Flow} (h : Kept r s) (hbody : ∀ u x1, Kept r u → Kept r (body u x1).1) : Kept r (s.each op w body) :=
  kept_foldl h (fun _ _ hs => kept_act hs (fun _ _ hs1 => hbody _ _ hs1)) _

theorem kept_putS {r s : State} {st d vals n} (h : Kept r s) : KeptSome r (s.putS st d vals n) := kept_grow h (fun _ hs => kept_foldl hs (fun _ _ hs1 => kept_writeS hs1) _)

theorem kept_putV {r s : State} {st d writers hint n} (h : Kept r s) : KeptSome r (s.putV st d writers hint n) :=
  keptSome_ite (keptSome_some (kept_writeV h)) (kept_grow h (fun _ hs => kept_writeV hs))

theorem kept_finishRow {r s0 s : State} {w n shape} {go : State → Nat → List Word → State} {row} (h : Kept r s) (hgo : ∀ u sid ws, Kept r u → Kept r (go u sid ws)) :
    Kept r (State.finishRow s0 s w n shape go row) := by
  cases row with
  | nil => exact h
  | cons x row =>
    have hput : KeptSome r (match w.d with
        | .v d => s.putV x.1 d.toNat (x :: row) (shape s0 x.1 x.2) n
        | _ => some s) := by
      split
      · exact kept_putV h
      · exact keptSome_some h
    unfold State.finishRow
    dsimp only
    split
    · exact kept_foldl (hput _ ‹_›) (fun _ _ hs => hgo _ _ _ hs) _
    · exact kept_foldl h (fun _ _ hs => kept_setPark hs) _

theorem kept_aluWith {r s : State} {op w n shape f} {go : State → Nat → List Word → State} (h : Kept r s) (hgo : ∀ u x1 x2, Kept r u → Kept r (go u x1 x2)) : Kept r (s.aluWith op w n shape f go) := by
  unfold State.aluWith
  dsimp only
  split
  · refine kept_foldl ?_ (fun _ _ hs2 => ?_) _
    · refine kept_foldl h (fun _ _ hs => ?_) _
      split
      · exact kept_onWait hs
      · exact kept_act hs (fun _ _ hs1 => hs1)
    · split
      · exact hgo _ _ _ (kept_putS hs2 _ ‹_›)
      · exact kept_setPark hs2
  · refine kept_foldl ?_ (fun _ _ hs5 => hgo _ _ _ (kept_setSt hs5)) _
    refine kept_foldl h (fun _ _ hs3 => ?_) _
    split
    · exact kept_onWait hs3
    · exact kept_act hs3 (fun _ _ hs4 => hs4)
  · refine kept_foldl ?_ (fun _ _ hs8 => kept_ite (kept_finishRow hs8 (fun _ _ _ hs9 => hgo _ _ _ hs9)) hs8) _
    refine kept_foldl h (fun _ _ hs6 => ?_) _
    split
    · exact kept_onWait hs6
    · exact kept_act hs6 (fun _ _ hs7 => hs7)

theorem kept_alu {r s : State} {op w n shape f} (h : Kept r s) : Kept r (s.alu op w n shape f) := kept_aluWith h (fun _ _ _ hs => kept_retire hs)

theorem kept_prepDest {r s : State} {st regs} (h : Kept r s) : KeptSome r (s.prepDest st regs) := by
  unfold State.prepDest
  dsimp only
  exact keptSome_map (keptSome_ite (keptSome_some (kept_setRow h)) (kept_grow h (fun _ hs => kept_setRow hs))) (fun _ hs1 => kept_markEmpty hs1)

theorem kept_prepUniform {r s : State} {st group d vals} (h : Kept r s) : KeptSome r (s.prepUniform st group d vals) := by
  unfold State.prepUniform
  dsimp only
  exact keptSome_map (keptSome_ite (keptSome_some (kept_setRow h)) (kept_grow h (fun _ hs => kept_setRow hs))) (fun _ hs1 => kept_foldl hs1 (fun _ _ hs2 => kept_markEmpty hs2) _)

theorem kept_prepShared {r s : State} {st group regs} (h : Kept r s) : KeptSome r (s.prepShared st group regs) := by
  unfold State.prepShared
  dsimp only
  exact keptSome_map (keptSome_ite (keptSome_some (kept_setRow h)) (kept_grow h (fun _ hs => kept_setRow hs))) (fun _ hs1 => kept_foldl hs1 (fun _ _ hs2 => kept_markEmpty hs2) _)

theorem kept_settled {r s : State} {uid} (h : Kept r s) : Kept r (s.settled uid) := kept_trySave (kept_tryEnd h)

theorem kept_fill {r s : State} {sid d vals bad} (h : Kept r s) : Kept r (s.fill sid d vals bad) := by
  unfold State.fill
  dsimp only
  split
  · exact h
  · exact kept_ite (kept_owe (kept_fresh h)) (kept_ite (kept_foldl (kept_writeV h) (fun _ _ hs => kept_markPoison hs) _) (kept_writeV h))

theorem kept_longOp {r s : State} {op w n f} (h : Kept r s) : Kept r (s.longOp op w n f) := by
  unfold State.longOp
  dsimp only
  split
  · refine kept_foldl ?_ (fun _ _ hs2 => ?_) _
    · refine kept_foldl h (fun _ _ hs => ?_) _
      split
      · exact kept_onWait hs
      · exact kept_act hs (fun _ _ hs1 => hs1)
    · refine kept_ite ?_ ?_
      · refine kept_ite ?_ hs2
        split
        · exact kept_foldl hs2 (fun _ _ hs3 => kept_setPark hs3) _
        · exact kept_foldl (kept_update (kept_fresh (kept_prepUniform hs2 _ ‹_›)) ..) (fun _ _ hs4 => kept_retire hs4) _
      · split
        · exact kept_setPark hs2
        · exact kept_retire (kept_update (kept_fresh (kept_prepDest hs2 _ ‹_›)) ..)
  · refine kept_foldl h (fun _ _ hs5 => ?_) _
    split
    · exact kept_onWait hs5
    · exact kept_act hs5 (fun _ _ hs6 => hs6)

theorem kept_finishLat {r s : State} {l} (h : Kept r s) : Kept r (s.finishLat l) := by
  unfold State.finishLat
  dsimp only
  split
  · exact kept_update h ..
  · refine kept_settled ?_
    split
    · exact kept_fill (kept_update h ..)
    · exact kept_writeV (kept_update h ..)

theorem kept_fetchElems {r s : State} {sid core ctx va n} (h : Kept r s) : Kept r (s.fetchElems sid core ctx va n).1 := by
  induction n generalizing s va with
  | zero => exact h
  | succ n ih =>
    unfold State.fetchElems
    split
    · exact kept_of_eq ‹_› (kept_translate h)
    · rename_i t x ht
      have hw : Kept r (t.walkAcquire sid x) := kept_walkAcquire (kept_of_eq ht (kept_translate h))
      refine kept_ite_fst hw ?_
      split
      · exact kept_of_eq ‹_› (ih hw)
      · exact kept_of_eq ‹_› (ih hw)

theorem kept_fetchUnit {r s : State} {st} (h : Kept r s) : Kept r (s.fetchUnit st).1 := by
  unfold State.fetchUnit
  dsimp only
  split
  · exact kept_of_eq ‹_› (kept_fetchElems h)
  · refine kept_ite_fst ?_ (kept_of_eq ‹_› (kept_fetchElems h))
    split
    · exact kept_of_eq ‹_› (kept_fetchElems (kept_of_eq ‹_› (kept_fetchElems h)))
    · exact kept_of_eq ‹_› (kept_fetchElems (kept_of_eq ‹_› (kept_fetchElems h)))

theorem kept_fetchFault {r s : State} {t sid} (h : Kept r s) : Kept r (s.fetchFault t sid) := by
  unfold State.fetchFault
  dsimp only
  exact kept_ite (kept_ship h) (kept_ite (kept_setPark h) (kept_trap h))

end Sys2Proof.Proofs
end

section
/-! SUPPORT. What the words and events of strands leave of the machine, from remote calls to the floating-point words: byte stores in canonical form, and the rest of Kept (O56). -/

namespace Sys2Proof.Proofs
open Sys2Proof Sys2Proof.Machine Sys2Proof.Safety Sys2Proof.Laws

theorem kept_setCaller {r s : State} {sid f} (h : Kept r s) : Kept r (s.setCaller sid f) := kept_update (kept_setSt h) ..

theorem kept_replyRegs {r s : State} {c vals} (h : Kept r s) : Kept r (s.replyRegs c vals) := by
  unfold State.replyRegs
  dsimp only
  split
  · exact kept_setCaller h
  · refine kept_ite (kept_ite (kept_acquire h) (kept_fill (kept_acquire h))) ?_
    exact kept_fillSaved (kept_ite (kept_acquire h) (kept_fill (kept_acquire h)))

theorem kept_joinsDue {r s : State} {uid crew creg} (h : Kept r s) : Kept r (s.joinsDue uid crew creg) := by
  unfold State.joinsDue
  split
  · exact kept_ite h (kept_update h ..)
  · exact h

theorem kept_completeCall {r s : State} {id vals status} (h : Kept r s) : Kept r (s.completeCall id vals status) := by
  unfold State.completeCall
  dsimp only
  split
  · exact h
  · refine kept_ite h ?_
    refine kept_ite (kept_setCall h) ?_
    refine kept_ite ?_ ?_
    · refine kept_writeRecord ?_
      refine kept_setCall ?_
      split
      · exact kept_setCaller (kept_replyRegs h)
      · exact kept_joinsDue (kept_setIt (kept_setCaller (kept_replyRegs h)))
    · refine kept_setCall ?_
      split
      · exact kept_setCaller (kept_replyRegs h)
      · exact kept_joinsDue (kept_setIt (kept_setCaller (kept_replyRegs h)))

theorem kept_dropCall {r s : State} {id} (h : Kept r s) : Kept r (s.dropCall id) := kept_update h ..

theorem kept_abandonCall {r s : State} {id status} (h : Kept r s) : Kept r (s.abandonCall id status) := by
  unfold State.abandonCall
  dsimp only
  split
  · exact h
  · refine kept_ite h ?_
    split
    · exact kept_setIt (kept_dropCall (kept_completeCall h))
    · exact kept_dropCall (kept_completeCall h)
    · exact kept_ite (kept_dropCall (kept_completeCall h)) (kept_completeCall h)
    · exact kept_completeCall h

theorem kept_landReply {r s : State} {c vals status} (h : Kept r s) : Kept r (s.landReply c vals status) := kept_dropCall (kept_ite (kept_abandonCall h) (kept_completeCall h))

theorem kept_returnCall {r s : State} {st vals} (h : Kept r s) : Kept r (s.returnCall st vals) := by
  unfold State.returnCall
  dsimp only
  split
  · exact kept_endStrand h
  · exact kept_ite (kept_update (kept_setCall h) ..) (kept_endStrand (kept_landReply h))

theorem kept_execRemoteFrameStart {r s : State} {call} (h : Kept r s) : KeptNext r (execRemoteFrameStart call s) := by
  unfold execRemoteFrameStart
  dsimp only
  refine keptNext ?_
  split
  · exact h
  · exact kept_ite (kept_ite (kept_setCall (kept_update (kept_fresh h) ..)) (kept_setCall h)) h

theorem kept_startFinishing {r s : State} {c f} (h : Kept r s) : KeptSome r (s.startFinishing c f) := by
  unfold State.startFinishing
  dsimp only
  split
  · exact keptSome_none
  · split
    · exact keptSome_none
    · refine kept_grow h (fun _ hs => ?_)
      refine kept_setCall ?_
      refine kept_foldl ?_ (fun _ _ hs1 => ?_) _
      · refine kept_rehome ?_
        refine kept_update ?_ ..
        refine kept_setIt ?_
        split
        · exact kept_setRank (kept_update hs ..)
        · exact kept_update hs ..
      · refine kept_ite ?_ (kept_ite (kept_markEmpty (kept_writeV hs1)) (kept_writeV hs1))
        exact kept_markPoison (kept_ite (kept_markEmpty (kept_writeV hs1)) (kept_writeV hs1))

theorem kept_execFinishingStrandStart {r s : State} {call} (h : Kept r s) : KeptNext r (execFinishingStrandStart call s) := by
  unfold execFinishingStrandStart
  refine keptNext ?_
  split
  · exact h
  · split
    · exact kept_ite (kept_getD (kept_startFinishing h) h) h
    · exact h

theorem kept_execRcallReply {r s : State} {call} (h : Kept r s) : KeptNext r (execRcallReply call s) := by
  unfold execRcallReply
  refine keptNext ?_
  split
  · exact h
  · split
    · exact kept_landReply h
    · exact h

theorem kept_execRcallTimeout {r s : State} {call} (h : Kept r s) : KeptNext r (execRcallTimeout call s) := by
  unfold execRcallTimeout
  refine keptNext ?_
  split
  · exact h
  · exact kept_ite (kept_abandonCall h) h

theorem kept_mismatchAll {r s : State} {gs pc} (h : Kept r s) : Kept r (s.mismatchAll gs pc) := kept_foldl h (fun _ _ hs => kept_setSt (kept_addFault hs)) _

theorem kept_sign {r s : State} {sid c op w guard f} (h : Kept r s) : Kept r (s.sign sid c op w guard f) := by
  unfold State.sign
  dsimp only
  split
  · exact h
  · refine kept_ite (kept_trap (kept_setRound h)) ?_
    refine kept_ite h ?_
    exact kept_ite h (kept_ite (kept_trap (kept_setRound (kept_mismatchAll h))) (kept_completeRound (kept_flow (kept_setRound h))))

theorem kept_eachSign {r s : State} {op w c f pre} (h : Kept r s) : Kept r (s.eachSign op w c f pre) := by
  unfold State.eachSign
  dsimp only
  refine kept_foldl h (fun _ _ hs => ?_) _
  split
  · refine kept_ite (kept_retire hs) ?_
    split
    · exact kept_flow hs
    · exact kept_sign hs
  · split
    · exact kept_flow (kept_onWait hs)
    · exact kept_sign (kept_onWait hs)
  · exact kept_act hs (fun _ _ hs1 => hs1)

theorem kept_collect {r s : State} {sid op w guard val aux} (h : Kept r s) : Kept r (s.collect sid op w guard val aux) := by
  unfold State.collect
  dsimp only
  split
  · exact h
  · refine kept_ite (kept_trap (kept_setColl h)) ?_
    refine kept_ite h ?_
    refine kept_ite h ?_
    refine kept_ite ?_ (kept_completeColl (kept_flow (kept_setColl h)))
    exact kept_ite (kept_trap (kept_setColl (kept_mismatchAll h))) (kept_retire (kept_setColl (kept_mismatchAll h)))

theorem kept_eachColl {r s : State} {op w f} (h : Kept r s) : Kept r (s.eachColl op w f) := by
  unfold State.eachColl
  dsimp only
  refine kept_foldl h (fun _ _ hs => ?_) _
  split
  · exact kept_ite (kept_retire hs) (kept_collect hs)
  · exact kept_collect (kept_onWait hs)
  · exact kept_act hs (fun _ _ hs1 => hs1)

theorem kept_signFreeze {r s : State} {sid op w} (h : Kept r s) : Kept r (s.signFreeze sid op w) := by
  unfold State.signFreeze
  dsimp only
  split
  · exact kept_leave h
  · refine kept_ite (kept_trap (kept_setRound (kept_leave h))) ?_
    exact kept_ite (kept_trap (kept_setRound (kept_mismatchAll (kept_leave h)))) (kept_flow (kept_setRound (kept_leave h)))

theorem kept_completeFreeze {r s : State} {uid} (h : Kept r s) : Kept r (s.completeFreeze uid) := by
  unfold State.completeFreeze
  dsimp only
  refine kept_ite (kept_foldl (kept_setRound h) (fun _ _ hs => kept_deliver (kept_setPark hs)) _) ?_
  refine kept_ite (kept_endItem (kept_ite (kept_flushItem (kept_setRound h)) (kept_update (kept_flushItem (kept_setRound h)) ..))) ?_
  exact kept_ite (kept_resumeParent (kept_flushItem (kept_setRound h))) (kept_setIt (kept_update (kept_flushItem (kept_setRound h)) ..))

theorem kept_callTo {r s : State} {st w target} (h : Kept r s) : Kept r (s.callTo st w target).1 := kept_ite_fst h (kept_setSt h)

theorem kept_execBra {r s : State} {w} (h : Kept r s) : KeptNext r (execBra w s) := keptNext (kept_each h (fun _ _ hs => hs))

theorem kept_execBrx {r s : State} {w} (h : Kept r s) : KeptNext r (execBrx w s) := by
  unfold execBrx
  dsimp only
  exact keptNext (kept_each h (fun _ _ hs => kept_ite_fst hs hs))

theorem kept_execCall {r s : State} {w} (h : Kept r s) : KeptNext r (execCall w s) := keptNext (kept_each h (fun _ _ hs => kept_callTo hs))

theorem kept_execCallx {r s : State} {w} (h : Kept r s) : KeptNext r (execCallx w s) := by
  unfold execCallx
  dsimp only
  exact keptNext (kept_each h (fun _ _ hs => kept_ite_fst hs (kept_callTo hs)))

theorem kept_execRet {r s : State} {w} (h : Kept r s) : KeptNext r (execRet w s) := by
  unfold execRet
  refine keptNext ?_
  refine kept_each h (fun _ _ hs => ?_)
  split
  · exact hs
  · exact kept_setSt hs

theorem kept_execExit {r s : State} {w} (h : Kept r s) : KeptNext r (execExit w s) := by
  unfold execExit
  refine keptNext ?_
  refine kept_each h (fun _ _ hs => ?_)
  refine kept_ite_fst hs ?_
  split
  · exact kept_endStrand hs
  · exact kept_ite_fst (kept_returnCall hs) hs

theorem kept_execNop {r s : State} {w} (h : Kept r s) : KeptNext r (execNop w s) := keptNext (kept_each h (fun _ _ hs => hs))

theorem kept_yieldOf {r s : State} {sid} (h : Kept r s) : Kept r (s.yieldOf sid) := kept_setSt h

theorem kept_execYield {r s : State} {w} (h : Kept r s) : KeptNext r (execYield w s) := keptNext (kept_each h (fun _ _ hs => kept_yieldOf hs))

theorem kept_execSleep {r s : State} {w} (h : Kept r s) : KeptNext r (execSleep w s) := by
  unfold execSleep
  dsimp only
  exact keptNext (kept_each h (fun _ _ hs => kept_ite_fst (kept_yieldOf hs) hs))

theorem kept_execSleepWake {r s : State} {sid} (h : Kept r s) : KeptNext r (execSleepWake sid s) := by
  unfold execSleepWake
  refine keptNext ?_
  split
  · exact kept_ite (kept_setPark h) h
  · exact h

theorem kept_execDbnz {r s : State} {w} (h : Kept r s) : KeptNext r (execDbnz w s) := keptNext (kept_aluWith h (fun _ _ _ hs => kept_ite (kept_retire hs) (kept_jump hs)))

theorem kept_execJoin {r s : State} {w} (h : Kept r s) : KeptNext r (execJoin w s) := by
  unfold execJoin
  dsimp only
  exact keptNext (kept_each h (fun _ _ hs => kept_ite_fst (kept_moveTo hs) hs))

theorem kept_execLeave {r s : State} {w} (h : Kept r s) : KeptNext r (execLeave w s) := keptNext (kept_each h (fun _ _ hs => kept_leave hs))

theorem kept_execCnew {r s : State} {w} (h : Kept r s) : KeptNext r (execCnew w s) := by
  unfold execCnew
  dsimp only
  exact keptNext (kept_aluWith h (fun _ _ _ hs => kept_retire (kept_ite hs (kept_setIt hs))))

theorem kept_execCfree {r s : State} {w} (h : Kept r s) : KeptNext r (execCfree w s) := by
  unfold execCfree
  dsimp only
  exact keptNext (kept_each h (fun _ _ hs => kept_ite_fst hs (kept_setIt (kept_update (kept_foldl hs (fun _ _ hs1 => kept_moveTo hs1) _) ..))))

theorem kept_execSign {r s : State} {w} (h : Kept r s) : KeptNext r (execSign w s) := keptNext (kept_eachSign h)

theorem kept_execSignW {r s : State} {w} (h : Kept r s) : KeptNext r (execSignW w s) := keptNext (kept_eachSign h)

theorem kept_execCwait {r s : State} {w} (h : Kept r s) : KeptNext r (execCwait w s) := by
  unfold execCwait
  refine keptNext ?_
  refine kept_each h (fun _ _ hs => ?_)
  split
  · exact kept_ite_fst hs hs
  · exact hs

theorem kept_execShfl {r s : State} {w} (h : Kept r s) : KeptNext r (execShfl w s) := keptNext (kept_eachColl h)

theorem kept_execCred {r s : State} {w} (h : Kept r s) : KeptNext r (execCred w s) := keptNext (kept_eachColl h)

theorem kept_execVoteAll {r s : State} {w} (h : Kept r s) : KeptNext r (execVoteAll w s) := keptNext (kept_eachColl h)

theorem kept_execVoteAny {r s : State} {w} (h : Kept r s) : KeptNext r (execVoteAny w s) := keptNext (kept_eachColl h)

theorem kept_execVoteCount {r s : State} {w} (h : Kept r s) : KeptNext r (execVoteCount w s) := keptNext (kept_eachColl h)

theorem kept_execVoteRowmask {r s : State} {w} (h : Kept r s) : KeptNext r (execVoteRowmask w s) := keptNext (kept_eachColl h)

theorem kept_execFreeze {r s : State} {w} (h : Kept r s) : KeptNext r (execFreeze w s) := by
  unfold execFreeze
  dsimp only
  refine keptNext ?_
  refine kept_foldl h (fun _ _ hs => ?_) _
  split
  · exact kept_ite (kept_trap (kept_onWait hs)) (kept_ite (kept_trap (kept_onWait hs)) (kept_signFreeze (kept_onWait hs)))
  · exact kept_act hs (fun _ _ hs1 => hs1)

theorem kept_execFreezeComplete {r s : State} {uid} (h : Kept r s) : KeptNext r (execFreezeComplete uid s) := keptNext (kept_ite (kept_completeFreeze h) h)

theorem kept_ctlAccess {r s : State} {st va need len} (h : Kept r s) : Kept r (s.ctlAccess st va need len).1 := by
  unfold State.ctlAccess
  split
  · exact kept_of_eq ‹_› (kept_access h)
  · exact kept_ite_fst (kept_of_eq ‹_› (kept_access h)) (kept_of_eq ‹_› (kept_access h))

theorem kept_deferPoison {r s : State} {st loc} (h : Kept r s) : Kept r (s.deferPoison st loc).1 := kept_addFault h

theorem kept_execLaunch {r s : State} {w} (h : Kept r s) : KeptNext r (execLaunch w s) := by
  unfold execLaunch
  dsimp only
  refine keptNext ?_
  refine kept_each h (fun _ _ hs => ?_)
  refine kept_ite_fst hs ?_
  split
  · exact kept_of_eq ‹_› (kept_ctlAccess hs)
  · refine kept_ite_fst (kept_of_eq ‹_› (kept_ctlAccess hs)) ?_
    refine kept_ite_fst (kept_of_eq ‹_› (kept_ctlAccess hs)) ?_
    refine kept_ite_fst (kept_of_eq ‹_› (kept_ctlAccess hs)) ?_
    exact kept_ite_fst (kept_of_eq ‹_› (kept_ctlAccess hs)) (kept_setQueue (kept_of_eq ‹_› (kept_ctlAccess hs)))

theorem kept_execEvsig {r s : State} {w} (h : Kept r s) : KeptNext r (execEvsig w s) := by
  unfold execEvsig
  dsimp only
  refine keptNext ?_
  refine kept_each h (fun _ _ hs => ?_)
  refine kept_ite_fst hs ?_
  split
  · exact kept_of_eq ‹_› (kept_ctlAccess hs)
  · exact kept_ite_fst (kept_of_eq ‹_› (kept_ctlAccess hs)) (kept_update (kept_setSt (kept_fresh (kept_of_eq ‹_› (kept_ctlAccess hs)))) ..)

theorem kept_execEvwait {r s : State} {w} (h : Kept r s) : KeptNext r (execEvwait w s) := by
  unfold execEvwait
  dsimp only
  refine keptNext ?_
  refine kept_each h (fun _ _ hs => ?_)
  split
  · exact kept_acquire (kept_setSt hs)
  · refine kept_ite_fst hs ?_
    split
    · exact kept_of_eq ‹_› (kept_ctlAccess hs)
    · refine kept_ite_fst (kept_of_eq ‹_› (kept_ctlAccess hs)) ?_
      refine kept_ite_fst (kept_of_eq ‹_› (kept_ctlAccess hs)) ?_
      exact kept_ite_fst (kept_acquire (kept_of_eq ‹_› (kept_ctlAccess hs))) (kept_of_eq ‹_› (kept_ctlAccess hs))

theorem kept_execEvwaitWake {r s : State} {sid} (h : Kept r s) : KeptNext r (execEvwaitWake sid s) := by
  unfold execEvwaitWake
  refine keptNext ?_
  split
  · exact kept_setSt h
  · exact h

theorem kept_execRcall {r s : State} {w} (h : Kept r s) : KeptNext r (execRcall w s) := by
  unfold execRcall
  dsimp only
  refine keptNext ?_
  refine kept_each h (fun _ _ hs => ?_)
  refine kept_ite_fst hs ?_
  refine kept_ite_fst hs ?_
  split
  · exact kept_of_eq ‹_› (kept_ctlAccess hs)
  · refine kept_ite_fst (kept_of_eq ‹_› (kept_ctlAccess hs)) ?_
    split
    · exact kept_of_eq ‹_› (kept_ctlAccess hs)
    · exact kept_update (kept_setIt (kept_setSt (kept_fresh (kept_prepDest (kept_of_eq ‹_› (kept_ctlAccess hs)) _ ‹_›)))) ..

theorem kept_execRret {r s : State} {w} (h : Kept r s) : KeptNext r (execRret w s) := by
  unfold execRret
  refine keptNext ?_
  refine kept_each h (fun _ _ hs => ?_)
  split
  · exact hs
  · exact kept_ite_fst hs (kept_returnCall hs)

theorem kept_execRjoin {r s : State} {w} (h : Kept r s) : KeptNext r (execRjoin w s) := by
  unfold execRjoin
  dsimp only
  refine keptNext ?_
  refine kept_each h (fun _ _ hs => ?_)
  split
  · exact hs
  · exact kept_ite_fst (kept_setSt hs) (kept_ite (kept_setSt hs) (kept_acquire (kept_setSt hs)))

theorem kept_intOp {r s : State} {op f w} (h : Kept r s) : Kept r (intOp op f w s) := by
  unfold intOp
  dsimp only
  exact kept_alu h

theorem kept_bitOp {r s : State} {op f w} (h : Kept r s) : Kept r (bitOp op f w s) := by
  unfold bitOp
  dsimp only
  exact kept_alu h

theorem kept_execIadd {r s : State} {w} (h : Kept r s) : KeptNext r (execIadd w s) := keptNext (kept_intOp h)

theorem kept_execIsub {r s : State} {w} (h : Kept r s) : KeptNext r (execIsub w s) := keptNext (kept_intOp h)

theorem kept_execImul {r s : State} {w} (h : Kept r s) : KeptNext r (execImul w s) := keptNext (kept_intOp h)

theorem kept_execImulh {r s : State} {w} (h : Kept r s) : KeptNext r (execImulh w s) := keptNext (kept_intOp h)

theorem kept_execImad {r s : State} {w} (h : Kept r s) : KeptNext r (execImad w s) := by
  unfold execImad
  dsimp only
  exact keptNext (kept_alu h)

theorem kept_execIdiv {r s : State} {w} (h : Kept r s) : KeptNext r (execIdiv w s) := by
  unfold execIdiv
  dsimp only
  exact keptNext (kept_longOp h)

theorem kept_execIrem {r s : State} {w} (h : Kept r s) : KeptNext r (execIrem w s) := by
  unfold execIrem
  dsimp only
  exact keptNext (kept_longOp h)

theorem kept_execImin {r s : State} {w} (h : Kept r s) : KeptNext r (execImin w s) := keptNext (kept_intOp h)

theorem kept_execImax {r s : State} {w} (h : Kept r s) : KeptNext r (execImax w s) := keptNext (kept_intOp h)

theorem kept_execAnd {r s : State} {w} (h : Kept r s) : KeptNext r (execAnd w s) := keptNext (kept_bitOp h)

theorem kept_execOr {r s : State} {w} (h : Kept r s) : KeptNext r (execOr w s) := keptNext (kept_bitOp h)

theorem kept_execXor {r s : State} {w} (h : Kept r s) : KeptNext r (execXor w s) := keptNext (kept_bitOp h)

theorem kept_execAndn {r s : State} {w} (h : Kept r s) : KeptNext r (execAndn w s) := keptNext (kept_bitOp h)

theorem kept_shiftOp {r s : State} {op f w} (h : Kept r s) : Kept r (shiftOp op f w s) := by
  unfold shiftOp
  dsimp only
  exact kept_alu h

theorem kept_execShl {r s : State} {w} (h : Kept r s) : KeptNext r (execShl w s) := keptNext (kept_shiftOp h)

theorem kept_execShr {r s : State} {w} (h : Kept r s) : KeptNext r (execShr w s) := keptNext (kept_shiftOp h)

theorem kept_execSar {r s : State} {w} (h : Kept r s) : KeptNext r (execSar w s) := keptNext (kept_shiftOp h)

theorem kept_execPopc {r s : State} {w} (h : Kept r s) : KeptNext r (execPopc w s) := keptNext (kept_alu h)

theorem kept_execClz {r s : State} {w} (h : Kept r s) : KeptNext r (execClz w s) := keptNext (kept_alu h)

theorem kept_execBrev {r s : State} {w} (h : Kept r s) : KeptNext r (execBrev w s) := by
  unfold execBrev
  dsimp only
  exact keptNext (kept_alu h)

theorem kept_execBfx {r s : State} {w} (h : Kept r s) : KeptNext r (execBfx w s) := by
  unfold execBfx
  dsimp only
  exact keptNext (kept_alu h)

theorem kept_execBfi {r s : State} {w} (h : Kept r s) : KeptNext r (execBfi w s) := by
  unfold execBfi
  dsimp only
  exact keptNext (kept_alu h)

theorem kept_execIset {r s : State} {w} (h : Kept r s) : KeptNext r (execIset w s) := by
  unfold execIset
  dsimp only
  exact keptNext (kept_alu h)

theorem kept_execSel {r s : State} {w} (h : Kept r s) : KeptNext r (execSel w s) := keptNext (kept_alu h)

theorem kept_execLea {r s : State} {w} (h : Kept r s) : KeptNext r (execLea w s) := by
  unfold execLea
  dsimp only
  exact keptNext (kept_alu h)

theorem kept_execMov {r s : State} {w} (h : Kept r s) : KeptNext r (execMov w s) := keptNext (kept_alu h)

theorem kept_execPack {r s : State} {w} (h : Kept r s) : KeptNext r (execPack w s) := keptNext (kept_alu h)

theorem kept_execUnpk {r s : State} {w} (h : Kept r s) : KeptNext r (execUnpk w s) := keptNext (kept_alu h)

theorem kept_execCrc32c {r s : State} {w} (h : Kept r s) : KeptNext r (execCrc32c w s) := keptNext (kept_alu h)

theorem kept_execLongLatencyComplete {r s : State} {id} (h : Kept r s) : KeptNext r (execLongLatencyComplete id s) := by
  unfold execLongLatencyComplete
  refine keptNext ?_
  split
  · exact h
  · exact kept_finishLat h

theorem kept_execSrd {r s : State} {w} (h : Kept r s) : KeptNext r (execSrd w s) := by
  unfold execSrd
  dsimp only
  exact keptNext (kept_aluWith h (fun _ _ _ hs => kept_retire (kept_ite (kept_setSt hs) hs)))

theorem kept_execPlog {r s : State} {w} (h : Kept r s) : KeptNext r (execPlog w s) := keptNext (kept_alu h)

theorem kept_execPmovNz {r s : State} {w} (h : Kept r s) : KeptNext r (execPmovNz w s) := keptNext (kept_alu h)

theorem kept_execPmovVal {r s : State} {w} (h : Kept r s) : KeptNext r (execPmovVal w s) := keptNext (kept_alu h)

theorem kept_execPmovSave {r s : State} {w} (h : Kept r s) : KeptNext r (execPmovSave w s) := keptNext (kept_alu h)

theorem kept_execPmovLoad {r s : State} {w} (h : Kept r s) : KeptNext r (execPmovLoad w s) := by
  unfold execPmovLoad
  dsimp only
  exact keptNext (kept_each h (fun _ _ hs => kept_setSt hs))

theorem kept_execShape {r s : State} {w} (h : Kept r s) : KeptNext r (execShape w s) := by
  unfold execShape
  dsimp only
  exact keptNext (kept_alu h)

theorem kept_execGen {r s : State} {w} (h : Kept r s) : KeptNext r (execGen w s) := by
  unfold execGen
  dsimp only
  refine keptNext ?_
  refine kept_each h (fun _ _ hs => ?_)
  refine kept_ite_fst hs ?_
  refine kept_ite_fst (kept_setRow hs) ?_
  split
  · exact kept_grow hs (fun _ hs1 => kept_setRow hs1) _ ‹_›
  · exact hs

theorem kept_execFemkTest {r s : State} {w} (h : Kept r s) : KeptNext r (execFemkTest w s) := keptNext (kept_alu h)

theorem kept_execFemkMask {r s : State} {w} (h : Kept r s) : KeptNext r (execFemkMask w s) := keptNext (kept_alu h)

theorem kept_reserve {r s : State} {a} (h : Kept r s) : Kept r (s.reserve a).2 := kept_update h ..

theorem kept_post {r s : State} {a} (h : Kept r s) : Kept r (s.post a) := kept_update h ..

theorem kept_locate {r s : State} {a} (h : Kept r s) : Kept r (s.locate a).1 := by
  unfold State.locate
  dsimp only
  split
  · exact kept_of_eq ‹_› (kept_translate h)
  · refine kept_ite_fst (kept_walkAcquire (kept_of_eq ‹_› (kept_translate h))) ?_
    split
    · exact kept_walkAcquire (kept_of_eq ‹_› (kept_translate h))
    · exact kept_walkAcquire (kept_of_eq ‹_› (kept_translate h))

theorem kept_accept {r s : State} {a} (h : Kept r s) : Kept r (s.accept a).1 := by
  unfold State.accept
  refine kept_ite_fst h ?_
  refine kept_ite_fst h ?_
  split
  · exact kept_of_eq ‹_› (kept_locate h)
  · exact kept_of_eq ‹_› (kept_locate h)
  · exact kept_locate h

theorem kept_await {r s : State} {st regs} (h : Kept r s) : KeptSome r (s.await st regs) := keptSome_ite (keptSome_some h) (kept_prepDest h)

theorem kept_takeRel {r s : State} {a} (h : Kept r s) : Kept r (s.takeRel a).2 := by
  unfold State.takeRel
  split
  · exact kept_ite_snd (kept_setSt h) h
  · exact h

theorem kept_relog {r s : State} {e} (h : Kept r s) : Kept r (s.relog e) := kept_setSt h

theorem kept_pushLog {r s : State} {a t} (h : Kept r s) : Kept r (s.pushLog a t) := kept_relog h

theorem kept_issueAcc {r s : State} {st a regs} (h : Kept r s) : Kept r (s.issueAcc st a regs).1 := by
  unfold State.issueAcc
  dsimp only
  split
  · exact kept_of_eq ‹_› (kept_accept h)
  · exact kept_of_eq ‹_› (kept_accept h)
  · refine kept_ite_fst (kept_ship (kept_of_eq ‹_› (kept_accept h))) ?_
    refine kept_ite_fst (kept_of_eq ‹_› (kept_accept h)) ?_
    split
    · exact kept_of_eq ‹_› (kept_accept h)
    · exact kept_pushLog (kept_takeRel (kept_reserve (kept_await (kept_of_eq ‹_› (kept_accept h)) _ ‹_›)))
  · split
    · exact kept_of_eq ‹_› (kept_accept h)
    · exact kept_post (kept_takeRel (kept_reserve (kept_await (kept_of_eq ‹_› (kept_accept h)) _ ‹_›)))

theorem kept_shareRead {r s : State} {st a row regs} (h : Kept r s) : Kept r (s.shareRead st a row regs).1 := by
  unfold State.shareRead
  dsimp only
  refine kept_ite_fst ?_ (kept_ite_fst h h)
  split
  · exact h
  · exact kept_post (kept_reserve (kept_prepShared h _ ‹_›))

theorem kept_eachLoad {r s : State} {op w n one} {mk : State → Strand → State × Except Machine.Flow Machine.Acc} (h : Kept r s) (hmk : ∀ u x1, Kept r u → Kept r (mk u x1).1) : Kept r (s.eachLoad op w n one mk) := by
  unfold State.eachLoad
  dsimp only
  refine kept_each h (fun _ _ hs => ?_)
  split
  · exact kept_of_eq ‹_› (hmk _ _ hs)
  · refine kept_ite_fst ?_ ?_
    · refine kept_ite_fst (kept_ite_fst (kept_of_eq ‹_› (hmk _ _ hs)) (kept_shareRead (kept_of_eq ‹_› (hmk _ _ hs)))) ?_
      split
      · refine kept_ite_fst (kept_of_eq ‹_› (kept_accept (kept_of_eq ‹_› (hmk _ _ hs)))) ?_
        exact kept_shareRead (kept_of_eq ‹_› (kept_accept (kept_of_eq ‹_› (hmk _ _ hs))))
      · exact kept_issueAcc (kept_of_eq ‹_› (hmk _ _ hs))
    · refine kept_ite_fst ?_ (kept_issueAcc (kept_of_eq ‹_› (hmk _ _ hs)))
      refine kept_ite_fst (kept_of_eq ‹_› (hmk _ _ hs)) ?_
      split
      · exact kept_of_eq ‹_› (hmk _ _ hs)
      · exact kept_post (kept_reserve (kept_await (kept_of_eq ‹_› (hmk _ _ hs)) _ ‹_›))

theorem kept_disable {r s : State} {sid} (h : Kept r s) : Kept r (s.disable sid) := by
  unfold State.disable
  dsimp only
  exact kept_endStrand (kept_setSt (kept_update (kept_setIt h) ..))

theorem kept_spad {r s : State} {st ea n} (h : Kept r s) : Kept r (s.spad st ea n).1 := by
  unfold State.spad
  dsimp only
  exact kept_ite_fst (kept_disable h) (kept_ite_fst h (kept_ite_fst h (kept_ite_fst h h)))

theorem kept_ownSlot {r s : State} {uid p x} (h : Kept r s) : KeptSome r (s.ownSlot uid p x) := keptSome_ite (kept_grow h (fun _ hs => kept_setSlot hs)) (keptSome_some h)

theorem kept_unmerge {r s : State} {a} (h : Kept r s) : Kept r (s.unmerge a).2 := kept_ite_snd h (kept_update h ..)

theorem kept_lateFault {r s : State} {a t did} (h : Kept r s) : Kept r (s.lateFault a t did) := by
  unfold State.lateFault
  dsimp only
  refine kept_ite h ?_
  refine kept_foldl (kept_dropAcc (kept_dropAcc (kept_unmerge h))) (fun _ _ hs => ?_) _
  exact kept_ite (kept_ship (kept_setSt (kept_markFull hs))) (kept_ite hs (kept_relog hs))

theorem kept_answer {r s : State} {a vals poisoned} (h : Kept r s) : Kept r (s.answer a vals poisoned) := by
  unfold State.answer
  dsimp only
  split
  · refine kept_foldl ?_ (fun _ _ hs => kept_ite hs (kept_fillSaved hs)) _
    exact kept_ite (kept_setRow (kept_ite (kept_fill h) (kept_writeV h))) (kept_ite (kept_fill h) (kept_writeV h))
  · exact h

theorem kept_spoilAcc {r s : State} {uid p acc} (h : Kept r s) : Kept r (s.spoilAcc uid p acc) := kept_setRank h

theorem kept_finishLoad {r s : State} {a} (h : Kept r s) : Kept r (s.finishLoad a) := by
  unfold State.finishLoad
  dsimp only
  refine kept_settled ?_
  split
  · refine kept_spoilAcc ?_
    refine kept_setAccum ?_
    refine kept_dropEarly ?_
    refine kept_noteRead ?_
    refine kept_dropAcc ?_
    refine kept_ite (kept_markSeen (kept_acquireBy (kept_ite (kept_update h ..) h))) ?_
    refine kept_ite ?_ (kept_l1Fill (kept_markSeen (kept_acquireBy (kept_ite (kept_update h ..) h))))
    exact kept_dropOlder (kept_markSeen (kept_acquireBy (kept_ite (kept_update h ..) h)))
  · refine kept_answer ?_
    refine kept_dropEarly ?_
    refine kept_noteRead ?_
    refine kept_dropAcc ?_
    refine kept_ite (kept_markSeen (kept_acquireBy (kept_ite (kept_update h ..) h))) ?_
    refine kept_ite ?_ (kept_l1Fill (kept_markSeen (kept_acquireBy (kept_ite (kept_update h ..) h))))
    exact kept_dropOlder (kept_markSeen (kept_acquireBy (kept_ite (kept_update h ..) h)))

theorem kept_completeLoad {r s : State} {a} (h : Kept r s) : Kept r (s.completeLoad a) := by
  unfold State.completeLoad
  dsimp only
  split
  · exact kept_ite h (kept_settled (kept_answer (kept_dropAcc h)))
  · exact h
  · exact h
  · exact h
  · exact h
  · exact kept_ite h (kept_ite (kept_lateFault h) (kept_ite (kept_lateFault h) (kept_ite (kept_lateFault h) (kept_finishLoad h))))

theorem kept_performStore {r s : State} {a} (h : Kept r s) : Kept r (s.performStore a) := by
  unfold State.performStore
  dsimp only
  refine kept_ite h ?_
  refine kept_ite (kept_ite (kept_toCore h) h) ?_
  refine kept_ite ?_ h
  exact kept_ite (kept_lateFault h) (kept_ite (kept_lateFault h) (kept_ite (kept_lateFault h) (kept_settled (kept_toHome h))))

theorem kept_mergeAtomics {r s : State} {a b} (h : Kept r s) : Kept r (s.mergeAtomics a b) := kept_update h ..

theorem kept_executeAtomic {r s : State} {a} (h : Kept r s) : Kept r (s.executeAtomic a) := by
  unfold State.executeAtomic
  dsimp only
  refine kept_ite h ?_
  refine kept_ite (kept_lateFault h) ?_
  exact kept_ite (kept_lateFault h) (kept_ite (kept_lateFault h) (kept_settled (kept_dropMerged (kept_execAtomic h))))

theorem kept_watch {r s : State} {a entry} (h : Kept r s) : Kept r (s.watch a entry).1 := by
  unfold State.watch
  dsimp only
  refine kept_ite_fst (kept_ite (kept_noteRead (kept_ite (kept_update h ..) h)) (kept_l1Drop (kept_noteRead (kept_ite (kept_update h ..) h)))) ?_
  exact kept_ite (kept_noteRead (kept_ite (kept_update h ..) h)) (kept_l1Drop (kept_noteRead (kept_ite (kept_update h ..) h)))

theorem kept_wakeLine {r s : State} {a} (h : Kept r s) : Kept r (s.wakeLine a) := kept_ite h (kept_update h ..)

theorem kept_waitaReturn {r s : State} {sid} (h : Kept r s) : Kept r (s.waitaReturn sid) := by
  unfold State.waitaReturn
  split
  · exact kept_setPark (kept_l1Drop h)
  · exact h

theorem kept_dropEntry {r s : State} {sid id} (h : Kept r s) : Kept r (s.dropEntry sid id) := kept_setSt h

theorem kept_setEntryTrap {r s : State} {sid id t} (h : Kept r s) : Kept r (s.setEntryTrap sid id t) := kept_setSt h

theorem kept_repost {r s : State} {e} (h : Kept r s) : Kept r (s.repost e) := by
  unfold State.repost
  dsimp only
  split
  · exact kept_post h
  · exact kept_update h ..

theorem kept_reexecute {r s : State} {sid e} (h : Kept r s) : Kept r (s.reexecute sid e).1 := by
  unfold State.reexecute
  dsimp only
  refine kept_ite_fst (kept_ite (kept_update (kept_dropEntry h) ..) (kept_dropEntry h)) ?_
  refine kept_ite_fst (kept_ite_fst h (kept_repost (kept_dropEntry h))) ?_
  split
  · exact kept_setEntryTrap (kept_of_eq ‹_› (kept_locate h))
  · exact kept_setEntryTrap (kept_of_eq ‹_› (kept_locate h))
  · exact kept_of_eq ‹_› (kept_locate h)
  · split
    · exact kept_wakeLine (kept_dropEntry (kept_of_eq ‹_› (kept_locate h)))
    · refine kept_ite_fst (kept_of_eq ‹_› (kept_locate h)) ?_
      refine kept_ite_fst (kept_setEntryTrap (kept_of_eq ‹_› (kept_locate h))) ?_
      split
      · exact kept_setPark (kept_dropEntry (kept_watch (kept_of_eq ‹_› (kept_locate h))))
      · exact kept_dropEntry (kept_watch (kept_of_eq ‹_› (kept_locate h)))
    · exact kept_ite_fst (kept_setEntryTrap (kept_of_eq ‹_› (kept_locate h))) (kept_repost (kept_dropEntry (kept_of_eq ‹_› (kept_locate h))))

theorem kept_execLd {r s : State} {w} (h : Kept r s) : KeptNext r (execLd w s) := by
  unfold execLd
  dsimp only
  exact keptNext (kept_eachLoad h (fun _ _ hs => hs))

theorem kept_execSt {r s : State} {w} (h : Kept r s) : KeptNext r (execSt w s) := by
  unfold execSt
  dsimp only
  exact keptNext (kept_each h (fun _ _ hs => kept_issueAcc hs))

theorem kept_spadLoad {r s : State} {st op w acq} (h : Kept r s) : Kept r (s.spadLoad st op w acq).1 := by
  unfold State.spadLoad
  dsimp only
  split
  · exact kept_of_eq ‹_› (kept_spad h)
  · exact kept_ite_fst (kept_of_eq ‹_› (kept_spad h)) (kept_of_eq ‹_› (kept_spad h))

theorem kept_execLds {r s : State} {w} (h : Kept r s) : KeptNext r (execLds w s) := keptNext (kept_eachLoad h (fun _ _ hs => kept_spadLoad hs))

theorem kept_execSts {r s : State} {w} (h : Kept r s) : KeptNext r (execSts w s) := by
  unfold execSts
  dsimp only
  refine keptNext ?_
  refine kept_each h (fun _ _ hs => ?_)
  split
  · exact kept_of_eq ‹_› (kept_spad hs)
  · split
    · exact kept_of_eq ‹_› (kept_spad hs)
    · exact kept_post (kept_takeRel (kept_reserve (kept_ownSlot (kept_of_eq ‹_› (kept_spad hs)) _ ‹_›)))

theorem kept_execLdlk {r s : State} {w} (h : Kept r s) : KeptNext r (execLdlk w s) := by
  unfold execLdlk
  dsimp only
  refine keptNext ?_
  refine kept_each h (fun _ _ hs => ?_)
  split
  · exact kept_of_eq ‹_› (kept_spad hs)
  · refine kept_ite_fst (kept_of_eq ‹_› (kept_spad hs)) ?_
    refine kept_ite_fst (kept_of_eq ‹_› (kept_spad hs)) ?_
    refine kept_ite_fst (kept_of_eq ‹_› (kept_spad hs)) ?_
    split
    · exact kept_of_eq ‹_› (kept_spad hs)
    · exact kept_acquireCore (kept_setSt (kept_post (kept_reserve (kept_await (kept_of_eq ‹_› (kept_spad hs)) _ ‹_›))))

theorem kept_freeLock {r s : State} {st l} (h : Kept r s) : Kept r (s.freeLock st l) := kept_setSt (kept_setIt h)

theorem kept_execStul {r s : State} {w} (h : Kept r s) : KeptNext r (execStul w s) := by
  unfold execStul
  dsimp only
  refine keptNext ?_
  refine kept_each h (fun _ _ hs => ?_)
  split
  · exact kept_of_eq ‹_› (kept_spad hs)
  · refine kept_ite_fst (kept_of_eq ‹_› (kept_spad hs)) ?_
    refine kept_ite_fst (kept_of_eq ‹_› (kept_spad hs)) ?_
    refine kept_ite_fst ?_ ?_
    · refine kept_ite_fst (kept_of_eq ‹_› (kept_spad hs)) ?_
      exact kept_setSt (kept_freeLock (kept_pushLog (kept_reserve (kept_of_eq ‹_› (kept_spad hs)))))
    · split
      · exact kept_of_eq ‹_› (kept_spad hs)
      · exact kept_setSt (kept_freeLock (kept_wroteAtOnce (kept_writeHome (kept_reserve (kept_ownSlot (kept_of_eq ‹_› (kept_spad hs)) _ ‹_›)))))

theorem kept_execUnlk {r s : State} {w} (h : Kept r s) : KeptNext r (execUnlk w s) := by
  unfold execUnlk
  refine keptNext ?_
  refine kept_each h (fun _ _ hs => ?_)
  split
  · exact kept_of_eq ‹_› (kept_spad hs)
  · refine kept_ite_fst (kept_of_eq ‹_› (kept_spad hs)) ?_
    exact kept_ite_fst (kept_of_eq ‹_› (kept_spad hs)) (kept_freeLock (kept_of_eq ‹_› (kept_spad hs)))

theorem kept_atomicWord {r s : State} {op w} (h : Kept r s) : Kept r (s.atomicWord op w) := by
  unfold State.atomicWord
  dsimp only
  exact kept_each h (fun _ _ hs => kept_issueAcc hs)

theorem kept_execAadd {r s : State} {w} (h : Kept r s) : KeptNext r (execAadd w s) := keptNext (kept_atomicWord h)

theorem kept_execAmin {r s : State} {w} (h : Kept r s) : KeptNext r (execAmin w s) := keptNext (kept_atomicWord h)

theorem kept_execAmax {r s : State} {w} (h : Kept r s) : KeptNext r (execAmax w s) := keptNext (kept_atomicWord h)

theorem kept_execAand {r s : State} {w} (h : Kept r s) : KeptNext r (execAand w s) := keptNext (kept_atomicWord h)

theorem kept_execAor {r s : State} {w} (h : Kept r s) : KeptNext r (execAor w s) := keptNext (kept_atomicWord h)

theorem kept_execAxor {r s : State} {w} (h : Kept r s) : KeptNext r (execAxor w s) := keptNext (kept_atomicWord h)

theorem kept_execAxch {r s : State} {w} (h : Kept r s) : KeptNext r (execAxch w s) := keptNext (kept_atomicWord h)

theorem kept_execAcas {r s : State} {w} (h : Kept r s) : KeptNext r (execAcas w s) := keptNext (kept_atomicWord h)

theorem kept_execAfadd {r s : State} {w} (h : Kept r s) : KeptNext r (execAfadd w s) := keptNext (kept_atomicWord h)

theorem kept_onAcc {r s : State} {id} {f : State → Machine.Acc → State} (h : Kept r s) (hf : ∀ u x1, Kept r u → Kept r (f u x1)) : Kept r (s.onAcc id f) := by
  unfold State.onAcc
  split
  · exact hf _ _ h
  · exact h

theorem kept_execAtomicExecute {r s : State} {id merge} (h : Kept r s) : KeptNext r (execAtomicExecute id merge s) := by
  unfold execAtomicExecute
  refine keptNext ?_
  refine kept_onAcc h (fun _ _ hs => ?_)
  split
  · exact kept_executeAtomic hs
  · exact kept_onAcc hs (fun _ _ hs1 => kept_ite (kept_mergeAtomics hs1) hs1)

theorem kept_execLoadComplete {r s : State} {id} (h : Kept r s) : KeptNext r (execLoadComplete id s) := keptNext (kept_onAcc h (fun _ _ hs => kept_completeLoad hs))

theorem kept_execStorePerform {r s : State} {id} (h : Kept r s) : KeptNext r (execStorePerform id s) := keptNext (kept_onAcc h (fun _ _ hs => kept_performStore hs))

theorem kept_promoteLast {r s : State} {st} (h : Kept r s) : Kept r (s.promoteLast st) := by
  unfold State.promoteLast
  split
  · exact kept_promote h
  · exact h

theorem kept_acquirePrev {r s : State} {sid scope} (h : Kept r s) : Kept r (s.acquirePrev sid scope) := by
  unfold State.acquirePrev
  dsimp only
  exact kept_ite h (kept_ite (kept_acquireAt (kept_promoteLast h)) (kept_acquireAt h))

theorem kept_execFenceAcq {r s : State} {w} (h : Kept r s) : KeptNext r (execFenceAcq w s) := keptNext (kept_each h (fun _ _ hs => kept_ite_fst hs (kept_acquirePrev hs)))

theorem kept_execFenceRel {r s : State} {w} (h : Kept r s) : KeptNext r (execFenceRel w s) := by
  unfold execFenceRel
  dsimp only
  exact keptNext (kept_each h (fun _ _ hs => kept_ite_fst hs (kept_setSt hs)))

theorem kept_acquireAll {r s : State} {sid scope} (h : Kept r s) : Kept r (s.acquireAll sid scope) := by
  unfold State.acquireAll
  dsimp only
  exact kept_ite (kept_acquire (kept_promoteLast h)) (kept_acquireAt h)

theorem kept_execFenceAr {r s : State} {w} (h : Kept r s) : KeptNext r (execFenceAr w s) := by
  unfold execFenceAr
  dsimp only
  exact keptNext (kept_each h (fun _ _ hs => kept_ite_fst hs (kept_acquireAll hs)))

theorem kept_execWaita {r s : State} {w} (h : Kept r s) : KeptNext r (execWaita w s) := by
  unfold execWaita
  dsimp only
  refine keptNext ?_
  refine kept_each h (fun _ _ hs => ?_)
  split
  · exact kept_of_eq ‹_› (kept_accept hs)
  · exact kept_of_eq ‹_› (kept_accept hs)
  · exact kept_issueAcc hs
  · refine kept_ite_fst (kept_of_eq ‹_› (kept_accept hs)) ?_
    refine kept_ite_fst ?_ ?_
    · refine kept_ite_fst (kept_ship (kept_of_eq ‹_› (kept_accept hs))) ?_
      exact kept_ite_fst (kept_of_eq ‹_› (kept_accept hs)) (kept_pushLog (kept_reserve (kept_of_eq ‹_› (kept_accept hs))))
    · split
      · exact kept_of_eq ‹_› (kept_watch (kept_reserve (kept_of_eq ‹_› (kept_accept hs))))
      · exact kept_of_eq ‹_› (kept_watch (kept_reserve (kept_of_eq ‹_› (kept_accept hs))))

theorem kept_execWatchWake {r s : State} {sid} (h : Kept r s) : KeptNext r (execWatchWake sid s) := by
  unfold execWatchWake
  refine keptNext ?_
  split
  · exact kept_waitaReturn h
  · exact h

theorem kept_execWaitaTimeout {r s : State} {sid} (h : Kept r s) : KeptNext r (execWaitaTimeout sid s) := by
  unfold execWaitaTimeout
  refine keptNext ?_
  split
  · exact kept_ite (kept_waitaReturn h) h
  · exact h

theorem kept_execWaitaSpurious {r s : State} {sid} (h : Kept r s) : KeptNext r (execWaitaSpurious sid s) := keptNext (kept_waitaReturn h)

theorem kept_execWake {r s : State} {w} (h : Kept r s) : KeptNext r (execWake w s) := by
  unfold execWake
  dsimp only
  refine keptNext ?_
  refine kept_each h (fun _ _ hs => ?_)
  split
  · exact kept_wakeLine (kept_of_eq ‹_› (kept_accept hs))
  · exact kept_issueAcc hs

theorem kept_execTagld {r s : State} {w} (h : Kept r s) : KeptNext r (execTagld w s) := keptNext (kept_eachLoad h (fun _ _ hs => hs))

theorem kept_execTagst {r s : State} {w} (h : Kept r s) : KeptNext r (execTagst w s) := by
  unfold execTagst
  dsimp only
  exact keptNext (kept_each h (fun _ _ hs => kept_issueAcc hs))

theorem kept_signWord {r s : State} {op w} (h : Kept r s) : Kept r (s.signWord op w) := kept_eachSign h

theorem kept_execMma {r s : State} {w} (h : Kept r s) : KeptNext r (execMma w s) := keptNext (kept_signWord h)

theorem kept_execMmas {r s : State} {w} (h : Kept r s) : KeptNext r (execMmas w s) := keptNext (kept_signWord h)

theorem kept_execMmag {r s : State} {w} (h : Kept r s) : KeptNext r (execMmag w s) := keptNext (kept_signWord h)

theorem kept_execQnt {r s : State} {w} (h : Kept r s) : KeptNext r (execQnt w s) := keptNext (kept_signWord h)

theorem kept_execQntCol {r s : State} {w} (h : Kept r s) : KeptNext r (execQntCol w s) := keptNext (kept_signWord h)

theorem kept_execBpk {r s : State} {w} (h : Kept r s) : KeptNext r (execBpk w s) := keptNext (kept_signWord h)

theorem kept_execBunp {r s : State} {w} (h : Kept r s) : KeptNext r (execBunp w s) := keptNext (kept_signWord h)

theorem kept_execMatrixOpFinish {r s : State} {uid prank} (h : Kept r s) : KeptNext r (execMatrixOpFinish uid prank s) := by
  unfold execMatrixOpFinish
  refine keptNext ?_
  generalize (if (s.it uid).status = .saved then [] else (s.rank uid prank).ops) = ops
  cases ops with
  | nil => exact h
  | cons o _ =>
    refine kept_ite (kept_settled (kept_checkPool h)) ?_
    have hready : KeptSome r (match destSlot o.word with
        | some d => if (s.slot uid prank d).state = SlotState.filling then some s else s.takeDest uid prank d
        | none => some s) := by
      split
      · exact keptSome_ite (keptSome_some h) (kept_takeDest h)
      · exact keptSome_some h
    dsimp only
    split
    · exact h
    · have hs : ∀ {f n} {t : State}, Kept r t → Kept r (({ t with nextId := n } : State).setRank uid prank f) := fun ht => kept_setRank (kept_update ht ..)
      exact kept_settled (kept_beginOps (kept_ite (kept_readyAcquire (hs (hready _ ‹_›))) (hs (hready _ ‹_›))))

theorem kept_aclrWord {r s : State} {w all} (h : Kept r s) : Kept r (s.aclrWord w all) := by
  unfold State.aclrWord
  dsimp only
  exact kept_each h (fun _ _ hs => kept_ite_fst hs (kept_spoilAcc (kept_setAccum hs)))

theorem kept_execAclr {r s : State} {w} (h : Kept r s) : KeptNext r (execAclr w s) := keptNext (kept_aclrWord h)

theorem kept_execAclrAll {r s : State} {w} (h : Kept r s) : KeptNext r (execAclrAll w s) := keptNext (kept_aclrWord h)

theorem kept_acceptedWith {r : State} {x} {p : State × Except Flow (List (Acc × Option Trap))} (h : Kept r p.1) : Kept r (acceptedWith x p).1 := by
  obtain ⟨s, _ | xs⟩ := p
  · exact h
  · exact h

theorem kept_acceptAll {r s : State} {as} (h : Kept r s) : Kept r (s.acceptAll as).1 := by
  induction as generalizing s with
  | nil => exact h
  | cons a as ih =>
    unfold State.acceptAll
    split
    · exact kept_of_eq ‹_› (kept_accept h)
    · exact kept_of_eq ‹_› (kept_accept h)
    · exact kept_acceptedWith (ih (kept_of_eq ‹_› (kept_accept h)))
    · exact kept_acceptedWith (ih (kept_of_eq ‹_› (kept_accept h)))

theorem kept_issueParts {r s : State} {st parts} (h : Kept r s) : Kept r (s.issueParts st parts).1 := by
  unfold State.issueParts
  dsimp only
  split
  · exact kept_of_eq ‹_› (kept_acceptAll h)
  · refine kept_ite_fst (kept_of_eq ‹_› (kept_acceptAll h)) ?_
    refine kept_foldl (kept_of_eq ‹_› (kept_acceptAll h)) (fun _ _ hs => ?_) _
    split
    · exact kept_pushLog (kept_takeRel (kept_reserve hs))
    · exact kept_post (kept_takeRel (kept_reserve hs))

theorem kept_execAst {r s : State} {w} (h : Kept r s) : KeptNext r (execAst w s) := by
  unfold execAst
  dsimp only
  exact keptNext (kept_each h (fun _ _ hs => kept_ite_fst hs (kept_ite_fst hs (kept_issueParts hs))))

theorem kept_execAld {r s : State} {w} (h : Kept r s) : KeptNext r (execAld w s) := by
  unfold execAld
  dsimp only
  exact keptNext (kept_each h (fun _ _ hs => kept_ite_fst (kept_spoilAcc (kept_issueParts hs)) (kept_issueParts hs)))

theorem kept_execAget {r s : State} {w} (h : Kept r s) : KeptNext r (execAget w s) := by
  unfold execAget
  dsimp only
  refine keptNext ?_
  refine kept_each h (fun _ _ hs => ?_)
  refine kept_ite_fst hs ?_
  refine kept_ite_fst hs ?_
  split
  · exact hs
  · exact kept_update (kept_fresh (kept_prepDest hs _ ‹_›)) ..

theorem kept_execMwait {r s : State} {w} (h : Kept r s) : KeptNext r (execMwait w s) := by
  unfold execMwait
  dsimp only
  exact keptNext (kept_each h (fun _ _ hs => kept_ite_fst hs (kept_ite_fst (kept_setSt hs) (kept_acquireCore (kept_setSt hs)))))

theorem kept_execScw {r s : State} {w} (h : Kept r s) : KeptNext r (execScw w s) := by
  unfold execScw
  dsimp only
  refine keptNext ?_
  refine kept_each h (fun _ _ hs => ?_)
  split
  · exact hs
  · refine kept_ite_fst hs ?_
    split
    · exact hs
    · exact kept_setSt (kept_wroteAtOnce (kept_setRank (kept_update (kept_ownSlot hs _ ‹_›) ..)))

theorem kept_putD {r s : State} {st w v hint} (h : Kept r s) : Kept r (s.putD st w v hint).1 := by
  have hput : KeptSome r (match w.d with
      | .v d => s.putV st d.toNat [(st, [v])] hint 1
      | .s d => s.putS st d.toNat [v] 1
      | .p i => some (s.setSt st.sid fun y => y.setPred i.toNat (v != 0))
      | _ => some s) := by
    split
    · exact kept_putV h
    · exact kept_putS h
    · exact keptSome_some (kept_setSt h)
    · exact keptSome_some h
  unfold State.putD
  dsimp only
  split
  · exact hput _ ‹_›
  · exact h

theorem kept_execScr {r s : State} {w} (h : Kept r s) : KeptNext r (execScr w s) := by
  unfold execScr
  dsimp only
  refine keptNext ?_
  refine kept_each h (fun _ _ hs => ?_)
  split
  · exact hs
  · refine kept_ite_fst hs ?_
    refine kept_ite_fst hs ?_
    split
    · exact kept_noteRead (kept_update (kept_of_eq ‹_› (kept_putD hs)) ..)
    · exact kept_putD hs

theorem kept_mstatWord {r s : State} {w clr} (h : Kept r s) : Kept r (s.mstatWord w clr) := by
  unfold State.mstatWord
  refine kept_each h (fun _ _ hs => ?_)
  split
  · exact kept_ite (kept_setRank (kept_of_eq ‹_› (kept_putD hs))) (kept_of_eq ‹_› (kept_putD hs))
  · exact kept_putD hs

theorem kept_execMstat {r s : State} {w} (h : Kept r s) : KeptNext r (execMstat w s) := keptNext (kept_mstatWord h)

theorem kept_execMstatClr {r s : State} {w} (h : Kept r s) : KeptNext r (execMstatClr w s) := keptNext (kept_mstatWord h)

theorem kept_readDesc {r s : State} {st va wr} (h : Kept r s) : Kept r (s.readDesc st va wr).1 := by
  unfold State.readDesc
  dsimp only
  refine kept_ite_fst h ?_
  split
  · exact kept_of_eq ‹_› (kept_ctlAccess h)
  · split
    · exact kept_of_eq ‹_› (kept_ctlAccess h)
    · refine kept_ite_fst (kept_of_eq ‹_› (kept_ctlAccess h)) ?_
      refine kept_ite_fst (kept_deferPoison (kept_of_eq ‹_› (kept_ctlAccess h))) ?_
      exact kept_ite_fst (kept_of_eq ‹_› (kept_ctlAccess h)) (kept_of_eq ‹_› (kept_ctlAccess h))

theorem kept_postTile {r s : State} {o} (h : Kept r s) : Kept r (s.postTile o) := kept_update (kept_ite (kept_setSt h) h) ..

theorem kept_issueTile {r s : State} {o} (h : Kept r s) : Kept r (s.issueTile o).1 := kept_ite_fst h (kept_postTile h)

theorem kept_editWord {r s : State} {op w n} (h : Kept r s) : Kept r (s.editWord op w n) := by
  unfold State.editWord
  dsimp only
  refine kept_each h (fun _ _ hs => ?_)
  split
  · exact kept_of_eq ‹_› (kept_readDesc hs)
  · split
    · exact kept_of_eq ‹_› (kept_readDesc hs)
    · exact kept_ite_fst (kept_of_eq ‹_› (kept_readDesc hs)) (kept_issueTile (kept_of_eq ‹_› (kept_readDesc hs)))

theorem kept_execTscl {r s : State} {w} (h : Kept r s) : KeptNext r (execTscl w s) := by
  unfold execTscl
  dsimp only
  exact keptNext (kept_editWord h)

theorem kept_execTofs {r s : State} {w} (h : Kept r s) : KeptNext r (execTofs w s) := by
  unfold execTofs
  dsimp only
  exact keptNext (kept_editWord h)

theorem kept_execTclp {r s : State} {w} (h : Kept r s) : KeptNext r (execTclp w s) := by
  unfold execTclp
  dsimp only
  exact keptNext (kept_editWord h)

theorem kept_execTclpImm {r s : State} {w} (h : Kept r s) : KeptNext r (execTclpImm w s) := by
  unfold execTclpImm
  dsimp only
  exact keptNext (kept_editWord h)

theorem kept_execTfil {r s : State} {w} (h : Kept r s) : KeptNext r (execTfil w s) := by
  unfold execTfil
  dsimp only
  exact keptNext (kept_editWord h)

theorem kept_execTmap {r s : State} {w} (h : Kept r s) : KeptNext r (execTmap w s) := by
  unfold execTmap
  dsimp only
  exact keptNext (kept_editWord h)

theorem kept_execTord {r s : State} {w} (h : Kept r s) : KeptNext r (execTord w s) := by
  unfold execTord
  dsimp only
  refine keptNext ?_
  refine kept_each h (fun _ _ hs => ?_)
  split
  · exact kept_of_eq ‹_› (kept_readDesc hs)
  · exact kept_ite_fst (kept_of_eq ‹_› (kept_readDesc hs)) (kept_issueTile (kept_of_eq ‹_› (kept_readDesc hs)))

theorem kept_execTmat {r s : State} {w} (h : Kept r s) : KeptNext r (execTmat w s) := by
  unfold execTmat
  dsimp only
  refine keptNext ?_
  refine kept_each h (fun _ _ hs => ?_)
  split
  · exact kept_of_eq ‹_› (kept_readDesc hs)
  · split
    · exact kept_of_eq ‹_› (kept_readDesc hs)
    · exact kept_issueTile (kept_of_eq ‹_› (kept_readDesc hs))

theorem kept_execTmatAll {r s : State} {w} (h : Kept r s) : KeptNext r (execTmatAll w s) := by
  unfold execTmatAll
  dsimp only
  refine keptNext ?_
  refine kept_each h (fun _ _ hs => ?_)
  split
  · exact kept_of_eq ‹_› (kept_readDesc hs)
  · exact kept_issueTile (kept_of_eq ‹_› (kept_readDesc hs))

theorem kept_tilePage {r s : State} {o va need parts} (h : Kept r s) : Kept r (s.tilePage o va need parts).1 := by
  unfold State.tilePage
  dsimp only
  split
  · exact kept_of_eq ‹_› (kept_translate h)
  · split
    · exact kept_walkAcquire (kept_of_eq ‹_› (kept_translate h))
    · exact kept_walkAcquire (kept_of_eq ‹_› (kept_translate h))

theorem kept_hdrAtIssue {r s : State} {st o} (h : Kept r s) : Kept r (s.hdrAtIssue st o).1 := by
  unfold State.hdrAtIssue
  dsimp only
  split
  · exact kept_setSt h
  · split
    · exact kept_of_eq ‹_› (kept_tilePage h)
    · refine kept_ite_fst (kept_of_eq ‹_› (kept_tilePage h)) ?_
      split
      · exact kept_of_eq ‹_› (kept_tilePage h)
      · exact kept_of_eq ‹_› (kept_tilePage h)

theorem kept_withHdr {r s : State} {st o} (h : Kept r s) : Kept r (s.withHdr st o).1 := by
  unfold State.withHdr
  split
  · exact kept_of_eq ‹_› (kept_hdrAtIssue h)
  · exact kept_of_eq ‹_› (kept_hdrAtIssue h)
  · exact kept_of_eq ‹_› (kept_hdrAtIssue h)

theorem kept_tileRead {r s : State} {op w acq} (h : Kept r s) : Kept r (s.tileRead op w acq) := by
  unfold State.tileRead
  dsimp only
  refine kept_each h (fun u st hs => ?_)
  split
  · exact kept_of_eq ‹_› (kept_readDesc hs)
  · rename_i t x d hd
    have ht : Kept r t := kept_of_eq hd (kept_readDesc hs)
    split
    · exact ht
    · rename_i sr sc _
      have hh : Kept r (if op = 0x88 then t.withHdr st { t.newTile st op w (u.src64 st w w.a) x d with row := sr, col := sc, dest := vOf w.d, sat := Ins.sat w != 0, acq := acq }
          else (t, .ok { t.newTile st op w (u.src64 st w w.a) x d with row := sr, col := sc, dest := vOf w.d, sat := Ins.sat w != 0, acq := acq })).1 :=
        kept_ite_fst (kept_withHdr ht) ht
      split
      · exact kept_of_eq ‹_› hh
      · refine kept_ite_fst (kept_of_eq ‹_› hh) ?_
        split
        · exact kept_of_eq ‹_› hh
        · exact kept_postTile (kept_prepDest (kept_of_eq ‹_› hh) _ ‹_›)

theorem kept_execThdr {r s : State} {w} (h : Kept r s) : KeptNext r (execThdr w s) := keptNext (kept_tileRead h)

theorem kept_execTlde {r s : State} {w} (h : Kept r s) : KeptNext r (execTlde w s) := keptNext (kept_tileRead h)

theorem kept_execTste {r s : State} {w} (h : Kept r s) : KeptNext r (execTste w s) := by
  unfold execTste
  dsimp only
  refine keptNext ?_
  refine kept_each h (fun _ _ hs => ?_)
  split
  · exact kept_of_eq ‹_› (kept_readDesc hs)
  · split
    · exact kept_of_eq ‹_› (kept_readDesc hs)
    · split
      · exact kept_of_eq ‹_› (kept_withHdr (kept_of_eq ‹_› (kept_readDesc hs)))
      · exact kept_issueTile (kept_of_eq ‹_› (kept_withHdr (kept_of_eq ‹_› (kept_readDesc hs))))

theorem kept_setTile {r s : State} {o} (h : Kept r s) : Kept r (s.setTile o) := kept_update h ..

theorem kept_dropTile {r s : State} {id} (h : Kept r s) : Kept r (s.dropTile id) := kept_update h ..

theorem kept_tileSeen {r s : State} {loc pa n} (h : Kept r s) : Kept r (s.tileSeen loc pa n) := kept_update h ..

theorem kept_tileWrite {r s : State} {o loc pa bs} (h : Kept r s) : Kept r (s.tileWrite o loc pa bs) := kept_update (kept_markRel (kept_dropEarly (kept_tileSeen (kept_writeHome h)))) ..

theorem kept_noteHdr {r s : State} {loc pa h'} (h : Kept r s) : Kept r (s.noteHdr loc pa h') := kept_update h ..

theorem kept_dropTileLines {r s : State} {o} (h : Kept r s) : Kept r (s.dropTileLines o) := kept_update h ..

theorem kept_nextTile {r s : State} {o} (h : Kept r s) : Kept r (s.nextTile o) := by
  unfold State.nextTile
  dsimp only
  exact kept_ite (kept_settled (kept_dropTile h)) (kept_setTile h)

theorem kept_tileAnswer {r s : State} {o v} (h : Kept r s) : Kept r (s.tileAnswer o v) := by
  unfold State.tileAnswer
  dsimp only
  refine kept_settled ?_
  refine kept_answer ?_
  split
  · exact kept_passLater (kept_acquire (kept_setSt (kept_noteRead (kept_dropTileLines (kept_dropTile h)))))
  · exact kept_setSt (kept_noteRead (kept_dropTileLines (kept_dropTile h)))

theorem kept_tileFault {r s : State} {o t} (h : Kept r s) : Kept r (s.tileFault o t) := by
  unfold State.tileFault
  dsimp only
  exact kept_ite (kept_tileAnswer (kept_addFault h)) (kept_settled (kept_dropTile (kept_addFault h)))

theorem kept_tileStop {r s : State} {o t} (h : Kept r s) : Kept r (s.tileStop o t) := kept_ite (kept_setTile h) (kept_tileFault h)

theorem kept_tileInvalid {r s : State} {o c} (h : Kept r s) : Kept r (s.tileInvalid o c) := kept_nextTile (kept_addFault h)

theorem kept_beginMat {r s : State} {o hx px h'} (h : Kept r s) : Kept r (s.beginMat o hx px h') := kept_setTile (kept_tileWrite h)

theorem kept_keepPoison {r s : State} {old loc pa n} (h : Kept r s) : Kept r (s.keepPoison old loc pa n) := kept_update h ..

theorem kept_materialise {r s : State} {o} (h : Kept r s) : Kept r (s.materialise o) := by
  unfold State.materialise
  dsimp only
  exact kept_ite (kept_setTile (kept_keepPoison (kept_tileWrite h))) (kept_noteHdr (kept_nextTile (kept_tileWrite h)))

theorem kept_tileAtHeader {r s : State} {o hx} (h : Kept r s) : Kept r (s.tileAtHeader o hx) := by
  unfold State.tileAtHeader
  dsimp only
  refine kept_ite (kept_tileAnswer h) ?_
  refine kept_ite (kept_tileInvalid h) ?_
  refine kept_ite ?_ ?_
  · refine kept_ite (kept_tileAnswer h) ?_
    split
    · exact kept_tileStop (kept_of_eq ‹_› (kept_tilePage h))
    · refine kept_ite (kept_of_eq ‹_› (kept_tilePage h)) ?_
      split
      · exact kept_tileFault (kept_of_eq ‹_› (kept_tilePage h))
      · exact kept_tileAnswer (kept_of_eq ‹_› (kept_tilePage h))
  · split
    · exact kept_noteHdr (kept_nextTile (kept_tileWrite h))
    · split
      · exact kept_tileStop (kept_of_eq ‹_› (kept_tilePage h))
      · refine kept_ite (kept_of_eq ‹_› (kept_tilePage h)) ?_
        split
        · exact kept_tileFault (kept_of_eq ‹_› (kept_tilePage h))
        · exact kept_beginMat (kept_of_eq ‹_› (kept_tilePage h))

theorem kept_tileReach {r s : State} {o} (h : Kept r s) : Kept r (s.tileReach o) := by
  have hp : Kept r (if o.hold.isEmpty then s.tilePage o (o.hdrVa o.doneTiles) { rd := true, wr := o.writes } hdrParts
      else (s, .ok { loc := o.hdrLoc, pa := o.hdrPa, level := o.hdrLevel })).1 := kept_ite_fst (kept_tilePage h) h
  unfold State.tileReach
  dsimp only
  split
  · exact kept_tileStop (kept_of_eq ‹_› hp)
  · refine kept_ite (kept_of_eq ‹_› hp) ?_
    split
    · exact kept_tileFault (kept_of_eq ‹_› hp)
    · exact kept_tileAtHeader (kept_of_eq ‹_› hp)

theorem kept_tileStep {r s : State} {o} (h : Kept r s) : Kept r (s.tileStep o) := by
  unfold State.tileStep
  dsimp only
  split
  · exact kept_tileFault h
  · exact kept_ite (kept_ite h (kept_nextTile (kept_tileWrite h))) (kept_ite (kept_materialise h) (kept_tileReach h))

theorem kept_execTileViewOp {r s : State} {id} (h : Kept r s) : KeptNext r (execTileViewOp id s) := by
  unfold execTileViewOp
  refine keptNext ?_
  split
  · exact kept_tileStep h
  · exact h

theorem kept_takeToken {r s : State} {sid t origin sys} (h : Kept r s) : Kept r (s.takeToken sid t origin sys) := kept_setSt h

theorem kept_endToken {r s : State} {sid t cstat err nvst} (h : Kept r s) : Kept r (s.endToken sid t cstat err nvst) := kept_setSt h

theorem kept_copyPage {r s : State} {c va n wr} (h : Kept r s) : Kept r (s.copyPage c va n wr).1 := by
  unfold State.copyPage
  dsimp only
  split
  · exact kept_of_eq ‹_› (kept_translate h)
  · split
    · exact kept_of_eq ‹_› (kept_translate h)
    · exact kept_of_eq ‹_› (kept_translate h)

theorem kept_copyPages {r s : State} {c wr ps} (h : Kept r s) : Kept r (s.copyPages c wr ps).1 := by
  induction ps generalizing s with
  | nil => exact h
  | cons p ps ih =>
    unfold State.copyPages
    split
    · exact kept_of_eq ‹_› (kept_copyPage h)
    · have hr := ih (kept_of_eq ‹_› (kept_copyPage h))
      split
      · exact kept_of_eq ‹_› hr
      · exact kept_of_eq ‹_› hr

theorem kept_copyRead {r s : State} {c e va n} (h : Kept r s) : Kept r (s.copyRead c e va n).1 := by
  unfold State.copyRead
  split
  · exact kept_of_eq ‹_› (kept_copyPages h)
  · exact kept_of_eq ‹_› (kept_copyPages h)

theorem kept_writePoison {r s : State} {loc pa bs} (h : Kept r s) : Kept r (s.writePoison loc pa bs) := kept_update (kept_writeHome h) ..

theorem kept_engineStore {r s : State} {core loc pa bs} (h : Kept r s) : Kept r (s.engineStore core loc pa bs) := kept_update (kept_writePoison h) ..

theorem kept_writeParts {r s : State} {core xs bs} (h : Kept r s) : Kept r (s.writeParts core xs bs) := by
  induction xs generalizing s bs with
  | nil => exact h
  | cons x xs ih => exact ih (kept_engineStore h)

theorem kept_copyWrite {r s : State} {c ps} (h : Kept r s) : Kept r (s.copyWrite c ps).1 := by
  unfold State.copyWrite
  split
  · exact kept_of_eq ‹_› (kept_copyPages h)
  · exact kept_writeParts (kept_of_eq ‹_› (kept_copyPages h))

theorem kept_putRecord {r s : State} {c w v} (h : Kept r s) : Kept r (s.putRecord c w v) := kept_ite (kept_storeScratch h) h

theorem kept_putStatus {r s : State} {c status} (h : Kept r s) : Kept r (s.putStatus c status) := kept_putRecord h

theorem kept_setCopy {r s : State} {c} (h : Kept r s) : Kept r (s.setCopy c) := kept_update h ..

theorem kept_copySlots {r s : State} {c f} (h : Kept r s) : Kept r (s.copySlots c f) := by
  unfold State.copySlots
  dsimp only
  exact kept_ite h (kept_foldl h (fun _ _ hs => kept_setSlot hs) _)

theorem kept_undefFrom {r s : State} {c n} (h : Kept r s) : Kept r (s.undefFrom c n) := by
  unfold State.undefFrom
  dsimp only
  refine kept_update ?_ ..
  refine kept_foldl h (fun _ _ hs => ?_) _
  split
  · exact kept_engineStore hs
  · exact hs

theorem kept_undefRest {r s : State} {c} (h : Kept r s) : Kept r (s.undefRest c) := kept_undefFrom h

theorem kept_endCopy {r s : State} {c status} (h : Kept r s) : Kept r (s.endCopy c status) := by
  unfold State.endCopy
  dsimp only
  refine kept_settled ?_
  refine kept_endToken ?_
  refine kept_putStatus ?_
  refine kept_ite ?_ ?_
  · refine kept_putRecord ?_
    refine kept_ite ?_ ?_
    · refine kept_undefRest ?_
      refine kept_ite (kept_readyAcquire (kept_copySlots (kept_update h ..))) ?_
      refine kept_ite (kept_update h ..) ?_
      refine kept_ite (kept_readyAcquire (kept_copySlots (kept_update h ..))) ?_
      exact kept_foldl (kept_update (kept_update h ..) ..) (fun _ _ hs => kept_setSlot hs) _
    · refine kept_ite (kept_readyAcquire (kept_copySlots (kept_update h ..))) ?_
      refine kept_ite (kept_update h ..) ?_
      refine kept_ite (kept_readyAcquire (kept_copySlots (kept_update h ..))) ?_
      exact kept_foldl (kept_update (kept_update h ..) ..) (fun _ _ hs1 => kept_setSlot hs1) _
  · refine kept_ite ?_ ?_
    · refine kept_undefRest ?_
      refine kept_ite (kept_readyAcquire (kept_copySlots (kept_update h ..))) ?_
      refine kept_ite (kept_update h ..) ?_
      refine kept_ite (kept_readyAcquire (kept_copySlots (kept_update h ..))) ?_
      exact kept_foldl (kept_update (kept_update h ..) ..) (fun _ _ hs2 => kept_setSlot hs2) _
    · refine kept_ite (kept_readyAcquire (kept_copySlots (kept_update h ..))) ?_
      refine kept_ite (kept_update h ..) ?_
      refine kept_ite (kept_readyAcquire (kept_copySlots (kept_update h ..))) ?_
      exact kept_foldl (kept_update (kept_update h ..) ..) (fun _ _ hs3 => kept_setSlot hs3) _

theorem kept_chunkDone {r s : State} {c bs} (h : Kept r s) : Kept r (s.chunkDone c bs) := by
  unfold State.chunkDone
  dsimp only
  exact kept_ite (kept_endCopy h) (kept_putStatus (kept_setCopy h))

theorem kept_copyFault {r s : State} {c t} (h : Kept r s) : Kept r (s.copyFault c t) := kept_ite (kept_putStatus (kept_setCopy h)) (kept_endCopy h)

theorem kept_slotChunk {r s : State} {c q ofs bs} (h : Kept r s) : Kept r (s.slotChunk c q ofs bs) := by
  unfold State.slotChunk
  dsimp only
  exact kept_chunkDone (kept_setSlot (kept_setRank h))

theorem kept_putRows {r s : State} {c elem} (h : Kept r s) : Kept r (s.putRows c elem) := by
  unfold State.putRows
  dsimp only
  exact kept_ite (kept_slotChunk h) (kept_slotChunk h)

theorem kept_copyRows {r s : State} {c is} (h : Kept r s) : Kept r (s.copyRows c is).1 := by
  induction is generalizing s with
  | nil => exact h
  | cons i is ih =>
    unfold State.copyRows
    dsimp only
    split
    · exact kept_of_eq ‹_› (kept_copyRead h)
    · have hr := ih (kept_of_eq ‹_› (kept_copyRead h))
      split
      · exact kept_of_eq ‹_› hr
      · exact kept_of_eq ‹_› hr

theorem kept_chunkMemSlot {r s : State} {c} (h : Kept r s) : Kept r (s.chunkMemSlot c) := by
  unfold State.chunkMemSlot
  dsimp only
  refine kept_ite ?_ ?_
  · split
    · exact kept_copyFault (kept_of_eq ‹_› (kept_copyRead h))
    · exact kept_slotChunk (kept_of_eq ‹_› (kept_copyRead h))
  · split
    · exact kept_copyFault (kept_of_eq ‹_› (kept_copyRows h))
    · exact kept_putRows (kept_of_eq ‹_› (kept_copyRows h))

theorem kept_chunkSlotMem {r s : State} {c} (h : Kept r s) : Kept r (s.chunkSlotMem c) := by
  unfold State.chunkSlotMem
  dsimp only
  split
  · exact kept_copyFault (kept_of_eq ‹_› (kept_copyWrite h))
  · exact kept_chunkDone (kept_of_eq ‹_› (kept_copyWrite h))

theorem kept_chunkMemMem {r s : State} {c} (h : Kept r s) : Kept r (s.chunkMemMem c) := by
  unfold State.chunkMemMem
  dsimp only
  split
  · exact kept_copyFault (kept_of_eq ‹_› (kept_copyRead h))
  · split
    · exact kept_copyFault (kept_of_eq ‹_› (kept_copyWrite (kept_update (kept_of_eq ‹_› (kept_copyRead h)) ..)))
    · exact kept_chunkDone (kept_of_eq ‹_› (kept_copyWrite (kept_update (kept_of_eq ‹_› (kept_copyRead h)) ..)))

theorem kept_copyNeed {r s : State} {c va n rd wr} (h : Kept r s) : Kept r (s.copyNeed c va n rd wr).1 := by
  have hp : Kept r (if rd then s.copyPage c va n false else (s, .ok {})).1 := kept_ite_fst (kept_copyPage h) h
  unfold State.copyNeed
  split
  · exact kept_of_eq ‹_› hp
  · exact kept_ite_fst (kept_copyPage (kept_of_eq ‹_› hp)) (kept_of_eq ‹_› hp)

theorem kept_copyHeader {r s : State} {c d t rd wr} (h : Kept r s) : Kept r (s.copyHeader c d t rd wr).1 := by
  unfold State.copyHeader
  split
  · exact kept_of_eq ‹_› (kept_copyNeed h)
  · exact kept_of_eq ‹_› (kept_copyNeed h)

theorem kept_fetchTile {r s : State} {c d t} (h : Kept r s) : Kept r (s.fetchTile c d t) := by
  unfold State.fetchTile
  dsimp only
  split
  · exact kept_copyFault (kept_of_eq ‹_› (kept_copyHeader h))
  · exact kept_of_eq ‹_› (kept_copyHeader h)
  · refine kept_ite (kept_endCopy (kept_of_eq ‹_› (kept_copyHeader h))) ?_
    refine kept_ite (kept_setCopy (kept_of_eq ‹_› (kept_copyHeader h))) ?_
    split
    · exact kept_copyFault (kept_of_eq ‹_› (kept_copyPage (kept_of_eq ‹_› (kept_copyHeader h))))
    · exact kept_setCopy (kept_of_eq ‹_› (kept_copyPage (kept_of_eq ‹_› (kept_copyHeader h))))

theorem kept_chunkTensorSlot {r s : State} {c} (h : Kept r s) : Kept r (s.chunkTensorSlot c) := by
  unfold State.chunkTensorSlot
  dsimp only
  split
  · exact kept_fetchTile h
  · exact kept_putRows h

theorem kept_putTile {r s : State} {core d loc pa base cells} (h : Kept r s) : Kept r (s.putTile core d loc pa base cells) := by
  unfold State.putTile
  dsimp only
  exact kept_tileSeen (kept_engineStore h)

theorem kept_putHdr {r s : State} {core loc pa h'} (h : Kept r s) : Kept r (s.putHdr core loc pa h') := kept_noteHdr (kept_tileSeen (kept_engineStore h))

theorem kept_copyMaterialise {r s : State} {c} (h : Kept r s) : Kept r (s.copyMaterialise c) := by
  unfold State.copyMaterialise
  dsimp only
  exact kept_ite h (kept_ite (kept_setCopy (kept_putTile h)) (kept_ite (kept_update (kept_putHdr h) ..) (kept_chunkDone (kept_putHdr h))))

theorem kept_chunkSlotTensor {r s : State} {c} (h : Kept r s) : Kept r (s.chunkSlotTensor c) := by
  unfold State.chunkSlotTensor
  dsimp only
  split
  · exact kept_copyFault (kept_of_eq ‹_› (kept_copyHeader h))
  · exact kept_of_eq ‹_› (kept_copyHeader h)
  · refine kept_ite (kept_of_eq ‹_› (kept_copyHeader h)) ?_
    refine kept_ite (kept_endCopy (kept_undefFrom (kept_of_eq ‹_› (kept_copyHeader h)))) ?_
    split
    · exact kept_copyFault (kept_of_eq ‹_› (kept_copyNeed (kept_of_eq ‹_› (kept_copyHeader h))))
    · refine kept_ite (kept_of_eq ‹_› (kept_copyNeed (kept_of_eq ‹_› (kept_copyHeader h)))) ?_
      refine kept_ite (kept_chunkDone (kept_putHdr (kept_putTile (kept_of_eq ‹_› (kept_copyNeed (kept_of_eq ‹_› (kept_copyHeader h))))))) ?_
      exact kept_setCopy (kept_tileSeen (kept_engineStore (kept_of_eq ‹_› (kept_copyNeed (kept_of_eq ‹_› (kept_copyHeader h))))))

theorem kept_copyStep {r s : State} {c} (h : Kept r s) : Kept r (s.copyStep c) := by
  unfold State.copyStep
  dsimp only
  refine kept_ite (kept_copyMaterialise h) ?_
  refine kept_ite h ?_
  refine kept_ite (kept_endCopy h) ?_
  refine kept_ite (kept_endCopy h) ?_
  split
  · exact kept_chunkMemSlot h
  · exact kept_chunkSlotMem h
  · exact kept_chunkMemMem h
  · exact kept_chunkTensorSlot h
  · exact kept_chunkSlotTensor h

theorem kept_execCopyChunkWrite {r s : State} {id} (h : Kept r s) : KeptNext r (execCopyChunkWrite id s) := by
  unfold execCopyChunkWrite
  refine keptNext ?_
  split
  · exact kept_copyStep h
  · exact h

theorem kept_execCopyFaultResume {r s : State} {id} (h : Kept r s) : KeptNext r (execCopyFaultResume id s) := by
  unfold execCopyFaultResume
  refine keptNext ?_
  split
  · exact kept_ite (kept_putStatus (kept_setCopy h)) h
  · exact h

theorem kept_copyDesc {r s : State} {st r'} (h : Kept r s) : Kept r (s.copyDesc st r').1 := by
  unfold State.copyDesc
  refine kept_ite_fst h ?_
  split
  · exact kept_of_eq ‹_› (kept_ctlAccess h)
  · split
    · exact kept_of_eq ‹_› (kept_ctlAccess h)
    · refine kept_ite_fst (kept_of_eq ‹_› (kept_ctlAccess h)) ?_
      exact kept_ite_fst (kept_deferPoison (kept_of_eq ‹_› (kept_ctlAccess h))) (kept_of_eq ‹_› (kept_ctlAccess h))

theorem kept_ownAll {r s : State} {uid p xs} (h : Kept r s) : KeptSome r (s.ownAll uid p xs) := by
  induction xs generalizing s with
  | nil => exact keptSome_some h
  | cons x xs ih =>
    unfold State.ownAll
    split
    · exact ih (kept_ownSlot h _ ‹_›)
    · exact keptSome_none

theorem kept_acceptCopy {r s : State} {st tok o ws desc bad sys} (h : Kept r s) : Kept r (s.acceptCopy st tok o ws desc bad sys) := by
  unfold State.acceptCopy
  dsimp only
  refine kept_update ?_ ..
  refine kept_ite (kept_copySlots (kept_takeToken (kept_storeScratch (kept_fresh h)))) ?_
  exact kept_copySlots (kept_takeToken (kept_storeScratch (kept_fresh h)))

theorem kept_cpyOne {r s : State} {st w} (h : Kept r s) : Kept r (s.cpyOne st w).1 := by
  unfold State.cpyOne
  dsimp only
  split
  · exact kept_of_eq ‹_› (kept_spad h)
  · refine kept_ite_fst (kept_of_eq ‹_› (kept_spad h)) ?_
    refine kept_ite_fst (kept_of_eq ‹_› (kept_spad h)) ?_
    split
    · exact kept_of_eq ‹_› (kept_spad h)
    · split
      · exact kept_of_eq ‹_› (kept_copyDesc (kept_of_eq ‹_› (kept_spad h)))
      · refine kept_ite_fst (kept_of_eq ‹_› (kept_copyDesc (kept_of_eq ‹_› (kept_spad h)))) ?_
        refine kept_ite_fst (kept_of_eq ‹_› (kept_copyDesc (kept_of_eq ‹_› (kept_spad h)))) ?_
        split
        · exact kept_of_eq ‹_› (kept_copyDesc (kept_of_eq ‹_› (kept_spad h)))
        · exact kept_acceptCopy (kept_ownAll (kept_of_eq ‹_› (kept_copyDesc (kept_of_eq ‹_› (kept_spad h)))) _ ‹_›)

theorem kept_execCpy {r s : State} {w} (h : Kept r s) : KeptNext r (execCpy w s) := keptNext (kept_each h (fun _ _ hs => kept_cpyOne hs))

theorem kept_mcastOne {r s : State} {st w dst} (h : Kept r s) : Kept r (s.mcastOne st w dst).1 := by
  unfold State.mcastOne
  dsimp only
  refine kept_ite_fst h ?_
  refine kept_ite_fst (kept_endToken (kept_takeToken h)) ?_
  split
  · exact h
  · exact kept_ite_fst h (kept_update (kept_setSlot (kept_takeToken (kept_fresh h))) ..)

theorem kept_execMcast {r s : State} {w} (h : Kept r s) : KeptNext r (execMcast w s) := keptNext (kept_each h (fun _ _ hs => kept_mcastOne hs))

theorem kept_execMcastSame {r s : State} {w} (h : Kept r s) : KeptNext r (execMcastSame w s) := keptNext (kept_each h (fun _ _ hs => kept_mcastOne hs))

theorem kept_arriveAt {r s : State} {uid k t own} (h : Kept r s) : KeptSome r (s.arriveAt uid k t own) := keptSome_map (kept_ownSlot h) (fun _ hs => kept_setSlot hs)

theorem kept_deliverTo {r s : State} {uid k t src acq} (h : Kept r s) : Kept r (s.deliverTo uid k t src acq).1 := by
  unfold State.deliverTo
  extract_lets x left s1
  refine kept_ite_fst ?_ (kept_setSlot h)
  have h1 : Kept r s1 := kept_setSlot (kept_setRank h)
  clear_value left s1
  exact kept_ite (kept_readyAcquire h1) h1

theorem kept_execMcastDelivery {r s : State} {id rank} (h : Kept r s) : KeptNext r (execMcastDelivery id rank s) := by
  unfold execMcastDelivery
  dsimp only
  refine keptNext ?_
  split
  · exact h
  · refine kept_ite h ?_
    refine kept_ite ?_ ?_
    · split
      · exact h
      · exact kept_update (kept_arriveAt h _ ‹_›) ..
    · refine kept_ite ?_ (kept_update (kept_ite_fst h (kept_deliverTo h)) ..)
      exact kept_settled (kept_endToken (kept_readyAcquire (kept_setSlot (kept_update (kept_ite_fst h (kept_deliverTo h)) ..))))

theorem kept_execTktst {r s : State} {w} (h : Kept r s) : KeptNext r (execTktst w s) := by
  unfold execTktst
  dsimp only
  exact keptNext (kept_alu h)

theorem kept_execXarm {r s : State} {w} (h : Kept r s) : KeptNext r (execXarm w s) := by
  unfold execXarm
  dsimp only
  refine keptNext ?_
  refine kept_each h (fun _ _ hs => ?_)
  refine kept_ite_fst hs ?_
  refine kept_ite_fst hs ?_
  split
  · exact hs
  · exact kept_setSlot (kept_ownSlot hs _ ‹_›)

theorem kept_execXstatToken {r s : State} {w} (h : Kept r s) : KeptNext r (execXstatToken w s) := keptNext (kept_each h (fun _ _ hs => kept_putD hs))

theorem kept_execXstatSlot {r s : State} {w} (h : Kept r s) : KeptNext r (execXstatSlot w s) := by
  unfold execXstatSlot
  dsimp only
  exact keptNext (kept_each h (fun _ _ hs => kept_ite_fst hs (kept_putD hs)))

theorem kept_freeSlot {r s : State} {uid p x} (h : Kept r s) : Kept r (s.freeSlot uid p x) := kept_setRank (kept_update h ..)

theorem kept_execXfree {r s : State} {w} (h : Kept r s) : KeptNext r (execXfree w s) := by
  unfold execXfree
  dsimp only
  refine keptNext ?_
  refine kept_each h (fun _ _ hs => ?_)
  refine kept_ite_fst hs ?_
  refine kept_ite_fst hs ?_
  split
  · exact hs
  · exact kept_freeSlot (kept_ownSlot hs _ ‹_›)

theorem kept_grindPages {r s : State} {st va n wr} (h : Kept r s) : Kept r (s.grindPages st va n wr).1 := kept_translateRange h

theorem kept_grindAll {r s : State} {st n vas} (h : Kept r s) : Kept r (s.grindAll st n vas).1 := by
  induction vas generalizing s with
  | nil => exact h
  | cons va vas ih =>
    unfold State.grindAll
    split
    · exact kept_of_eq ‹_› (kept_grindPages h)
    · have hr := ih (kept_of_eq ‹_› (kept_grindPages h))
      split
      · exact kept_of_eq ‹_› hr
      · exact kept_of_eq ‹_› hr

theorem kept_redcQueue {r s : State} {st blockPa bs} (h : Kept r s) : Kept r (s.redcQueue st blockPa bs).1 := by
  have hone : ∀ {t st va n wr}, Kept r t → Kept r (State.grindPages t st va n wr).1 := kept_grindPages
  have hall : ∀ {t st n vas}, Kept r t → Kept r (State.grindAll t st n vas).1 := kept_grindAll
  unfold State.redcQueue
  -- the translations are taken as given: the kernel need not run them to compare the matches on them
  obtain ⟨translate, htranslate⟩ : ∃ f, State.grindPages = f := ⟨_, rfl⟩
  obtain ⟨translateAll, htranslateAll⟩ : ∃ f, State.grindAll = f := ⟨_, rfl⟩
  rw [htranslate] at hone ⊢
  rw [htranslateAll] at hall ⊢
  generalize GrindRec.of bs = g
  have ht : Kept r (s.setSt st.sid fun x => { x with redc := some (st.seq, bs) }) := kept_setSt h
  by_cases href : g.refused
  · simp only [href, if_true]
    exact h
  obtain ⟨u, srcs, hu⟩ : ∃ u srcs, translateAll (s.setSt st.sid fun x => { x with redc := some (st.seq, bs) }) st (g.count * grindBytes g.op) g.srcs = (u, srcs) := ⟨_, _, rfl⟩
  have ku : Kept r u := kept_of_eq hu (hall ht)
  cases srcs with
  | error =>
    simp only [href, Bool.false_eq_true, if_false, hu]
    exact ku
  | ok srcs =>
    obtain ⟨v, dst, hv⟩ : ∃ v dst, translate u st g.dst (4 * g.count) true = (v, dst) := ⟨_, _, rfl⟩
    have kv : Kept r v := kept_of_eq hv (hone ku)
    cases dst with
    | error =>
      simp only [href, Bool.false_eq_true, if_false, hu, hv]
      exact kv
    | ok dst =>
      obtain ⟨x, fl, hx⟩ : ∃ x fl, translate v st g.flag 4 true = (x, fl) := ⟨_, _, rfl⟩
      have kx : Kept r x := kept_of_eq hx (hone kv)
      cases fl with
      | error =>
        simp only [href, Bool.false_eq_true, if_false, hu, hv, hx]
        exact kx
      | ok fl =>
        simp only [href, Bool.false_eq_true, if_false, hu, hv, hx]
        exact kept_ite_fst kx (kept_ite_fst kx (kept_update (kept_setSt kx) ..))

theorem kept_execRedc {r s : State} {w} (h : Kept r s) : KeptNext r (execRedc w s) := by
  unfold execRedc
  dsimp only
  refine keptNext ?_
  refine kept_each h (fun _ _ hs => ?_)
  refine kept_ite_fst hs ?_
  refine kept_ite_fst hs ?_
  split
  · exact kept_of_eq ‹_› (kept_access hs)
  · split
    · exact kept_redcQueue (kept_of_eq ‹_› (kept_access hs))
    · refine kept_ite_fst (kept_of_eq ‹_› (kept_access hs)) ?_
      exact kept_ite_fst (kept_deferPoison (kept_of_eq ‹_› (kept_access hs))) (kept_redcQueue (kept_of_eq ‹_› (kept_access hs)))

theorem kept_setChannel {r s : State} {c f} (h : Kept r s) : Kept r (s.setChannel c f) := kept_ite (kept_update h ..) (kept_update h ..)

theorem kept_setGrinder {r s : State} {stack f} (h : Kept r s) : Kept r (s.setGrinder stack f) := kept_update h ..

theorem kept_execGrinderBlockStart {r s : State} {stack} (h : Kept r s) : KeptNext r (execGrinderBlockStart stack s) := by
  unfold execGrinderBlockStart
  dsimp only
  refine keptNext ?_
  split
  · exact kept_foldl (kept_setGrinder h) (fun _ _ hs => kept_setChannel hs) _
  · exact h

theorem kept_grindOne {r s : State} {b f e} (h : Kept r s) : Kept r (s.grindOne b f e).1 := by
  unfold State.grindOne
  dsimp only
  exact kept_writePoison h

theorem kept_execComputeSliceEnd {r s : State} {stack upto} (h : Kept r s) : KeptNext r (execComputeSliceEnd stack upto s) := by
  unfold execComputeSliceEnd
  dsimp only
  refine keptNext ?_
  split
  · exact h
  · refine kept_ite h ?_
    refine kept_foldl ?_ (fun _ _ hs1 => kept_setChannel hs1) _
    refine kept_setGrinder ?_
    refine kept_foldl_fst ?_ (fun _ _ hs => ?_) _
    · exact kept_update h ..
    · exact kept_grindOne hs

theorem kept_execActivationAlert {r s : State} {channel} (h : Kept r s) : KeptNext r (execActivationAlert channel s) := keptNext (kept_ite (kept_setChannel h) h)

theorem kept_execGrinderBlockDone {r s : State} {stack} (h : Kept r s) : KeptNext r (execGrinderBlockDone stack s) := by
  unfold execGrinderBlockDone
  dsimp only
  refine keptNext ?_
  split
  · exact h
  · exact kept_ite h (kept_foldl (kept_setGrinder (kept_writeHome (kept_writeHome h))) (fun _ _ hs => kept_setChannel hs) _)

theorem kept_execRefreshDue {r s : State} {channel} (h : Kept r s) : KeptNext r (execRefreshDue channel s) := by
  unfold execRefreshDue
  dsimp only
  exact keptNext (kept_ite h (kept_setChannel h))

theorem kept_setNvq {r s : State} {q f} (h : Kept r s) : Kept r (s.setNvq q f) := kept_update h ..

theorem kept_nvPage {r s : State} {st ctx va wr} (h : Kept r s) : Kept r (s.nvPage st ctx va wr).1 := by
  unfold State.nvPage
  split
  · exact kept_walkAcquire (kept_of_eq ‹_› (kept_translate h))
  · exact kept_of_eq ‹_› (kept_translate h)

theorem kept_nvParts {r s : State} {st ctx wr ps} (h : Kept r s) : Kept r (s.nvParts st ctx wr ps).1 := by
  induction ps generalizing s with
  | nil => exact h
  | cons p ps ih =>
    unfold State.nvParts
    split
    · exact kept_of_eq ‹_› (kept_nvPage h)
    · have hr := ih (kept_of_eq ‹_› (kept_nvPage h))
      split
      · exact kept_of_eq ‹_› hr
      · exact hr

theorem kept_prpList {r s : State} {st ctx k at_ left} (h : Kept r s) : Kept r (s.prpList st ctx k at_ left).1 := by
  induction k generalizing s at_ left with
  | zero => exact h
  | succ k ih =>
    unfold State.prpList
    refine kept_ite_fst h ?_
    split
    · exact kept_of_eq ‹_› (kept_nvPage h)
    · have hr := fun {a l} => ih (at_ := a) (left := l) (kept_of_eq ‹_› (kept_nvPage h))
      refine kept_ite_fst hr ?_
      dsimp only
      split
      · exact kept_of_eq ‹_› hr
      · exact hr

theorem kept_sglWalk {r s : State} {st ctx k at_ n left} (h : Kept r s) : Kept r (s.sglWalk st ctx k at_ n left).1 := by
  induction k generalizing s at_ n left with
  | zero => exact h
  | succ k ih =>
    unfold State.sglWalk
    refine kept_ite_fst h ?_
    split
    · exact kept_of_eq ‹_› (kept_nvPage h)
    · have hr := fun {a m l} => ih (at_ := a) (n := m) (left := l) (kept_of_eq ‹_› (kept_nvPage h))
      refine kept_ite_fst hr ?_
      dsimp only
      split
      · exact kept_of_eq ‹_› hr
      · exact hr

theorem kept_nvPieces {r s : State} {st ctx e len} (h : Kept r s) : Kept r (s.nvPieces st ctx e len).1 := by
  unfold State.nvPieces
  dsimp only
  refine kept_ite_fst h ?_
  refine kept_ite_fst ?_ (kept_ite_fst (kept_sglWalk h) h)
  refine kept_ite_fst h ?_
  refine kept_ite_fst h ?_
  split
  · exact kept_of_eq ‹_› (kept_prpList h)
  · exact kept_prpList h

theorem kept_nvCheck {r s : State} {st d e} (h : Kept r s) : Kept r (s.nvCheck st d e).1 := by
  unfold State.nvCheck
  dsimp only
  refine kept_ite_fst h ?_
  split
  · exact kept_of_eq ‹_› (kept_nvPieces h)
  · exact kept_nvParts (kept_of_eq ‹_› (kept_nvPieces h))

theorem kept_doorbell {r s : State} {d addr v} (h : Kept r s) : Kept r (s.doorbell d addr v) := kept_update h ..

theorem kept_fillSegs {r s : State} {xs bs} (h : Kept r s) : Kept r (s.fillSegs xs bs) := by
  induction xs generalizing s bs with
  | nil => exact h
  | cons x xs ih =>
    unfold State.fillSegs
    exact kept_ite h (ih (kept_writeHome h))

theorem kept_nvSubmit {r s : State} {st d tok e segs} (h : Kept r s) : Kept r (s.nvSubmit st d tok e segs) := by
  unfold State.nvSubmit
  dsimp only
  exact kept_takeToken (kept_doorbell (kept_setNvq (kept_writeHome (kept_ite (kept_fillSegs (kept_update h ..)) (kept_update h ..)))))

theorem kept_nvsqOne {r s : State} {st w} (h : Kept r s) : Kept r (s.nvsqOne st w).1 := by
  unfold State.nvsqOne
  dsimp only
  split
  · exact h
  · refine kept_ite_fst h (kept_ite_fst h (kept_ite_fst h ?_))
    split
    · exact kept_of_eq ‹_› (kept_ctlAccess h)
    · rename_i t x hx
      have ht : Kept r t := kept_of_eq hx (kept_ctlAccess h)
      refine kept_ite_fst ht (kept_ite_fst (kept_deferPoison ht) (kept_ite_fst ht (kept_ite_fst ht ?_)))
      split
      · rename_i u va wr hu
        have hu : Kept r u := kept_of_eq hu (kept_nvCheck ht)
        exact hu
      · rename_i u c hu
        have hu : Kept r u := kept_of_eq hu (kept_nvCheck ht)
        exact kept_endToken (kept_takeToken hu)
      · rename_i u segs hu
        have hu : Kept r u := kept_of_eq hu (kept_nvCheck ht)
        exact kept_nvSubmit hu

theorem kept_execNvsq {r s : State} {w} (h : Kept r s) : KeptNext r (execNvsq w s) := keptNext (kept_each h (fun _ _ hs => kept_nvsqOne hs))

theorem kept_nvCrc {r s : State} {d c data} (h : Kept r s) : Kept r (s.nvCrc d c data).1 := by
  unfold State.nvCrc
  dsimp only
  refine kept_ite_fst h ?_
  split
  · exact kept_foldl h (fun _ _ hs => kept_writeHome hs) _
  · exact h
  · exact kept_foldl h (fun _ _ hs1 => kept_writeHome hs1) _
  · exact h

theorem kept_nvToken {r s : State} {c cstat nvst} (h : Kept r s) : Kept r (s.nvToken c cstat nvst) := by
  unfold State.nvToken
  dsimp only
  exact kept_ite (kept_writeRecord (kept_endToken h)) (kept_endToken h)

theorem kept_execNvmeCompletion {r s : State} {q cid status data} (h : Kept r s) : KeptNext r (execNvmeCompletion q cid status data s) := by
  unfold execNvmeCompletion
  refine keptNext ?_
  split
  · exact h
  · split
    · exact h
    · refine kept_ite h ?_
      have hw : ∀ {n pa bs} {segs : List (Nat × Nat)}, Kept r (({ s.fillSegs segs data with nextId := n } : State).writeHome 0 0 pa bs) := kept_writeHome (kept_update (kept_fillSegs h) ..)
      exact kept_nvToken (kept_doorbell (kept_setNvq (kept_ite_fst (kept_nvCrc hw) hw)))

theorem kept_execNvmeQueueAbort {r s : State} {q} (h : Kept r s) : KeptNext r (execNvmeQueueAbort q s) := by
  unfold execNvmeQueueAbort
  dsimp only
  refine keptNext ?_
  split
  · exact h
  · exact kept_foldl (kept_setNvq h) (fun _ _ hs => kept_nvToken hs) _

theorem kept_fpOp {r s : State} {op f w} (h : Kept r s) : Kept r (fpOp op f w s) := kept_alu h

theorem kept_execFadd {r s : State} {w} (h : Kept r s) : KeptNext r (execFadd w s) := keptNext (kept_fpOp h)

theorem kept_execFsub {r s : State} {w} (h : Kept r s) : KeptNext r (execFsub w s) := keptNext (kept_fpOp h)

theorem kept_execFmul {r s : State} {w} (h : Kept r s) : KeptNext r (execFmul w s) := keptNext (kept_fpOp h)

theorem kept_execFfma {r s : State} {w} (h : Kept r s) : KeptNext r (execFfma w s) := keptNext (kept_fpOp h)

theorem kept_minMaxOp {r s : State} {op isMax w} (h : Kept r s) : Kept r (minMaxOp op isMax w s) := by
  unfold minMaxOp
  dsimp only
  exact kept_alu h

theorem kept_execFmin {r s : State} {w} (h : Kept r s) : KeptNext r (execFmin w s) := keptNext (kept_minMaxOp h)

theorem kept_execFmax {r s : State} {w} (h : Kept r s) : KeptNext r (execFmax w s) := keptNext (kept_minMaxOp h)

theorem kept_execFset {r s : State} {w} (h : Kept r s) : KeptNext r (execFset w s) := keptNext (kept_alu h)

theorem kept_execFdiv {r s : State} {w} (h : Kept r s) : KeptNext r (execFdiv w s) := keptNext (kept_longOp h)

theorem kept_execFsqrt {r s : State} {w} (h : Kept r s) : KeptNext r (execFsqrt w s) := keptNext (kept_longOp h)

theorem kept_approxOp {r s : State} {op w} (h : Kept r s) : Kept r (approxOp op w s) := by
  unfold approxOp
  dsimp only
  exact kept_longOp h

theorem kept_execFrcp {r s : State} {w} (h : Kept r s) : KeptNext r (execFrcp w s) := keptNext (kept_approxOp h)

theorem kept_execFrsq {r s : State} {w} (h : Kept r s) : KeptNext r (execFrsq w s) := keptNext (kept_approxOp h)

theorem kept_execFexp2 {r s : State} {w} (h : Kept r s) : KeptNext r (execFexp2 w s) := keptNext (kept_approxOp h)

theorem kept_execFlog2 {r s : State} {w} (h : Kept r s) : KeptNext r (execFlog2 w s) := keptNext (kept_approxOp h)

theorem kept_execFtanh {r s : State} {w} (h : Kept r s) : KeptNext r (execFtanh w s) := keptNext (kept_approxOp h)

theorem kept_execFrnd {r s : State} {w} (h : Kept r s) : KeptNext r (execFrnd w s) := keptNext (kept_alu h)

theorem kept_execFcls {r s : State} {w} (h : Kept r s) : KeptNext r (execFcls w s) := keptNext (kept_alu h)

theorem kept_execFclsTest {r s : State} {w} (h : Kept r s) : KeptNext r (execFclsTest w s) := keptNext (kept_alu h)

theorem kept_halfOp {r s : State} {op g w} (h : Kept r s) : Kept r (halfOp op g w s) := by
  unfold halfOp
  dsimp only
  exact kept_alu h

theorem kept_execHadd2 {r s : State} {w} (h : Kept r s) : KeptNext r (execHadd2 w s) := keptNext (kept_halfOp h)

theorem kept_execHmul2 {r s : State} {w} (h : Kept r s) : KeptNext r (execHmul2 w s) := keptNext (kept_halfOp h)

theorem kept_execHfma2 {r s : State} {w} (h : Kept r s) : KeptNext r (execHfma2 w s) := keptNext (kept_halfOp h)

theorem kept_execFcvt {r s : State} {w} (h : Kept r s) : KeptNext r (execFcvt w s) := by
  unfold execFcvt
  dsimp only
  exact keptNext (kept_alu h)

theorem kept_execFdot {r s : State} {w} (h : Kept r s) : KeptNext r (execFdot w s) := by
  unfold execFdot
  dsimp only
  exact keptNext (kept_alu h)

theorem kept_execFldx {r s : State} {w} (h : Kept r s) : KeptNext r (execFldx w s) := by
  unfold execFldx
  dsimp only
  exact keptNext (kept_alu h)

end Sys2Proof.Proofs
end

section
/-! SUPPORT. What system words, traps, the launch unit and the device's surroundings leave of the machine, and what a step does: byte stores stay canonical (O56). -/

namespace Sys2Proof.Proofs
open Sys2Proof Sys2Proof.Machine Sys2Proof.Safety Sys2Proof.Laws

theorem kept_execSysr {r s : State} {w} (h : Kept r s) : KeptNext r (execSysr w s) := by
  unfold execSysr
  dsimp only
  exact keptNext (kept_alu h)

theorem kept_execSysw {r s : State} {w} (h : Kept r s) : KeptNext r (execSysw w s) := by
  unfold execSysw
  refine keptNext (kept_each h fun u st hs => ?_)
  generalize w.imm.toNat % 256 = n
  dsimp only
  refine kept_ite_fst hs (kept_ite_fst hs (kept_ite_fst hs ?_))
  split
  · dsimp only
    exact kept_setCtx hs
  · dsimp only
    exact kept_setCtx hs
  · exact kept_setSt hs
  · exact kept_setSt hs

theorem kept_execTlbInvalidate {r s : State} {ctx range} (h : Kept r s) : KeptNext r (execTlbInvalidate ctx range s) := keptNext (kept_ite h (kept_update h ..))

theorem kept_execPageServiceComplete {r s : State} {pa entry} (h : Kept r s) : KeptNext r (execPageServiceComplete pa entry s) := by
  unfold execPageServiceComplete
  dsimp only
  exact keptNext (kept_ite h (kept_update (kept_writeHome h) ..))

theorem kept_execPageDecline {r s : State} {what} (h : Kept r s) : KeptNext r (execPageDecline what s) := by
  unfold execPageDecline
  dsimp only
  refine keptNext ?_
  split
  · split
    · split
      · exact kept_trap (kept_setPark h)
      · exact h
    · split
      · exact kept_setSt (kept_setPark h)
      · exact h
    · exact h
  · split
    · split
      · exact kept_setEntryTrap h
      · exact h
    · exact h
  · split
    · split
      · exact kept_tileFault h
      · exact h
    · exact h
  · split
    · exact kept_ite (kept_endCopy h) h
    · exact h

theorem kept_execTrap {r s : State} {w} (h : Kept r s) : KeptNext r (execTrap w s) := keptNext (kept_each h (fun _ _ hs => hs))

theorem kept_execBpt {r s : State} {w} (h : Kept r s) : KeptNext r (execBpt w s) := by
  unfold execBpt
  dsimp only
  exact keptNext (kept_each h (fun _ _ hs => hs))

theorem kept_execBptResolve {r s : State} {sid resume} (h : Kept r s) : KeptNext r (execBptResolve sid resume s) := by
  unfold execBptResolve
  dsimp only
  refine keptNext ?_
  split
  · exact kept_ite (kept_trap (kept_setPark h)) (kept_ite (kept_jump (kept_setPark h)) h)
  · exact h

theorem kept_dropFault {r s : State} {sid seq} (h : Kept r s) : Kept r (s.dropFault sid seq) := kept_setSt h

theorem kept_deliverFault {r s : State} {sid f} (h : Kept r s) : Kept r (s.deliverFault sid f) := kept_deliver (kept_ite h (kept_dropFault h))

theorem kept_redeliver {r s : State} {sid f} (h : Kept r s) : Kept r (s.redeliver sid f) := by
  unfold State.redeliver
  dsimp only
  exact kept_enterTrap (kept_setSt (kept_dropFault h))

theorem kept_eretGo {r s : State} {sid} (h : Kept r s) : Kept r (s.eretGo sid) := by
  unfold State.eretGo
  dsimp only
  refine kept_ite h ?_
  split
  · exact kept_redeliver h
  · exact kept_setSt h

theorem kept_execDeferredTrapDeliver {r s : State} {sid} (h : Kept r s) : KeptNext r (execDeferredTrapDeliver sid s) := by
  unfold execDeferredTrapDeliver
  dsimp only
  refine keptNext ?_
  refine kept_ite h ?_
  refine kept_ite (kept_eretGo h) ?_
  split
  · exact kept_ite (kept_deliverFault h) (kept_setSt h)
  · refine kept_ite h ?_
    split
    · exact kept_deliverFault h
    · exact h

theorem kept_execLogEntryReexecute {r s : State} {sid entry} (h : Kept r s) : KeptNext r (execLogEntryReexecute sid entry s) := by
  unfold execLogEntryReexecute
  dsimp only
  refine keptNext ?_
  refine kept_ite h ?_
  split
  · exact kept_eretGo (kept_setSt (kept_reexecute h))
  · exact h

theorem kept_restoreRegs {r s : State} {st regs} (h : Kept r s) : KeptSome r (s.restoreRegs st regs) := kept_grow h (fun _ hs => kept_foldl hs (fun _ _ hs1 => kept_restoreReg hs1) _)

theorem kept_dropSaved {r s : State} {uid} (h : Kept r s) : Kept r (s.dropSaved uid) := kept_ite h (kept_setIt h)

theorem kept_enterPreempt {r s : State} {sid} (h : Kept r s) : Kept r (s.enterPreempt sid) := kept_setSt (kept_waitaReturn h)

theorem kept_leaveResume {r s : State} {sid} (h : Kept r s) : Kept r (s.leaveResume sid) := by
  unfold State.leaveResume
  dsimp only
  exact kept_dropSaved (kept_setSt h)

theorem kept_eretResume {r s : State} {st} (h : Kept r s) : Kept r (s.eretResume st).1 := by
  unfold State.eretResume
  split
  · exact h
  · exact kept_leaveResume (kept_restoreRegs h _ ‹_›)

theorem kept_eret {r s : State} {st skip} (h : Kept r s) : Kept r (s.eret st skip).1 := by
  unfold State.eret
  refine kept_ite_fst h ?_
  refine kept_ite_fst h ?_
  split
  · exact kept_redeliver h
  · exact kept_ite_fst (kept_eretResume h) (kept_setSt h)

theorem kept_execEret {r s : State} {w} (h : Kept r s) : KeptNext r (execEret w s) := keptNext (kept_each h (fun _ _ hs => kept_eret hs))

theorem kept_execEretSkip {r s : State} {w} (h : Kept r s) : KeptNext r (execEretSkip w s) := keptNext (kept_each h (fun _ _ hs => kept_eret hs))

theorem kept_replayRun {r s : State} {sid x ids} (h : Kept r s) : Kept r (s.replayRun sid x ids).1 := by
  induction ids generalizing s x with
  | nil => exact h
  | cons id ids ih =>
    unfold State.replayRun
    split
    · exact ih h
    · refine kept_ite_fst (ih h) ?_
      split
      · exact ih (kept_of_eq ‹_› (kept_reexecute h))
      · exact kept_ite_fst (kept_of_eq ‹_› (kept_reexecute h)) (kept_of_eq ‹_› (kept_reexecute h))

theorem kept_replayEnd {r s : State} {sid r'} (h : Kept r s) : Kept r (s.replayEnd sid r') := kept_setSt h

theorem kept_replayOne {r s : State} {sid} (h : Kept r s) : Kept r (s.replayOne sid).1 := by
  unfold State.replayOne
  dsimp only
  refine kept_ite_fst h ?_
  split
  · exact kept_replayEnd (kept_of_eq ‹_› (kept_replayRun h))
  · exact kept_setSt (kept_of_eq ‹_› (kept_replayRun h))

theorem kept_replayWord {r s : State} {w} {act : State → List Nat → State × List Nat} (h : Kept r s) (hact : ∀ u x1, Kept r u → Kept r (act u x1).1) : Kept r (s.replayWord w act) := by
  unfold State.replayWord
  dsimp only
  exact kept_foldl (kept_alu (kept_update (hact _ _ h) ..)) (fun _ _ hs => kept_flow hs) _

theorem kept_execReplay {r s : State} {w} (h : Kept r s) : KeptNext r (execReplay w s) := by
  unfold execReplay
  refine keptNext (kept_replayWord h fun u gs hu => ?_)
  exact kept_foldl_fst (p := (u, [])) hu (fun _ _ hs => kept_replayOne hs) _

theorem kept_dropLogs {r s : State} {gs} (h : Kept r s) : Kept r (s.dropLogs gs).1 := by
  unfold State.dropLogs
  dsimp only
  refine kept_foldl_fst (p := (s, [])) h (fun p x hs => ?_) _
  refine kept_ite_fst hs ?_
  split
  · rename_i t ht
    refine kept_foldl ?_ (fun _ _ hs => kept_setSt hs) _
    refine keptSome_ite ?_ ?_ t ht
    · exact keptSome_some (kept_foldl hs (fun _ _ hs => kept_writeV hs) _)
    · exact kept_grow hs fun _ hs => kept_foldl hs (fun _ _ hs => kept_writeV hs) _
  · exact kept_foldl hs (fun _ _ hs => kept_setPark hs) _

theorem kept_execReplayDrop {r s : State} {w} (h : Kept r s) : KeptNext r (execReplayDrop w s) := keptNext (kept_replayWord h (fun _ _ hs => kept_dropLogs hs))

theorem kept_execCsave {r s : State} {w} (h : Kept r s) : KeptNext r (execCsave w s) := by
  unfold execCsave
  dsimp only
  exact keptNext (kept_each h (fun _ _ hs => kept_ite_fst hs (kept_setSt hs)))

theorem kept_execCrest {r s : State} {w} (h : Kept r s) : KeptNext r (execCrest w s) := by
  unfold execCrest
  refine keptNext ?_
  refine kept_each h (fun _ _ hs => ?_)
  refine kept_ite_fst hs ?_
  split
  · exact hs
  · exact kept_setSt (kept_restoreRegs hs _ ‹_›)

theorem kept_execPdone {r s : State} {w} (h : Kept r s) : KeptNext r (execPdone w s) := by
  unfold execPdone
  dsimp only
  exact keptNext (kept_foldl (kept_each h (fun _ _ hs => kept_ite_fst hs hs)) (fun _ _ hs1 => kept_trySave hs1) _)

theorem kept_forceSave {r s : State} {uid forced} (h : Kept r s) : Kept r (s.forceSave uid forced) := by
  unfold State.forceSave
  dsimp only
  exact kept_trySave (kept_foldl (kept_setIt h) (fun _ _ hs => kept_setSt (kept_waitaReturn hs)) _)

theorem kept_preemptResume {r s : State} {sid} (h : Kept r s) : Kept r (s.preemptResume sid) := by
  unfold State.preemptResume
  dsimp only
  split
  · exact kept_enterPreempt (kept_leaveResume (kept_restoreRegs (kept_waitaReturn h) _ ‹_›))
  · exact kept_setSt (kept_waitaReturn h)

theorem kept_execStorageRetry {r s : State} {sid} (h : Kept r s) : KeptNext r (execStorageRetry sid s) :=
  keptNext (kept_ite (kept_payOwed h) (kept_ite h (kept_ite (kept_preemptResume h) (kept_setPark h))))

theorem kept_preempt {r s : State} {uid} (h : Kept r s) : Kept r (s.preempt uid) := by
  unfold State.preempt
  dsimp only
  refine kept_ite h ?_
  exact kept_ite (kept_forceSave h) (kept_foldl (kept_setIt h) (fun _ _ hs => kept_ite (kept_preemptResume hs) (kept_enterPreempt hs)) _)

theorem kept_execPreemptRequest {r s : State} {what} (h : Kept r s) : KeptNext r (execPreemptRequest what s) := by
  unfold execPreemptRequest
  refine keptNext ?_
  split
  · exact kept_preempt h
  · exact kept_foldl h (fun _ _ hs => kept_preempt hs) _

theorem kept_execPreemptDeadline {r s : State} {uid} (h : Kept r s) : KeptNext r (execPreemptDeadline uid s) := by
  unfold execPreemptDeadline
  refine keptNext ?_
  split
  · exact kept_ite h (kept_trySave (kept_setIt h))
  · exact h

theorem kept_execContextKill {r s : State} {ctx} (h : Kept r s) : KeptNext r (execContextKill ctx s) := by
  unfold execContextKill
  dsimp only
  exact keptNext (kept_setCtx (kept_update h ..))

theorem kept_resetReport {r s : State} {it} (h : Kept r s) : Kept r (s.resetReport it) := by
  unfold State.resetReport
  dsimp only
  exact kept_putVa (kept_putLines (kept_update h ..))

theorem kept_cutAccs {r s : State} {p} (h : Kept r s) : Kept r (s.cutAccs p) := kept_update h ..

theorem kept_zeroOrOnce {r s : State} {p} (h : Kept r s) : Kept r (s.zeroOrOnce p) := by
  unfold State.zeroOrOnce
  dsimp only
  exact kept_cutAccs (kept_foldl h (fun _ _ hs => kept_ite (kept_settle hs) hs) _)

theorem kept_dropCalls {r s : State} {mine} (h : Kept r s) : Kept r (s.dropCalls mine) := kept_update h ..

theorem kept_resetItem {r s : State} {it} (h : Kept r s) : Kept r (s.resetItem it) := by
  unfold State.resetItem
  dsimp only
  refine kept_itemGone ?_
  exact kept_removeItem (kept_dropCalls (kept_update (kept_ite (kept_zeroOrOnce h) (kept_resetReport (kept_zeroOrOnce h))) ..))

theorem kept_breakItem {r s : State} {cluster it} (h : Kept r s) : Kept r (s.breakItem cluster it) := kept_setIt (kept_update (kept_dropCalls h) ..)

/-- A cluster as its reset finds it: down, its translations and copies gone, the parked strands that it watches over woken (R345). -/
def downCluster (s : State) (cluster : Nat) : State :=
  { s with
    clusters := s.clusters.modify cluster fun c => { c with down := true }
    tlb := s.tlb.filter fun e => e.cluster != cluster
    l1 := s.l1.filter fun l => !(clusterOf l.core == cluster)
    strands := s.strands.map fun st => match st.park with
      | .waita line t _ e => if s.clusterFor st = cluster then { st with park := .waita line t true e } else st
      | _ => st }

/-- A cluster's reset after that: what is under way on it, and the items that it hits. -/
def resetHit (s : State) (cluster : Nat) (hit : List Item) : State :=
  hit.foldl (fun s it =>
    if (it.ranks.all fun r => clusterOf r.core == cluster) || !(it.status == .resident || it.status == .broken || s.active it.uid) then s.resetItem it
    else s.breakItem cluster it) (s.zeroOrOnce fun a => clusterOf a.core == cluster && (s.it a.uid).status != .saved)

theorem clusterReset_eq {s : State} {cluster : Nat} (h : cluster < Config.clusters) : execClusterReset cluster s =
    .next (resetHit (downCluster s cluster) cluster (s.items.filter fun it => it.status != .saved && it.ranks.any fun r => clusterOf r.core == cluster)) :=
  congrArg Host.Outcome.next (if_neg (Nat.not_le.mpr h))

theorem kept_resetHit {r s : State} {cluster hit} (h : Kept r s) : Kept r (resetHit s cluster hit) :=
  kept_foldl (kept_zeroOrOnce h) (fun _ _ hs => kept_ite (kept_resetItem hs) (kept_breakItem hs)) _

theorem kept_execClusterReset {r s : State} {cluster} (h : Kept r s) : KeptNext r (execClusterReset cluster s) := by
  by_cases hc : cluster < Config.clusters
  · rw [clusterReset_eq hc]
    exact keptNext_of fun hr => (kept_resetHit (Kept.refl (downCluster s cluster))).canonical (canonical_congr (h.canonical hr) rfl rfl rfl rfl)
  · unfold execClusterReset
    rw [if_pos (Nat.not_lt.mp hc)]
    exact keptNext h

theorem kept_execClusterReturn {r s : State} {cluster} (h : Kept r s) : KeptNext r (execClusterReturn cluster s) := keptNext_of fun hr => canonical_congr (h.canonical hr) rfl rfl rfl rfl

/-- The loss of a peer keeps what stands once the peer is among those that are down. -/
theorem kept_losePeer {s : State} {peer} : Kept { s with peersDown := peer :: s.peersDown.filter fun p => p != peer } (s.losePeer peer) := by
  unfold State.losePeer
  dsimp only
  refine kept_update ?_ ..
  refine kept_foldl ?_ (fun _ _ hs => kept_endCopy hs) _
  refine kept_foldl (kept_foldl (kept_foldl (Kept.refl _) (fun _ _ hs => kept_abandonCall hs) _) (fun _ _ hs => kept_lateFault hs) _) (fun _ _ hs => ?_) _
  split
  · exact kept_tileFault hs
  · exact hs

theorem canonical_losePeer {s : State} {peer} (h : Canonical s) : Canonical (s.losePeer peer) := kept_losePeer.canonical (canonical_congr h rfl rfl rfl rfl)

theorem kept_execPeerDown {r s : State} {peer} (h : Kept r s) : KeptNext r (execPeerDown peer s) := keptNext_of fun hr => canonical_losePeer (h.canonical hr)

theorem kept_execLinkUp {r s : State} {port peer} (h : Kept r s) : KeptNext r (execLinkUp port peer s) := keptNext (kept_ite h (kept_update h ..))

theorem kept_timeoutAcc {r s : State} {a} (h : Kept r s) : Kept r (s.timeoutAcc a) := by
  unfold State.timeoutAcc
  dsimp only
  exact kept_ite h (kept_lateFault (kept_ite (kept_settle h) (kept_ite (kept_update h ..) h)))

theorem kept_execRtimeout {r s : State} {id} (h : Kept r s) : KeptNext r (execRtimeout id s) := keptNext (kept_onAcc h (fun _ _ hs => kept_ite (kept_timeoutAcc hs) hs))

theorem kept_poisonSite {r s : State} {site} (h : Kept r s) : Kept r (s.poisonSite site) := by
  unfold State.poisonSite
  dsimp only
  split
  · exact kept_setRow h
  · exact kept_setIt h
  · exact kept_setSlot h
  · exact kept_setSlot h
  · exact kept_setAccum h
  · exact kept_setSlot h
  · exact kept_update h ..
  · exact kept_ite (kept_update h ..) h
  · exact kept_onAcc h (fun _ _ hs => kept_ite (kept_lateFault hs) hs)

theorem kept_execMemoryError {r s : State} {site corrected} (h : Kept r s) : KeptNext r (execMemoryError site corrected s) := by
  unfold execMemoryError
  dsimp only
  exact keptNext (kept_ite (kept_poisonSite h) (kept_update h ..))

theorem kept_shareWalk {r s : State} {hd tl} (h : Kept r s) : Kept r (s.shareWalk hd tl) := kept_ite (kept_foldl h (fun _ _ hs => kept_acquire hs) _) h

theorem kept_execQueueStatusWrite {r s : State} {q w} (h : Kept r s) : KeptNext r (execQueueStatusWrite q w s) := keptNext (kept_setQueue h)

theorem kept_portWrite {r s : State} {q off bytes} (h : Kept r s) : Kept r (s.portWrite q off bytes) := by
  unfold State.portWrite
  dsimp only
  exact kept_ite h (kept_ite (kept_setQueue h) (kept_setQueue h))

theorem kept_pageWrite {r s : State} {off bytes} (h : Kept r s) : Kept r (s.pageWrite off bytes) := by
  unfold State.pageWrite
  dsimp only
  exact kept_ite (kept_portWrite h) (kept_foldl h (fun _ _ hs => kept_ite hs (kept_ite (kept_setQueue hs) (kept_portWrite hs))) _)

theorem kept_execLaunchPortWrite {r s : State} {q off bytes} (h : Kept r s) : KeptNext r (execLaunchPortWrite q off bytes s) := keptNext (kept_portWrite h)

theorem kept_ring {r s : State} {n bytes} (h : Kept r s) : Kept r (s.ring n bytes) := by
  unfold State.ring
  split
  · exact kept_ite (kept_rmwHome h) h
  · exact h

theorem kept_reject {r s : State} {q code} (h : Kept r s) : Kept r (s.reject q code) := by
  unfold State.reject
  dsimp only
  exact kept_setQueue h

theorem kept_luAt {r s : State} {c va need} (h : Kept r s) : Kept r (s.luAt c va need).1 := by
  unfold State.luAt
  split
  · exact kept_of_eq ‹_› (kept_translate h)
  · exact kept_of_eq ‹_› (kept_translate h)

theorem kept_luRange {r s : State} {c va len need} (h : Kept r s) : Kept r (s.luRange c va len need).1 := by
  unfold State.luRange
  refine kept_ite_fst h ?_
  refine kept_foldl_fst (p := (s, _)) h (fun _ _ hs => ?_) _
  exact kept_luAt hs

theorem kept_headCheck {r s : State} {p} (h : Kept r s) : Kept r (s.headCheck p).1 := by
  unfold State.headCheck
  refine kept_foldl_fst (p := (s, _)) h (fun _ _ hs => ?_) _
  refine kept_ite_fst hs (kept_ite_fst hs ?_)
  exact kept_luAt hs

theorem kept_execQueueHeadCheck {r s : State} {q} (h : Kept r s) : KeptNext r (execQueueHeadCheck q s) := by
  unfold execQueueHeadCheck
  dsimp only
  refine keptNext ?_
  split
  · refine kept_ite (kept_reject h) ?_
    split
    · exact kept_reject (kept_of_eq ‹_› (kept_headCheck h))
    · exact kept_of_eq ‹_› (kept_headCheck h)
    · exact kept_setQueue (kept_of_eq ‹_› (kept_headCheck h))
  · exact h

theorem kept_execWaitSatisfied {r s : State} {q} (h : Kept r s) : KeptNext r (execWaitSatisfied q s) := by
  unfold execWaitSatisfied
  dsimp only
  refine keptNext ?_
  split
  · exact kept_ite (kept_setQueue h) h
  · exact h

theorem kept_execPriorityAge {r s : State} {q} (h : Kept r s) : KeptNext r (execPriorityAge q s) := keptNext (kept_setQueue h)

theorem kept_load {r s : State} {pk} (h : Kept r s) : Kept r (s.load pk).1 := by
  unfold State.load
  dsimp only
  refine kept_ite_fst h ?_
  refine kept_ite_fst h ?_
  split
  · exact kept_of_eq ‹_› (kept_luRange h)
  · exact kept_of_eq ‹_› (kept_luRange h)
  · refine kept_ite_fst (kept_of_eq ‹_› (kept_luRange h)) ?_
    split
    · exact kept_luRange (kept_luRange (kept_luRange (kept_of_eq ‹_› (kept_luRange h))))
    · exact kept_luRange (kept_luRange (kept_luRange (kept_of_eq ‹_› (kept_luRange h))))
    · split
      · exact kept_luRange (kept_luRange (kept_luRange (kept_of_eq ‹_› (kept_luRange h))))
      · exact kept_luRange (kept_luRange (kept_luRange (kept_of_eq ‹_› (kept_luRange h))))

theorem kept_addLaunch {r s : State} {q p k args rowsOf} (h : Kept r s) : Kept r (s.addLaunch q p k args rowsOf) := by
  unfold State.addLaunch
  dsimp only
  exact kept_setQueue (kept_update (kept_fresh h) ..)

theorem kept_select {r s : State} {qs} (h : Kept r s) : Kept r (s.select qs) := by
  induction qs generalizing s with
  | nil => exact h
  | cons q qs ih =>
    unfold State.select
    split
    · exact ih h
    · split
      · exact ih (kept_of_eq ‹_› (kept_load h))
      · exact kept_reject (kept_update (kept_of_eq ‹_› (kept_load h)) ..)
      · exact kept_addLaunch (kept_of_eq ‹_› (kept_load h))

theorem kept_execLaunchSelect {r s : State} (h : Kept r s) : KeptNext r (execLaunchSelect s) := keptNext (kept_select h)

theorem kept_prepare {r s : State} {la} (h : Kept r s) : Kept r (s.prepare la) := by
  unfold State.prepare
  dsimp only
  exact kept_setLa (kept_update (kept_putVa h) ..)

theorem kept_putItem {r s : State} {it} (h : Kept r s) : Kept r (s.putItem it) := kept_update h ..

theorem kept_startStrands {r s : State} {it la of} (h : Kept r s) : Kept r (s.startStrands it la of) := by
  unfold State.startStrands
  dsimp only
  exact kept_foldl h (fun _ _ hs => kept_update (kept_fresh hs) ..) _

theorem kept_headDone {r s : State} {la} (h : Kept r s) : Kept r (s.headDone la) := by
  unfold State.headDone
  dsimp only
  exact kept_ite (kept_setQueue h) h

theorem kept_startNew {r s : State} {la it h' of} (h : Kept r s) : Kept r (s.startNew la it h' of) := by
  unfold State.startNew
  dsimp only
  exact kept_startStrands (kept_putItem (kept_putVa (kept_setInuse h)))

theorem kept_startAgain {r s : State} {la it} (h : Kept r s) : Kept r (s.startAgain la it) := by
  unfold State.startAgain
  dsimp only
  refine kept_ite ?_ (kept_rehome (kept_update (kept_putItem (kept_update (kept_putVa h) ..)) ..))
  exact kept_setIt (kept_rehome (kept_update (kept_putItem (kept_update (kept_putVa h) ..)) ..))

theorem kept_admitItem {r s : State} {la c cores} (h : Kept r s) : KeptSome₂ r (s.admitItem la c cores) := by
  unfold State.admitItem
  dsimp only
  split
  · exact keptSome₂_map fun _ => kept_startAgain h
  · split
    · exact keptSome₂_map fun _ => kept_headDone (kept_setTemplate (kept_startNew (kept_update h ..)))
    · exact keptSome₂_none
  · split
    · exact keptSome₂_map fun _ => kept_headDone (kept_setLa (kept_startNew (kept_update h ..)))
    · exact keptSome₂_none

theorem kept_admitAt {r s : State} {cores lids} (h : Kept r s) : KeptSome₂ r (s.admitAt cores lids) := by
  induction lids with
  | nil => exact keptSome₂_none
  | cons lid lids ih =>
    unfold State.admitAt
    dsimp only
    split
    · exact ih
    · split
      · exact fun p e => Option.some.inj e ▸ kept_admitItem h _ ‹_›
      · exact ih

theorem kept_sweep {r s : State} {lids used cores} (h : Kept r s) : Kept r (s.sweep lids used cores) := by
  induction cores generalizing s used with
  | nil => exact h
  | cons core cores ih =>
    unfold State.sweep
    refine kept_ite (ih h) ?_
    split
    · exact ih (kept_update (kept_admitAt h _ ‹_›) ..)
    · exact ih h

/-- The launches as a sweep finds them prepared. -/
def launchesPrepared (s : State) : State := s.launchOrder.foldl (fun (s : State) (la : Launch) => if la.prepared then s else s.prepare la) s

theorem kept_launchesPrepared {r s : State} (h : Kept r s) : Kept r (launchesPrepared s) := kept_foldl h (fun _ _ hs => kept_ite hs (kept_prepare hs)) _

/-- A sweep that is due, from the launches prepared. -/
def swept (s : State) : State :=
  let u : State := { launchesPrepared s with lastSweep := some (launchesPrepared s).now }
  u.sweep (u.launchOrder.map (·.lid)) [] u.sweepCores

theorem kept_swept {s : State} : Kept { launchesPrepared s with lastSweep := some (launchesPrepared s).now } (swept s) := kept_sweep (Kept.refl _)

theorem canonical_swept {s : State} (h : Canonical s) : Canonical (swept s) :=
  kept_swept.canonical (canonical_congr ((kept_launchesPrepared (Kept.refl s)).canonical h) rfl rfl rfl rfl)

theorem kept_execAdmissionSweep {r s : State} (h : Kept r s) : KeptNext r (execAdmissionSweep s) := by
  unfold execAdmissionSweep
  refine keptNext_of fun hr => ?_
  dsimp only
  generalize (!match s.lastSweep with
    | some t => decide (s.now ≥ t + 100 * Config.perNs)
    | none => true) = due
  split
  · exact h.canonical hr
  · exact canonical_swept (h.canonical hr)

theorem kept_execRegroup {r s : State} {core} (h : Kept r s) : KeptNext r (execRegroup core s) := keptNext (kept_update h ..)

theorem kept_execStorageEvict {r s : State} {core} (h : Kept r s) : KeptNext r (execStorageEvict core s) := by
  unfold execStorageEvict
  dsimp only
  exact keptNext (kept_ite h (kept_forceSave h))

theorem kept_execHostBarWrite {r s : State} {off bytes} (h : Kept r s) : KeptNext r (execHostBarWrite off bytes s) := keptNext (kept_ite (kept_writeHome h) h)

theorem kept_execHostBarRead {r s : State} {off len} (h : Kept r s) : KeptNext r (execHostBarRead off len s) := keptNext (kept_ite (kept_update h ..) h)

theorem kept_execDoorbellWrite {r s : State} {n bytes} (h : Kept r s) : KeptNext r (execDoorbellWrite n bytes s) := keptNext (kept_ite (kept_ring h) h)

theorem kept_execDoorbellRead {r s : State} {n len} (h : Kept r s) : KeptNext r (execDoorbellRead n len s) := keptNext (kept_ite (kept_update h ..) h)

theorem kept_execRegisterWrite {r s : State} {off bytes} (h : Kept r s) : KeptNext r (execRegisterWrite off bytes s) :=
  keptNext (kept_ite h (kept_ite (kept_pageWrite h) (kept_ite (kept_ring h) h)))

theorem kept_execPcieLinkReset {r s : State} {_port} (h : Kept r s) : KeptNext r (execPcieLinkReset _port s) := keptNext h

theorem kept_execPcieLinkStateChange {r s : State} {port up} (h : Kept r s) : KeptNext r (execPcieLinkStateChange port up s) := keptNext (kept_update h ..)

theorem canonical_dropLink {s : State} {port} (h : Canonical s) : Canonical (s.dropLink port) := by
  unfold State.dropLink
  split
  · exact h
  · have hl := fun l => canonical_congr (t := { s with links := l }) h rfl rfl rfl rfl
    dsimp only
    split
    · exact hl _
    · exact canonical_losePeer (hl _)

theorem kept_execTwiganLinkDown {r s : State} {port} (h : Kept r s) : KeptNext r (execTwiganLinkDown port s) := keptNext_of fun hr => canonical_dropLink (h.canonical hr)

theorem kept_modeChange {r s0 s : State} (h1 : Kept r s) : Kept r (State.modeChange s0 s) := kept_update h1 ..

theorem kept_execPalertAssert {r s : State} (h : Kept r s) : KeptNext r (execPalertAssert s) := keptNext (kept_modeChange (kept_update h ..))

theorem kept_execNarrowExit {r s : State} (h : Kept r s) : KeptNext r (execNarrowExit s) := by
  unfold execNarrowExit
  refine keptNext ?_
  split
  · exact kept_ite (kept_modeChange (kept_update h ..)) h
  · exact h

theorem kept_execFirmwareNarrowHold {r s : State} {hold} (h : Kept r s) : KeptNext r (execFirmwareNarrowHold hold s) := keptNext (kept_modeChange (kept_update h ..))

theorem canonical_resetTo {s : State} (h : Canonical s) : Canonical s.resetTo := ⟨rfl, rfl, h.host, h.peer⟩

theorem kept_thermalAlarm {r s : State} (h : Kept r s) : Kept r s.thermalAlarm := kept_update h ..

theorem kept_execThermalLevelChange {r s : State} {die celsius} (h : Kept r s) : KeptNext r (execThermalLevelChange die celsius s) := by
  unfold execThermalLevelChange
  refine keptNext_of fun hr => ?_
  dsimp only
  split
  · exact h.canonical hr
  · split
    · exact canonical_resetTo ((kept_thermalAlarm (kept_modeChange (kept_update h ..))).canonical hr)
    · exact (kept_modeChange (kept_update h ..)).canonical hr

theorem kept_loseItem {r s : State} {it} (h : Kept r s) : Kept r (s.loseItem it) := by
  unfold State.loseItem
  dsimp only
  exact kept_removeItem (kept_dropCalls (kept_update (kept_zeroOrOnce h) ..))

theorem kept_resetCompute {r s : State} {d} (h : Kept r s) : Kept r (s.resetCompute d) := kept_update (kept_update (kept_foldl h (fun _ _ hs => kept_loseItem hs) _) ..) ..

theorem canonical_resetIo {s : State} {i} (h : Canonical s) : Canonical (s.resetIo i) := by
  have hq : ∀ {qs : List NvQueue}, Kept s (qs.foldl (fun (s : State) (q : NvQueue) => q.cmds.foldl (fun (s : State) (c : NvCmd) => s.nvToken c 3 0) s) s) :=
    kept_foldl (Kept.refl s) (fun _ _ hs => kept_foldl hs (fun _ _ hs => kept_nvToken hs) _) _
  have hl : ∀ {t : State} {ks : List Nat}, Canonical t → Canonical (ks.foldl (fun s k => s.dropLink (32 * i + k)) t) := by
    intro t ks ht
    induction ks generalizing t with
    | nil => exact ht
    | cons k ks ih => exact ih (canonical_dropLink ht)
  have hu : ∀ {t : State}, Canonical t → Canonical (if i = 0 then { t with queues := State.reset.queues, launches := [], templates := [], lastQueue := 63, lastCluster := 49, lastSweep := none } else t) := by
    intro t ht
    split
    · exact canonical_congr ht rfl rfl rfl rfl
    · exact ht
  exact hu (hl ((kept_update hq ..).canonical h))

theorem kept_execDeviceReset {r s : State} {die} (h : Kept r s) : KeptNext r (execDeviceReset die s) := by
  unfold execDeviceReset
  refine keptNext_of fun hr => ?_
  split
  · exact canonical_resetTo (h.canonical hr)
  · split
    · exact (kept_resetCompute h).canonical hr
    · split
      · exact canonical_resetIo (h.canonical hr)
      · exact h.canonical hr

theorem kept_execPowerLoss {r s : State} (h : Kept r s) : KeptNext r (execPowerLoss s) := keptNext_of fun hr => canonical_resetTo (h.canonical hr)

theorem kept_bootFetch {r s : State} {port first} (h : Kept r s) : Kept r (s.bootFetch port first) := by
  unfold State.bootFetch
  split
  · exact kept_update h ..
  · exact kept_ite (kept_update h ..) (kept_update h ..)

theorem kept_execBootRomStart {r s : State} (h : Kept r s) : KeptNext r (execBootRomStart s) := keptNext (kept_ite (kept_bootFetch h) h)

theorem kept_execBootFetchRetry {r s : State} (h : Kept r s) : KeptNext r (execBootFetchRetry s) := by
  unfold execBootFetchRetry
  refine keptNext ?_
  split
  · exact kept_ite (kept_bootFetch h) h
  · exact h

theorem kept_execClusterRelease {r s : State} (h : Kept r s) : KeptNext r (execClusterRelease s) := by
  unfold execClusterRelease
  refine keptNext_of fun hr => ?_
  dsimp only
  split
  · split
    · exact h.canonical hr
    · exact canonical_congr (h.canonical hr) rfl rfl rfl rfl
  · exact h.canonical hr

theorem kept_answerSpdm {r s : State} {bytes} (h : Kept r s) : Kept r (s.answerSpdm bytes) := kept_ite (kept_update h ..) h

theorem kept_execGetVersion {r s : State} (h : Kept r s) : KeptNext r (execGetVersion s) := keptNext (kept_answerSpdm h)

theorem kept_execGetCapabilities {r s : State} (h : Kept r s) : KeptNext r (execGetCapabilities s) := keptNext (kept_answerSpdm h)

theorem kept_execNegotiateAlgorithms {r s : State} (h : Kept r s) : KeptNext r (execNegotiateAlgorithms s) := keptNext (kept_answerSpdm h)

theorem kept_execGetDigests {r s : State} (h : Kept r s) : KeptNext r (execGetDigests s) := keptNext (kept_answerSpdm h)

theorem kept_execGetCertificate {r s : State} (h : Kept r s) : KeptNext r (execGetCertificate s) := keptNext (kept_answerSpdm h)

theorem kept_execChallenge {r s : State} {_nonce} (h : Kept r s) : KeptNext r (execChallenge _nonce s) := keptNext (kept_answerSpdm h)

theorem kept_execGetMeasurements {r s : State} (h : Kept r s) : KeptNext r (execGetMeasurements s) := keptNext (kept_answerSpdm h)

theorem kept_exec {r s : State} {i} (h : Kept r s) : KeptNext r (exec i s) := by
  unfold exec
  split
  · exact kept_execBra h
  · exact kept_execBrx h
  · exact kept_execCall h
  · exact kept_execCallx h
  · exact kept_execRet h
  · exact kept_execExit h
  · exact kept_execNop h
  · exact kept_execYield h
  · exact kept_execSleep h
  · exact kept_execDbnz h
  · exact kept_execJoin h
  · exact kept_execLeave h
  · exact kept_execCnew h
  · exact kept_execCfree h
  · exact kept_execSign h
  · exact kept_execSignW h
  · exact kept_execCwait h
  · exact kept_execShfl h
  · exact kept_execCred h
  · exact kept_execVoteAll h
  · exact kept_execVoteAny h
  · exact kept_execVoteCount h
  · exact kept_execVoteRowmask h
  · exact kept_execFreeze h
  · exact kept_execFreezeComplete h
  · exact kept_execLaunch h
  · exact kept_execEvsig h
  · exact kept_execEvwait h
  · exact kept_execEvwaitWake h
  · exact kept_execRcall h
  · exact kept_execRret h
  · exact kept_execRjoin h
  · exact kept_execRemoteFrameStart h
  · exact kept_execFinishingStrandStart h
  · exact kept_execRcallReply h
  · exact kept_execRcallTimeout h
  · exact kept_execIadd h
  · exact kept_execIsub h
  · exact kept_execImul h
  · exact kept_execImulh h
  · exact kept_execImad h
  · exact kept_execIdiv h
  · exact kept_execIrem h
  · exact kept_execImin h
  · exact kept_execImax h
  · exact kept_execAnd h
  · exact kept_execOr h
  · exact kept_execXor h
  · exact kept_execAndn h
  · exact kept_execShl h
  · exact kept_execShr h
  · exact kept_execSar h
  · exact kept_execPopc h
  · exact kept_execClz h
  · exact kept_execBrev h
  · exact kept_execBfx h
  · exact kept_execBfi h
  · exact kept_execIset h
  · exact kept_execSel h
  · exact kept_execLea h
  · exact kept_execMov h
  · exact kept_execPack h
  · exact kept_execUnpk h
  · exact kept_execCrc32c h
  · exact kept_execFadd h
  · exact kept_execFsub h
  · exact kept_execFmul h
  · exact kept_execFfma h
  · exact kept_execFmin h
  · exact kept_execFmax h
  · exact kept_execFset h
  · exact kept_execFdiv h
  · exact kept_execFsqrt h
  · exact kept_execFrcp h
  · exact kept_execFrsq h
  · exact kept_execFexp2 h
  · exact kept_execFlog2 h
  · exact kept_execFtanh h
  · exact kept_execFrnd h
  · exact kept_execFcls h
  · exact kept_execFclsTest h
  · exact kept_execHadd2 h
  · exact kept_execHmul2 h
  · exact kept_execHfma2 h
  · exact kept_execFcvt h
  · exact kept_execFdot h
  · exact kept_execFldx h
  · exact kept_execSrd h
  · exact kept_execPlog h
  · exact kept_execPmovNz h
  · exact kept_execPmovVal h
  · exact kept_execPmovSave h
  · exact kept_execPmovLoad h
  · exact kept_execShape h
  · exact kept_execGen h
  · exact kept_execFemkTest h
  · exact kept_execFemkMask h
  · exact kept_execLongLatencyComplete h
  · exact kept_execStorageRetry h
  · exact kept_execStorageEvict h
  · exact kept_execMma h
  · exact kept_execMmas h
  · exact kept_execMmag h
  · exact kept_execMatrixOpFinish h
  · exact kept_execAclr h
  · exact kept_execAclrAll h
  · exact kept_execAst h
  · exact kept_execAld h
  · exact kept_execAget h
  · exact kept_execMwait h
  · exact kept_execQnt h
  · exact kept_execQntCol h
  · exact kept_execBpk h
  · exact kept_execBunp h
  · exact kept_execScw h
  · exact kept_execScr h
  · exact kept_execMstat h
  · exact kept_execMstatClr h
  · exact kept_execTscl h
  · exact kept_execTofs h
  · exact kept_execTclp h
  · exact kept_execTclpImm h
  · exact kept_execTfil h
  · exact kept_execTmap h
  · exact kept_execTord h
  · exact kept_execTmat h
  · exact kept_execTmatAll h
  · exact kept_execThdr h
  · exact kept_execTlde h
  · exact kept_execTste h
  · exact kept_execTileViewOp h
  · exact kept_execLd h
  · exact kept_execSt h
  · exact kept_execLds h
  · exact kept_execSts h
  · exact kept_execLdlk h
  · exact kept_execStul h
  · exact kept_execUnlk h
  · exact kept_execAadd h
  · exact kept_execAmin h
  · exact kept_execAmax h
  · exact kept_execAand h
  · exact kept_execAor h
  · exact kept_execAxor h
  · exact kept_execAxch h
  · exact kept_execAcas h
  · exact kept_execAfadd h
  · exact kept_execAtomicExecute h
  · exact kept_execLoadComplete h
  · exact kept_execStorePerform h
  · exact kept_execFenceAcq h
  · exact kept_execFenceRel h
  · exact kept_execFenceAr h
  · exact kept_execWaita h
  · exact kept_execWatchWake h
  · exact kept_execWaitaTimeout h
  · exact kept_execWaitaSpurious h
  · exact kept_execWake h
  · exact kept_execTagld h
  · exact kept_execTagst h
  · exact kept_execCpy h
  · exact kept_execCopyChunkWrite h
  · exact kept_execCopyFaultResume h
  · exact kept_execMcast h
  · exact kept_execMcastSame h
  · exact kept_execMcastDelivery h
  · exact kept_execTktst h
  · exact kept_execXarm h
  · exact kept_execXstatToken h
  · exact kept_execXstatSlot h
  · exact kept_execXfree h
  · exact kept_execRedc h
  · exact kept_execGrinderBlockStart h
  · exact kept_execComputeSliceEnd h
  · exact kept_execActivationAlert h
  · exact kept_execGrinderBlockDone h
  · exact kept_execNvsq h
  · exact kept_execNvmeCompletion h
  · exact kept_execTrap h
  · exact kept_execBpt h
  · exact kept_execBptResolve h
  · exact kept_execSysr h
  · exact kept_execSysw h
  · exact kept_execCsave h
  · exact kept_execCrest h
  · exact kept_execPdone h
  · exact kept_execEret h
  · exact kept_execEretSkip h
  · exact kept_execReplay h
  · exact kept_execReplayDrop h
  · exact kept_execDeferredTrapDeliver h
  · exact kept_execLogEntryReexecute h
  · exact kept_execPageDecline h
  · exact kept_execPreemptRequest h
  · exact kept_execPreemptDeadline h
  · exact kept_execContextKill h
  · exact kept_execClusterReset h
  · exact kept_execClusterReturn h
  · exact kept_execPeerDown h
  · exact kept_execLinkUp h
  · exact kept_execRtimeout h
  · exact kept_execTlbInvalidate h
  · exact kept_execMemoryError h
  · exact kept_execLaunchPortWrite h
  · exact kept_execQueueStatusWrite h
  · exact kept_execQueueHeadCheck h
  · exact kept_execWaitSatisfied h
  · exact kept_execPriorityAge h
  · exact kept_execLaunchSelect h
  · exact kept_execAdmissionSweep h
  · exact kept_execRegroup h
  · exact kept_execSleepWake h
  · exact kept_execHostBarWrite h
  · exact kept_execHostBarRead h
  · exact kept_execDoorbellWrite h
  · exact kept_execDoorbellRead h
  · exact kept_execRegisterWrite h
  · exact kept_execPcieLinkReset h
  · exact kept_execPalertAssert h
  · exact kept_execNarrowExit h
  · exact kept_execThermalLevelChange h
  · exact kept_execBootRomStart h
  · exact kept_execBootFetchRetry h
  · exact kept_execClusterRelease h
  · exact kept_execGetVersion h
  · exact kept_execGetCapabilities h
  · exact kept_execNegotiateAlgorithms h
  · exact kept_execGetDigests h
  · exact kept_execGetCertificate h
  · exact kept_execChallenge h
  · exact kept_execGetMeasurements h
  · exact kept_execPageServiceComplete h
  · exact kept_execRefreshDue h
  · exact kept_execDeviceReset h
  · exact kept_execPowerLoss h
  · exact kept_execTwiganLinkDown h
  · exact kept_execPcieLinkStateChange h
  · exact kept_execFirmwareNarrowHold h
  · exact kept_execNvmeQueueAbort h

theorem kept_baristaAct {r s : State} {b} (h : Kept r s) : Kept r (s.baristaAct b) := by
  unfold State.baristaAct
  dsimp only
  split
  · exact kept_update h ..
  · exact kept_ite h (kept_update h ..)
  · exact kept_ite h (kept_ite (kept_writeHome (kept_update h ..)) (kept_update h ..))
  · exact kept_ite (kept_update (kept_rmwHome h) ..) h
  · exact h

theorem kept_engineRead {r s : State} {job loc pa n} (h : Kept r s) : Kept r (s.engineRead job loc pa n) := by
  unfold State.engineRead
  dsimp only
  refine kept_ite h ?_
  split
  · exact kept_update h ..
  · exact kept_setGrinder h
  · exact kept_setGrinder h
  · exact kept_setNvq h

theorem kept_strandRead {r s : State} {sids loc pa n} (h : Kept r s) : Kept r (s.strandRead sids loc pa n) := by
  unfold State.strandRead
  dsimp only
  split
  · exact h
  · exact kept_ite h (kept_foldl h (fun _ _ hs => kept_setSt hs) _)

theorem kept_declineTrap {r s : State} {sid} (h : Kept r s) : Kept r (s.declineTrap sid) := by
  unfold State.declineTrap
  dsimp only
  split
  · exact kept_trapEnds (kept_setSt h)
  · exact h

/-- An act from outside. -/
theorem canonical_doEnv {s : State} {e} (h : Canonical s) : Canonical (s.doEnv e) := by
  have k := Kept.refl s
  unfold State.doEnv
  dsimp only
  split
  · split
    · exact (kept_pageWrite k).canonical h
    · exact (kept_ite (kept_writeHome k) k).canonical h
  · exact (kept_rouse (kept_homeStore k)).canonical h
  · exact (kept_rouse (kept_homeStore k)).canonical h
  · exact (kept_ite (kept_update k ..) k).canonical h
  · exact (kept_writeHome k).canonical h
  · exact (kept_update k ..).canonical h
  · exact (kept_baristaAct k).canonical h
  · exact (kept_ite (kept_l1Take k) k).canonical h
  · exact (kept_strandRead k).canonical h
  · exact (kept_engineRead k).canonical h
  · exact (kept_update k ..).canonical h
  · split
    · exact (kept_ite (kept_update k ..) k).canonical h
    · exact (kept_update k ..).canonical h
  · exact (kept_update k ..).canonical h
  · exact (kept_ite (kept_update k ..) k).canonical h
  · split
    · exact canonical_congr h rfl rfl rfl rfl
    · exact h
  · exact (kept_update k ..).canonical h
  · exact (kept_update k ..).canonical h
  · exact (kept_update k ..).canonical h
  · exact (kept_update k ..).canonical h
  · exact (kept_ite (kept_resetItem k) k).canonical h
  · exact (kept_declineTrap k).canonical h
  · exact (kept_update k ..).canonical h
  · exact (kept_update k ..).canonical h

theorem canonical_begin {s : State} (h : Canonical s) : Canonical s.begin := canonical_congr h rfl rfl rfl rfl

/-- The state in which a fetch leaves the machine, or in which its word is executed. -/
def KeptFetched (r : State) : Fetched → Prop
  | .none => True
  | .done s => Kept r s
  | .run _ s => Kept r s

theorem kept_fetch {r s : State} {sids} (h : Kept r s) : KeptFetched r (s.fetch sids) := by
  unfold State.fetch
  split
  · trivial
  · dsimp only
    split
    · exact kept_foldl (kept_of_eq ‹_› (kept_fetchUnit h)) (fun _ _ hs => kept_fetchFault hs) _
    · rename_i hd tl _ _ t bs ht
      have hw : Kept r (t.shareWalk hd tl) := kept_shareWalk (kept_of_eq ht (kept_fetchUnit h))
      have hbad : ∀ {free : List Nat} {bad : Nat → Option Nat}, Kept r (free.foldl (fun s sid => match bad sid with
          | some c => if (s.st sid).isFrame then s.ship (s.st sid) else s.trap sid ⟨1, c, 0, 0⟩
          | none => s) (t.shareWalk hd tl)) := by
        refine kept_foldl hw (fun _ _ hs => ?_) _
        split
        · exact kept_ite (kept_ship hs) (kept_trap hs)
        · exact hs
      split
      · exact h
      · split
        · exact hbad
        · split
          · exact kept_update hbad ..
          · exact hbad

theorem kept_issue {r s : State} {sids} (h : Kept r s) : KeptNext r (issue s sids) := by
  have hf := kept_fetch (sids := sids) h
  unfold issue
  split
  · exact keptNext_fault
  · rename_i t ht
    rw [ht] at hf
    exact keptNext hf
  · rename_i i t ht
    rw [ht] at hf
    exact kept_exec hf

theorem kept_happen {r s : State} {i} (h : Kept r s) : KeptNext r (happen s i) := by
  unfold happen
  split
  · exact keptNext_fault
  · exact kept_exec h

/-- Settles O56, from what each operation of the machine keeps. -/
theorem stepKeepsMemoryCanonical : Obligations.StepKeepsMemoryCanonical := by
  intro s t h e
  have hb := canonical_begin h
  unfold step at e
  split at e
  · exact kept_issue (Kept.refl _) t e hb
  · exact kept_happen (Kept.refl _) t e hb
  · exact Host.Outcome.next.inj e ▸ canonical_doEnv hb

end Sys2Proof.Proofs
end

section
/-! SUPPORT. The launch unit: the head check, waits, ages, selection, sweeps and regroup periods (O49). -/

namespace Sys2Proof.Proofs
open Sys2Proof Sys2Proof.Machine Sys2Proof.Safety Sys2Proof.Laws

theorem headPacket_of_packets {x : Queue} {p : Packet} {rest : List Packet} (h : x.packets = p :: rest) : x.headPacket = some p := by
  unfold Queue.headPacket
  rw [h]
  rfl

/-- The check of a head that stands unchecked. -/
theorem queueHeadCheck_eq {s : State} {q : Nat} {p : Packet} {rest : List Packet} (hp : (s.queues.getD q {}).packets = p :: rest) (hu : (s.queues.getD q {}).head = .unchecked) :
    exec (.queueHeadCheck q) s = .next (if s.headDead p.fields then s.reject q 0x0E else match s.headCheck p.fields with
      | (s, .bad) => s.reject q 0x10
      | (s, .wait) => s
      | (s, .ok _ _) => s.setQueue q fun x => { x with head := .checked }) := by
  refine congrArg Host.Outcome.next ?_
  dsimp only
  rw [headPacket_of_packets hp]
  rw [hu] <;> rfl

/-- A head that is eligible stands in a queue of the machine. -/
theorem queue_of_eligible {s : State} {q since : Nat} (h : (s.queues.getD q {}).head = .eligible since) : q < s.queues.length := by
  by_contra hq
  rw [List.getD_eq_default _ _ (Nat.not_lt.mp hq)] at h
  cases h

/-- What one more period does to a queue (R73). -/
def agedHead (s : State) (x : Queue) : Queue :=
  match x.head with
  | .eligible t => if (s.now - t) / agePeriod > x.aged then { x with aged := x.aged + 1 } else x
  | _ => x

theorem agedHead_eligible {s : State} {x : Queue} {since : Nat} (he : x.head = .eligible since) (hlt : x.aged < (s.now - since) / agePeriod) :
    agedHead s x = { x with aged := x.aged + 1 } := by
  unfold agedHead
  rw [he]
  exact if_pos hlt

theorem priorityAge_eq (s : State) (q : Nat) : exec (.priorityAge q) s = .next (s.setQueue q (agedHead s)) := rfl

/-- A sweep that is due. -/
theorem admissionSweep_eq {s : State} (hdue : ∀ x, s.lastSweep = some x → x + 100 * Config.perNs ≤ s.now) : exec .admissionSweep s = .next (swept s) := by
  refine congrArg Host.Outcome.next ?_
  refine if_neg ?_
  cases h : s.lastSweep with
  | none => exact Bool.false_ne_true
  | some t => simp [hdue t h]

theorem swept_lastSweep (s : State) : (swept s).lastSweep = some s.now := by
  rw [kept_swept.lastSweep]
  exact congrArg some (kept_launchesPrepared (Kept.refl s)).now

/-- A sweep prepares no launch that is prepared. -/
theorem launchesPrepared_of_prepared {s : State} (h : ∀ la ∈ s.launches, la.prepared = true) : launchesPrepared s = s := by
  have hall : ∀ l : List Launch, (∀ la ∈ l, la.prepared = true) → l.foldl (fun (s : State) (la : Launch) => if la.prepared then s else s.prepare la) s = s := by
    intro l hl
    induction l with
    | nil => rfl
    | cons la l ih =>
      rw [List.foldl_cons, if_pos (hl la List.mem_cons_self)]
      exact ih fun x hx => hl x (List.mem_cons_of_mem _ hx)
  exact hall _ fun la hla => h la ((mem_sortBy _ _ _).mp hla)

/-- Settles O49, the sweep from what its launches and cores leave. -/
theorem launchUnit : Obligations.LaunchUnit := by
  unfold Obligations.LaunchUnit
  refine ⟨fun s q p rest hp hu => ⟨fun hdead => ?_, fun hlive => ⟨fun u l a hok => ?_, fun u hbad => ?_⟩⟩, fun s q p rest hp hc h0 h1 => congrArg Host.Outcome.next ?_,
    fun s q since he hlt => ⟨_, priorityAge_eq s q, ?_⟩, fun s q rest pk u hcand hpk => ⟨fun k args rows hl => congrArg Host.Outcome.next ?_, fun code hl => congrArg Host.Outcome.next ?_⟩,
    fun s hdue => ⟨⟨_, admissionSweep_eq hdue, swept_lastSweep s⟩, fun hprep => ⟨_, rfl, ?_⟩⟩, fun s core => ⟨_, rfl, ?_⟩⟩
  · rw [queueHeadCheck_eq hp hu, if_pos hdead]
  · rw [queueHeadCheck_eq hp hu, hlive, if_neg Bool.false_ne_true, hok]
  · rw [queueHeadCheck_eq hp hu, hlive, if_neg Bool.false_ne_true, hbad]
  · dsimp only
    rw [headPacket_of_packets hp, hc]
    exact if_pos (by rw [h0, h1]; rfl)
  · have hq : (s.setQueue q (agedHead s)).queues.getD q {} = { s.queues.getD q {} with aged := (s.queues.getD q {}).aged + 1 } :=
      (getD_modify s.queues q _ {} (queue_of_eligible he)).trans (agedHead_eligible he hlt)
    exact ⟨congrArg Queue.aged hq, (congrArg Queue.head hq).trans he⟩
  · rw [hcand]
    unfold State.select
    rw [hpk]
    dsimp only
    rw [hl]
  · rw [hcand]
    unfold State.select
    rw [hpk]
    dsimp only
    rw [hl]
  · rw [admissionSweep_eq hdue]
    unfold swept
    rw [launchesPrepared_of_prepared hprep]
  · refine List.map_congr_left fun st _ => ?_
    by_cases hcore : s.coreOf st = core
    · rw [if_pos hcore, if_neg (not_not.mpr hcore)]
      rfl
    · rw [if_neg hcore, if_pos hcore]

end Sys2Proof.Proofs
end

section
/-! SUPPORT. What writes that perform, ended items and resumed parents leave of translations, copies in L1 and items, and the reset of a cluster (O46). -/

namespace Sys2Proof.Proofs
open Sys2Proof Sys2Proof.Machine Sys2Proof.Safety Sys2Proof.Laws

/-- An item with other contents, on the same cores. -/
def SameItem (x y : Item) : Prop := y.uid = x.uid ∧ y.status = x.status ∧ y.ranks.map (·.core) = x.ranks.map (·.core)

theorem SameItem.refl (x : Item) : SameItem x x := ⟨rfl, rfl, rfl⟩

theorem SameItem.trans {x y z : Item} (h : SameItem x y) (g : SameItem y z) : SameItem x z := ⟨g.1.trans h.1, g.2.1.trans h.2.1, g.2.2.trans h.2.2⟩

/-- What an operation leaves that translates nothing, copies no line and neither admits nor moves an item. -/
structure Still (r s : State) : Prop where
  tlb : s.tlb = r.tlb
  l1 : ∀ l ∈ s.l1, ∃ k ∈ r.l1, l.core = k.core
  items : ∀ y ∈ s.items, ∃ x ∈ r.items, SameItem x y

theorem Still.refl (s : State) : Still s s := ⟨rfl, fun l hl => ⟨l, hl, rfl⟩, fun y hy => ⟨y, hy, SameItem.refl y⟩⟩

theorem Still.trans {r s t : State} (h : Still r s) (g : Still s t) : Still r t where
  tlb := g.tlb.trans h.tlb
  l1 l hl := by
    obtain ⟨k, hk, e⟩ := g.l1 l hl
    obtain ⟨m, hm, e'⟩ := h.l1 k hk
    exact ⟨m, hm, e.trans e'⟩
  items y hy := by
    obtain ⟨x, hx, e⟩ := g.items y hy
    obtain ⟨w, hw, e'⟩ := h.items x hx
    exact ⟨w, hw, e'.trans e⟩

/-- A state that an operation may not answer. -/
def StillSome (r : State) (o : Option State) : Prop := ∀ t, o = some t → Still r t

theorem still_foldl {α : Type} {r s : State} (h : Still r s) {f : State → α → State} (hf : ∀ s x, Still r s → Still r (f s x)) (l : List α) : Still r (l.foldl f s) := by
  induction l generalizing s with
  | nil => exact h
  | cons x l ih => exact ih (hf s x h)

theorem still_ite {r s t : State} {c : Prop} [Decidable c] (hs : Still r s) (ht : Still r t) : Still r (if c then s else t) := by
  split
  · exact hs
  · exact ht

theorem stillSome_none {r : State} : StillSome r none := fun _ e => nomatch e

theorem stillSome_some {r s : State} (h : Still r s) : StillSome r (some s) := fun _ e => Option.some.inj e ▸ h

theorem stillSome_ite {r : State} {o o' : Option State} {c : Prop} [Decidable c] (h : StillSome r o) (h' : StillSome r o') : StillSome r (if c then o else o') := by
  split
  · exact h
  · exact h'

theorem stillSome_map {r : State} {o : Option State} {f : State → State} (h : StillSome r o) (hf : ∀ s, Still r s → Still r (f s)) : StillSome r (o.map f) := by
  cases o with
  | none => exact stillSome_none
  | some s => exact stillSome_some (hf s (h s rfl))

theorem still_getD {r s : State} {o : Option State} (h : StillSome r o) (hs : Still r s) : Still r (o.getD s) := by
  cases o with
  | none => exact hs
  | some t => exact h t rfl

/-- A change of any fields other than these. -/
theorem still_update {r s : State} (h : Still r s)
    (tick : Nat) (nextId : Nat) (agenda : List Action) (bundle : List Nat) (now : Nat) (strands : List Strand) (templates : List Template) (launches : List Launch)
    (queues : List Queue) (lastQueue : Nat) (lastCluster : Nat) (lastSweep : Option Nat) (calls : List Call) (exits : List (Nat × Word × Word)) (mem : Memory) (tags : Memory)
    (poison : List Nat) (host : Memory) (peer : Memory) (pend : List Acc) (lastRel : List (Nat × Nat × Nat)) (relMarks : List RelMark) (oldCode : List (Nat × List Word))
    (tileOps : List TileOp) (ctxTable : Nat) (debuggers : List Nat) (reserved : List (Nat × Nat × Nat)) (baristaRead : Nat) (copies : List Copy) (mcasts : List Mcast)
    (grinders : List Grinder) (channels : List Channel) (nvqs : List NvQueue) (lats : List Machine.Lat) (clusters : List Cluster) (corrected : List (Nat × Nat))
    (palert : Option (Option Nat)) (hold : Bool) (thermal : List Nat) (links : List (Option Nat)) (peersDown : List Nat) (devId : BitVec 12) (ports : List Port)
    (portPage : Option Nat) (doorbells : List (Nat × Nat)) (boot : Boot) (attest : BitVec 512) (measures : List (BitVec 512)) (spdmVia : Transport)
    (spdm : List (Transport × List Byte)) (hostRead : List Byte) (ioLog : List IoAccess) :
    Still r { s with
      tick := tick, nextId := nextId, agenda := agenda, bundle := bundle, now := now, strands := strands, templates := templates, launches := launches, queues := queues,
      lastQueue := lastQueue, lastCluster := lastCluster, lastSweep := lastSweep, calls := calls, exits := exits, mem := mem, tags := tags, poison := poison, host := host,
      peer := peer, pend := pend, lastRel := lastRel, relMarks := relMarks, oldCode := oldCode, tileOps := tileOps, ctxTable := ctxTable, debuggers := debuggers,
      reserved := reserved, baristaRead := baristaRead, copies := copies, mcasts := mcasts, grinders := grinders, channels := channels, nvqs := nvqs, lats := lats,
      clusters := clusters, corrected := corrected, palert := palert, hold := hold, thermal := thermal, links := links, peersDown := peersDown, devId := devId, ports := ports,
      portPage := portPage, doorbells := doorbells, boot := boot, attest := attest, measures := measures, spdmVia := spdmVia, spdm := spdm, hostRead := hostRead, ioLog := ioLog } :=
  ⟨h.tlb, h.l1, h.items⟩

/-- Fewer copies and fewer items, or the same ones with other contents. -/
theorem still_fewer {r s : State} (h : Still r s) {l1 : List L1Line} {items : List Item} (hl : ∀ l ∈ l1, ∃ k ∈ s.l1, l.core = k.core)
    (hi : ∀ y ∈ items, ∃ x ∈ s.items, SameItem x y) : Still r { s with l1 := l1, items := items } := h.trans ⟨rfl, hl, hi⟩

theorem still_l1 {r s : State} (h : Still r s) {l1 : List L1Line} (hl : ∀ l ∈ l1, ∃ k ∈ s.l1, l.core = k.core) : Still r { s with l1 := l1 } :=
  still_fewer h hl fun y hy => ⟨y, hy, SameItem.refl y⟩

theorem still_filterL1 {r s : State} (h : Still r s) {p : L1Line → Bool} : Still r { s with l1 := s.l1.filter p } :=
  still_l1 h fun l hl => ⟨l, (List.mem_filter.mp hl).1, rfl⟩

theorem still_homeStore {r s : State} {loc pa bs} (h : Still r s) : Still r (s.homeStore loc pa bs) := by
  unfold State.homeStore
  split
  · exact still_update h ..
  · exact still_update h ..
  · exact still_update h ..

theorem still_setSt {r s : State} {sid f} (h : Still r s) : Still r (s.setSt sid f) := still_update h ..

theorem still_setIt {r s : State} {uid f} (h : Still r s) (hf : ∀ it, SameItem it (f it) := by intro _; exact ⟨rfl, rfl, rfl⟩) : Still r (s.setIt uid f) := by
  refine h.trans ⟨rfl, fun l hl => ⟨l, hl, rfl⟩, fun y hy => ?_⟩
  obtain ⟨x, hx, rfl⟩ := List.mem_map.mp hy
  refine ⟨x, hx, ?_⟩
  split
  · exact hf x
  · exact SameItem.refl x

theorem still_setLa {r s : State} {lid f} (h : Still r s) : Still r (s.setLa lid f) := still_update h ..

theorem still_setTemplate {r s : State} {tid f} (h : Still r s) : Still r (s.setTemplate tid f) := still_update h ..

theorem sameItem_modify (it : Item) (p : Nat) {f : Rank → Rank} (hf : ∀ k, (f k).core = k.core) : SameItem it { it with ranks := it.ranks.modify p f } := by
  refine ⟨rfl, rfl, ?_⟩
  apply List.ext_getElem?
  intro i
  simp only [List.getElem?_map, List.getElem?_modify]
  cases it.ranks[i]? with
  | none => rfl
  | some k =>
    simp only [Option.map_some]
    split
    · exact congrArg some (hf k)
    · rfl

theorem still_setRank {r s : State} {uid p f} (h : Still r s) (hf : ∀ k, (f k).core = k.core := by intro _; rfl) : Still r (s.setRank uid p f) :=
  still_setIt h fun it => sameItem_modify it p hf

theorem still_fresh {r s : State} (h : Still r s) : Still r s.fresh.2 := still_update h ..

theorem still_setRow {r s : State} {st f} (h : Still r s) : Still r (s.setRow st f) := still_ite (still_setSt h) (still_setRank h)

theorem still_takeover {r s : State} {uid p} (h : Still r s) : Still r (s.takeover uid p) := still_ite h (still_setIt h fun it => sameItem_modify it p fun _ => rfl)

theorem still_handover {r s : State} {core template} (h : Still r s) : Still r (s.handover core template) := still_ite h (still_foldl h (fun _ _ hs => still_takeover hs) _)

theorem still_handedOver {r before after : State} {uid p} (h1 : Still r after) : Still r (State.handedOver before after uid p) := still_ite (still_handover h1) h1

theorem still_grow {r s : State} {uid p} {f : State → State} (h : Still r s) (hf : ∀ u, Still r u → Still r (f u)) : StillSome r (s.grow uid p f) := by
  unfold State.grow
  dsimp only
  refine stillSome_ite (stillSome_some (still_handedOver (hf _ h))) ?_
  exact stillSome_ite (stillSome_some (hf _ (still_takeover h))) stillSome_none

theorem still_writeV {r s : State} {st d writers hint n} (h : Still r s) : Still r (s.writeV st d writers hint n) := by
  unfold State.writeV
  dsimp only
  refine still_foldl (still_setRow h) (fun _ _ hs => ?_) _
  split
  · exact still_setSt hs
  · exact still_setSt hs
  · exact hs

theorem still_fillSaved {r s : State} {st d vals} (h : Still r s) : Still r (s.fillSaved st d vals) := still_setIt h

theorem still_writeS {r s : State} {uid d x} (h : Still r s) : Still r (s.writeS uid d x) := still_setIt h

theorem still_markPoison {r s : State} {st i} (h : Still r s) : Still r (s.markPoison st i) := still_setRow h

theorem still_noteCode {r s : State} {pa n} (h : Still r s) : Still r (s.noteCode pa n) := by
  unfold State.noteCode
  dsimp only
  exact still_ite h (still_update h ..)

theorem still_storeScratch {r s : State} {uid key bs} (h : Still r s) : Still r (s.storeScratch uid key bs) := by
  induction bs generalizing s key with
  | nil => exact h
  | cons b bs ih => exact ih (still_setRank h)

theorem still_rouse {r s : State} {loc pa n} (h : Still r s) : Still r (s.rouse loc pa n) := still_update h ..

theorem still_writeHome {r s : State} {uid loc pa bs} (h : Still r s) : Still r (s.writeHome uid loc pa bs) := by
  unfold State.writeHome
  dsimp only
  split
  · exact still_storeScratch (still_update h ..)
  · exact still_rouse (still_update (still_homeStore (still_noteCode (still_update h ..))) ..)
  · exact still_update (still_rouse (still_homeStore (still_update h ..))) ..

theorem still_rmwHome {r s : State} {uid loc pa bs} (h : Still r s) : Still r (s.rmwHome uid loc pa bs) := still_update (still_writeHome h) ..

theorem still_acquireAt {r s : State} {sid scope at_ acq} (h : Still r s) : Still r (s.acquireAt sid scope at_ acq) := still_ite (still_filterL1 (still_setSt h)) (still_setSt h)

theorem still_acquire {r s : State} {sid scope} (h : Still r s) : Still r (s.acquire sid scope) := still_acquireAt h

theorem still_dropEarly {r s : State} {sids loc pa n} (h : Still r s) : Still r (s.dropEarly sids loc pa n) := still_foldl h (fun _ _ hs => still_setSt hs) _

theorem still_markRel {r s : State} {a} (h : Still r s) : Still r (s.markRel a) := by
  unfold State.markRel
  split
  · exact h
  · refine h.trans ⟨rfl, fun l hl => ?_, fun y hy => ⟨y, hy, SameItem.refl y⟩⟩
    obtain ⟨k, hk, rfl⟩ := List.mem_map.mp hl
    refine ⟨k, hk, ?_⟩
    split <;> rfl

theorem still_l1Update {r s : State} {a} (h : Still r s) : Still r (s.l1Update a) := by
  refine still_l1 h fun l hl => ?_
  obtain ⟨k, hk, rfl⟩ := List.mem_map.mp hl
  refine ⟨k, hk, ?_⟩
  split <;> rfl

theorem still_l1Drop {r s : State} {core loc line} (h : Still r s) : Still r (s.l1Drop core loc line) := still_filterL1 h

theorem still_passEarly {r s : State} {a} (h : Still r s) : Still r (s.passEarly a) := still_update h ..

theorem still_dropAcc {r s : State} {id} (h : Still r s) : Still r (s.dropAcc id) := still_update h ..

theorem still_noteRel {r s : State} {a} (h : Still r s) : Still r (s.noteRel a) := by
  unfold State.noteRel
  split
  · exact still_ite (still_update h ..) h
  · exact h

theorem still_toHome {r s : State} {a} (h : Still r s) : Still r (s.toHome a) := by
  unfold State.toHome
  dsimp only
  split
  · refine still_update ?_ ..
    refine still_dropAcc ?_
    exact still_ite (still_ite h (still_dropEarly (still_l1Update h))) (still_passEarly (still_ite h (still_dropEarly (still_l1Update h))))
  · refine still_ite ?_ ?_
    · refine still_update ?_ ..
      refine still_dropAcc ?_
      exact still_ite (still_ite h (still_dropEarly (still_l1Update h))) (still_passEarly (still_ite h (still_dropEarly (still_l1Update h))))
    · refine still_markRel ?_
      refine still_noteRel ?_
      refine still_writeHome ?_
      refine still_dropAcc ?_
      exact still_ite (still_ite h (still_dropEarly (still_l1Update h))) (still_passEarly (still_ite h (still_dropEarly (still_l1Update h))))

theorem still_passLater {r s : State} {sid id} (h : Still r s) : Still r (s.passLater sid id) := still_update h ..

theorem still_promote {r s : State} {loc line rels} (h : Still r s) : Still r (s.promote loc line rels) := by
  unfold State.promote
  dsimp only
  exact still_ite h (still_foldl h (fun _ _ hs => still_toHome hs) _)

theorem still_acquireFor {r s : State} {sid a at_ acq} (h : Still r s) : Still r (s.acquireFor sid a at_ acq) := by
  unfold State.acquireFor
  split
  · exact still_ite h (still_passLater (still_acquireAt h))
  · exact h

theorem still_acquireBy {r s : State} {a at_ acq rels} (h : Still r s) : Still r (s.acquireBy a at_ acq rels) := by
  unfold State.acquireBy
  dsimp only
  exact still_foldl (still_ite (still_promote h) h) (fun _ _ hs => still_acquireFor hs) _

theorem still_noteRead {r s : State} {a at_ acq rels} (h : Still r s) : Still r (s.noteRead a at_ acq rels) := still_foldl h (fun _ _ hs => still_setSt hs) _

theorem still_execAtomic {r s : State} {a b} (h : Still r s) : Still r (s.execAtomic a b) := by
  unfold State.execAtomic
  dsimp only
  refine still_ite ?_ ?_
  · refine still_update ?_ ..
    refine still_dropAcc ?_
    refine still_noteRead ?_
    exact still_acquireBy (still_passEarly (still_dropEarly (still_l1Drop (still_markRel (still_noteRel (still_rmwHome h))))))
  · refine still_dropAcc ?_
    refine still_noteRead ?_
    exact still_acquireBy (still_passEarly (still_dropEarly (still_l1Drop (still_markRel (still_noteRel (still_rmwHome h))))))

theorem still_mergedDone {r s : State} {b} (h : Still r s) : Still r (s.mergedDone b) := by
  unfold State.mergedDone
  dsimp only
  exact still_noteRead (still_acquireBy (still_passEarly (still_dropEarly (still_markRel (still_noteRel h)))))

theorem still_dropMerged {r s : State} {a} (h : Still r s) : Still r (s.dropMerged a) := still_update (still_foldl h (fun _ _ hs => still_mergedDone hs) _) ..

theorem still_settle {r s : State} {a} (h : Still r s) : Still r (s.settle a) := by
  unfold State.settle
  dsimp only
  refine still_ite h ?_
  split
  · exact still_toHome h
  · exact still_toHome h
  · refine still_ite h ?_
    split
    · exact still_ite h (still_dropMerged (still_execAtomic h))
    · exact h
  · exact h

theorem still_flush {r s : State} {p} (h : Still r s) : Still r (s.flush p) := still_foldl h (fun _ _ hs => still_settle hs) _

theorem still_flushItem {r s : State} {uid} (h : Still r s) : Still r (s.flushItem uid) := by
  unfold State.flushItem
  dsimp only
  exact still_flush h

theorem still_putVa {r s : State} {ctx va bs} (h : Still r s) : Still r (s.putVa ctx va bs) := by
  induction bs generalizing s va with
  | nil => exact h
  | cons b bs ih =>
    unfold State.putVa
    refine ih ?_
    split
    · exact still_writeHome h
    · exact h

theorem still_putLines {r s : State} {ctx va ls} (h : Still r s) : Still r (s.putLines ctx va ls) := by
  induction ls generalizing s va with
  | nil => exact h
  | cons l ls ih =>
    unfold State.putLines
    refine ih ?_
    split
    · exact still_ite (still_update (still_writeHome h) ..) (still_writeHome h)
    · exact h

theorem still_payOne {r s : State} {force sid o} (h : Still r s) : StillSome r (s.payOne force sid o) := by
  unfold State.payOne
  dsimp only
  refine stillSome_ite ?_ ?_
  · refine stillSome_some ?_
    refine still_foldl ?_ (fun _ _ hs4 => still_setSt hs4) _
    refine still_ite (still_writeS h) ?_
    refine still_ite ?_ (still_writeV (still_foldl h (fun _ _ hs3 => still_ite (still_fillSaved hs3) hs3) _))
    refine still_foldl ?_ (fun _ _ hs1 => still_foldl hs1 (fun _ _ hs2 => still_markPoison hs2) _) _
    exact still_writeV (still_foldl h (fun _ _ hs => still_ite (still_fillSaved hs) hs) _)
  · refine stillSome_map ?_ (fun _ hs10 => still_foldl hs10 (fun _ _ hs11 => still_setSt hs11) _)
    refine still_grow h (fun _ hs5 => ?_)
    refine still_ite (still_writeS hs5) ?_
    refine still_ite ?_ (still_writeV (still_foldl hs5 (fun _ _ hs9 => still_ite (still_fillSaved hs9) hs9) _))
    refine still_foldl ?_ (fun _ _ hs7 => still_foldl hs7 (fun _ _ hs8 => still_markPoison hs8) _) _
    exact still_writeV (still_foldl hs5 (fun _ _ hs6 => still_ite (still_fillSaved hs6) hs6) _)

theorem still_payOwed {r s : State} {force sid} (h : Still r s) : Still r (s.payOwed force sid) := still_foldl h (fun _ _ hs => still_getD (still_payOne hs) hs) _

theorem still_owe {r s : State} {dues} (h : Still r s) : Still r (s.owe dues) := by
  unfold State.owe
  dsimp only
  exact still_foldl (still_foldl h (fun _ _ hs => still_setSt hs) _) (fun _ _ hs1 => still_payOwed hs1) _

theorem still_msix {r s : State} {q} (h : Still r s) : Still r (s.msix q) := still_update h ..

theorem still_setQueue {r s : State} {q f} (h : Still r s) : Still r (s.setQueue q f) := still_update h ..

theorem still_completeLaunch {r s : State} {lid} (h : Still r s) : Still r (s.completeLaunch lid) := by
  unfold State.completeLaunch
  dsimp only
  refine still_update ?_ ..
  refine still_setQueue ?_
  refine still_msix ?_
  refine still_ite h ?_
  split
  · exact still_ite h (still_rmwHome h)
  · exact h

theorem still_resumeParent {r s : State} {uid dest} (h : Still r s) : Still r (s.resumeParent uid dest) := by
  unfold State.resumeParent
  dsimp only
  refine still_owe ?_
  exact still_foldl (still_foldl (still_setIt (still_fresh h)) (fun _ _ hs => still_setSt hs) _) (fun _ _ hs1 => still_acquire hs1) _

theorem still_itemGone {r s : State} {it} (h : Still r s) : Still r (s.itemGone it) := by
  unfold State.itemGone
  dsimp only
  refine still_ite ?_ ?_
  · refine still_completeLaunch ?_
    refine still_foldl ?_ (fun _ _ hs => still_handover hs) _
    split
    · split
      · exact still_setTemplate h
      · refine still_ite (still_setTemplate h) ?_
        split
        · split
          · exact still_update (still_setTemplate h) ..
          · exact still_ite (still_resumeParent (still_update (still_setTemplate h) ..)) (still_setIt (still_update (still_setTemplate h) ..))
        · exact still_setTemplate h
    · exact still_setLa h
  · refine still_foldl ?_ (fun _ _ hs1 => still_handover hs1) _
    split
    · split
      · exact still_setTemplate h
      · refine still_ite (still_setTemplate h) ?_
        split
        · split
          · exact still_update (still_setTemplate h) ..
          · exact still_ite (still_resumeParent (still_update (still_setTemplate h) ..)) (still_setIt (still_update (still_setTemplate h) ..))
        · exact still_setTemplate h
    · exact still_setLa h

theorem still_removeItem {r s : State} {uid} (h : Still r s) : Still r (s.removeItem uid) :=
  still_update (still_fewer (still_flushItem h) (fun l hl => ⟨l, hl, rfl⟩) fun y hy => ⟨y, (List.mem_filter.mp hy).1, SameItem.refl y⟩) ..

theorem removeItem_uid {s : State} {uid : Nat} {y : Item} (h : y ∈ (s.removeItem uid).items) : y.uid ≠ uid := by
  have hy := (List.mem_filter.mp h).2
  simpa using hy

theorem still_resetReport {r s : State} {it} (h : Still r s) : Still r (s.resetReport it) := by
  unfold State.resetReport
  dsimp only
  exact still_putVa (still_putLines (still_update h ..))

theorem still_cutAccs {r s : State} {p} (h : Still r s) : Still r (s.cutAccs p) := still_update h ..

theorem still_zeroOrOnce {r s : State} {p} (h : Still r s) : Still r (s.zeroOrOnce p) := by
  unfold State.zeroOrOnce
  dsimp only
  exact still_cutAccs (still_foldl h (fun _ _ hs => still_ite (still_settle hs) hs) _)

theorem still_dropCalls {r s : State} {mine} (h : Still r s) : Still r (s.dropCalls mine) := still_update h ..

theorem still_resetItem {r s : State} {it} (h : Still r s) : Still r (s.resetItem it) := by
  unfold State.resetItem
  dsimp only
  refine still_itemGone ?_
  exact still_removeItem (still_dropCalls (still_update (still_ite (still_zeroOrOnce h) (still_resetReport (still_zeroOrOnce h))) ..))

-- the reset of a cluster (R345)

/-- The items that a reset of the ones gone has left: broken, or as they stood and not among those. -/
def Survives (s : State) (gone : List Item) (t : State) : Prop := ∀ y ∈ t.items, y.status = .broken ∨ ∃ x ∈ s.items, SameItem x y ∧ ∀ d ∈ gone, d.uid ≠ x.uid

theorem resetItem_eq (s : State) (it : Item) : ∃ u, Still s u ∧ s.resetItem it = (u.removeItem it.uid).itemGone it := by
  refine ⟨_, ?_, rfl⟩
  exact still_dropCalls (still_update (still_ite (still_zeroOrOnce (Still.refl s)) (still_resetReport (still_zeroOrOnce (Still.refl s)))) ..)

theorem resetItem_left {s : State} {it y : Item} (h : y ∈ (s.resetItem it).items) : ∃ x ∈ s.items, SameItem x y ∧ y.uid ≠ it.uid := by
  obtain ⟨u, hu, e⟩ := resetItem_eq s it
  rw [e] at h
  obtain ⟨w, hw, hyw⟩ := (still_itemGone (it := it) (Still.refl (u.removeItem it.uid))).items y h
  obtain ⟨x, hx, hwx⟩ := (still_removeItem (uid := it.uid) hu).items w hw
  exact ⟨x, hx, hwx.trans hyw, hyw.1 ▸ removeItem_uid hw⟩

theorem breakItem_left {s : State} {cluster : Nat} {it y : Item} (h : y ∈ (s.breakItem cluster it).items) : y.status = .broken ∨ y ∈ s.items ∧ y.uid ≠ it.uid := by
  obtain ⟨x, hx, rfl⟩ := List.mem_map.mp h
  split
  · exact .inl rfl
  · exact .inr ⟨hx, ‹_›⟩

theorem survives_resetItem {s t : State} {gone : List Item} (h : Survives s gone t) (it : Item) : Survives s (gone ++ [it]) (t.resetItem it) := by
  intro y hy
  obtain ⟨w, hw, hyw, hne⟩ := resetItem_left hy
  rcases h w hw with hb | ⟨x, hx, hwx, hgone⟩
  · exact .inl (hyw.2.1.trans hb)
  · refine .inr ⟨x, hx, hwx.trans hyw, fun d hd => ?_⟩
    rcases List.mem_append.mp hd with hd | hd
    · exact hgone d hd
    · rw [List.mem_singleton.mp hd, ← (hwx.trans hyw).1]
      exact hne.symm

theorem survives_breakItem {s t : State} {gone : List Item} (h : Survives s gone t) (cluster : Nat) (it : Item) : Survives s (gone ++ [it]) (t.breakItem cluster it) := by
  intro y hy
  rcases breakItem_left hy with hb | ⟨hy, hne⟩
  · exact .inl hb
  · rcases h y hy with hb | ⟨x, hx, hyx, hgone⟩
    · exact .inl hb
    · refine .inr ⟨x, hx, hyx, fun d hd => ?_⟩
      rcases List.mem_append.mp hd with hd | hd
      · exact hgone d hd
      · rw [List.mem_singleton.mp hd, ← hyx.1]
        exact hne.symm

/-- What the reset of a cluster does to an item that it hits. -/
def hitItem (cluster : Nat) (s : State) (it : Item) : State :=
  if (it.ranks.all fun r => clusterOf r.core == cluster) || !(it.status == .resident || it.status == .broken || s.active it.uid) then s.resetItem it
  else s.breakItem cluster it

theorem survives_hit {s : State} (cluster : Nat) (hit : List Item) {t : State} {gone : List Item} (h : Survives s gone t) : Survives s (gone ++ hit) (hit.foldl (hitItem cluster) t) := by
  induction hit generalizing t gone with
  | nil => rwa [List.append_nil]
  | cons it hit ih =>
    rw [List.append_cons]
    refine ih ?_
    unfold hitItem
    split
    · exact survives_resetItem h it
    · exact survives_breakItem h cluster it

theorem hit_tlb (cluster : Nat) (hit : List Item) (t : State) : (hit.foldl (hitItem cluster) t).tlb = t.tlb := by
  induction hit generalizing t with
  | nil => rfl
  | cons it hit ih =>
    refine (ih _).trans ?_
    unfold hitItem
    split
    · exact (still_resetItem (Still.refl t)).tlb
    · rfl

theorem resetHit_eq (s : State) (cluster : Nat) (hit : List Item) :
    resetHit s cluster hit = hit.foldl (hitItem cluster) (s.zeroOrOnce fun a => clusterOf a.core == cluster && (s.it a.uid).status != .saved) := rfl

theorem survives_of_still {s t : State} (h : Still s t) : Survives s [] t := by
  intro y hy
  obtain ⟨x, hx, hyx⟩ := h.items y hy
  exact .inr ⟨x, hx, hyx, fun d hd => absurd hd List.not_mem_nil⟩

/-- An item that neither stands on a cluster nor is hit by its reset. -/
theorem offCluster {s : State} {cluster : Nat} {x y : Item} (hx : x ∈ s.items) (hxy : SameItem x y) (hs : y.status ≠ .saved)
    (hgone : ∀ d ∈ s.items.filter fun it => it.status != .saved && it.ranks.any fun r => clusterOf r.core == cluster, d.uid ≠ x.uid) : ∀ k ∈ y.ranks, clusterOf k.core ≠ cluster := by
  intro k hk hc
  have hcore : k.core ∈ x.ranks.map (·.core) := hxy.2.2 ▸ List.mem_map_of_mem hk
  obtain ⟨j, hj, hjk⟩ := List.mem_map.mp hcore
  refine hgone x (List.mem_filter.mpr ⟨hx, ?_⟩) rfl
  rw [← hxy.2.1, Bool.and_eq_true]
  exact ⟨bne_iff_ne.mpr hs, List.any_eq_true.mpr ⟨j, hj, beq_iff_eq.mpr (hjk ▸ hc)⟩⟩

-- the kill of a context (R344)

/-- The bytes at which a store begins. -/
theorem bytes_store_append {m : Memory} (hm : m.wf = true) (a : Nat) (xs ys : List Byte) : (m.store a (xs ++ ys)).bytes a xs.length = xs := by
  unfold Memory.bytes
  apply List.ext_getElem
  · simp
  · intro i h1 h2
    have hi : i < xs.length := h2
    rw [List.getElem_map, List.getElem_range, Memory.get_store _ _ _ _ hm, if_pos ⟨by omega, by rw [List.length_append]; omega⟩, Nat.add_sub_cancel_left,
      List.getD_eq_getElem _ _ (by rw [List.length_append]; omega), List.getElem_append_left hi]

theorem length_ctxBytes (d : Ctx) : d.bytes.length = 64 := by
  unfold Ctx.bytes
  simp only [List.length_append, length_leBytes, List.length_replicate]

theorem setCtx_mem (s : State) (c : Nat) (f : Ctx → Ctx) : (s.setCtx c f).mem = s.mem.store (s.ctxTable + 64 * c) (f (s.ctx c)).bytes := by
  unfold State.setCtx
  dsimp only

theorem setCtx_ctxTable (s : State) (c : Nat) (f : Ctx → Ctx) : (s.setCtx c f).ctxTable = s.ctxTable := by
  unfold State.setCtx
  dsimp only

theorem ctx_live (s : State) (c : Nat) : (s.ctx c).live = (bitN (s.ctxNum c 0 4) 0 && c != 0) := by
  unfold State.ctx
  dsimp only

/-- A descriptor that the device has written as not live. -/
theorem setCtx_dead {s : State} (hC : Canonical s) (c : Nat) {f : Ctx → Ctx} (hf : ∀ d, (f d).live = false) : ((s.setCtx c f).ctx c).live = false := by
  have hbytes : (f (s.ctx c)).bytes = leBytes 4 0 ++ (leBytes 4 (f (s.ctx c)).syswen.toNat ++ (leBytes 4 (f (s.ctx c)).rcto.toNat ++ (leBytes 4 (f (s.ctx c)).pdead.toNat
      ++ (leBytes 8 (f (s.ctx c)).part.toNat ++ (leBytes 8 (f (s.ctx c)).root ++ List.replicate 32 0))))) := by
    unfold Ctx.bytes
    rw [hf]
    simp only [List.append_assoc]
    rfl
  have hnum : (s.setCtx c f).ctxNum c 0 4 = 0 := by
    have hread := bytes_store_append hC.mem (s.ctxTable + 64 * c) (leBytes 4 0) (leBytes 4 (f (s.ctx c)).syswen.toNat ++ (leBytes 4 (f (s.ctx c)).rcto.toNat
      ++ (leBytes 4 (f (s.ctx c)).pdead.toNat ++ (leBytes 8 (f (s.ctx c)).part.toNat ++ (leBytes 8 (f (s.ctx c)).root ++ List.replicate 32 0)))))
    rw [← hbytes, length_leBytes] at hread
    unfold State.ctxNum Memory.num
    rw [setCtx_mem, setCtx_ctxTable, Nat.add_zero, hread]
    decide
  rw [ctx_live, hnum]
  rfl

theorem setCtx_other {s : State} (hC : Canonical s) (c : Nat) (f : Ctx → Ctx) {a : Nat} (ha : a < s.ctxTable + 64 * c ∨ s.ctxTable + 64 * c + 64 ≤ a) :
    (s.setCtx c f).mem.get a = s.mem.get a := by
  rw [setCtx_mem, Memory.get_store _ _ _ _ hC.mem, length_ctxBytes, if_neg (by omega)]

/-- What stands in a list without the names of those that a context holds is not the context's. -/
theorem not_of_names {α : Type} {l : List α} {name ctx : α → Nat} {c : Nat} {x : α} (h : x ∈ l.filter fun y => !((l.filter fun z => ctx z == c).map name).contains (name y)) (hx : ctx x = c) :
    False := by
  obtain ⟨hl, hn⟩ := List.mem_filter.mp h
  have hmem : name x ∈ (l.filter fun y => ctx y == c).map name := List.mem_map_of_mem (List.mem_filter.mpr ⟨hl, beq_iff_eq.mpr hx⟩)
  rw [List.contains_iff_mem.mpr hmem] at hn
  exact Bool.false_ne_true hn

/-- What a kill takes from the machine, before the context's descriptor is written. -/
def killed (s : State) (ctx : Nat) : State :=
  let uids := (s.items.filter fun it => it.ctx == ctx).map (·.uid)
  let lids := (s.launches.filter fun l => l.ctx == ctx).map (·.lid)
  let calls := (s.calls.filter fun c => c.ctx == ctx).map (·.id)
  let mine := fun (st : Strand) => (match st.kind with
    | .frame c => calls.contains c
    | _ => uids.contains st.uid)
  let sids := (s.strands.filter mine).map (·.sid)
  let lost := s.pend.filter fun a => a.ctx == ctx && a.kind == .store && a.stage == 1
  { s with
    l1 := s.l1.filter fun l => !lost.any fun a => a.core == l.core && a.loc == l.loc && a.pa / 128 == l.line
    strands := s.strands.filter fun st => !mine st
    items := s.items.filter fun it => !uids.contains it.uid
    calls := s.calls.filter fun c => !calls.contains c.id
    templates := s.templates.filter fun t => !lids.contains t.launch
    launches := s.launches.filter fun l => !lids.contains l.lid
    queues := s.queues.map fun q => match q.head with
      | .selected l => if lids.contains l then q.pop else q
      | _ => q
    pend := s.pend.filter fun a => a.ctx != ctx
    lats := s.lats.filter fun l => !sids.contains l.sid
    tileOps := s.tileOps.filter fun o => o.ctx != ctx || decide (o.busy > 0)
    copies := s.copies.filter fun c => c.ctx != ctx || decide (c.busy > 0)
    mcasts := s.mcasts.filter fun m => !uids.contains m.uid
    grinders := s.grinders.map fun g => { g with queue := g.queue.filter fun b => b.ctx != ctx }
    nvqs := s.nvqs.map fun q => if q.ctx = ctx then { q with live := false } else q }

theorem contextKill_eq (s : State) (c : Nat) : exec (.contextKill c) s = .next ((killed s c).setCtx c fun d => { d with live := false }) := rfl

theorem canonical_killed {s : State} (hC : Canonical s) (c : Nat) : Canonical (killed s c) := ⟨hC.mem, hC.tags, hC.host, hC.peer⟩

theorem setCtx_items (s : State) (c : Nat) (f : Ctx → Ctx) : (s.setCtx c f).items = s.items := by
  unfold State.setCtx
  dsimp only

theorem setCtx_pend (s : State) (c : Nat) (f : Ctx → Ctx) : (s.setCtx c f).pend = s.pend := by
  unfold State.setCtx
  dsimp only

theorem setCtx_launches (s : State) (c : Nat) (f : Ctx → Ctx) : (s.setCtx c f).launches = s.launches := by
  unfold State.setCtx
  dsimp only

theorem killed_items {s : State} {c : Nat} {it : Item} (h : it ∈ (killed s c).items) : it.ctx ≠ c := fun hc => not_of_names h hc

theorem killed_launches {s : State} {c : Nat} {l : Launch} (h : l ∈ (killed s c).launches) : l.ctx ≠ c := fun hc => not_of_names h hc

theorem killed_pend {s : State} {c : Nat} {a : Acc} (h : a ∈ (killed s c).pend) : a.ctx ≠ c := bne_iff_ne.mp (List.mem_filter.mp h).2

/-- Settles O46, from what each containment leaves. -/
theorem containment : Obligations.Containment := by
  unfold Obligations.Containment
  refine ⟨fun s c hC => ⟨_, contextKill_eq s c, fun it hit => killed_items (setCtx_items _ _ _ ▸ hit), fun a ha => killed_pend (setCtx_pend _ _ _ ▸ ha),
      fun l hl => killed_launches (setCtx_launches _ _ _ ▸ hl), setCtx_dead (canonical_killed hC c) c fun _ => rfl, fun a ha => setCtx_other (canonical_killed hC c) c _ ha⟩,
    fun s k hk hlen => ⟨_, clusterReset_eq hk, ?_, fun e he => ?_, fun y hy hs => ?_, fun hnone l hl => ?_⟩, fun s k => ⟨_, rfl, ?_⟩, fun s p => ⟨_, rfl, ?_, fun e he hp => ?_⟩,
    fun s port p hport hp => ⟨_, congrArg Host.Outcome.next (if_neg (by omega)), rfl⟩, fun s port p hl => ?_, fun s a hf hloc hdue => congrArg Host.Outcome.next ?_,
    fun s pa hpa => ⟨_, rfl, ?_⟩, fun s site => ⟨_, rfl, rfl, rfl, rfl, ?_⟩⟩
  · rw [(kept_resetHit (Kept.refl (downCluster s k))).clusters]
    exact congrArg Cluster.down (getD_modify s.clusters k _ {} hlen)
  · rw [resetHit_eq, hit_tlb, (still_zeroOrOnce (Still.refl (downCluster s k))).tlb] at he
    exact bne_iff_ne.mp (List.mem_filter.mp he).2
  · rw [resetHit_eq] at hy
    rcases survives_hit k _ (survives_of_still (still_zeroOrOnce (Still.refl (downCluster s k)))) y hy with hb | ⟨x, hx, hxy, hgone⟩
    · exact .inl hb
    · exact .inr (offCluster hx hxy hs hgone)
  · rw [resetHit_eq, hnone] at hl
    obtain ⟨j, hj, hlj⟩ := (still_zeroOrOnce (Still.refl (downCluster s k))).l1 l hl
    have hoff := (List.mem_filter.mp hj).2
    rw [hlj]
    simpa using hoff
  · refine (congrArg Cluster.down (modify_getD s.clusters k k _ {} rfl)).trans ?_
    rw [if_pos rfl]
  · rw [kept_losePeer.peersDown]
    exact List.mem_cons_self
  · have hkept := (List.mem_filter.mp he).2
    simp [hp] at hkept
  · dsimp only
    refine congrArg Host.Outcome.next ?_
    unfold State.dropLink
    rw [hl]
  · unfold State.onAcc
    rw [hf]
    exact if_pos ⟨hloc, hdue⟩
  · show pa / 64 ∈ (s.poisonSite (.mem pa)).poison ∧ (s.poisonSite (.mem pa)).mem = s.mem
    by_cases hin : s.poison.contains (pa / 64)
    · have heq : s.poisonSite (.mem pa) = s := if_neg (by rw [hin]; simp)
      rw [heq]
      exact ⟨List.contains_iff_mem.mp hin, rfl⟩
    · have heq : s.poisonSite (.mem pa) = { s with poison := pa / 64 :: s.poison } := if_pos ⟨hpa, by simpa using hin⟩
      rw [heq]
      exact ⟨List.mem_cons_self, rfl⟩
  · exact List.find?_cons_of_pos (beq_self_eq_true _)

end Sys2Proof.Proofs
end
